-- ==== Sys2Proof/Word.lean ====
section
/-! DEFINITION. Words, bytes and the names of registers and units (R2, R12, R54, R1). -/
namespace Sys2Proof

/-- A 64-bit word: a scalar register, a control register, an instruction word. -/
abbrev Word := BitVec 64
/-- A byte of memory. -/
abbrev Byte := BitVec 8
/-- The number of a scalar register s0 to s63 (R54). -/
abbrev SReg := BitVec 6
/-- The number of a vector register v0 to v63 (R153). -/
abbrev VReg := BitVec 6
/-- The number of a predicate p0 to p15 (R54). -/
abbrev PReg := BitVec 4
/-- The number of an element mask k0 to k15 (R54). -/
abbrev KReg := BitVec 4
/-- The number of a strand tile x0 to x15 (R218). -/
abbrev TileNo := BitVec 4
/-- The number of a completion counter c0 to c15 (R56). -/
abbrev CtrNo := BitVec 4
/-- One of the 128 cores of the package: die, cluster, core (R1). -/
abbrev CoreId := Fin 128
/-- One of a core's eight strand slots (R1, R150). -/
abbrev SlotId := Fin 8
/-- One of the package's four dies (R1). -/
abbrev DieId := Fin 4
/-- One of the two Hall dies (R1, R311). -/
abbrev HallId := Fin 2

/-- A strand slot of the package. -/
structure StrandId where
  core : CoreId
  slot : SlotId
  deriving DecidableEq, Repr

end Sys2Proof
end

