-- ==== Sys2Proof/Syntax.lean ====
section
/-! DEFINITION. The syntax of the KW49: one constructor of `Instr` for each row of the opcode table. The first part holds the
instructions of a strand (frame 00 and frame 01 units and the unit that is no legal one); the second part holds the steps
that the other agents of the machine take (R293). -/
namespace Sys2Proof

/-- The widths of R97: 64, 32, 16 and 8 bits. -/
inductive Width where | w64 | w32 | w16 | w8
  deriving DecidableEq, Repr

/-- The scheduling codes of R16. -/
inductive Sched where | none | yield | barrier | csync | first | last
  deriving DecidableEq, Repr

/-- The orders of an ORD prefix (R19). -/
inductive Order where | relaxed | acquire | release | acqRel
  deriving DecidableEq, Repr

/-- The scopes of an ORD prefix or a fence (R19, R301). -/
inductive Scope where | core | cluster | die | package | system
  deriving DecidableEq, Repr

/-- The payload of an ORD prefix (R19). -/
structure OrdPayload where
  strong : Bool
  order : Order
  scope : Scope
  deriving DecidableEq, Repr

/-- The page classes a CLASS prefix names (R19). -/
inductive LineClass where | general | weights | activations | kvCache
  deriving DecidableEq, Repr

/-- The cache hints of R15. -/
inductive Hint where | default | streaming | keep | quota
  deriving DecidableEq, Repr

/-- The prefixes of a unit (R19, R20): at most one of each kind. -/
structure Pfx where
  imm : Option (BitVec 40)
  ord : Option OrdPayload
  cls : Option LineClass
  deriving DecidableEq, Repr

/-- What every frame 00 instruction carries: its guard (R13), its scheduling code (R16) and the prefixes of its unit. -/
structure Hdr where
  guard : PReg
  gneg : Bool
  sched : Sched
  pfx : Pfx
  deriving DecidableEq, Repr

/-- A source that is a scalar register or a 24-bit immediate field (R18). -/
inductive Src where
  | reg (c : SReg)
  | imm (i : BitVec 24)
  deriving DecidableEq, Repr

/-- The second part of a scalar address: an immediate offset, or an index register scaled by 1, 2, 4 or 8 (R116). -/
inductive AddrSrc where
  | off (i : BitVec 24)
  | idx (i : SReg) (log2n : BitVec 2)
  deriving DecidableEq, Repr

/-- The operand y of a vector instruction: a vector register or a broadcast scalar register (R155). -/
inductive VSrc where
  | vec (c : VReg)
  | scl (c : SReg)
  deriving DecidableEq, Repr

/-- The integer conditions of R99. -/
inductive Cond where | eq | ne | lt | ge | ltu | geu | tst
  deriving DecidableEq, Repr

/-- The logical operations of R105. -/
inductive LogOp where | and | or | xor | andn | nand | nor | xnor | orn
  deriving DecidableEq, Repr

/-- The four formats of the scalar FP group (R109). -/
inductive SFmt where | f64 | f32 | f16 | bf16
  deriving DecidableEq, Repr

/-- The six formats of the vector FP group (R165). -/
inductive FFmt where | f64 | f32 | f16 | bf16 | e5m2 | e4m3
  deriving DecidableEq, Repr

/-- The rounding selections of R109. -/
inductive Rnd where | dyn | rne | rtz | rdn | rup | rmm | rto
  deriving DecidableEq, Repr

/-- The four sign variants of FFMA (R111). -/
inductive FmaForm where | plain | ms | nm | nms
  deriving DecidableEq, Repr

/-- The FCMP conditions of R112. -/
inductive FCond where | eq | lt | le | un | ne | qlt | qle
  deriving DecidableEq, Repr

/-- The format codes of FCVT (R113). -/
inductive CvtFmt where | f64 | f32 | f16 | bf16 | e5m2 | e4m3 | s64 | u64 | s32 | u32
  deriving DecidableEq, Repr

/-- The operand of EXT: a register that holds the descriptor, or the position and the length less one (R104). -/
inductive FieldSrc where
  | reg (c : SReg)
  | imm (pos lenM1 : BitVec 6)
  deriving DecidableEq, Repr

/-- The three operations of EXT (R104). -/
inductive ExtOp where | u | s | dep
  deriving DecidableEq, Repr

/-- The four forms of PMOV (R106). -/
inductive PmovForm where
  | toPred (d : PReg) (b : SReg)
  | fromPred (d : SReg) (b : PReg)
  | save (d : SReg)
  | load (b : SReg)
  deriving DecidableEq, Repr

/-- The operations of AMO (R122). -/
inductive AmoOp where | swap | add | and | or | xor | min | max | minu | maxu
  deriving DecidableEq, Repr

/-- The levels of PREF (R116). -/
inductive PrefLevel where | l1 | l2 | w
  deriving DecidableEq, Repr

/-- A source that is a scalar register or an immediate of a given width (R157, R243, R256). -/
inductive RegOrImm (n : Nat) where
  | reg (b : SReg)
  | imm (i : BitVec n)
  deriving DecidableEq, Repr

/-- The code types of VQPACK (R171). -/
inductive QType where | int | e2m1 | pow2 | hyb
  deriving DecidableEq, Repr

/-- The floating formats of VQPACK and VQUNPACK (R171). -/
inductive QFmt where | f32 | f16 | bf16
  deriving DecidableEq, Repr

/-- The source formats of VSCACC (R171). -/
inductive ScaccSrc where | e5m2 | e4m3 | q4
  deriving DecidableEq, Repr

/-- The integer reductions of R206. -/
inductive IntRed where | add | and | or | xor | min | max | minu | maxu
  deriving DecidableEq, Repr

/-- The operation of VRED and VSCAN (R206). -/
inductive RedOp where
  | int (op : IntRed)
  | fadd (f : FFmt) (r : Rnd)
  | fmin (f : FFmt)
  | fmax (f : FFmt)
  deriving DecidableEq, Repr

/-- The widths of a vector index (R197). -/
inductive IdxW where | w64 | w32 | w16
  deriving DecidableEq, Repr

/-- The ring-set formats of R184. -/
inductive RsFmt where | rs8 | rs16c | rs32c
  deriving DecidableEq, Repr

/-- The RSTEST conditions of R192. -/
inductive RsCond where | empty | whole | zero | inf | exact | sub | meet
  deriving DecidableEq, Repr

/-- The input formats of MOPA and MOPAG but for the block codes (R219). -/
inductive MFmt where | f64 | f32 | f16 | bf16 | e5m2 | e4m3 | s8 | u8
  deriving DecidableEq, Repr

/-- The operand form of MOPA: a plain format, or block codes with two scale registers (R218). -/
inductive MopaForm where
  | plain (f : MFmt)
  | q4 (vsa vsb : VReg)
  deriving DecidableEq, Repr

/-- MZERO names one tile or all (R218). -/
inductive ZeroSel where
  | one (t : TileNo)
  | all
  deriving DecidableEq, Repr

/-- The destination formats of MDRAIN (R218). -/
inductive DrainFmt where | f64 | f32 | f16 | bf16 | e5m2 | e4m3 | s64 | s32
  deriving DecidableEq, Repr

/-- The cell kinds of MDRAIN (R218). -/
inductive DrainKind where | xa64 | xa128 | int
  deriving DecidableEq, Repr

/-- The orders of FENCE (R301). -/
inductive FenceOrd where | acq | rel | ar
  deriving DecidableEq, Repr

/-- The targets of FENCER (R301). -/
inductive FencerTgt where
  | sids (b : SReg)
  | win (b : SReg)
  | all
  deriving DecidableEq, Repr

/-- The formats of IPOP and COLL (R287, R372). -/
inductive IpFmt where | f64 | f32 | s64 | s32
  deriving DecidableEq, Repr

/-- The operations of COLL (R372). -/
inductive CollOp where | add | min | max
  deriving DecidableEq, Repr

/-- The pair codes 0 to 23 (R27). -/
inductive PairOp where
  | add | sub | and | or | xor | andn | shl | shr | shrA | rot | min | max | minU | maxU
  | cmpEq | cmpLt | cmpLtu | sel | li | mul | clz | ffs | popc | plogAnd
  deriving DecidableEq, Repr

/-- One slot of a frame 01 word (R25). -/
structure PairSlot where
  op : PairOp
  guard : PReg
  dest : BitVec 6
  src1 : BitVec 6
  src2 : BitVec 6
  imf : Bool
  sched : Sched
  deriving DecidableEq, Repr

/-- The three decode causes of R29. -/
inductive BadCause where | illegal | mismatch | bank
  deriving DecidableEq, Repr

/-- A word or sequence that is no legal unit: its cause, how many words past the unit's first word `epc` lies, and `eval` (R29). -/
structure BadUnit where
  cause : BadCause
  off : BitVec 2
  val : Word
  deriving DecidableEq, Repr

/-- A holder of a line in the Roll (R312): a die, the host, a peer package, or a Hall die with its copy of a tail line (R336). -/
inductive Holder where
  | die (d : DieId)
  | host
  | peer (p : BitVec 6)
  | hall (h : HallId)
  deriving DecidableEq, Repr

/-- Bytes that the host or another package writes in a line: those whose bit of `mask` is set. -/
structure LineWrite where
  mask : BitVec 128
  data : BitVec 1024
  deriving DecidableEq, Repr

/-- A line of host memory that the host takes, with the bytes it writes there, if any (R363, R377). -/
structure HostTake where
  line : Nat
  w : Option LineWrite
  deriving DecidableEq, Repr

/-- What a lane group does in a step: its share of a beat, or the read of the one element named (R144, R203, R293). -/
structure LaneBeat where
  lane : Fin 8
  one : Option Nat
  deriving DecidableEq, Repr

/-- What MATRIX_COMPLETE names: a core, and for a read of one doubleword of its MLDT's rows the doubleword's number (R227, R293). -/
structure MatrixTurn where
  core : CoreId
  one : Option Nat
  deriving DecidableEq, Repr

/-- What a strand's vector side commits in a step: its oldest beat, or the one held store named, by its place among them (R144, R202, R293). -/
structure CommitTurn where
  id : StrandId
  one : Option Nat
  deriving DecidableEq, Repr

/-- The read that a strand takes ahead of issue (R294): that of the unit at an address, which comes there for the n-th time from now, and for an
IPOP sum the sector of the range of that address and count. `brings` says that a load's read takes its effects with its value. -/
structure ReadTurn where
  pc : Word
  nth : Nat
  part : Nat
  base : Word
  count : Nat
  brings : Bool
  deriving DecidableEq, Repr

/-- How a host request through CXL.mem uses its line (R364): a read, a read that leaves a copy at the host, or a write of bytes. -/
inductive CxlKind where
  | read
  | readKeep
  | write (w : LineWrite)
  deriving DecidableEq, Repr

/-- How a non-posted host request ends (R326). -/
inductive PcieStatus where | success | unsupported | abort | poisoned
  deriving DecidableEq, Repr

/-- The queues of a strand's work (R60, R61). -/
inductive QueueKind where | vq | xq | sq
  deriving DecidableEq, Repr

/-- A place that holds check bits (R70, R151, R276), as a soft error strikes it and a scrub or a consumer finds it: word w of a mask, of a vector
register, of its image in the history buffer or of the image that an entry of VQ keeps of it, cell n of a tile, a word of the arrays, of a die's copy of a line or of a line store, and an
entry of a queue. -/
inductive ErrSite where
  | sreg (s : StrandId) (r : SReg)
  | preg (s : StrandId) (r : PReg)
  | kreg (s : StrandId) (r : KReg) (w : Nat)
  | vreg (s : StrandId) (r : VReg) (w : Nat)
  | ctl (s : StrandId) (n : BitVec 12)
  | cell (c : CoreId) (t : Fin 16) (n : Nat)
  | ring (c : CoreId) (q : Fin 4)
  | bell (c : CoreId) (n : BitVec 8)
  | timetable (c : CoreId) (n : Fin 24)
  | localWord (c : CoreId) (w : Nat)
  | l1Line (c : CoreId) (line : Nat)
  | word (pa : Nat)
  | copyWord (d : DieId) (pa : Nat)
  | storeWord (pa : Nat)
  | queue (s : StrandId) (q : QueueKind) (seq : Nat)
  | history (s : StrandId) (r : VReg) (w : Nat)
  | image (s : StrandId) (seq : Nat) (r : VReg) (w : Nat)
  | tag (d : DieId)
  | tlb (d : DieId)
  | region (r : Nat)
  | rollTag (h : HallId)
  | bus (stack bus : Nat)
  deriving DecidableEq, Repr

/-- How badly a word fails its code: one bit, two, or (of a tag) three (R151, R276). -/
inductive ErrKind where | single | double | triple
  deriving DecidableEq, Repr

/-- The part of the package that the almanac marks absent (R361). -/
inductive AbsentUnit where
  | laneGroup (c : CoreId) (g : Fin 8)
  | core (c : CoreId)
  | hall (h : HallId)
  | stack (s : Fin 8)
  | busNoSpare (d : DieId) (b : Fin 64)
  | peerPort (h : HallId) (k : Fin 18)
  deriving DecidableEq, Repr

/-- A contribution to a collective landing from another package (R374): the first byte of its elements of Y and Y's page bases, its elements,
and for a deterministic one its rank, the count of contributions and the tag. A fast one may come in parts. -/
structure PeerColl where
  op : CollOp
  fmt : IpFmt
  off : Nat
  pages : List Nat
  xs : List Nat
  det : Option (Nat × Nat × BitVec 32)
  deriving DecidableEq, Repr

/-- What the home of a line tells a package that asked for it (R370, R377): the line, with ownership or without and with dirty bytes or without,
`pend` while invalidations of that grant are on their way; or that all of them have been applied. -/
inductive HomeAnswer where
  | grant (own dirty pend : Bool) (data : BitVec 1024)
  | applied
  deriving DecidableEq, Repr

/-- A packet between packages, as far as a Hall die acts on it (R367, R368): a request, an answer or an invalidation for a line, with its
source and destination Hall dies; `excl` says that it takes the line away from its other holders, `w` are the bytes that the sender
writes in the line, `ans` is the answer of the line's home to a request of this package, and `coll` is a contribution that it sends to a
die. -/
structure PeerPacket where
  src : BitVec 6
  srcHall : HallId
  dst : BitVec 6
  dstHall : HallId
  seq : BitVec 32
  hops : Nat
  line : Nat
  excl : Bool
  w : Option LineWrite
  ans : Option HomeAnswer
  coll : Option PeerColl
  deriving DecidableEq, Repr

/-- One constructor per row of the opcode table. -/
inductive Instr where
  -- Scalar integer and address (R97 to R104)
  | add (h : Hdr) (v : Bool) (w : Width) (d x : SReg) (y : Src)
  | sub (h : Hdr) (v : Bool) (w : Width) (d x : SReg) (y : Src)
  | mul (h : Hdr) (v : Bool) (w : Width) (d x : SReg) (y : Src)
  | mulh (h : Hdr) (v : Bool) (w : Width) (d x : SReg) (y : Src)
  | div (h : Hdr) (v : Bool) (w : Width) (d x : SReg) (y : Src)
  | rem (h : Hdr) (v : Bool) (w : Width) (d x : SReg) (y : Src)
  | and (h : Hdr) (w : Width) (d x : SReg) (y : Src)
  | or (h : Hdr) (w : Width) (d x : SReg) (y : Src)
  | xor (h : Hdr) (w : Width) (d x : SReg) (y : Src)
  | andn (h : Hdr) (w : Width) (d x : SReg) (y : Src)
  | shl (h : Hdr) (w : Width) (d x : SReg) (y : Src)
  | shr (h : Hdr) (v : Bool) (w : Width) (d x : SReg) (y : Src)
  | rot (h : Hdr) (v : Bool) (w : Width) (d x : SReg) (y : Src)
  | min (h : Hdr) (v : Bool) (w : Width) (d x : SReg) (y : Src)
  | max (h : Hdr) (v : Bool) (w : Width) (d x : SReg) (y : Src)
  | cmp (h : Hdr) (c : Cond) (d : PReg) (x : SReg) (y : Src)
  | sel (h : Hdr) (d : SReg) (g : PReg) (x y : SReg)
  | clz (h : Hdr) (w : Width) (d x : SReg)
  | ffs (h : Hdr) (w : Width) (d x : SReg)
  | popc (h : Hdr) (w : Width) (d x : SReg)
  | li (h : Hdr) (d : SReg) (i : BitVec 24)
  | lea (h : Hdr) (va : Bool) (d b : SReg) (y : AddrSrc)
  | ext (h : Hdr) (op : ExtOp) (d b : SReg) (y : FieldSrc)
  -- Predicates and control (R105 to R108)
  | plog (h : Hdr) (op : LogOp) (d a b : PReg)
  | pmov (h : Hdr) (f : PmovForm)
  | br (h : Hdr) (i : BitVec 24)
  | jal (h : Hdr) (d : SReg) (i : BitVec 24)
  | jalr (h : Hdr) (d b : SReg) (i : BitVec 24)
  | loop (h : Hdr) (b : SReg) (start len : BitVec 12)
  -- Scalar memory (R116 to R124)
  | ld (h : Hdr) (hint : Hint) (s : Bool) (w : Width) (d b : SReg) (y : AddrSrc)
  | st (h : Hdr) (hint : Hint) (w : Width) (v b : SReg) (y : AddrSrc)
  | amo (h : Hdr) (hint : Hint) (op : AmoOp) (w : Width) (d b y : SReg)
  | cas (h : Hdr) (hint : Hint) (w : Width) (d b x n : SReg)
  | cas128 (h : Hdr) (hint : Hint) (d b x n : SReg)
  | pref (h : Hdr) (hint : Hint) (lv : PrefLevel) (b : SReg) (y : AddrSrc)
  -- Scalar FP (R109 to R114)
  | fadd (h : Hdr) (f : SFmt) (r : Rnd) (d x y : SReg)
  | fsub (h : Hdr) (f : SFmt) (r : Rnd) (d x y : SReg)
  | fmul (h : Hdr) (f : SFmt) (r : Rnd) (d x y : SReg)
  | ffma (h : Hdr) (form : FmaForm) (f : SFmt) (r : Rnd) (d x y z : SReg)
  | fdiv (h : Hdr) (f : SFmt) (r : Rnd) (d x y : SReg)
  | fsqrt (h : Hdr) (f : SFmt) (r : Rnd) (d x : SReg)
  | fmin (h : Hdr) (f : SFmt) (d x y : SReg)
  | fmax (h : Hdr) (f : SFmt) (d x y : SReg)
  | fcmp (h : Hdr) (c : FCond) (f : SFmt) (d : PReg) (x y : SReg)
  | fcvt (h : Hdr) (dst src : CvtFmt) (r : Rnd) (d x : SReg)
  | fclass (h : Hdr) (f : SFmt) (d x : SReg)
  -- System (R126 to R134)
  | trap (h : Hdr) (code : BitVec 16)
  | eret (h : Hdr)
  | eretV (h : Hdr)
  | ctlr (h : Hdr) (d : SReg) (n : BitVec 12)
  | ctlw (h : Hdr) (n : BitVec 12) (b : SReg)
  | halt (h : Hdr)
  | yield (h : Hdr)
  | nopre (h : Hdr)
  | preok (h : Hdr)
  | launch (h : Hdr) (d b l : SReg)
  | movq (h : Hdr) (d : SReg)
  | pair (s0 s1 : PairSlot)
  | illegalUnit (e : BadUnit)
  -- Vector configuration (R156 to R162)
  | vclaim (h : Hdr) (d : SReg) (n : RegOrImm 4)
  | vsetvl (h : Hdr) (claim : Bool) (d : SReg) (n : RegOrImm 24)
  | vconfig (h : Hdr) (nv : BitVec 2)
  | vtype (h : Hdr) (v : RegOrImm 10)
  | mmode (h : Hdr) (d b : SReg) (t : BitVec 5)
  | mmodeOff (h : Hdr)
  -- Vector integer (R163, R164)
  | vadd (h : Hdr) (k : KReg) (v : Bool) (d x : VReg) (y : VSrc)
  | vsub (h : Hdr) (k : KReg) (v : Bool) (d x : VReg) (y : VSrc)
  | vmul (h : Hdr) (k : KReg) (v : Bool) (d x : VReg) (y : VSrc)
  | vmulh (h : Hdr) (k : KReg) (v : Bool) (d x : VReg) (y : VSrc)
  | vand (h : Hdr) (k : KReg) (d x : VReg) (y : VSrc)
  | vor (h : Hdr) (k : KReg) (d x : VReg) (y : VSrc)
  | vxor (h : Hdr) (k : KReg) (d x : VReg) (y : VSrc)
  | vshl (h : Hdr) (k : KReg) (d x : VReg) (y : VSrc)
  | vshr (h : Hdr) (k : KReg) (v : Bool) (d x : VReg) (y : VSrc)
  | vmin (h : Hdr) (k : KReg) (v : Bool) (d x : VReg) (y : VSrc)
  | vmax (h : Hdr) (k : KReg) (v : Bool) (d x : VReg) (y : VSrc)
  | vcmp (h : Hdr) (k : KReg) (c : Cond) (d : KReg) (x : VReg) (y : VSrc)
  | vsel (h : Hdr) (m : KReg) (d x : VReg) (y : VSrc)
  | vclz (h : Hdr) (k : KReg) (d x : VReg)
  | vffs (h : Hdr) (k : KReg) (d x : VReg)
  | vpopc (h : Hdr) (k : KReg) (d x : VReg)
  -- Vector FP (R165 to R169)
  | vfadd (h : Hdr) (k : KReg) (f : FFmt) (r : Rnd) (d x : VReg) (y : VSrc)
  | vfsub (h : Hdr) (k : KReg) (f : FFmt) (r : Rnd) (d x : VReg) (y : VSrc)
  | vfmul (h : Hdr) (k : KReg) (f : FFmt) (r : Rnd) (d x : VReg) (y : VSrc)
  | vffma (h : Hdr) (k : KReg) (form : FmaForm) (f : FFmt) (r : Rnd) (d x : VReg) (y : VSrc) (z : VReg)
  | vfdiv (h : Hdr) (k : KReg) (f : SFmt) (r : Rnd) (d x : VReg) (y : VSrc)
  | vfsqrt (h : Hdr) (k : KReg) (f : SFmt) (r : Rnd) (d x : VReg)
  | vfmin (h : Hdr) (k : KReg) (f : FFmt) (d x : VReg) (y : VSrc)
  | vfmax (h : Hdr) (k : KReg) (f : FFmt) (d x : VReg) (y : VSrc)
  | vfcmp (h : Hdr) (k : KReg) (c : FCond) (f : FFmt) (d : KReg) (x : VReg) (y : VSrc)
  | vfcvt (h : Hdr) (k : KReg) (dst src : CvtFmt) (r : Rnd) (d x : VReg)
  | vfexp2 (h : Hdr) (k : KReg) (f : SFmt) (d x : VReg)
  | vflog2 (h : Hdr) (k : KReg) (f : SFmt) (d x : VReg)
  | vfrcp (h : Hdr) (k : KReg) (f : SFmt) (d x : VReg)
  | vfrsq (h : Hdr) (k : KReg) (f : SFmt) (d x : VReg)
  -- Narrow formats and masks (R171 to R175)
  | vqpack (h : Hdr) (k : KReg) (t : QType) (f : QFmt) (r : Rnd) (d s a : VReg)
  | vqunpack (h : Hdr) (k : KReg) (f : QFmt) (r : Rnd) (d a s : VReg)
  | vscacc (h : Hdr) (k : KReg) (src : ScaccSrc) (r : Rnd) (d a s : VReg)
  | klog (h : Hdr) (op : LogOp) (d a b : KReg)
  -- Cross-lane (R206 to R213)
  | vred (h : Hdr) (k : KReg) (grp : Bool) (op : RedOp) (d a : VReg)
  | vscan (h : Hdr) (k : KReg) (ex : Bool) (op : RedOp) (d a : VReg)
  | vcomp (h : Hdr) (k : KReg) (cnt : Bool) (d a : VReg)
  | vexp (h : Hdr) (k : KReg) (d a : VReg)
  | vperm (h : Hdr) (k : KReg) (iw : IdxW) (d a i : VReg)
  | vslide (h : Hdr) (k : KReg) (down : Bool) (d a : VReg) (n : Src)
  | vbcast (h : Hdr) (k : KReg) (d a : VReg) (n : Src)
  | vtos (h : Hdr) (a : VReg) (n : Src)
  -- Vector memory (R197 to R205)
  | vld (h : Hdr) (hint : Hint) (k : KReg) (d : VReg) (b : SReg) (off : Src)
  | vlds (h : Hdr) (hint : Hint) (k : KReg) (d : VReg) (b : SReg) (stride : Src)
  | vldx (h : Hdr) (hint : Hint) (k : KReg) (s : Bool) (iw : IdxW) (n : BitVec 2) (d : VReg) (b : SReg) (i : VReg)
  | vst (h : Hdr) (hint : Hint) (k : KReg) (v : VReg) (b : SReg) (off : Src)
  | vsts (h : Hdr) (hint : Hint) (k : KReg) (v : VReg) (b : SReg) (stride : Src)
  | vstx (h : Hdr) (hint : Hint) (k : KReg) (s : Bool) (iw : IdxW) (n : BitVec 2) (v : VReg) (b : SReg) (i : VReg)
  | vappend (h : Hdr) (hint : Hint) (k : KReg) (v : VReg) (b : SReg)
  -- Ring sets (R181 to R195)
  | rsload (h : Hdr) (hint : Hint) (q : BitVec 2) (b : SReg)
  | rsadd (h : Hdr) (k : KReg) (t : RsFmt) (q : BitVec 2) (d a b : VReg)
  | rssub (h : Hdr) (k : KReg) (t : RsFmt) (q : BitVec 2) (d a b : VReg)
  | rsmul (h : Hdr) (k : KReg) (t : RsFmt) (q : BitVec 2) (d a b : VReg)
  | rsdiv (h : Hdr) (k : KReg) (t : RsFmt) (q : BitVec 2) (d a b : VReg)
  | rsrcp (h : Hdr) (k : KReg) (t : RsFmt) (q : BitVec 2) (d a : VReg)
  | rssqr (h : Hdr) (k : KReg) (t : RsFmt) (q : BitVec 2) (d a : VReg)
  | rssqrt (h : Hdr) (k : KReg) (t : RsFmt) (q : BitVec 2) (d a : VReg)
  | rsunion (h : Hdr) (k : KReg) (t : RsFmt) (q : BitVec 2) (d a b : VReg)
  | rsisect (h : Hdr) (k : KReg) (t : RsFmt) (q : BitVec 2) (d a b : VReg)
  | rsfrom (h : Hdr) (k : KReg) (t : RsFmt) (f : SFmt) (q : BitVec 2) (d a b : VReg)
  | rsbnd (h : Hdr) (k : KReg) (hi : Bool) (t : RsFmt) (f : SFmt) (q : BitVec 2) (d a : VReg)
  | rstest (h : Hdr) (k : KReg) (c : RsCond) (t : RsFmt) (q : BitVec 2) (d : KReg) (a b : VReg)
  -- Matrix and slate (R218 to R229)
  | mopa (h : Hdr) (form : MopaForm) (t : TileNo) (a b : VReg)
  | mopag (h : Hdr) (f : MFmt) (t : TileNo) (a b n : VReg)
  | mzero (h : Hdr) (z : ZeroSel)
  | mrd (h : Hdr) (col : Bool) (d : VReg) (t : TileNo) (c : SReg)
  | mwr (h : Hdr) (col : Bool) (t : TileNo) (a : VReg) (c : SReg)
  | mdrain (h : Hdr) (f : DrainFmt) (kind : DrainKind) (col : Bool) (d : VReg) (t : TileNo) (c : SReg)
  | mldt (h : Hdr) (hint : Hint) (t : TileNo) (b c : SReg)
  | mstt (h : Hdr) (hint : Hint) (t : TileNo) (b c : SReg)
  -- Copies (R243 to R254)
  | cpset (h : Hdr) (n : BitVec 3) (y : Src)
  | cpgo (h : Hdr) (hint : Hint) (d : SReg)
  | cpgang (h : Hdr) (g : BitVec 4) (b : SReg)
  | cpgangOff (h : Hdr) (g : BitVec 4)
  -- Synchronisation (R243, R256, R301)
  | bellInit (h : Hdr) (n : BitVec 8) (e : RegOrImm 16)
  | bellArrive (h : Hdr) (d : SReg) (n : BitVec 8)
  | bellWait (h : Hdr) (n : BitVec 8) (t : RegOrImm 1)
  | bellSync (h : Hdr) (n : BitVec 8)
  | bellRemote (h : Hdr) (d : SReg) (n : BitVec 8) (w : RegOrImm 3)
  | waitlt (h : Hdr) (c : CtrNo) (n : RegOrImm 17)
  | fence (h : Hdr) (o : FenceOrd) (s : Scope)
  | fenceo (h : Hdr)
  | fencer (h : Hdr) (s : Scope) (t : FencerTgt)
  -- Settle and collectives (R282 to R288, R372)
  | settle (h : Hdr) (b c : SReg) (n : CtrNo)
  | renew (h : Hdr) (b c : SReg)
  | scount (h : Hdr) (clr : Bool) (d b : SReg)
  | ipopSum (h : Hdr) (f : IpFmt) (x y c : SReg) (n : CtrNo)
  | ipopScale (h : Hdr) (f : IpFmt) (x c a : SReg) (n : CtrNo)
  | ipopAxpy (h : Hdr) (f : IpFmt) (x y c a : SReg) (n : CtrNo)
  | ipopFill (h : Hdr) (f : IpFmt) (x c a : SReg) (n : CtrNo)
  | coll (h : Hdr) (op : CollOp) (f : IpFmt) (x y c : SReg) (det : Option SReg) (n : CtrNo)
  -- Steps of a strand's queues and waits (R61, R137, R142, R149, R251, R257)
  | sqWaitEnd (s : StrandId)
  | vclaimGrant (s : StrandId)
  | tileGrant (s : StrandId)
  | bellWaitRelease (s : StrandId)
  | remoteArrival (s : StrandId)
  | waitltRelease (s : StrandId)
  -- Steps of the vector side and the matrix array (R62, R144, R145, R182, R215)
  | vectorBeat (s : StrandId) (g : LaneBeat)
  | beatCommit (s : CommitTurn)
  | vectorTrap (s : StrandId)
  | xqPost (s : StrandId)
  | matrixComplete (c : MatrixTurn)
  | rsloadCommit (s : StrandId)
  -- Steps of transfers (R246, R247, R252, R254, R284, R288, R374)
  | gangConsume (s : StrandId)
  | transferChunk (c : CoreId) (id : BitVec 32) (j : Nat)
  | transferComplete (c : CoreId) (id : BitVec 32)
  | copyFault (s : StrandId)
  | settleLineStep (c : CoreId) (id : BitVec 32) (line : Nat)
  | ipopSector (c : CoreId) (id : BitVec 32) (sector : Nat)
  | ipopComplete (c : CoreId) (id : BitVec 32)
  | collLanding (c : CoreId) (id : BitVec 32)
  -- Steps of scalar memory (R294, R295, R298)
  | readAhead (s : StrandId) (x : ReadTurn)
  | egressStep (s : StrandId) (k : Nat)
  | performStep (c : CoreId) (line : Nat)
  | fillRequest (s : StrandId)
  | fillInstall (c : CoreId) (line : Nat)
  -- Steps of the Roll (R316 to R325)
  | rs (h : Holder) (line : Nat)
  | rx (h : Holder) (line : Nat)
  | wb (h : Holder) (line : Nat)
  | dr (h : Holder) (line : Nat)
  | at (s : StrandId)
  | applyStep (h : Holder) (line : Nat)
  | recall (line : Nat)
  | retire (line : Nat)
  -- Steps of the host and the peers (R326, R362 to R371)
  | hostSnoop (line : HostTake)
  | cxlMemRequest (line : Nat) (k : CxlKind)
  | pcieCompletion (s : StrandId) (st : PcieStatus)
  | completionTimeout (s : StrandId)
  | postedWriteFailure (h : HallId)
  | hostLinkUp (h : HallId) (spd : BitVec 3) (wid : BitVec 5) (cxl : Bool)
  | packetForward (h : HallId) (p : PeerPacket)
  | flitReplay (h : HallId) (k : Fin 18)
  | peerLinkDown (h : HallId) (k : Fin 18)
  | peerLinkUp (h : HallId) (k : Fin 18) (peer : BitVec 6)
  | peerPackageLost (p : BitVec 6)
  -- Roll call (R327 to R331)
  | hallDieLost (h : HallId)
  | rollCallStep
  | rollStallTimeout (s : StrandId)
  | hrollAdv
  -- Time and the die (R151, R263, R269, R272, R274, R275)
  | tick
  | scrub (e : ErrSite)
  | vbondRepair (d : DieId)
  | vbctlGo (d : DieId)
  | l2wqWrite (d : DieId) (v : Word)
  | tlbicGo (d : DieId) (v : Word)
  | tlbiDone (d : DieId)
  | fresRetry (d : DieId) (tag : BitVec 16)
  | fresDeliver (d : DieId) (tag : BitVec 16)
  | fresEnd (d : DieId) (tag : BitVec 16)
  -- Launches (R333 to R348)
  | llctlWrite (n : Fin 64) (v : Word)
  | recordConsume (n : Fin 64)
  | launchPlacement (lid : BitVec 32)
  | placementRequest (lid : BitVec 32)
  | plres (h : HallId) (v : Word)
  | launchComplete (lid : BitVec 32)
  | launchEnd (lid : BitVec 32)
  | recess (lid : BitVec 32) (block : Nat)
  | resume (lid : BitVec 32) (block : Nat)
  | holdExpiry (s : StrandId)
  -- Management (R348, R350 to R361)
  | thermalThreshold (d : DieId) (c : Fin 4) (temp : BitVec 16)
  | tempBelowThr (d : DieId) (c : Fin 5) (temp : BitVec 16)
  | dieOvertemp (d : DieId) (temp : BitVec 16)
  | powerWindow (watts : Nat)
  | hostQueueAppend
  | dutyWrite (v : Word)
  | eresResume (tag : BitVec 16)
  | eresEnd (tag : BitVec 16)
  | trapRegisterWrite (s : StrandId) (n : BitVec 12) (v : Word)
  | attctlGo (v : Word)
  | attestationDone
  | pwrlimWrite (v : Word)
  | moduleReset
  | almanacUpdate (u : AbsentUnit)
  | registerWrite (off : Nat) (v : Word)
  deriving DecidableEq, Repr

end Sys2Proof
end

