-- ==== Sys2Proof/WellFormed.lean ====
section
/-! DEFINITION. Which instructions are well formed: the prefixes each instruction accepts (R20 to R22), the field values that the
descriptions leave undefined (R17), and the bank rules of pair words (R27, R28). A step of another agent carries no fields to check. -/
namespace Sys2Proof

/-- The classes of R21's ORD row. -/
inductive OrdClass where | none | load | store | rmw
  deriving DecidableEq, Repr

/-- The prefix kinds an instruction accepts in the form it stands in (R21). -/
structure Accepts where
  imm : Bool
  ord : OrdClass
  cls : Bool
  deriving DecidableEq, Repr

/-- No prefix is accepted. -/
def Accepts.nothing : Accepts := ⟨false, .none, false⟩
/-- Only an IMM prefix may be accepted. -/
def Accepts.immIf (b : Bool) : Accepts := ⟨b, .none, false⟩

/-- The orders an ORD class lists (R21). -/
def OrdClass.allows : OrdClass → Order → Bool
  | .none, _ => false
  | .load, o => o == .relaxed || o == .acquire
  | .store, o => o == .relaxed || o == .release
  | .rmw, _ => true

/-- Whether a source is an immediate. -/
def Src.isImm : Src → Bool
  | .reg _ => false
  | .imm _ => true

/-- Whether a scalar address is of the immediate form. -/
def AddrSrc.isImm : AddrSrc → Bool
  | .off _ => true
  | .idx _ _ => false

/-- The prefixes of a unit against what its instruction accepts (R20, R21). -/
def Pfx.fits (p : Pfx) (a : Accepts) : Bool :=
  (p.imm.isNone || a.imm) &&
  (match p.ord with
    | none => true
    | some o => a.ord.allows o.order) &&
  (p.cls.isNone || a.cls)

/-- The control registers R56 numbers. -/
def ctlAssigned (n : BitVec 12) : Bool :=
  n.toNat ≤ 0x006 || (0x010 ≤ n.toNat && n.toNat ≤ 0x014) || (0x020 ≤ n.toNat && n.toNat ≤ 0x025) ||
  n.toNat == 0x030 || (0x040 ≤ n.toNat && n.toNat ≤ 0x04F)

/-- Whether an FCVT format is an integer format (R113). -/
def CvtFmt.isInt : CvtFmt → Bool
  | .s64 | .u64 | .s32 | .u32 => true
  | .f64 | .f32 | .f16 | .bf16 | .e5m2 | .e4m3 => false

/-- The source and destination formats FCVT and VFCVT combine (R113). DEDUCED: "E5M2 or E4M3 as both source and destination" is
read as either format with itself, so a conversion from one FP8 format to the other is legal (assumption 11). -/
def cvtLegal (dst src : CvtFmt) : Bool :=
  !(dst.isInt && src.isInt) && !(dst == .e5m2 && src == .e5m2) && !(dst == .e4m3 && src == .e4m3)

/-- Whether RSTEST's condition reads vb (R192). -/
def RsCond.usesB : RsCond → Bool
  | .sub | .meet => true
  | .empty | .whole | .zero | .inf | .exact => false

/-- Whether a pair code writes a predicate (R27, R28). -/
def PairOp.writesPred : PairOp → Bool
  | .cmpEq | .cmpLt | .cmpLtu | .plogAnd => true
  | _ => false

/-- Whether a pair code has one source only (R27). -/
def PairOp.unary : PairOp → Bool
  | .clz | .ffs | .popc => true
  | _ => false

/-- The fields that R27 requires to be zero, and imf of code 18. -/
def PairSlot.fieldsOk (s : PairSlot) : Bool :=
  (!s.op.writesPred || s.dest.toNat < 16) &&
  (s.op != .plogAnd || (s.src1.toNat < 16 && s.src2.toNat < 16 && !s.imf)) &&
  (!s.op.unary || (s.src2 == 0 && !s.imf)) &&
  (s.op != .li || s.imf)

/-- The scalar registers a slot reads (R27, R28). -/
def PairSlot.reads (s : PairSlot) : List SReg :=
  match s.op with
  | .li => []
  | .plogAnd => []
  | _ => s.src1 :: (if s.imf || s.op.unary then [] else [s.src2])

/-- The scalar register a slot writes, if it writes one (R28). -/
def PairSlot.sdest (s : PairSlot) : Option SReg :=
  if s.op.writesPred then none else if s.dest == 0 then none else some s.dest

/-- The predicate a slot writes, if it writes one other than p0 (R28). -/
def PairSlot.pdest (s : PairSlot) : Option PReg :=
  if s.op.writesPred && s.dest != 0 then some (s.dest.setWidth 4) else none

/-- The bank of a scalar register (R28). -/
def bank (r : SReg) : Nat := r.toNat % 4

/-- How often bank n is read by the two slots; s0 counts as no read (R28). -/
def bankReads (s0 s1 : PairSlot) (n : Nat) : Nat :=
  ((s0.reads ++ s1.reads).filter fun r => r != 0 && bank r == n).length

/-- The bank rules of R28. -/
def bankOk (s0 s1 : PairSlot) : Bool :=
  (match s0.sdest, s1.sdest with
    | some a, some b => bank a != bank b
    | _, _ => true) &&
  (match s0.pdest, s1.pdest with
    | some a, some b => a != b
    | _, _ => true) &&
  bankReads s0 s1 0 ≤ 2 && bankReads s0 s1 1 ≤ 2 && bankReads s0 s1 2 ≤ 2 && bankReads s0 s1 3 ≤ 2

/-- The header of a frame 00 instruction; pair words, illegal units and the steps of other agents have none (R12). -/
def Instr.hdr? : Instr → Option Hdr
  | .add h _ _ _ _ _ => some h
  | .sub h _ _ _ _ _ => some h
  | .mul h _ _ _ _ _ => some h
  | .mulh h _ _ _ _ _ => some h
  | .div h _ _ _ _ _ => some h
  | .rem h _ _ _ _ _ => some h
  | .and h _ _ _ _ => some h
  | .or h _ _ _ _ => some h
  | .xor h _ _ _ _ => some h
  | .andn h _ _ _ _ => some h
  | .shl h _ _ _ _ => some h
  | .shr h _ _ _ _ _ => some h
  | .rot h _ _ _ _ _ => some h
  | .min h _ _ _ _ _ => some h
  | .max h _ _ _ _ _ => some h
  | .cmp h _ _ _ _ => some h
  | .sel h _ _ _ _ => some h
  | .clz h _ _ _ => some h
  | .ffs h _ _ _ => some h
  | .popc h _ _ _ => some h
  | .li h _ _ => some h
  | .lea h _ _ _ _ => some h
  | .ext h _ _ _ _ => some h
  | .plog h _ _ _ _ => some h
  | .pmov h _ => some h
  | .br h _ => some h
  | .jal h _ _ => some h
  | .jalr h _ _ _ => some h
  | .loop h _ _ _ => some h
  | .ld h _ _ _ _ _ _ => some h
  | .st h _ _ _ _ _ => some h
  | .amo h _ _ _ _ _ _ => some h
  | .cas h _ _ _ _ _ _ => some h
  | .cas128 h _ _ _ _ _ => some h
  | .pref h _ _ _ _ => some h
  | .fadd h _ _ _ _ _ => some h
  | .fsub h _ _ _ _ _ => some h
  | .fmul h _ _ _ _ _ => some h
  | .ffma h _ _ _ _ _ _ _ => some h
  | .fdiv h _ _ _ _ _ => some h
  | .fsqrt h _ _ _ _ => some h
  | .fmin h _ _ _ _ => some h
  | .fmax h _ _ _ _ => some h
  | .fcmp h _ _ _ _ _ => some h
  | .fcvt h _ _ _ _ _ => some h
  | .fclass h _ _ _ => some h
  | .trap h _ => some h
  | .eret h => some h
  | .eretV h => some h
  | .ctlr h _ _ => some h
  | .ctlw h _ _ => some h
  | .halt h => some h
  | .yield h => some h
  | .nopre h => some h
  | .preok h => some h
  | .launch h _ _ _ => some h
  | .movq h _ => some h
  | .pair _ _ => none
  | .illegalUnit _ => none
  | .vclaim h _ _ => some h
  | .vsetvl h _ _ _ => some h
  | .vconfig h _ => some h
  | .vtype h _ => some h
  | .mmode h _ _ _ => some h
  | .mmodeOff h => some h
  | .vadd h _ _ _ _ _ => some h
  | .vsub h _ _ _ _ _ => some h
  | .vmul h _ _ _ _ _ => some h
  | .vmulh h _ _ _ _ _ => some h
  | .vand h _ _ _ _ => some h
  | .vor h _ _ _ _ => some h
  | .vxor h _ _ _ _ => some h
  | .vshl h _ _ _ _ => some h
  | .vshr h _ _ _ _ _ => some h
  | .vmin h _ _ _ _ _ => some h
  | .vmax h _ _ _ _ _ => some h
  | .vcmp h _ _ _ _ _ => some h
  | .vsel h _ _ _ _ => some h
  | .vclz h _ _ _ => some h
  | .vffs h _ _ _ => some h
  | .vpopc h _ _ _ => some h
  | .vfadd h _ _ _ _ _ _ => some h
  | .vfsub h _ _ _ _ _ _ => some h
  | .vfmul h _ _ _ _ _ _ => some h
  | .vffma h _ _ _ _ _ _ _ _ => some h
  | .vfdiv h _ _ _ _ _ _ => some h
  | .vfsqrt h _ _ _ _ _ => some h
  | .vfmin h _ _ _ _ _ => some h
  | .vfmax h _ _ _ _ _ => some h
  | .vfcmp h _ _ _ _ _ _ => some h
  | .vfcvt h _ _ _ _ _ _ => some h
  | .vfexp2 h _ _ _ _ => some h
  | .vflog2 h _ _ _ _ => some h
  | .vfrcp h _ _ _ _ => some h
  | .vfrsq h _ _ _ _ => some h
  | .vqpack h _ _ _ _ _ _ _ => some h
  | .vqunpack h _ _ _ _ _ _ => some h
  | .vscacc h _ _ _ _ _ _ => some h
  | .klog h _ _ _ _ => some h
  | .vred h _ _ _ _ _ => some h
  | .vscan h _ _ _ _ _ => some h
  | .vcomp h _ _ _ _ => some h
  | .vexp h _ _ _ => some h
  | .vperm h _ _ _ _ _ => some h
  | .vslide h _ _ _ _ _ => some h
  | .vbcast h _ _ _ _ => some h
  | .vtos h _ _ => some h
  | .vld h _ _ _ _ _ => some h
  | .vlds h _ _ _ _ _ => some h
  | .vldx h _ _ _ _ _ _ _ _ => some h
  | .vst h _ _ _ _ _ => some h
  | .vsts h _ _ _ _ _ => some h
  | .vstx h _ _ _ _ _ _ _ _ => some h
  | .vappend h _ _ _ _ => some h
  | .rsload h _ _ _ => some h
  | .rsadd h _ _ _ _ _ _ => some h
  | .rssub h _ _ _ _ _ _ => some h
  | .rsmul h _ _ _ _ _ _ => some h
  | .rsdiv h _ _ _ _ _ _ => some h
  | .rsrcp h _ _ _ _ _ => some h
  | .rssqr h _ _ _ _ _ => some h
  | .rssqrt h _ _ _ _ _ => some h
  | .rsunion h _ _ _ _ _ _ => some h
  | .rsisect h _ _ _ _ _ _ => some h
  | .rsfrom h _ _ _ _ _ _ _ => some h
  | .rsbnd h _ _ _ _ _ _ _ => some h
  | .rstest h _ _ _ _ _ _ _ => some h
  | .mopa h _ _ _ _ => some h
  | .mopag h _ _ _ _ _ => some h
  | .mzero h _ => some h
  | .mrd h _ _ _ _ => some h
  | .mwr h _ _ _ _ => some h
  | .mdrain h _ _ _ _ _ _ => some h
  | .mldt h _ _ _ _ => some h
  | .mstt h _ _ _ _ => some h
  | .cpset h _ _ => some h
  | .cpgo h _ _ => some h
  | .cpgang h _ _ => some h
  | .cpgangOff h _ => some h
  | .bellInit h _ _ => some h
  | .bellArrive h _ _ => some h
  | .bellWait h _ _ => some h
  | .bellSync h _ => some h
  | .bellRemote h _ _ _ => some h
  | .waitlt h _ _ => some h
  | .fence h _ _ => some h
  | .fenceo h => some h
  | .fencer h _ _ => some h
  | .settle h _ _ _ => some h
  | .renew h _ _ => some h
  | .scount h _ _ _ => some h
  | .ipopSum h _ _ _ _ _ => some h
  | .ipopScale h _ _ _ _ _ => some h
  | .ipopAxpy h _ _ _ _ _ _ => some h
  | .ipopFill h _ _ _ _ _ => some h
  | .coll h _ _ _ _ _ _ _ => some h
  | .sqWaitEnd _ => none
  | .vclaimGrant _ => none
  | .tileGrant _ => none
  | .bellWaitRelease _ => none
  | .remoteArrival _ => none
  | .waitltRelease _ => none
  | .vectorBeat _ _ => none
  | .beatCommit _ => none
  | .vectorTrap _ => none
  | .xqPost _ => none
  | .matrixComplete _ => none
  | .rsloadCommit _ => none
  | .gangConsume _ => none
  | .transferChunk _ _ _ => none
  | .transferComplete _ _ => none
  | .copyFault _ => none
  | .settleLineStep _ _ _ => none
  | .ipopSector _ _ _ => none
  | .ipopComplete _ _ => none
  | .collLanding _ _ => none
  | .readAhead _ _ => none
  | .egressStep _ _ => none
  | .performStep _ _ => none
  | .fillRequest _ => none
  | .fillInstall _ _ => none
  | .rs _ _ => none
  | .rx _ _ => none
  | .wb _ _ => none
  | .dr _ _ => none
  | .at _ => none
  | .applyStep _ _ => none
  | .recall _ => none
  | .retire _ => none
  | .hostSnoop _ => none
  | .cxlMemRequest _ _ => none
  | .pcieCompletion _ _ => none
  | .completionTimeout _ => none
  | .postedWriteFailure _ => none
  | .hostLinkUp _ _ _ _ => none
  | .packetForward _ _ => none
  | .flitReplay _ _ => none
  | .peerLinkDown _ _ => none
  | .peerLinkUp _ _ _ => none
  | .peerPackageLost _ => none
  | .hallDieLost _ => none
  | .rollCallStep => none
  | .rollStallTimeout _ => none
  | .hrollAdv => none
  | .tick => none
  | .scrub _ => none
  | .vbondRepair _ => none
  | .vbctlGo _ => none
  | .l2wqWrite _ _ => none
  | .tlbicGo _ _ => none
  | .tlbiDone _ => none
  | .fresRetry _ _ => none
  | .fresDeliver _ _ => none
  | .fresEnd _ _ => none
  | .llctlWrite _ _ => none
  | .recordConsume _ => none
  | .launchPlacement _ => none
  | .placementRequest _ => none
  | .plres _ _ => none
  | .launchComplete _ => none
  | .launchEnd _ => none
  | .recess _ _ => none
  | .resume _ _ => none
  | .holdExpiry _ => none
  | .thermalThreshold _ _ _ => none
  | .tempBelowThr _ _ _ => none
  | .dieOvertemp _ _ => none
  | .powerWindow _ => none
  | .hostQueueAppend => none
  | .dutyWrite _ => none
  | .eresResume _ => none
  | .eresEnd _ => none
  | .trapRegisterWrite _ _ _ => none
  | .attctlGo _ => none
  | .attestationDone => none
  | .pwrlimWrite _ => none
  | .moduleReset => none
  | .almanacUpdate _ => none
  | .registerWrite _ _ => none

/-- The prefix kinds each instruction accepts in its form (R21, R116, R126, R156, R187, R206, R218, R243, R256, R282, R301, R372). -/
def Instr.accepts : Instr → Accepts
  | .add _ _ _ _ _ y => .immIf y.isImm
  | .sub _ _ _ _ _ y => .immIf y.isImm
  | .mul _ _ _ _ _ y => .immIf y.isImm
  | .mulh _ _ _ _ _ y => .immIf y.isImm
  | .div _ _ _ _ _ y => .immIf y.isImm
  | .rem _ _ _ _ _ y => .immIf y.isImm
  | .and _ _ _ _ y => .immIf y.isImm
  | .or _ _ _ _ y => .immIf y.isImm
  | .xor _ _ _ _ y => .immIf y.isImm
  | .andn _ _ _ _ y => .immIf y.isImm
  | .shl _ _ _ _ y => .immIf y.isImm
  | .shr _ _ _ _ _ y => .immIf y.isImm
  | .rot _ _ _ _ _ y => .immIf y.isImm
  | .min _ _ _ _ _ y => .immIf y.isImm
  | .max _ _ _ _ _ y => .immIf y.isImm
  | .cmp _ _ _ _ y => .immIf y.isImm
  | .sel _ _ _ _ _ => Accepts.nothing
  | .clz _ _ _ _ => Accepts.nothing
  | .ffs _ _ _ _ => Accepts.nothing
  | .popc _ _ _ _ => Accepts.nothing
  | .li _ _ _ => .immIf true
  | .lea _ _ _ _ y => .immIf y.isImm
  | .ext _ _ _ _ _ => Accepts.nothing
  | .plog _ _ _ _ _ => Accepts.nothing
  | .pmov _ _ => Accepts.nothing
  | .br _ _ => Accepts.nothing
  | .jal _ _ _ => Accepts.nothing
  | .jalr _ _ _ _ => .immIf true
  | .loop _ _ _ _ => Accepts.nothing
  | .ld _ _ _ _ _ _ y => ⟨y.isImm, .load, true⟩
  | .st _ _ _ _ _ y => ⟨y.isImm, .store, true⟩
  | .amo _ _ _ _ _ _ _ => ⟨false, .rmw, true⟩
  | .cas _ _ _ _ _ _ _ => ⟨false, .rmw, true⟩
  | .cas128 _ _ _ _ _ _ => ⟨false, .rmw, true⟩
  | .pref _ _ _ _ y => ⟨y.isImm, .none, true⟩
  | .fadd _ _ _ _ _ _ => Accepts.nothing
  | .fsub _ _ _ _ _ _ => Accepts.nothing
  | .fmul _ _ _ _ _ _ => Accepts.nothing
  | .ffma _ _ _ _ _ _ _ _ => Accepts.nothing
  | .fdiv _ _ _ _ _ _ => Accepts.nothing
  | .fsqrt _ _ _ _ _ => Accepts.nothing
  | .fmin _ _ _ _ _ => Accepts.nothing
  | .fmax _ _ _ _ _ => Accepts.nothing
  | .fcmp _ _ _ _ _ _ => Accepts.nothing
  | .fcvt _ _ _ _ _ _ => Accepts.nothing
  | .fclass _ _ _ _ => Accepts.nothing
  | .trap _ _ => Accepts.nothing
  | .eret _ => Accepts.nothing
  | .eretV _ => Accepts.nothing
  | .ctlr _ _ _ => Accepts.nothing
  | .ctlw _ _ _ => Accepts.nothing
  | .halt _ => Accepts.nothing
  | .yield _ => Accepts.nothing
  | .nopre _ => Accepts.nothing
  | .preok _ => Accepts.nothing
  | .launch _ _ _ _ => Accepts.nothing
  | .movq _ _ => Accepts.nothing
  | .pair _ _ => Accepts.nothing
  | .illegalUnit _ => Accepts.nothing
  | .vclaim _ _ _ => Accepts.nothing
  | .vsetvl _ _ _ _ => Accepts.nothing
  | .vconfig _ _ => Accepts.nothing
  | .vtype _ _ => Accepts.nothing
  | .mmode _ _ _ _ => Accepts.nothing
  | .mmodeOff _ => Accepts.nothing
  | .vadd _ _ _ _ _ _ => Accepts.nothing
  | .vsub _ _ _ _ _ _ => Accepts.nothing
  | .vmul _ _ _ _ _ _ => Accepts.nothing
  | .vmulh _ _ _ _ _ _ => Accepts.nothing
  | .vand _ _ _ _ _ => Accepts.nothing
  | .vor _ _ _ _ _ => Accepts.nothing
  | .vxor _ _ _ _ _ => Accepts.nothing
  | .vshl _ _ _ _ _ => Accepts.nothing
  | .vshr _ _ _ _ _ _ => Accepts.nothing
  | .vmin _ _ _ _ _ _ => Accepts.nothing
  | .vmax _ _ _ _ _ _ => Accepts.nothing
  | .vcmp _ _ _ _ _ _ => Accepts.nothing
  | .vsel _ _ _ _ _ => Accepts.nothing
  | .vclz _ _ _ _ => Accepts.nothing
  | .vffs _ _ _ _ => Accepts.nothing
  | .vpopc _ _ _ _ => Accepts.nothing
  | .vfadd _ _ _ _ _ _ _ => Accepts.nothing
  | .vfsub _ _ _ _ _ _ _ => Accepts.nothing
  | .vfmul _ _ _ _ _ _ _ => Accepts.nothing
  | .vffma _ _ _ _ _ _ _ _ _ => Accepts.nothing
  | .vfdiv _ _ _ _ _ _ _ => Accepts.nothing
  | .vfsqrt _ _ _ _ _ _ => Accepts.nothing
  | .vfmin _ _ _ _ _ _ => Accepts.nothing
  | .vfmax _ _ _ _ _ _ => Accepts.nothing
  | .vfcmp _ _ _ _ _ _ _ => Accepts.nothing
  | .vfcvt _ _ _ _ _ _ _ => Accepts.nothing
  | .vfexp2 _ _ _ _ _ => Accepts.nothing
  | .vflog2 _ _ _ _ _ => Accepts.nothing
  | .vfrcp _ _ _ _ _ => Accepts.nothing
  | .vfrsq _ _ _ _ _ => Accepts.nothing
  | .vqpack _ _ _ _ _ _ _ _ => Accepts.nothing
  | .vqunpack _ _ _ _ _ _ _ => Accepts.nothing
  | .vscacc _ _ _ _ _ _ _ => Accepts.nothing
  | .klog _ _ _ _ _ => Accepts.nothing
  | .vred _ _ _ _ _ _ => Accepts.nothing
  | .vscan _ _ _ _ _ _ => Accepts.nothing
  | .vcomp _ _ _ _ _ => Accepts.nothing
  | .vexp _ _ _ _ => Accepts.nothing
  | .vperm _ _ _ _ _ _ => Accepts.nothing
  | .vslide _ _ _ _ _ n => .immIf n.isImm
  | .vbcast _ _ _ _ n => .immIf n.isImm
  | .vtos _ _ n => .immIf n.isImm
  | .vld _ _ _ _ _ off => ⟨off.isImm, .load, true⟩
  | .vlds _ _ _ _ _ stride => ⟨stride.isImm, .load, true⟩
  | .vldx _ _ _ _ _ _ _ _ _ => ⟨false, .load, true⟩
  | .vst _ _ _ _ _ off => ⟨off.isImm, .store, true⟩
  | .vsts _ _ _ _ _ stride => ⟨stride.isImm, .store, true⟩
  | .vstx _ _ _ _ _ _ _ _ _ => ⟨false, .store, true⟩
  | .vappend _ _ _ _ _ => ⟨false, .rmw, true⟩
  | .rsload _ _ _ _ => Accepts.nothing
  | .rsadd _ _ _ _ _ _ _ => Accepts.nothing
  | .rssub _ _ _ _ _ _ _ => Accepts.nothing
  | .rsmul _ _ _ _ _ _ _ => Accepts.nothing
  | .rsdiv _ _ _ _ _ _ _ => Accepts.nothing
  | .rsrcp _ _ _ _ _ _ => Accepts.nothing
  | .rssqr _ _ _ _ _ _ => Accepts.nothing
  | .rssqrt _ _ _ _ _ _ => Accepts.nothing
  | .rsunion _ _ _ _ _ _ _ => Accepts.nothing
  | .rsisect _ _ _ _ _ _ _ => Accepts.nothing
  | .rsfrom _ _ _ _ _ _ _ _ => Accepts.nothing
  | .rsbnd _ _ _ _ _ _ _ _ => Accepts.nothing
  | .rstest _ _ _ _ _ _ _ _ => Accepts.nothing
  | .mopa _ _ _ _ _ => Accepts.nothing
  | .mopag _ _ _ _ _ _ => Accepts.nothing
  | .mzero _ _ => Accepts.nothing
  | .mrd _ _ _ _ _ => Accepts.nothing
  | .mwr _ _ _ _ _ => Accepts.nothing
  | .mdrain _ _ _ _ _ _ _ => Accepts.nothing
  | .mldt _ _ _ _ _ => ⟨false, .none, true⟩
  | .mstt _ _ _ _ _ => ⟨false, .none, true⟩
  | .cpset _ _ y => .immIf y.isImm
  | .cpgo _ _ _ => ⟨false, .none, true⟩
  | .cpgang _ _ _ => Accepts.nothing
  | .cpgangOff _ _ => Accepts.nothing
  | .bellInit _ _ _ => ⟨false, .rmw, false⟩
  | .bellArrive _ _ _ => ⟨false, .rmw, false⟩
  | .bellWait _ _ _ => ⟨false, .rmw, false⟩
  | .bellSync _ _ => ⟨false, .rmw, false⟩
  | .bellRemote _ _ _ _ => ⟨false, .rmw, false⟩
  | .waitlt _ _ _ => ⟨false, .load, false⟩
  | .fence _ _ _ => Accepts.nothing
  | .fenceo _ => Accepts.nothing
  | .fencer _ _ _ => Accepts.nothing
  | .settle _ _ _ _ => ⟨false, .store, false⟩
  | .renew _ _ _ => ⟨false, .load, false⟩
  | .scount _ _ _ _ => ⟨false, .load, false⟩
  | .ipopSum _ _ _ _ _ _ => ⟨false, .rmw, false⟩
  | .ipopScale _ _ _ _ _ _ => ⟨false, .rmw, false⟩
  | .ipopAxpy _ _ _ _ _ _ _ => ⟨false, .rmw, false⟩
  | .ipopFill _ _ _ _ _ _ => ⟨false, .rmw, false⟩
  | .coll _ _ _ _ _ _ _ _ => ⟨false, .store, false⟩
  | .sqWaitEnd _ => Accepts.nothing
  | .vclaimGrant _ => Accepts.nothing
  | .tileGrant _ => Accepts.nothing
  | .bellWaitRelease _ => Accepts.nothing
  | .remoteArrival _ => Accepts.nothing
  | .waitltRelease _ => Accepts.nothing
  | .vectorBeat _ _ => Accepts.nothing
  | .beatCommit _ => Accepts.nothing
  | .vectorTrap _ => Accepts.nothing
  | .xqPost _ => Accepts.nothing
  | .matrixComplete _ => Accepts.nothing
  | .rsloadCommit _ => Accepts.nothing
  | .gangConsume _ => Accepts.nothing
  | .transferChunk _ _ _ => Accepts.nothing
  | .transferComplete _ _ => Accepts.nothing
  | .copyFault _ => Accepts.nothing
  | .settleLineStep _ _ _ => Accepts.nothing
  | .ipopSector _ _ _ => Accepts.nothing
  | .ipopComplete _ _ => Accepts.nothing
  | .collLanding _ _ => Accepts.nothing
  | .readAhead _ _ => Accepts.nothing
  | .egressStep _ _ => Accepts.nothing
  | .performStep _ _ => Accepts.nothing
  | .fillRequest _ => Accepts.nothing
  | .fillInstall _ _ => Accepts.nothing
  | .rs _ _ => Accepts.nothing
  | .rx _ _ => Accepts.nothing
  | .wb _ _ => Accepts.nothing
  | .dr _ _ => Accepts.nothing
  | .at _ => Accepts.nothing
  | .applyStep _ _ => Accepts.nothing
  | .recall _ => Accepts.nothing
  | .retire _ => Accepts.nothing
  | .hostSnoop _ => Accepts.nothing
  | .cxlMemRequest _ _ => Accepts.nothing
  | .pcieCompletion _ _ => Accepts.nothing
  | .completionTimeout _ => Accepts.nothing
  | .postedWriteFailure _ => Accepts.nothing
  | .hostLinkUp _ _ _ _ => Accepts.nothing
  | .packetForward _ _ => Accepts.nothing
  | .flitReplay _ _ => Accepts.nothing
  | .peerLinkDown _ _ => Accepts.nothing
  | .peerLinkUp _ _ _ => Accepts.nothing
  | .peerPackageLost _ => Accepts.nothing
  | .hallDieLost _ => Accepts.nothing
  | .rollCallStep => Accepts.nothing
  | .rollStallTimeout _ => Accepts.nothing
  | .hrollAdv => Accepts.nothing
  | .tick => Accepts.nothing
  | .scrub _ => Accepts.nothing
  | .vbondRepair _ => Accepts.nothing
  | .vbctlGo _ => Accepts.nothing
  | .l2wqWrite _ _ => Accepts.nothing
  | .tlbicGo _ _ => Accepts.nothing
  | .tlbiDone _ => Accepts.nothing
  | .fresRetry _ _ => Accepts.nothing
  | .fresDeliver _ _ => Accepts.nothing
  | .fresEnd _ _ => Accepts.nothing
  | .llctlWrite _ _ => Accepts.nothing
  | .recordConsume _ => Accepts.nothing
  | .launchPlacement _ => Accepts.nothing
  | .placementRequest _ => Accepts.nothing
  | .plres _ _ => Accepts.nothing
  | .launchComplete _ => Accepts.nothing
  | .launchEnd _ => Accepts.nothing
  | .recess _ _ => Accepts.nothing
  | .resume _ _ => Accepts.nothing
  | .holdExpiry _ => Accepts.nothing
  | .thermalThreshold _ _ _ => Accepts.nothing
  | .tempBelowThr _ _ _ => Accepts.nothing
  | .dieOvertemp _ _ => Accepts.nothing
  | .powerWindow _ => Accepts.nothing
  | .hostQueueAppend => Accepts.nothing
  | .dutyWrite _ => Accepts.nothing
  | .eresResume _ => Accepts.nothing
  | .eresEnd _ => Accepts.nothing
  | .trapRegisterWrite _ _ _ => Accepts.nothing
  | .attctlGo _ => Accepts.nothing
  | .attestationDone => Accepts.nothing
  | .pwrlimWrite _ => Accepts.nothing
  | .moduleReset => Accepts.nothing
  | .almanacUpdate _ => Accepts.nothing
  | .registerWrite _ _ => Accepts.nothing

/-- The field values that an instruction's description defines (R17); every other field of the syntax may hold any value. -/
def Instr.fieldsOk : Instr → Bool
  | .add _ _ _ _ _ _ => true
  | .sub _ _ _ _ _ _ => true
  | .mul _ _ _ _ _ _ => true
  | .mulh _ _ _ _ _ _ => true
  | .div _ _ _ _ _ _ => true
  | .rem _ _ _ _ _ _ => true
  | .and _ _ _ _ _ => true
  | .or _ _ _ _ _ => true
  | .xor _ _ _ _ _ => true
  | .andn _ _ _ _ _ => true
  | .shl _ _ _ _ _ => true
  | .shr _ _ _ _ _ _ => true
  | .rot _ _ _ _ _ _ => true
  | .min _ _ _ _ _ _ => true
  | .max _ _ _ _ _ _ => true
  | .cmp _ _ _ _ _ => true
  | .sel _ _ _ _ _ => true
  | .clz _ _ _ _ => true
  | .ffs _ _ _ _ => true
  | .popc _ _ _ _ => true
  | .li _ _ _ => true
  | .lea _ _ _ _ _ => true
  | .ext _ _ _ _ _ => true
  | .plog _ _ _ _ _ => true
  | .pmov _ _ => true
  | .br _ _ => true
  | .jal _ _ _ => true
  | .jalr _ _ _ _ => true
  | .loop _ _ start _ => start != 0
  | .ld _ _ s w _ _ _ => !s || w != .w64
  | .st _ _ _ _ _ _ => true
  | .amo _ _ _ _ _ _ _ => true
  | .cas _ _ _ _ _ _ _ => true
  | .cas128 _ _ d _ x n => d.toNat % 2 == 0 && x.toNat % 2 == 0 && n.toNat % 2 == 0
  | .pref _ _ _ _ _ => true
  | .fadd _ _ _ _ _ _ => true
  | .fsub _ _ _ _ _ _ => true
  | .fmul _ _ _ _ _ _ => true
  | .ffma _ _ _ _ _ _ _ _ => true
  | .fdiv _ _ _ _ _ _ => true
  | .fsqrt _ _ _ _ _ => true
  | .fmin _ _ _ _ _ => true
  | .fmax _ _ _ _ _ => true
  | .fcmp _ _ _ _ _ _ => true
  | .fcvt _ dst src _ _ _ => cvtLegal dst src
  | .fclass _ _ _ _ => true
  | .trap _ _ => true
  | .eret _ => true
  | .eretV _ => true
  | .ctlr _ _ n => ctlAssigned n
  | .ctlw _ n _ => ctlAssigned n
  | .halt _ => true
  | .yield _ => true
  | .nopre _ => true
  | .preok _ => true
  | .launch _ _ _ _ => true
  | .movq _ _ => true
  | .pair s0 s1 => s0.fieldsOk && s1.fieldsOk && bankOk s0 s1
  | .illegalUnit _ => true
  | .vclaim _ _ _ => true
  | .vsetvl _ _ _ _ => true
  | .vconfig _ _ => true
  | .vtype _ _ => true
  | .mmode _ _ _ t => 1 ≤ t.toNat && t.toNat ≤ 16
  | .mmodeOff _ => true
  | .vadd _ _ _ _ _ _ => true
  | .vsub _ _ _ _ _ _ => true
  | .vmul _ _ _ _ _ _ => true
  | .vmulh _ _ _ _ _ _ => true
  | .vand _ _ _ _ _ => true
  | .vor _ _ _ _ _ => true
  | .vxor _ _ _ _ _ => true
  | .vshl _ _ _ _ _ => true
  | .vshr _ _ _ _ _ _ => true
  | .vmin _ _ _ _ _ _ => true
  | .vmax _ _ _ _ _ _ => true
  | .vcmp _ _ _ _ _ _ => true
  | .vsel _ _ _ _ _ => true
  | .vclz _ _ _ _ => true
  | .vffs _ _ _ _ => true
  | .vpopc _ _ _ _ => true
  | .vfadd _ _ _ _ _ _ _ => true
  | .vfsub _ _ _ _ _ _ _ => true
  | .vfmul _ _ _ _ _ _ _ => true
  | .vffma _ _ _ _ _ _ _ _ _ => true
  | .vfdiv _ _ _ _ _ _ _ => true
  | .vfsqrt _ _ _ _ _ _ => true
  | .vfmin _ _ _ _ _ _ => true
  | .vfmax _ _ _ _ _ _ => true
  | .vfcmp _ _ _ _ _ _ _ => true
  | .vfcvt _ _ dst src _ _ _ => cvtLegal dst src
  | .vfexp2 _ _ _ _ _ => true
  | .vflog2 _ _ _ _ _ => true
  | .vfrcp _ _ _ _ _ => true
  | .vfrsq _ _ _ _ _ => true
  | .vqpack _ _ _ _ _ _ _ _ => true
  | .vqunpack _ _ _ _ _ _ _ => true
  | .vscacc _ _ _ _ _ _ _ => true
  | .klog _ _ _ _ _ => true
  | .vred _ _ _ _ _ _ => true
  | .vscan _ _ _ _ _ _ => true
  | .vcomp _ _ _ _ _ => true
  | .vexp _ _ _ _ => true
  | .vperm _ _ _ _ _ _ => true
  | .vslide _ _ _ _ _ _ => true
  | .vbcast _ _ _ _ _ => true
  | .vtos _ _ _ => true
  | .vld _ _ _ _ _ _ => true
  | .vlds _ _ _ _ _ _ => true
  | .vldx _ _ _ _ _ _ _ _ _ => true
  | .vst _ _ _ _ _ _ => true
  | .vsts _ _ _ _ _ _ => true
  | .vstx _ _ _ _ _ _ _ _ _ => true
  | .vappend _ _ _ _ _ => true
  | .rsload _ _ _ _ => true
  | .rsadd _ _ _ _ _ _ _ => true
  | .rssub _ _ _ _ _ _ _ => true
  | .rsmul _ _ _ _ _ _ _ => true
  | .rsdiv _ _ _ _ _ _ _ => true
  | .rsrcp _ _ _ _ _ _ => true
  | .rssqr _ _ _ _ _ _ => true
  | .rssqrt _ _ _ _ _ _ => true
  | .rsunion _ _ _ _ _ _ _ => true
  | .rsisect _ _ _ _ _ _ _ => true
  | .rsfrom _ _ _ _ _ _ _ _ => true
  | .rsbnd _ _ _ _ _ _ _ _ => true
  | .rstest _ _ c _ _ _ _ b => c.usesB || b == 0
  | .mopa _ _ _ _ _ => true
  | .mopag _ _ _ _ _ _ => true
  | .mzero _ _ => true
  | .mrd _ _ _ _ _ => true
  | .mwr _ _ _ _ _ => true
  | .mdrain _ _ _ _ _ _ _ => true
  | .mldt _ _ _ _ _ => true
  | .mstt _ _ _ _ _ => true
  | .cpset _ n _ => n != 7
  | .cpgo _ _ _ => true
  | .cpgang _ _ _ => true
  | .cpgangOff _ _ => true
  | .bellInit _ _ _ => true
  | .bellArrive _ _ _ => true
  | .bellWait _ _ _ => true
  | .bellSync _ _ => true
  | .bellRemote _ _ _ _ => true
  | .waitlt _ _ n => match n with
    | .reg _ => true
    | .imm i => 1 ≤ i.toNat && i.toNat ≤ 65536
  | .fence _ _ _ => true
  | .fenceo _ => true
  | .fencer _ s t => match t with
    | .win _ => s != .core
    | _ => true
  | .settle _ _ _ _ => true
  | .renew _ _ _ => true
  | .scount _ _ _ _ => true
  | .ipopSum _ _ _ _ _ _ => true
  | .ipopScale _ _ _ _ _ _ => true
  | .ipopAxpy _ _ _ _ _ _ _ => true
  | .ipopFill _ _ _ _ _ _ => true
  | .coll _ _ _ _ _ _ _ _ => true
  | .sqWaitEnd _ => true
  | .vclaimGrant _ => true
  | .tileGrant _ => true
  | .bellWaitRelease _ => true
  | .remoteArrival _ => true
  | .waitltRelease _ => true
  | .vectorBeat _ _ => true
  | .beatCommit _ => true
  | .vectorTrap _ => true
  | .xqPost _ => true
  | .matrixComplete _ => true
  | .rsloadCommit _ => true
  | .gangConsume _ => true
  | .transferChunk _ _ _ => true
  | .transferComplete _ _ => true
  | .copyFault _ => true
  | .settleLineStep _ _ _ => true
  | .ipopSector _ _ _ => true
  | .ipopComplete _ _ => true
  | .collLanding _ _ => true
  | .readAhead _ _ => true
  | .egressStep _ _ => true
  | .performStep _ _ => true
  | .fillRequest _ => true
  | .fillInstall _ _ => true
  | .rs _ _ => true
  | .rx _ _ => true
  | .wb _ _ => true
  | .dr _ _ => true
  | .at _ => true
  | .applyStep _ _ => true
  | .recall _ => true
  | .retire _ => true
  | .hostSnoop _ => true
  | .cxlMemRequest _ _ => true
  | .pcieCompletion _ _ => true
  | .completionTimeout _ => true
  | .postedWriteFailure _ => true
  | .hostLinkUp _ _ _ _ => true
  | .packetForward _ _ => true
  | .flitReplay _ _ => true
  | .peerLinkDown _ _ => true
  | .peerLinkUp _ _ _ => true
  | .peerPackageLost _ => true
  | .hallDieLost _ => true
  | .rollCallStep => true
  | .rollStallTimeout _ => true
  | .hrollAdv => true
  | .tick => true
  | .scrub _ => true
  | .vbondRepair _ => true
  | .vbctlGo _ => true
  | .l2wqWrite _ _ => true
  | .tlbicGo _ _ => true
  | .tlbiDone _ => true
  | .fresRetry _ _ => true
  | .fresDeliver _ _ => true
  | .fresEnd _ _ => true
  | .llctlWrite _ _ => true
  | .recordConsume _ => true
  | .launchPlacement _ => true
  | .placementRequest _ => true
  | .plres _ _ => true
  | .launchComplete _ => true
  | .launchEnd _ => true
  | .recess _ _ => true
  | .resume _ _ => true
  | .holdExpiry _ => true
  | .thermalThreshold _ _ _ => true
  | .tempBelowThr _ _ _ => true
  | .dieOvertemp _ _ => true
  | .powerWindow _ => true
  | .hostQueueAppend => true
  | .dutyWrite _ => true
  | .eresResume _ => true
  | .eresEnd _ => true
  | .trapRegisterWrite _ _ _ => true
  | .attctlGo _ => true
  | .attestationDone => true
  | .pwrlimWrite _ => true
  | .moduleReset => true
  | .almanacUpdate _ => true
  | .registerWrite _ _ => true

/-- A well-formed instruction: its fields are defined and its prefixes are accepted (R17, R20, R21, R27, R28). -/
def Instr.wf (i : Instr) : Bool :=
  i.fieldsOk && (match i.hdr? with
    | none => true
    | some h => h.pfx.fits i.accepts)

/-- The steps of agents other than a strand's issue: rows of the opcode table that no instruction word names (R293). -/
def Instr.isEvent : Instr → Bool
  | .add _ _ _ _ _ _ => false
  | .sub _ _ _ _ _ _ => false
  | .mul _ _ _ _ _ _ => false
  | .mulh _ _ _ _ _ _ => false
  | .div _ _ _ _ _ _ => false
  | .rem _ _ _ _ _ _ => false
  | .and _ _ _ _ _ => false
  | .or _ _ _ _ _ => false
  | .xor _ _ _ _ _ => false
  | .andn _ _ _ _ _ => false
  | .shl _ _ _ _ _ => false
  | .shr _ _ _ _ _ _ => false
  | .rot _ _ _ _ _ _ => false
  | .min _ _ _ _ _ _ => false
  | .max _ _ _ _ _ _ => false
  | .cmp _ _ _ _ _ => false
  | .sel _ _ _ _ _ => false
  | .clz _ _ _ _ => false
  | .ffs _ _ _ _ => false
  | .popc _ _ _ _ => false
  | .li _ _ _ => false
  | .lea _ _ _ _ _ => false
  | .ext _ _ _ _ _ => false
  | .plog _ _ _ _ _ => false
  | .pmov _ _ => false
  | .br _ _ => false
  | .jal _ _ _ => false
  | .jalr _ _ _ _ => false
  | .loop _ _ _ _ => false
  | .ld _ _ _ _ _ _ _ => false
  | .st _ _ _ _ _ _ => false
  | .amo _ _ _ _ _ _ _ => false
  | .cas _ _ _ _ _ _ _ => false
  | .cas128 _ _ _ _ _ _ => false
  | .pref _ _ _ _ _ => false
  | .fadd _ _ _ _ _ _ => false
  | .fsub _ _ _ _ _ _ => false
  | .fmul _ _ _ _ _ _ => false
  | .ffma _ _ _ _ _ _ _ _ => false
  | .fdiv _ _ _ _ _ _ => false
  | .fsqrt _ _ _ _ _ => false
  | .fmin _ _ _ _ _ => false
  | .fmax _ _ _ _ _ => false
  | .fcmp _ _ _ _ _ _ => false
  | .fcvt _ _ _ _ _ _ => false
  | .fclass _ _ _ _ => false
  | .trap _ _ => false
  | .eret _ => false
  | .eretV _ => false
  | .ctlr _ _ _ => false
  | .ctlw _ _ _ => false
  | .halt _ => false
  | .yield _ => false
  | .nopre _ => false
  | .preok _ => false
  | .launch _ _ _ _ => false
  | .movq _ _ => false
  | .pair _ _ => false
  | .illegalUnit _ => false
  | .vclaim _ _ _ => false
  | .vsetvl _ _ _ _ => false
  | .vconfig _ _ => false
  | .vtype _ _ => false
  | .mmode _ _ _ _ => false
  | .mmodeOff _ => false
  | .vadd _ _ _ _ _ _ => false
  | .vsub _ _ _ _ _ _ => false
  | .vmul _ _ _ _ _ _ => false
  | .vmulh _ _ _ _ _ _ => false
  | .vand _ _ _ _ _ => false
  | .vor _ _ _ _ _ => false
  | .vxor _ _ _ _ _ => false
  | .vshl _ _ _ _ _ => false
  | .vshr _ _ _ _ _ _ => false
  | .vmin _ _ _ _ _ _ => false
  | .vmax _ _ _ _ _ _ => false
  | .vcmp _ _ _ _ _ _ => false
  | .vsel _ _ _ _ _ => false
  | .vclz _ _ _ _ => false
  | .vffs _ _ _ _ => false
  | .vpopc _ _ _ _ => false
  | .vfadd _ _ _ _ _ _ _ => false
  | .vfsub _ _ _ _ _ _ _ => false
  | .vfmul _ _ _ _ _ _ _ => false
  | .vffma _ _ _ _ _ _ _ _ _ => false
  | .vfdiv _ _ _ _ _ _ _ => false
  | .vfsqrt _ _ _ _ _ _ => false
  | .vfmin _ _ _ _ _ _ => false
  | .vfmax _ _ _ _ _ _ => false
  | .vfcmp _ _ _ _ _ _ _ => false
  | .vfcvt _ _ _ _ _ _ _ => false
  | .vfexp2 _ _ _ _ _ => false
  | .vflog2 _ _ _ _ _ => false
  | .vfrcp _ _ _ _ _ => false
  | .vfrsq _ _ _ _ _ => false
  | .vqpack _ _ _ _ _ _ _ _ => false
  | .vqunpack _ _ _ _ _ _ _ => false
  | .vscacc _ _ _ _ _ _ _ => false
  | .klog _ _ _ _ _ => false
  | .vred _ _ _ _ _ _ => false
  | .vscan _ _ _ _ _ _ => false
  | .vcomp _ _ _ _ _ => false
  | .vexp _ _ _ _ => false
  | .vperm _ _ _ _ _ _ => false
  | .vslide _ _ _ _ _ _ => false
  | .vbcast _ _ _ _ _ => false
  | .vtos _ _ _ => false
  | .vld _ _ _ _ _ _ => false
  | .vlds _ _ _ _ _ _ => false
  | .vldx _ _ _ _ _ _ _ _ _ => false
  | .vst _ _ _ _ _ _ => false
  | .vsts _ _ _ _ _ _ => false
  | .vstx _ _ _ _ _ _ _ _ _ => false
  | .vappend _ _ _ _ _ => false
  | .rsload _ _ _ _ => false
  | .rsadd _ _ _ _ _ _ _ => false
  | .rssub _ _ _ _ _ _ _ => false
  | .rsmul _ _ _ _ _ _ _ => false
  | .rsdiv _ _ _ _ _ _ _ => false
  | .rsrcp _ _ _ _ _ _ => false
  | .rssqr _ _ _ _ _ _ => false
  | .rssqrt _ _ _ _ _ _ => false
  | .rsunion _ _ _ _ _ _ _ => false
  | .rsisect _ _ _ _ _ _ _ => false
  | .rsfrom _ _ _ _ _ _ _ _ => false
  | .rsbnd _ _ _ _ _ _ _ _ => false
  | .rstest _ _ _ _ _ _ _ _ => false
  | .mopa _ _ _ _ _ => false
  | .mopag _ _ _ _ _ _ => false
  | .mzero _ _ => false
  | .mrd _ _ _ _ _ => false
  | .mwr _ _ _ _ _ => false
  | .mdrain _ _ _ _ _ _ _ => false
  | .mldt _ _ _ _ _ => false
  | .mstt _ _ _ _ _ => false
  | .cpset _ _ _ => false
  | .cpgo _ _ _ => false
  | .cpgang _ _ _ => false
  | .cpgangOff _ _ => false
  | .bellInit _ _ _ => false
  | .bellArrive _ _ _ => false
  | .bellWait _ _ _ => false
  | .bellSync _ _ => false
  | .bellRemote _ _ _ _ => false
  | .waitlt _ _ _ => false
  | .fence _ _ _ => false
  | .fenceo _ => false
  | .fencer _ _ _ => false
  | .settle _ _ _ _ => false
  | .renew _ _ _ => false
  | .scount _ _ _ _ => false
  | .ipopSum _ _ _ _ _ _ => false
  | .ipopScale _ _ _ _ _ _ => false
  | .ipopAxpy _ _ _ _ _ _ _ => false
  | .ipopFill _ _ _ _ _ _ => false
  | .coll _ _ _ _ _ _ _ _ => false
  | .sqWaitEnd _ => true
  | .vclaimGrant _ => true
  | .tileGrant _ => true
  | .bellWaitRelease _ => true
  | .remoteArrival _ => true
  | .waitltRelease _ => true
  | .vectorBeat _ _ => true
  | .beatCommit _ => true
  | .vectorTrap _ => true
  | .xqPost _ => true
  | .matrixComplete _ => true
  | .rsloadCommit _ => true
  | .gangConsume _ => true
  | .transferChunk _ _ _ => true
  | .transferComplete _ _ => true
  | .copyFault _ => true
  | .settleLineStep _ _ _ => true
  | .ipopSector _ _ _ => true
  | .ipopComplete _ _ => true
  | .collLanding _ _ => true
  | .readAhead _ _ => true
  | .egressStep _ _ => true
  | .performStep _ _ => true
  | .fillRequest _ => true
  | .fillInstall _ _ => true
  | .rs _ _ => true
  | .rx _ _ => true
  | .wb _ _ => true
  | .dr _ _ => true
  | .at _ => true
  | .applyStep _ _ => true
  | .recall _ => true
  | .retire _ => true
  | .hostSnoop _ => true
  | .cxlMemRequest _ _ => true
  | .pcieCompletion _ _ => true
  | .completionTimeout _ => true
  | .postedWriteFailure _ => true
  | .hostLinkUp _ _ _ _ => true
  | .packetForward _ _ => true
  | .flitReplay _ _ => true
  | .peerLinkDown _ _ => true
  | .peerLinkUp _ _ _ => true
  | .peerPackageLost _ => true
  | .hallDieLost _ => true
  | .rollCallStep => true
  | .rollStallTimeout _ => true
  | .hrollAdv => true
  | .tick => true
  | .scrub _ => true
  | .vbondRepair _ => true
  | .vbctlGo _ => true
  | .l2wqWrite _ _ => true
  | .tlbicGo _ _ => true
  | .tlbiDone _ => true
  | .fresRetry _ _ => true
  | .fresDeliver _ _ => true
  | .fresEnd _ _ => true
  | .llctlWrite _ _ => true
  | .recordConsume _ => true
  | .launchPlacement _ => true
  | .placementRequest _ => true
  | .plres _ _ => true
  | .launchComplete _ => true
  | .launchEnd _ => true
  | .recess _ _ => true
  | .resume _ _ => true
  | .holdExpiry _ => true
  | .thermalThreshold _ _ _ => true
  | .tempBelowThr _ _ _ => true
  | .dieOvertemp _ _ => true
  | .powerWindow _ => true
  | .hostQueueAppend => true
  | .dutyWrite _ => true
  | .eresResume _ => true
  | .eresEnd _ => true
  | .trapRegisterWrite _ _ _ => true
  | .attctlGo _ => true
  | .attestationDone => true
  | .pwrlimWrite _ => true
  | .moduleReset => true
  | .almanacUpdate _ => true
  | .registerWrite _ _ => true

end Sys2Proof
end

