-- ==== Sys2Proof/Decode.lean ====
section
/-! DEFINITION. Decoding and encoding: from the 64-bit words of a unit to an instruction (R10 to R31 and the encoding tables of the
chapters), rejecting by name what is no legal unit (R29, R30), and the encoder, written from the same tables. -/
namespace Sys2Proof

/-- The code of a `Width` (R97). -/
def Width.code : Width → BitVec 2
  | .w64 => 0
  | .w32 => 1
  | .w16 => 2
  | .w8 => 3
/-- The `Width` of a code (R97). -/
def Width.ofCode (c : BitVec 2) : Option Width :=
  match c.toNat with
  | 0 => some .w64
  | 1 => some .w32
  | 2 => some .w16
  | 3 => some .w8
  | _ => none

/-- The code of a `Sched` (R16). -/
def Sched.code : Sched → BitVec 3
  | .none => 0
  | .yield => 1
  | .barrier => 2
  | .csync => 3
  | .first => 4
  | .last => 5
/-- The `Sched` of a code (R16). -/
def Sched.ofCode (c : BitVec 3) : Option Sched :=
  match c.toNat with
  | 0 => some .none
  | 1 => some .yield
  | 2 => some .barrier
  | 3 => some .csync
  | 4 => some .first
  | 5 => some .last
  | _ => Option.none

/-- The code of a `Order` (R19). -/
def Order.code : Order → BitVec 2
  | .relaxed => 0
  | .acquire => 1
  | .release => 2
  | .acqRel => 3
/-- The `Order` of a code (R19). -/
def Order.ofCode (c : BitVec 2) : Option Order :=
  match c.toNat with
  | 0 => some .relaxed
  | 1 => some .acquire
  | 2 => some .release
  | 3 => some .acqRel
  | _ => none

/-- The code of a `Scope` (R19). -/
def Scope.code : Scope → BitVec 3
  | .core => 0
  | .cluster => 1
  | .die => 2
  | .package => 3
  | .system => 4
/-- The `Scope` of a code (R19). -/
def Scope.ofCode (c : BitVec 3) : Option Scope :=
  match c.toNat with
  | 0 => some .core
  | 1 => some .cluster
  | 2 => some .die
  | 3 => some .package
  | 4 => some .system
  | _ => none

/-- The code of a `LineClass` (R19). -/
def LineClass.code : LineClass → BitVec 2
  | .general => 0
  | .weights => 1
  | .activations => 2
  | .kvCache => 3
/-- The `LineClass` of a code (R19). -/
def LineClass.ofCode (c : BitVec 2) : Option LineClass :=
  match c.toNat with
  | 0 => some .general
  | 1 => some .weights
  | 2 => some .activations
  | 3 => some .kvCache
  | _ => none

/-- The code of a `Hint` (R15). -/
def Hint.code : Hint → BitVec 2
  | .default => 0
  | .streaming => 1
  | .keep => 2
  | .quota => 3
/-- The `Hint` of a code (R15). -/
def Hint.ofCode (c : BitVec 2) : Option Hint :=
  match c.toNat with
  | 0 => some .default
  | 1 => some .streaming
  | 2 => some .keep
  | 3 => some .quota
  | _ => none

/-- The code of a `Cond` (R99). -/
def Cond.code : Cond → BitVec 3
  | .eq => 0
  | .ne => 1
  | .lt => 2
  | .ge => 3
  | .ltu => 4
  | .geu => 5
  | .tst => 6
/-- The `Cond` of a code (R99). -/
def Cond.ofCode (c : BitVec 3) : Option Cond :=
  match c.toNat with
  | 0 => some .eq
  | 1 => some .ne
  | 2 => some .lt
  | 3 => some .ge
  | 4 => some .ltu
  | 5 => some .geu
  | 6 => some .tst
  | _ => none

/-- The code of a `LogOp` (R105). -/
def LogOp.code : LogOp → BitVec 3
  | .and => 0
  | .or => 1
  | .xor => 2
  | .andn => 3
  | .nand => 4
  | .nor => 5
  | .xnor => 6
  | .orn => 7
/-- The `LogOp` of a code (R105). -/
def LogOp.ofCode (c : BitVec 3) : Option LogOp :=
  match c.toNat with
  | 0 => some .and
  | 1 => some .or
  | 2 => some .xor
  | 3 => some .andn
  | 4 => some .nand
  | 5 => some .nor
  | 6 => some .xnor
  | 7 => some .orn
  | _ => none

/-- The code of a `SFmt` (R109). -/
def SFmt.code : SFmt → BitVec 2
  | .f64 => 0
  | .f32 => 1
  | .f16 => 2
  | .bf16 => 3
/-- The `SFmt` of a code (R109). -/
def SFmt.ofCode (c : BitVec 2) : Option SFmt :=
  match c.toNat with
  | 0 => some .f64
  | 1 => some .f32
  | 2 => some .f16
  | 3 => some .bf16
  | _ => none

/-- The code of a `FFmt` (R165). -/
def FFmt.code : FFmt → BitVec 3
  | .f64 => 0
  | .f32 => 1
  | .f16 => 2
  | .bf16 => 3
  | .e5m2 => 4
  | .e4m3 => 5
/-- The `FFmt` of a code (R165). -/
def FFmt.ofCode (c : BitVec 3) : Option FFmt :=
  match c.toNat with
  | 0 => some .f64
  | 1 => some .f32
  | 2 => some .f16
  | 3 => some .bf16
  | 4 => some .e5m2
  | 5 => some .e4m3
  | _ => none

/-- The code of a `Rnd` (R109). -/
def Rnd.code : Rnd → BitVec 3
  | .dyn => 0
  | .rne => 1
  | .rtz => 2
  | .rdn => 3
  | .rup => 4
  | .rmm => 5
  | .rto => 6
/-- The `Rnd` of a code (R109). -/
def Rnd.ofCode (c : BitVec 3) : Option Rnd :=
  match c.toNat with
  | 0 => some .dyn
  | 1 => some .rne
  | 2 => some .rtz
  | 3 => some .rdn
  | 4 => some .rup
  | 5 => some .rmm
  | 6 => some .rto
  | _ => none

/-- The code of a `FmaForm` (R111). -/
def FmaForm.code : FmaForm → BitVec 2
  | .plain => 0
  | .ms => 1
  | .nm => 2
  | .nms => 3
/-- The `FmaForm` of a code (R111). -/
def FmaForm.ofCode (c : BitVec 2) : Option FmaForm :=
  match c.toNat with
  | 0 => some .plain
  | 1 => some .ms
  | 2 => some .nm
  | 3 => some .nms
  | _ => none

/-- The code of a `FCond` (R112). -/
def FCond.code : FCond → BitVec 3
  | .eq => 0
  | .lt => 1
  | .le => 2
  | .un => 3
  | .ne => 4
  | .qlt => 5
  | .qle => 6
/-- The `FCond` of a code (R112). -/
def FCond.ofCode (c : BitVec 3) : Option FCond :=
  match c.toNat with
  | 0 => some .eq
  | 1 => some .lt
  | 2 => some .le
  | 3 => some .un
  | 4 => some .ne
  | 5 => some .qlt
  | 6 => some .qle
  | _ => none

/-- The code of a `CvtFmt` (R113). -/
def CvtFmt.code : CvtFmt → BitVec 4
  | .f64 => 0
  | .f32 => 1
  | .f16 => 2
  | .bf16 => 3
  | .e5m2 => 4
  | .e4m3 => 5
  | .s64 => 8
  | .u64 => 9
  | .s32 => 10
  | .u32 => 11
/-- The `CvtFmt` of a code (R113). -/
def CvtFmt.ofCode (c : BitVec 4) : Option CvtFmt :=
  match c.toNat with
  | 0 => some .f64
  | 1 => some .f32
  | 2 => some .f16
  | 3 => some .bf16
  | 4 => some .e5m2
  | 5 => some .e4m3
  | 8 => some .s64
  | 9 => some .u64
  | 10 => some .s32
  | 11 => some .u32
  | _ => none

/-- The code of a `AmoOp` (R122). -/
def AmoOp.code : AmoOp → BitVec 4
  | .swap => 0
  | .add => 1
  | .and => 2
  | .or => 3
  | .xor => 4
  | .min => 5
  | .max => 6
  | .minu => 7
  | .maxu => 8
/-- The `AmoOp` of a code (R122). -/
def AmoOp.ofCode (c : BitVec 4) : Option AmoOp :=
  match c.toNat with
  | 0 => some .swap
  | 1 => some .add
  | 2 => some .and
  | 3 => some .or
  | 4 => some .xor
  | 5 => some .min
  | 6 => some .max
  | 7 => some .minu
  | 8 => some .maxu
  | _ => none

/-- The code of a `PrefLevel` (R116). -/
def PrefLevel.code : PrefLevel → BitVec 2
  | .l1 => 0
  | .l2 => 1
  | .w => 2
/-- The `PrefLevel` of a code (R116). -/
def PrefLevel.ofCode (c : BitVec 2) : Option PrefLevel :=
  match c.toNat with
  | 0 => some .l1
  | 1 => some .l2
  | 2 => some .w
  | _ => none

/-- The code of a `QType` (R171). -/
def QType.code : QType → BitVec 2
  | .int => 0
  | .e2m1 => 1
  | .pow2 => 2
  | .hyb => 3
/-- The `QType` of a code (R171). -/
def QType.ofCode (c : BitVec 2) : Option QType :=
  match c.toNat with
  | 0 => some .int
  | 1 => some .e2m1
  | 2 => some .pow2
  | 3 => some .hyb
  | _ => none

/-- The code of a `QFmt` (R171). -/
def QFmt.code : QFmt → BitVec 4
  | .f32 => 1
  | .f16 => 2
  | .bf16 => 3
/-- The `QFmt` of a code (R171). -/
def QFmt.ofCode (c : BitVec 4) : Option QFmt :=
  match c.toNat with
  | 1 => some .f32
  | 2 => some .f16
  | 3 => some .bf16
  | _ => none

/-- The code of a `ScaccSrc` (R171). -/
def ScaccSrc.code : ScaccSrc → BitVec 4
  | .e5m2 => 4
  | .e4m3 => 5
  | .q4 => 6
/-- The `ScaccSrc` of a code (R171). -/
def ScaccSrc.ofCode (c : BitVec 4) : Option ScaccSrc :=
  match c.toNat with
  | 4 => some .e5m2
  | 5 => some .e4m3
  | 6 => some .q4
  | _ => none

/-- The code of a `IntRed` (R206). -/
def IntRed.code : IntRed → BitVec 3
  | .add => 0
  | .and => 1
  | .or => 2
  | .xor => 3
  | .min => 4
  | .max => 5
  | .minu => 6
  | .maxu => 7
/-- The `IntRed` of a code (R206). -/
def IntRed.ofCode (c : BitVec 3) : Option IntRed :=
  match c.toNat with
  | 0 => some .add
  | 1 => some .and
  | 2 => some .or
  | 3 => some .xor
  | 4 => some .min
  | 5 => some .max
  | 6 => some .minu
  | 7 => some .maxu
  | _ => none

/-- The code of a `IdxW` (R197). -/
def IdxW.code : IdxW → BitVec 2
  | .w64 => 0
  | .w32 => 1
  | .w16 => 2
/-- The `IdxW` of a code (R197). -/
def IdxW.ofCode (c : BitVec 2) : Option IdxW :=
  match c.toNat with
  | 0 => some .w64
  | 1 => some .w32
  | 2 => some .w16
  | _ => none

/-- The code of a `RsFmt` (R187). -/
def RsFmt.code : RsFmt → BitVec 2
  | .rs8 => 0
  | .rs16c => 1
  | .rs32c => 2
/-- The `RsFmt` of a code (R187). -/
def RsFmt.ofCode (c : BitVec 2) : Option RsFmt :=
  match c.toNat with
  | 0 => some .rs8
  | 1 => some .rs16c
  | 2 => some .rs32c
  | _ => none

/-- The code of a `RsCond` (R192). -/
def RsCond.code : RsCond → BitVec 3
  | .empty => 0
  | .whole => 1
  | .zero => 2
  | .inf => 3
  | .exact => 4
  | .sub => 5
  | .meet => 6
/-- The `RsCond` of a code (R192). -/
def RsCond.ofCode (c : BitVec 3) : Option RsCond :=
  match c.toNat with
  | 0 => some .empty
  | 1 => some .whole
  | 2 => some .zero
  | 3 => some .inf
  | 4 => some .exact
  | 5 => some .sub
  | 6 => some .meet
  | _ => none

/-- The code of a `MFmt` (R219). -/
def MFmt.code : MFmt → BitVec 3
  | .f64 => 0
  | .f32 => 1
  | .f16 => 2
  | .bf16 => 3
  | .e5m2 => 4
  | .e4m3 => 5
  | .s8 => 6
  | .u8 => 7
/-- The `MFmt` of a code (R219). -/
def MFmt.ofCode (c : BitVec 3) : Option MFmt :=
  match c.toNat with
  | 0 => some .f64
  | 1 => some .f32
  | 2 => some .f16
  | 3 => some .bf16
  | 4 => some .e5m2
  | 5 => some .e4m3
  | 6 => some .s8
  | 7 => some .u8
  | _ => none

/-- The code of a `DrainFmt` (R218). -/
def DrainFmt.code : DrainFmt → BitVec 4
  | .f64 => 0
  | .f32 => 1
  | .f16 => 2
  | .bf16 => 3
  | .e5m2 => 4
  | .e4m3 => 5
  | .s64 => 8
  | .s32 => 10
/-- The `DrainFmt` of a code (R218). -/
def DrainFmt.ofCode (c : BitVec 4) : Option DrainFmt :=
  match c.toNat with
  | 0 => some .f64
  | 1 => some .f32
  | 2 => some .f16
  | 3 => some .bf16
  | 4 => some .e5m2
  | 5 => some .e4m3
  | 8 => some .s64
  | 10 => some .s32
  | _ => none

/-- The code of a `DrainKind` (R218). -/
def DrainKind.code : DrainKind → BitVec 2
  | .xa64 => 0
  | .xa128 => 1
  | .int => 2
/-- The `DrainKind` of a code (R218). -/
def DrainKind.ofCode (c : BitVec 2) : Option DrainKind :=
  match c.toNat with
  | 0 => some .xa64
  | 1 => some .xa128
  | 2 => some .int
  | _ => none

/-- The code of a `FenceOrd` (R301). -/
def FenceOrd.code : FenceOrd → BitVec 2
  | .acq => 1
  | .rel => 2
  | .ar => 3
/-- The `FenceOrd` of a code (R301). -/
def FenceOrd.ofCode (c : BitVec 2) : Option FenceOrd :=
  match c.toNat with
  | 1 => some .acq
  | 2 => some .rel
  | 3 => some .ar
  | _ => none

/-- The code of a `IpFmt` (R287). -/
def IpFmt.code : IpFmt → BitVec 2
  | .f64 => 0
  | .f32 => 1
  | .s64 => 2
  | .s32 => 3
/-- The `IpFmt` of a code (R287). -/
def IpFmt.ofCode (c : BitVec 2) : Option IpFmt :=
  match c.toNat with
  | 0 => some .f64
  | 1 => some .f32
  | 2 => some .s64
  | 3 => some .s32
  | _ => none

/-- The code of a `CollOp` (R372). -/
def CollOp.code : CollOp → BitVec 2
  | .add => 0
  | .min => 1
  | .max => 2
/-- The `CollOp` of a code (R372). -/
def CollOp.ofCode (c : BitVec 2) : Option CollOp :=
  match c.toNat with
  | 0 => some .add
  | 1 => some .min
  | 2 => some .max
  | _ => none

/-- The code of a `PairOp` (R27). -/
def PairOp.code : PairOp → BitVec 5
  | .add => 0
  | .sub => 1
  | .and => 2
  | .or => 3
  | .xor => 4
  | .andn => 5
  | .shl => 6
  | .shr => 7
  | .shrA => 8
  | .rot => 9
  | .min => 10
  | .max => 11
  | .minU => 12
  | .maxU => 13
  | .cmpEq => 14
  | .cmpLt => 15
  | .cmpLtu => 16
  | .sel => 17
  | .li => 18
  | .mul => 19
  | .clz => 20
  | .ffs => 21
  | .popc => 22
  | .plogAnd => 23
/-- The `PairOp` of a code (R27). -/
def PairOp.ofCode (c : BitVec 5) : Option PairOp :=
  match c.toNat with
  | 0 => some .add
  | 1 => some .sub
  | 2 => some .and
  | 3 => some .or
  | 4 => some .xor
  | 5 => some .andn
  | 6 => some .shl
  | 7 => some .shr
  | 8 => some .shrA
  | 9 => some .rot
  | 10 => some .min
  | 11 => some .max
  | 12 => some .minU
  | 13 => some .maxU
  | 14 => some .cmpEq
  | 15 => some .cmpLt
  | 16 => some .cmpLtu
  | 17 => some .sel
  | 18 => some .li
  | 19 => some .mul
  | 20 => some .clz
  | 21 => some .ffs
  | 22 => some .popc
  | 23 => some .plogAnd
  | _ => none
/-- The fields of a frame 00 word (R12). -/
structure Raw where
  op : BitVec 8
  gneg : Bool
  guard : BitVec 4
  kmask : BitVec 4
  hint : BitVec 2
  sched : BitVec 3
  mod : BitVec 4
  a : BitVec 6
  b : BitVec 6
  c : BitVec 6
  d : BitVec 6
  e : BitVec 6
  ext : BitVec 6
  deriving DecidableEq, Repr

/-- Bits [hi:lo] of a word, given as the low bit and the width. -/
def bits (w : Word) (lo n : Nat) : BitVec n := w.extractLsb' lo n

/-- The fields of a frame 00 word (R12). -/
def Raw.unpack (w : Word) : Raw where
  op := bits w 54 8
  gneg := w.getLsbD 53
  guard := bits w 49 4
  kmask := bits w 45 4
  hint := bits w 43 2
  sched := bits w 40 3
  mod := bits w 36 4
  a := bits w 30 6
  b := bits w 24 6
  c := bits w 18 6
  d := bits w 12 6
  e := bits w 6 6
  ext := bits w 0 6

/-- The frame 00 word of given fields (R12). -/
def Raw.pack (r : Raw) : Word :=
  (0 : BitVec 2) ++ r.op ++ BitVec.ofBool r.gneg ++ r.guard ++ r.kmask ++ r.hint ++ r.sched ++ r.mod ++
    r.a ++ r.b ++ r.c ++ r.d ++ r.e ++ r.ext

/-- The 24-bit immediate that stands in place of opc, opd, ope and ext (R12, R18). -/
def Raw.imm24 (r : Raw) : BitVec 24 := r.c ++ r.d ++ r.e ++ r.ext

/-- Put a 24-bit immediate in place of opc, opd, ope and ext. -/
def Raw.setImm24 (r : Raw) (i : BitVec 24) : Raw :=
  { r with c := i.extractLsb' 18 6, d := i.extractLsb' 12 6, e := i.extractLsb' 6 6, ext := i.extractLsb' 0 6 }

/-- Go on only when a field check holds (R17). -/
def need (c : Bool) (x : Option Instr) : Option Instr := if c then x else none

/-- kmask and hint are zero: no element mask and no memory access (R14, R15). -/
def Raw.plain (r : Raw) : Bool := r.kmask == 0 && r.hint == 0
/-- opd, ope and ext are zero. -/
def Raw.zDE (r : Raw) : Bool := r.d == 0 && r.e == 0 && r.ext == 0
/-- opc, opd, ope and ext are zero. -/
def Raw.zCDE (r : Raw) : Bool := r.c == 0 && r.zDE
/-- The register number of a field that names a predicate or a mask, when its bits [5:4] are zero (R17). -/
def low4 (f : BitVec 6) : Option (BitVec 4) := if f.toNat < 16 then some (f.setWidth 4) else none

/-- The second source of the forms of R97: mod[3] selects the immediate form. -/
def Raw.src (r : Raw) : Option Src :=
  if r.mod.getLsbD 3 then some (.imm r.imm24) else if r.zDE then some (.reg r.c) else none

/-- The scalar ALU forms with a variant bit (R97). -/
def decAluV (h : Hdr) (r : Raw) (mk : Hdr → Bool → Width → SReg → SReg → Src → Instr) : Option Instr := do
  let w ← Width.ofCode (r.mod.setWidth 2)
  let y ← r.src
  need r.plain (some (mk h (r.mod.getLsbD 2) w r.a r.b y))

/-- The scalar ALU forms whose V = 1 is illegal (R97). -/
def decAlu (h : Hdr) (r : Raw) (mk : Hdr → Width → SReg → SReg → Src → Instr) : Option Instr := do
  let w ← Width.ofCode (r.mod.setWidth 2)
  let y ← r.src
  need (r.plain && !r.mod.getLsbD 2) (some (mk h w r.a r.b y))

/-- CLZ, FFS and POPC (R101). -/
def decUn (h : Hdr) (r : Raw) (mk : Hdr → Width → SReg → SReg → Instr) : Option Instr := do
  let w ← Width.ofCode (r.mod.setWidth 2)
  need (r.plain && r.mod.toNat < 4 && r.zCDE) (some (mk h w r.a r.b))

/-- The second part of a scalar address in LEA: mod[1:0] is the scale of the index form (R103). -/
def Raw.leaAddr (r : Raw) : Option AddrSrc :=
  if r.mod.getLsbD 3 then (if r.mod.setWidth 2 == (0 : BitVec 2) then some (.off r.imm24) else none)
  else if r.zDE then some (.idx r.c (r.mod.setWidth 2)) else none

/-- The second part of a scalar address in the memory group: ext[1:0] is the scale of the index form (R116). -/
def Raw.memAddr (r : Raw) : Option AddrSrc :=
  if r.mod.getLsbD 3 then some (.off r.imm24)
  else if r.d == 0 && r.e == 0 && r.ext.toNat < 4 then some (.idx r.c (r.ext.setWidth 2)) else none

/-- The descriptor of EXT (R104). -/
def Raw.fieldSrc (r : Raw) : Option FieldSrc :=
  if r.mod.getLsbD 3 then (if r.c == 0 && r.d == 0 then some (.imm r.ext r.e) else none)
  else if r.zDE then some (.reg r.c) else none

/-- The operation bits of EXT (R104). -/
def extOpOf (r : Raw) : Option ExtOp :=
  match (r.mod.setWidth 3).toNat with
  | 0 => some .u
  | 4 => some .s
  | 1 => some .dep
  | _ => none

/-- The code of EXT's operation in mod[2:0] (R104). -/
def ExtOp.code : ExtOp → BitVec 3
  | .u => 0
  | .s => 4
  | .dep => 1

/-- Scalar integer, predicates and control (opcodes 0x00 to 0x25). -/
def decScalar (h : Hdr) (r : Raw) : Option Instr :=
  match r.op.toNat with
  | 0x00 => decAluV h r .add
  | 0x01 => decAluV h r .sub
  | 0x02 => decAluV h r .mul
  | 0x03 => decAluV h r .mulh
  | 0x04 => decAluV h r .div
  | 0x05 => decAluV h r .rem
  | 0x06 => decAlu h r .and
  | 0x07 => decAlu h r .or
  | 0x08 => decAlu h r .xor
  | 0x09 => decAlu h r .andn
  | 0x0A => decAlu h r .shl
  | 0x0B => decAluV h r .shr
  | 0x0C => decAluV h r .rot
  | 0x0D => decAluV h r .min
  | 0x0E => decAluV h r .max
  | 0x0F => do
    let c ← Cond.ofCode (r.mod.setWidth 3)
    let d ← low4 r.a
    let y ← r.src
    need r.plain (some (.cmp h c d r.b y))
  | 0x10 => do
    let g ← low4 r.d
    need (r.plain && r.mod == 0 && r.e == 0 && r.ext == 0) (some (.sel h r.a g r.b r.c))
  | 0x11 => decUn h r .clz
  | 0x12 => decUn h r .ffs
  | 0x13 => decUn h r .popc
  | 0x14 => need (r.plain && r.mod == 0 && r.b == 0) (some (.li h r.a r.imm24))
  | 0x15 => do
    let y ← r.leaAddr
    need r.plain (some (.lea h (r.mod.getLsbD 2) r.a r.b y))
  | 0x16 => do
    let op ← extOpOf r
    let y ← r.fieldSrc
    need r.plain (some (.ext h op r.a r.b y))
  | 0x20 => do
    let op ← LogOp.ofCode (r.mod.setWidth 3)
    let d ← low4 r.a
    let a ← low4 r.b
    let b ← low4 r.c
    need (r.plain && r.mod.toNat < 8 && r.zDE) (some (.plog h op d a b))
  | 0x21 =>
    need (r.plain && r.zCDE) <|
      match r.mod.toNat with
      | 0 => do
        let d ← low4 r.a
        some (.pmov h (.toPred d r.b))
      | 1 => do
        let b ← low4 r.b
        some (.pmov h (.fromPred r.a b))
      | 2 => need (r.b == 0) (some (.pmov h (.save r.a)))
      | 3 => need (r.a == 0) (some (.pmov h (.load r.b)))
      | _ => none
  | 0x22 => need (r.plain && r.mod == 0 && r.a == 0 && r.b == 0) (some (.br h r.imm24))
  | 0x23 => need (r.plain && r.mod == 0 && r.b == 0) (some (.jal h r.a r.imm24))
  | 0x24 => need (r.plain && r.mod == 0) (some (.jalr h r.a r.b r.imm24))
  | 0x25 => need (r.plain && r.mod == 0 && r.a == 0) (some (.loop h r.b (r.c ++ r.d) (r.e ++ r.ext)))
  | _ => none

/-- The format and rounding of a scalar FP instruction (R109). -/
def decFp (h : Hdr) (r : Raw) (mk : Hdr → SFmt → Rnd → SReg → SReg → SReg → Instr) : Option Instr := do
  let f ← SFmt.ofCode (r.mod.setWidth 2)
  let rnd ← Rnd.ofCode (r.ext.setWidth 3)
  need (r.plain && r.mod.toNat < 4 && r.ext.toNat < 8 && r.d == 0 && r.e == 0) (some (mk h f rnd r.a r.b r.c))

/-- FMIN and FMAX: no rounding (R110). -/
def decFpMin (h : Hdr) (r : Raw) (mk : Hdr → SFmt → SReg → SReg → SReg → Instr) : Option Instr := do
  let f ← SFmt.ofCode (r.mod.setWidth 2)
  need (r.plain && r.mod.toNat < 4 && r.zDE) (some (mk h f r.a r.b r.c))

/-- Scalar memory and scalar FP (opcodes 0x28 to 0x3A). -/
def decMemFp (h : Hdr) (r : Raw) : Option Instr :=
  match r.op.toNat with
  | 0x28 => do
    let hint ← Hint.ofCode r.hint
    let w ← Width.ofCode (r.mod.setWidth 2)
    let y ← r.memAddr
    need (r.kmask == 0) (some (.ld h hint (r.mod.getLsbD 2) w r.a r.b y))
  | 0x29 => do
    let hint ← Hint.ofCode r.hint
    let w ← Width.ofCode (r.mod.setWidth 2)
    let y ← r.memAddr
    need (r.kmask == 0 && !r.mod.getLsbD 2) (some (.st h hint w r.a r.b y))
  | 0x2A => do
    let hint ← Hint.ofCode r.hint
    let w ← Width.ofCode (r.mod.setWidth 2)
    let op ← AmoOp.ofCode (r.ext.setWidth 4)
    need (r.kmask == 0 && r.mod.toNat < 4 && r.ext.toNat < 16 && r.d == 0 && r.e == 0) (some (.amo h hint op w r.a r.b r.c))
  | 0x2B => do
    let hint ← Hint.ofCode r.hint
    let w ← Width.ofCode (r.mod.setWidth 2)
    need (r.kmask == 0 && r.mod.toNat < 4 && r.e == 0 && r.ext == 0) (some (.cas h hint w r.a r.b r.c r.d))
  | 0x2C => do
    let hint ← Hint.ofCode r.hint
    need (r.kmask == 0 && r.mod == 0 && r.e == 0 && r.ext == 0) (some (.cas128 h hint r.a r.b r.c r.d))
  | 0x2D => do
    let hint ← Hint.ofCode r.hint
    let lv ← PrefLevel.ofCode (r.mod.setWidth 2)
    let y ← r.memAddr
    need (r.kmask == 0 && !r.mod.getLsbD 2 && r.a == 0) (some (.pref h hint lv r.b y))
  | 0x30 => decFp h r .fadd
  | 0x31 => decFp h r .fsub
  | 0x32 => decFp h r .fmul
  | 0x33 => do
    let f ← SFmt.ofCode (r.mod.setWidth 2)
    let form ← FmaForm.ofCode (r.mod.extractLsb' 2 2)
    let rnd ← Rnd.ofCode (r.ext.setWidth 3)
    need (r.plain && r.ext.toNat < 8 && r.e == 0) (some (.ffma h form f rnd r.a r.b r.c r.d))
  | 0x34 => decFp h r .fdiv
  | 0x35 => need (r.c == 0) (decFp h r fun h f rnd d x _ => .fsqrt h f rnd d x)
  | 0x36 => decFpMin h r .fmin
  | 0x37 => decFpMin h r .fmax
  | 0x38 => do
    let f ← SFmt.ofCode (r.mod.setWidth 2)
    let c ← FCond.ofCode (r.ext.setWidth 3)
    let d ← low4 r.a
    need (r.plain && r.mod.toNat < 4 && r.ext.toNat < 8 && r.d == 0 && r.e == 0) (some (.fcmp h c f d r.b r.c))
  | 0x39 => do
    let dst ← CvtFmt.ofCode r.mod
    let c ← low4 r.c
    let src ← CvtFmt.ofCode c
    let rnd ← Rnd.ofCode (r.ext.setWidth 3)
    need (r.plain && r.ext.toNat < 8 && r.d == 0 && r.e == 0) (some (.fcvt h dst src rnd r.a r.b))
  | 0x3A => do
    let f ← SFmt.ofCode (r.mod.setWidth 2)
    need (r.plain && r.mod.toNat < 4 && r.zCDE) (some (.fclass h f r.a r.b))
  | _ => none

/-- A register or an immediate of n low bits, the rest of imm24 zero (R157, R243, R256). -/
def Raw.regOrImm (r : Raw) (n : Nat) : Option (RegOrImm n) :=
  if r.mod.getLsbD 3 then (if r.b == 0 && r.imm24.toNat < 2 ^ n then some (.imm (r.imm24.setWidth n)) else none)
  else if r.zCDE then some (.reg r.b) else none

/-- System and vector configuration (opcodes 0x40 to 0x54). -/
def decSystem (h : Hdr) (r : Raw) : Option Instr :=
  need r.plain <|
  match r.op.toNat with
  | 0x40 => need (r.mod == 0 && r.a == 0 && r.b == 0 && r.imm24.toNat < 2 ^ 16) (some (.trap h (r.imm24.setWidth 16)))
  | 0x41 =>
    need (r.a == 0 && r.b == 0 && r.zCDE) <|
      match r.mod.toNat with
      | 0 => some (.eret h)
      | 1 => some (.eretV h)
      | _ => none
  | 0x42 => need (r.mod == 0 && r.b == 0 && r.imm24.toNat < 2 ^ 12) (some (.ctlr h r.a (r.imm24.setWidth 12)))
  | 0x43 => need (r.mod == 0 && r.a == 0 && r.imm24.toNat < 2 ^ 12) (some (.ctlw h (r.imm24.setWidth 12) r.b))
  | 0x44 => need (r.mod == 0 && r.a == 0 && r.b == 0 && r.zCDE) (some (.halt h))
  | 0x45 => need (r.mod == 0 && r.a == 0 && r.b == 0 && r.zCDE) (some (.yield h))
  | 0x46 => need (r.mod == 0 && r.a == 0 && r.b == 0 && r.zCDE) (some (.nopre h))
  | 0x47 => need (r.mod == 0 && r.a == 0 && r.b == 0 && r.zCDE) (some (.preok h))
  | 0x48 => need (r.mod == 0 && r.zDE) (some (.launch h r.a r.b r.c))
  | 0x49 => need (r.mod == 0 && r.b == 0 && r.zCDE) (some (.movq h r.a))
  | 0x50 => do
    let n ← r.regOrImm 4
    need (r.mod == 0 || r.mod == 8) (some (.vclaim h r.a n))
  | 0x51 => do
    let n ← r.regOrImm 24
    need (!r.mod.getLsbD 1 && !r.mod.getLsbD 2) (some (.vsetvl h (r.mod.getLsbD 0) r.a n))
  | 0x52 => need (r.mod == 8 && r.a == 0 && r.b == 0 && r.imm24.toNat < 4) (some (.vconfig h (r.imm24.setWidth 2)))
  | 0x53 => do
    let v ← r.regOrImm 10
    need ((r.mod == 0 || r.mod == 8) && r.a == 0) (some (.vtype h v))
  | 0x54 =>
    match r.mod.toNat with
    | 0 => need (r.a == 0 && r.b == 0 && r.zCDE) (some (.mmodeOff h))
    | 8 => need (r.imm24.toNat < 32) (some (.mmode h r.a r.b (r.imm24.setWidth 5)))
    | _ => none
  | _ => none

/-- The operand y of a vector instruction: ext[5] is the scalar flag (R155). -/
def Raw.vsrc (r : Raw) : VSrc := if r.ext.getLsbD 5 then .scl r.c else .vec r.c

/-- The vector integer forms with a variant bit (R163). -/
def decVintV (h : Hdr) (r : Raw) (mk : Hdr → KReg → Bool → VReg → VReg → VSrc → Instr) : Option Instr :=
  need (r.hint == 0 && !r.mod.getLsbD 3 && r.mod.setWidth 2 == (0 : BitVec 2) && r.d == 0 && r.e == 0 && r.ext.setWidth 5 == (0 : BitVec 5))
    (some (mk h r.kmask (r.mod.getLsbD 2) r.a r.b r.vsrc))

/-- The vector integer forms whose V = 1 is illegal (R163). -/
def decVint (h : Hdr) (r : Raw) (mk : Hdr → KReg → VReg → VReg → VSrc → Instr) : Option Instr :=
  need (r.hint == 0 && r.mod == 0 && r.d == 0 && r.e == 0 && r.ext.setWidth 5 == (0 : BitVec 5))
    (some (mk h r.kmask r.a r.b r.vsrc))

/-- VCLZ, VFFS and VPOPC (R163). -/
def decVun (h : Hdr) (r : Raw) (mk : Hdr → KReg → VReg → VReg → Instr) : Option Instr :=
  need (r.hint == 0 && r.mod == 0 && r.zCDE) (some (mk h r.kmask r.a r.b))

/-- Vector integer (opcodes 0x58 to 0x67). -/
def decVecInt (h : Hdr) (r : Raw) : Option Instr :=
  match r.op.toNat with
  | 0x58 => decVintV h r .vadd
  | 0x59 => decVintV h r .vsub
  | 0x5A => decVintV h r .vmul
  | 0x5B => decVintV h r .vmulh
  | 0x5C => decVint h r .vand
  | 0x5D => decVint h r .vor
  | 0x5E => decVint h r .vxor
  | 0x5F => decVint h r .vshl
  | 0x60 => decVintV h r .vshr
  | 0x61 => decVintV h r .vmin
  | 0x62 => decVintV h r .vmax
  | 0x63 => do
    let c ← Cond.ofCode (r.mod.setWidth 3)
    let d ← low4 r.a
    need (r.hint == 0 && r.mod.toNat < 8 && r.d == 0 && r.e == 0 && r.ext.setWidth 5 == (0 : BitVec 5))
      (some (.vcmp h r.kmask c d r.b r.vsrc))
  | 0x64 => need (r.hint == 0 && r.mod == 0 && r.d == 0 && r.e == 0 && r.ext.setWidth 5 == (0 : BitVec 5))
      (some (.vsel h r.kmask r.a r.b r.vsrc))
  | 0x65 => decVun h r .vclz
  | 0x66 => decVun h r .vffs
  | 0x67 => decVun h r .vpopc
  | _ => none

/-- A vector FP form with rounding, and y from opc or a scalar (R165). -/
def decVfp (h : Hdr) (r : Raw) (mk : Hdr → KReg → FFmt → Rnd → VReg → VReg → VSrc → Instr) : Option Instr := do
  let f ← FFmt.ofCode (r.mod.setWidth 3)
  let rnd ← Rnd.ofCode (r.ext.setWidth 3)
  need (r.hint == 0 && r.mod.toNat < 8 && !r.ext.getLsbD 3 && !r.ext.getLsbD 4 && r.d == 0 && r.e == 0)
    (some (mk h r.kmask f rnd r.a r.b r.vsrc))

/-- VFDIV and VFSQRT: four formats only (R166). -/
def decVfpS (h : Hdr) (r : Raw) (mk : Hdr → KReg → SFmt → Rnd → VReg → VReg → VSrc → Instr) : Option Instr := do
  let f ← SFmt.ofCode (r.mod.setWidth 2)
  let rnd ← Rnd.ofCode (r.ext.setWidth 3)
  need (r.hint == 0 && r.mod.toNat < 4 && !r.ext.getLsbD 3 && !r.ext.getLsbD 4 && r.d == 0 && r.e == 0)
    (some (mk h r.kmask f rnd r.a r.b r.vsrc))

/-- VFMIN and VFMAX: no rounding (R166). -/
def decVfpMin (h : Hdr) (r : Raw) (mk : Hdr → KReg → FFmt → VReg → VReg → VSrc → Instr) : Option Instr := do
  let f ← FFmt.ofCode (r.mod.setWidth 3)
  need (r.hint == 0 && r.mod.toNat < 8 && r.ext.setWidth 5 == (0 : BitVec 5) && r.d == 0 && r.e == 0)
    (some (mk h r.kmask f r.a r.b r.vsrc))

/-- VFEXP2 to VFRSQ (R169). -/
def decVfun (h : Hdr) (r : Raw) (mk : Hdr → KReg → SFmt → VReg → VReg → Instr) : Option Instr := do
  let f ← SFmt.ofCode (r.mod.setWidth 2)
  need (r.hint == 0 && r.mod.toNat < 4 && r.zCDE) (some (mk h r.kmask f r.a r.b))

/-- Vector FP, narrow and mask (opcodes 0x68 to 0x7B). -/
def decVecFp (h : Hdr) (r : Raw) : Option Instr :=
  match r.op.toNat with
  | 0x68 => decVfp h r .vfadd
  | 0x69 => decVfp h r .vfsub
  | 0x6A => decVfp h r .vfmul
  | 0x6B => do
    let f ← FFmt.ofCode (r.mod.setWidth 3)
    let rnd ← Rnd.ofCode (r.ext.setWidth 3)
    let form ← FmaForm.ofCode (r.ext.extractLsb' 3 2)
    need (r.hint == 0 && r.mod.toNat < 8 && r.e == 0) (some (.vffma h r.kmask form f rnd r.a r.b r.vsrc r.d))
  | 0x6C => decVfpS h r .vfdiv
  | 0x6D => need (r.c == 0 && !r.ext.getLsbD 5) (decVfpS h r fun h k f rnd d x _ => .vfsqrt h k f rnd d x)
  | 0x6E => decVfpMin h r .vfmin
  | 0x6F => decVfpMin h r .vfmax
  | 0x70 => do
    let f ← FFmt.ofCode (r.mod.setWidth 3)
    let c ← FCond.ofCode (r.ext.setWidth 3)
    let d ← low4 r.a
    need (r.hint == 0 && r.mod.toNat < 8 && !r.ext.getLsbD 3 && !r.ext.getLsbD 4 && r.d == 0 && r.e == 0)
      (some (.vfcmp h r.kmask c f d r.b r.vsrc))
  | 0x71 => do
    let dst ← CvtFmt.ofCode r.mod
    let c ← low4 r.c
    let src ← CvtFmt.ofCode c
    let rnd ← Rnd.ofCode (r.ext.setWidth 3)
    need (r.hint == 0 && r.ext.toNat < 8 && r.d == 0 && r.e == 0) (some (.vfcvt h r.kmask dst src rnd r.a r.b))
  | 0x72 => decVfun h r .vfexp2
  | 0x73 => decVfun h r .vflog2
  | 0x74 => decVfun h r .vfrcp
  | 0x75 => decVfun h r .vfrsq
  | 0x78 => do
    let f ← QFmt.ofCode r.mod
    let t ← QType.ofCode (r.ext.extractLsb' 3 2)
    let rnd ← Rnd.ofCode (r.ext.setWidth 3)
    need (r.hint == 0 && r.ext.toNat < 32 && r.d == 0 && r.e == 0) (some (.vqpack h r.kmask t f rnd r.a r.b r.c))
  | 0x79 => do
    let f ← QFmt.ofCode r.mod
    let rnd ← Rnd.ofCode (r.ext.setWidth 3)
    need (r.hint == 0 && r.ext.toNat < 8 && r.d == 0 && r.e == 0) (some (.vqunpack h r.kmask f rnd r.a r.b r.c))
  | 0x7A => do
    let f ← ScaccSrc.ofCode r.mod
    let rnd ← Rnd.ofCode (r.ext.setWidth 3)
    need (r.hint == 0 && r.ext.toNat < 8 && r.d == 0 && r.e == 0) (some (.vscacc h r.kmask f rnd r.a r.b r.c))
  | 0x7B => do
    let op ← LogOp.ofCode (r.mod.setWidth 3)
    let d ← low4 r.a
    let a ← low4 r.b
    let b ← low4 r.c
    need (r.plain && r.mod.toNat < 8 && r.zDE) (some (.klog h op d a b))
  | _ => none

/-- The operation of VRED and VSCAN (R206): mod[3] is F, opd the rounding, ext the format and the op. -/
def Raw.redOp (r : Raw) : Option RedOp :=
  if r.mod.getLsbD 3 then do
    let f ← FFmt.ofCode (r.ext.extractLsb' 3 3)
    match (r.ext.setWidth 3).toNat with
    | 0 => do
      let rnd ← Rnd.ofCode (r.d.setWidth 3)
      if r.d.toNat < 8 then some (.fadd f rnd) else none
    | 1 => if r.d == 0 then some (.fmin f) else none
    | 2 => if r.d == 0 then some (.fmax f) else none
    | _ => none
  else if r.d == 0 && r.ext.toNat < 8 then (IntRed.ofCode (r.ext.setWidth 3)).map .int else none

/-- The fields of a reduction's operation: F, opd and ext (R206). -/
def RedOp.fields : RedOp → Bool × BitVec 6 × BitVec 6
  | .int op => (false, 0, op.code.setWidth 6)
  | .fadd f rnd => (true, rnd.code.setWidth 6, f.code ++ (0 : BitVec 3))
  | .fmin f => (true, 0, f.code ++ (1 : BitVec 3))
  | .fmax f => (true, 0, f.code ++ (2 : BitVec 3))

/-- Cross-lane and vector memory (opcodes 0x80 to 0x8E). -/
def decCross (h : Hdr) (r : Raw) : Option Instr :=
  match r.op.toNat with
  | 0x80 => do
    let op ← r.redOp
    need (r.hint == 0 && r.mod.setWidth 2 == (0 : BitVec 2) && r.c == 0 && r.e == 0) (some (.vred h r.kmask (r.mod.getLsbD 2) op r.a r.b))
  | 0x81 => do
    let op ← r.redOp
    need (r.hint == 0 && r.mod.setWidth 2 == (0 : BitVec 2) && r.c == 0 && r.e == 0) (some (.vscan h r.kmask (r.mod.getLsbD 2) op r.a r.b))
  | 0x82 => need (r.hint == 0 && r.mod.toNat < 2 && r.zCDE) (some (.vcomp h r.kmask (r.mod.getLsbD 0) r.a r.b))
  | 0x83 => need (r.hint == 0 && r.mod == 0 && r.zCDE) (some (.vexp h r.kmask r.a r.b))
  | 0x84 => do
    let iw ← IdxW.ofCode (r.mod.setWidth 2)
    need (r.hint == 0 && r.mod.toNat < 4 && r.zDE) (some (.vperm h r.kmask iw r.a r.b r.c))
  | 0x85 => do
    let n ← r.src
    need (r.hint == 0 && !r.mod.getLsbD 1 && !r.mod.getLsbD 2) (some (.vslide h r.kmask (r.mod.getLsbD 0) r.a r.b n))
  | 0x86 => do
    let n ← r.src
    need (r.hint == 0 && (r.mod == 0 || r.mod == 8)) (some (.vbcast h r.kmask r.a r.b n))
  | 0x87 => do
    let n ← r.src
    need (r.plain && (r.mod == 0 || r.mod == 8) && r.a == 0) (some (.vtos h r.b n))
  | 0x88 => do
    let hint ← Hint.ofCode r.hint
    let y ← r.src
    need (r.mod == 0 || r.mod == 8) (some (.vld h hint r.kmask r.a r.b y))
  | 0x89 => do
    let hint ← Hint.ofCode r.hint
    let y ← r.src
    need (r.mod == 0 || r.mod == 8) (some (.vlds h hint r.kmask r.a r.b y))
  | 0x8A => do
    let hint ← Hint.ofCode r.hint
    let iw ← IdxW.ofCode (r.mod.setWidth 2)
    need (r.mod.toNat < 8 && r.d == 0 && r.e == 0 && r.ext.toNat < 4)
      (some (.vldx h hint r.kmask (r.mod.getLsbD 2) iw (r.ext.setWidth 2) r.a r.b r.c))
  | 0x8B => do
    let hint ← Hint.ofCode r.hint
    let y ← r.src
    need (r.mod == 0 || r.mod == 8) (some (.vst h hint r.kmask r.a r.b y))
  | 0x8C => do
    let hint ← Hint.ofCode r.hint
    let y ← r.src
    need (r.mod == 0 || r.mod == 8) (some (.vsts h hint r.kmask r.a r.b y))
  | 0x8D => do
    let hint ← Hint.ofCode r.hint
    let iw ← IdxW.ofCode (r.mod.setWidth 2)
    need (r.mod.toNat < 8 && r.d == 0 && r.e == 0 && r.ext.toNat < 4)
      (some (.vstx h hint r.kmask (r.mod.getLsbD 2) iw (r.ext.setWidth 2) r.a r.b r.c))
  | 0x8E => do
    let hint ← Hint.ofCode r.hint
    need (r.mod == 0 && r.zCDE) (some (.vappend h hint r.kmask r.a r.b))
  | _ => none

/-- A binary ring-set form (R187). -/
def decRs2 (h : Hdr) (r : Raw) (mk : Hdr → KReg → RsFmt → BitVec 2 → VReg → VReg → VReg → Instr) : Option Instr := do
  let t ← RsFmt.ofCode (r.mod.setWidth 2)
  need (r.hint == 0 && r.mod.toNat < 4 && r.d == 0 && r.e == 0 && r.ext.toNat < 4) (some (mk h r.kmask t (r.ext.setWidth 2) r.a r.b r.c))

/-- A unary ring-set form (R187). -/
def decRs1 (h : Hdr) (r : Raw) (mk : Hdr → KReg → RsFmt → BitVec 2 → VReg → VReg → Instr) : Option Instr :=
  need (r.c == 0) (decRs2 h r fun h k t q d a _ => mk h k t q d a)

/-- Ring sets (opcodes 0x90 to 0x9C). -/
def decRing (h : Hdr) (r : Raw) : Option Instr :=
  match r.op.toNat with
  | 0x90 => do
    let hint ← Hint.ofCode r.hint
    need (r.kmask == 0 && r.mod == 0 && r.a == 0 && r.c == 0 && r.d == 0 && r.e == 0 && r.ext.toNat < 4)
      (some (.rsload h hint (r.ext.setWidth 2) r.b))
  | 0x91 => decRs2 h r .rsadd
  | 0x92 => decRs2 h r .rssub
  | 0x93 => decRs2 h r .rsmul
  | 0x94 => decRs2 h r .rsdiv
  | 0x95 => decRs1 h r .rsrcp
  | 0x96 => decRs1 h r .rssqr
  | 0x97 => decRs1 h r .rssqrt
  | 0x98 => decRs2 h r .rsunion
  | 0x99 => decRs2 h r .rsisect
  | 0x9A => do
    let t ← RsFmt.ofCode (r.mod.setWidth 2)
    let f ← SFmt.ofCode (r.ext.extractLsb' 2 2)
    need (r.hint == 0 && r.mod.toNat < 4 && r.d == 0 && r.e == 0 && r.ext.toNat < 16)
      (some (.rsfrom h r.kmask t f (r.ext.setWidth 2) r.a r.b r.c))
  | 0x9B => do
    let t ← RsFmt.ofCode (r.mod.setWidth 2)
    let f ← SFmt.ofCode (r.ext.extractLsb' 2 2)
    need (r.hint == 0 && r.mod.toNat < 8 && r.c == 0 && r.d == 0 && r.e == 0 && r.ext.toNat < 16)
      (some (.rsbnd h r.kmask (r.mod.getLsbD 2) t f (r.ext.setWidth 2) r.a r.b))
  | 0x9C => do
    let t ← RsFmt.ofCode (r.mod.setWidth 2)
    let c ← RsCond.ofCode (r.ext.extractLsb' 2 3)
    let d ← low4 r.a
    need (r.hint == 0 && r.mod.toNat < 4 && r.d == 0 && r.e == 0 && r.ext.toNat < 32)
      (some (.rstest h r.kmask c t (r.ext.setWidth 2) d r.b r.c))
  | _ => none

/-- Matrix, slate and copies (opcodes 0xA0 to 0xAA). -/
def decMatrix (h : Hdr) (r : Raw) : Option Instr :=
  need (r.kmask == 0) <|
  match r.op.toNat with
  | 0xA0 => do
    let t ← low4 r.a
    need (r.hint == 0 && r.ext == 0) <|
      if r.mod == 8 then some (.mopa h (.q4 r.d r.e) t r.b r.c)
      else do
        let f ← MFmt.ofCode (r.mod.setWidth 3)
        need (r.mod.toNat < 8 && r.d == 0 && r.e == 0) (some (.mopa h (.plain f) t r.b r.c))
  | 0xA1 => do
    let t ← low4 r.a
    let f ← MFmt.ofCode (r.mod.setWidth 3)
    need (r.hint == 0 && r.mod.toNat < 8 && r.e == 0 && r.ext == 0) (some (.mopag h f t r.b r.c r.d))
  | 0xA2 =>
    need (r.hint == 0 && r.b == 0 && r.zCDE) <|
      match r.mod.toNat with
      | 0 => do
        let t ← low4 r.a
        some (.mzero h (.one t))
      | 1 => need (r.a == 0) (some (.mzero h .all))
      | _ => none
  | 0xA3 => do
    let t ← low4 r.b
    need (r.hint == 0 && r.mod.toNat < 2 && r.zDE) (some (.mrd h (r.mod.getLsbD 0) r.a t r.c))
  | 0xA4 => do
    let t ← low4 r.a
    need (r.hint == 0 && r.mod.toNat < 2 && r.zDE) (some (.mwr h (r.mod.getLsbD 0) t r.b r.c))
  | 0xA5 => do
    let f ← DrainFmt.ofCode r.mod
    let kind ← DrainKind.ofCode (r.ext.extractLsb' 3 2)
    let t ← low4 r.b
    need (r.hint == 0 && r.d == 0 && r.e == 0 && !r.ext.getLsbD 1 && !r.ext.getLsbD 2 && !r.ext.getLsbD 5)
      (some (.mdrain h f kind (r.ext.getLsbD 0) r.a t r.c))
  | 0xA6 => do
    let hint ← Hint.ofCode r.hint
    let t ← low4 r.a
    need (r.mod == 0 && r.zDE) (some (.mldt h hint t r.b r.c))
  | 0xA7 => do
    let hint ← Hint.ofCode r.hint
    let t ← low4 r.a
    need (r.mod == 0 && r.zDE) (some (.mstt h hint t r.b r.c))
  | 0xA8 =>
    need (r.hint == 0 && r.a.toNat < 8) <|
      match r.mod.toNat with
      | 0 => need r.zCDE (some (.cpset h (r.a.setWidth 3) (.reg r.b)))
      | 8 => need (r.b == 0) (some (.cpset h (r.a.setWidth 3) (.imm r.imm24)))
      | _ => none
  | 0xA9 => do
    let hint ← Hint.ofCode r.hint
    need (r.mod == 0 && r.b == 0 && r.zCDE) (some (.cpgo h hint r.a))
  | 0xAA =>
    need (r.hint == 0 && r.a == 0 && r.imm24.toNat < 16) <|
      match r.mod.toNat with
      | 8 => some (.cpgang h (r.imm24.setWidth 4) r.b)
      | 9 => need (r.b == 0) (some (.cpgangOff h (r.imm24.setWidth 4)))
      | _ => none
  | _ => none

/-- The operand of BELL: imm24[23:8] when mod[3] is 1, a register when it is 0 (R256). -/
def Raw.bellOperand (r : Raw) (n : Nat) : Option (RegOrImm n) :=
  if r.mod.getLsbD 3 then
    (if r.b == 0 && (r.imm24.extractLsb' 8 16).toNat < 2 ^ n then some (.imm ((r.imm24.extractLsb' 8 16).setWidth n)) else none)
  else if r.imm24.toNat < 2 ^ 8 then some (.reg r.b) else none

/-- BELL (R256). -/
def decBell (h : Hdr) (r : Raw) : Option Instr :=
  match (r.mod.setWidth 3).toNat with
  | 0 => do
    let e ← r.bellOperand 16
    need (r.a == 0) (some (.bellInit h (r.imm24.setWidth 8) e))
  | 1 => need (!r.mod.getLsbD 3 && r.b == 0 && r.imm24.toNat < 2 ^ 8) (some (.bellArrive h r.a (r.imm24.setWidth 8)))
  | 2 => do
    let t ← r.bellOperand 1
    need (r.a == 0) (some (.bellWait h (r.imm24.setWidth 8) t))
  | 3 => need (!r.mod.getLsbD 3 && r.a == 0 && r.b == 0 && r.imm24.toNat < 2 ^ 8) (some (.bellSync h (r.imm24.setWidth 8)))
  | 4 => do
    let w ← r.bellOperand 3
    some (.bellRemote h r.a (r.imm24.setWidth 8) w)
  | _ => none

/-- The targets of FENCER (R301). -/
def Raw.fencerTgt (r : Raw) : Option FencerTgt :=
  match r.ext.toNat with
  | 0 => some (.sids r.b)
  | 1 => some (.win r.b)
  | 2 => if r.b == 0 then some .all else none
  | _ => none

/-- Synchronisation, settle and collectives (opcodes 0xB0 to 0xBC). -/
def decSync (h : Hdr) (r : Raw) : Option Instr :=
  need r.plain <|
  match r.op.toNat with
  | 0xB0 => decBell h r
  | 0xB1 => do
    let s ← Scope.ofCode (r.mod.setWidth 3)
    let o ← FenceOrd.ofCode (r.ext.setWidth 2)
    need (r.mod.toNat < 8 && r.a == 0 && r.b == 0 && r.c == 0 && r.d == 0 && r.e == 0 && r.ext.toNat < 4) (some (.fence h o s))
  | 0xB2 => need (r.mod == 0 && r.a == 0 && r.b == 0 && r.zCDE) (some (.fenceo h))
  | 0xB3 => do
    let s ← Scope.ofCode (r.mod.setWidth 3)
    let t ← r.fencerTgt
    need (r.mod.toNat < 8 && r.a == 0 && r.c == 0 && r.d == 0 && r.e == 0) (some (.fencer h s t))
  | 0xB4 => do
    let c ← low4 r.a
    let n ← r.regOrImm 17
    need (r.mod == 0 || r.mod == 8) (some (.waitlt h c n))
  | 0xB8 => do
    let n ← low4 r.ext
    need (r.mod == 0 && r.a == 0 && r.d == 0 && r.e == 0) (some (.settle h r.b r.c n))
  | 0xB9 => need (r.mod == 0 && r.a == 0 && r.zDE) (some (.renew h r.b r.c))
  | 0xBA => need (r.mod.toNat < 2 && r.zCDE) (some (.scount h (r.mod.getLsbD 0) r.a r.b))
  | 0xBB => do
    let f ← IpFmt.ofCode (r.mod.extractLsb' 2 2)
    let n ← low4 r.ext
    need (r.e == 0) <|
      match (r.mod.setWidth 2).toNat with
      | 0 => need (r.d == 0) (some (.ipopSum h f r.a r.b r.c n))
      | 1 => need (r.b == 0) (some (.ipopScale h f r.a r.c r.d n))
      | 2 => some (.ipopAxpy h f r.a r.b r.c r.d n)
      | _ => need (r.b == 0) (some (.ipopFill h f r.a r.c r.d n))
  | 0xBC => do
    let f ← IpFmt.ofCode (r.mod.extractLsb' 2 2)
    let op ← CollOp.ofCode (r.mod.setWidth 2)
    need (!r.ext.getLsbD 5 && r.e == 0 && (r.ext.getLsbD 4 || r.d == 0))
      (some (.coll h op f r.a r.b r.c (if r.ext.getLsbD 4 then some r.d else none) (r.ext.setWidth 4)))
  | _ => none

/-- The instruction of a frame 00 word's fields, before the checks of `Instr.fieldsOk`; none where the opcode is unassigned or a
field is undefined (R17, R31). -/
def decodeRaw (h : Hdr) (r : Raw) : Option Instr :=
  if r.op.toNat < 0x28 then decScalar h r
  else if r.op.toNat < 0x40 then decMemFp h r
  else if r.op.toNat < 0x58 then decSystem h r
  else if r.op.toNat < 0x68 then decVecInt h r
  else if r.op.toNat < 0x80 then decVecFp h r
  else if r.op.toNat < 0x90 then decCross h r
  else if r.op.toNat < 0xA0 then decRing h r
  else if r.op.toNat < 0xB0 then decMatrix h r
  else decSync h r

/-- One slot of a frame 01 word (R25); none for codes 24 to 31 and sched 6 to 7. -/
def decodeSlot (w : BitVec 31) : Option PairSlot := do
  let op ← PairOp.ofCode (w.extractLsb' 26 5)
  let sched ← Sched.ofCode (w.extractLsb' 0 3)
  some { op := op, guard := w.extractLsb' 22 4, dest := w.extractLsb' 16 6, src1 := w.extractLsb' 10 6,
         src2 := w.extractLsb' 4 6, imf := w.getLsbD 3, sched := sched }

/-- The bits of a slot (R25). -/
def PairSlot.pack (s : PairSlot) : BitVec 31 :=
  s.op.code ++ s.guard ++ s.dest ++ s.src1 ++ s.src2 ++ BitVec.ofBool s.imf ++ s.sched.code

/-- The kinds of prefix words (R19). -/
inductive PfxKind where | imm | ord | cls
  deriving DecidableEq, Repr

/-- A prefix word's kind and the prefixes with its payload added; none where the word is illegal (R19). -/
def decodePfx (p : Pfx) (w : Word) : Option (PfxKind × Pfx) :=
  match (bits w 58 4).toNat with
  | 0 => if (bits w 40 18).toNat == 0 then some (.imm, { p with imm := some (bits w 0 40) }) else none
  | 1 =>
    match Scope.ofCode (bits w 0 3), Order.ofCode (bits w 3 2) with
    | some s, some o => if (bits w 6 52).toNat == 0 then some (.ord, { p with ord := some ⟨w.getLsbD 5, o, s⟩ }) else none
    | _, _ => none
  | 2 =>
    match LineClass.ofCode (bits w 0 2) with
    | some c => if (bits w 2 56).toNat == 0 then some (.cls, { p with cls := some c }) else none
    | none => none
  | _ => none

/-- What a word adds to a unit: a further prefix, or the unit's end with what it decodes to (R20). -/
inductive ScanResult where
  | more (p : Pfx) (seen : List PfxKind)
  | bad (b : BadUnit)
  | good (i : Instr)
  deriving DecidableEq, Repr

/-- Whether an instruction accepts a prefix of this kind with this payload (R21). -/
def PfxKind.accepted (k : PfxKind) (p : Pfx) (a : Accepts) : Bool :=
  match k with
  | .imm => a.imm
  | .ord =>
    match p.ord with
    | some o => a.ord.allows o.order
    | none => true
  | .cls => a.cls

/-- The place in the unit of the first prefix the instruction does not accept (R29). -/
def firstMismatch (p : Pfx) (a : Accepts) : List PfxKind → Nat → Option Nat
  | [], _ => none
  | k :: ks, n => if k.accepted p a then firstMismatch p a ks (n + 1) else some n

/-- The prefixes of a unit that has none. -/
def Pfx.empty : Pfx := ⟨none, none, none⟩

/-- Read one word of a unit, after the prefixes already read (R20, R29, R30 items 2 to 6). -/
def scanWord (p : Pfx) (seen : List PfxKind) (w : Word) : ScanResult :=
  match (bits w 62 2).toNat with
  | 0 =>
    let r := Raw.unpack w
    match Sched.ofCode r.sched with
    | none => .bad ⟨.illegal, 0, w⟩
    | some sc =>
      match decodeRaw ⟨r.guard, r.gneg, sc, p⟩ r with
      | none => .bad ⟨.illegal, 0, w⟩
      | some i =>
        if i.fieldsOk then
          match firstMismatch p i.accepts seen 0 with
          | some n => .bad ⟨.mismatch, BitVec.ofNat 2 n, w⟩
          | none => .good i
        else .bad ⟨.illegal, 0, w⟩
  | 1 =>
    match decodeSlot (w.extractLsb' 31 31), decodeSlot (w.extractLsb' 0 31) with
    | some s0, some s1 =>
      if s0.fieldsOk && s1.fieldsOk then
        if bankOk s0 s1 then
          (if seen.isEmpty then .good (.pair s0 s1) else .bad ⟨.mismatch, 0, w⟩)
        else .bad ⟨.bank, BitVec.ofNat 2 seen.length, w⟩
      else .bad ⟨.illegal, BitVec.ofNat 2 seen.length, w⟩
    | _, _ => .bad ⟨.illegal, BitVec.ofNat 2 seen.length, w⟩
  | 2 =>
    match decodePfx p w with
    | none => .bad ⟨.illegal, 0, w⟩
    | some (k, p') => if seen.contains k then .bad ⟨.illegal, 0, w⟩ else .more p' (seen ++ [k])
  | _ => .bad ⟨.illegal, 0, w⟩

/-- Decode the unit at the head of a list of words: what it is and how many words it takes; none where the words end inside it. -/
def decodeFrom (p : Pfx) (seen : List PfxKind) : List Word → Option (ScanResult × Nat)
  | [] => none
  | w :: ws =>
    match scanWord p seen w with
    | .more p' seen' => decodeFrom p' seen' ws
    | r => some (r, seen.length + 1)

/-- Decode the unit at the head of a list of words. -/
def decodeUnit (ws : List Word) : Option (ScanResult × Nat) := decodeFrom Pfx.empty [] ws

/-- Decode an instruction from words; none where they are no legal unit. -/
def decode (ws : List Word) : Option Instr :=
  match decodeUnit ws with
  | some (.good i, _) => some i
  | _ => none

/-- A word from eight bytes, the lowest address first (R2, R11). -/
def wordOfBytes (b0 b1 b2 b3 b4 b5 b6 b7 : Byte) : Word := b7 ++ b6 ++ b5 ++ b4 ++ b3 ++ b2 ++ b1 ++ b0

/-- The whole words of a list of bytes, little-endian (R2, R11). -/
def wordsOfBytes : List Byte → List Word
  | b0 :: b1 :: b2 :: b3 :: b4 :: b5 :: b6 :: b7 :: rest => wordOfBytes b0 b1 b2 b3 b4 b5 b6 b7 :: wordsOfBytes rest
  | _ => []

/-- Decode an instruction from the bytes at its address. -/
def decodeBytes (bs : List Byte) : Option Instr := decode (wordsOfBytes bs)

/-- The words an instruction takes: its prefixes and its own word (R20). -/
def Instr.unitWords (i : Instr) : Nat :=
  match i.hdr? with
  | none => 1
  | some h => 1 + (if h.pfx.imm.isSome then 1 else 0) + (if h.pfx.ord.isSome then 1 else 0) + (if h.pfx.cls.isSome then 1 else 0)

/-- The four words that hold w, as the opcode table numbers its bits; nothing stands above nbits. -/
def tableWords (nbits w : Nat) : List Word :=
  let v := w % 2 ^ nbits
  [BitVec.ofNat 64 v, BitVec.ofNat 64 (v / 2 ^ 64), BitVec.ofNat 64 (v / 2 ^ 128), BitVec.ofNat 64 (v / 2 ^ 192)]

/-- The instruction the decoder reads from w, whose bits are numbered as the opcode table numbers them. -/
def decodeTableWord (nbits w : Nat) : Option Instr := decode (tableWords nbits w)

/-! The encoder, from the same tables. -/

/-- A word with the header's guard and scheduling code and every other field zero (R12). -/
def Raw.base (h : Hdr) (op : BitVec 8) : Raw :=
  ⟨op, h.gneg, h.guard, 0, 0, h.sched.code, 0, 0, 0, 0, 0, 0, 0⟩

/-- Put a scalar source in place: mod[3] and opc, or mod[3] and imm24 (R18, R97). -/
def Raw.putSrc (r : Raw) (m : BitVec 3) (y : Src) : Raw :=
  match y with
  | .reg c => { r with mod := BitVec.ofBool false ++ m, c := c }
  | .imm i => { r.setImm24 i with mod := BitVec.ofBool true ++ m }

/-- Put a scalar address in place: mod[3] and imm24, or opc and the scale in ext (R116). -/
def Raw.putAddr (r : Raw) (m : BitVec 3) (y : AddrSrc) : Raw :=
  match y with
  | .off i => { r.setImm24 i with mod := BitVec.ofBool true ++ m }
  | .idx c n => { r with mod := BitVec.ofBool false ++ m, c := c, ext := n.setWidth 6 }

/-- Put a register or a short immediate in place (R157, R243). -/
def Raw.putRegOrImm {n : Nat} (r : Raw) (m : BitVec 3) (y : RegOrImm n) : Raw :=
  match y with
  | .reg b => { r with mod := BitVec.ofBool false ++ m, b := b }
  | .imm i => { r.setImm24 (i.setWidth 24) with mod := BitVec.ofBool true ++ m }

/-- Put BELL's bell number and operand in place (R256). -/
def Raw.putBell {n : Nat} (r : Raw) (m : BitVec 3) (bell : BitVec 8) (y : RegOrImm n) : Raw :=
  match y with
  | .reg b => { r.setImm24 (bell.setWidth 24) with mod := BitVec.ofBool false ++ m, b := b }
  | .imm i => { r.setImm24 (i.setWidth 16 ++ bell) with mod := BitVec.ofBool true ++ m }

/-- opc and ext[5] of a vector operand y (R155). -/
def VSrc.fields : VSrc → BitVec 6 × Bool
  | .vec c => (c, false)
  | .scl c => (c, true)

/-- A predicate or mask number in a six-bit field (R17). -/
def wide (n : BitVec 4) : BitVec 6 := n.setWidth 6

/-- The variant and width bits of R97. -/
def modVW (v : Bool) (w : Width) : BitVec 3 := BitVec.ofBool v ++ w.code

/-- A scalar ALU word (R97). -/
def encAlu (h : Hdr) (op : BitVec 8) (v : Bool) (w : Width) (d x : SReg) (y : Src) : Raw :=
  { Raw.base h op with a := d, b := x }.putSrc (modVW v w) y

/-- A CLZ, FFS or POPC word (R101). -/
def encUn (h : Hdr) (op : BitVec 8) (w : Width) (d x : SReg) : Raw :=
  { Raw.base h op with mod := w.code.setWidth 4, a := d, b := x }

/-- A scalar FP word (R109). -/
def encFp (h : Hdr) (op : BitVec 8) (f : SFmt) (r : Rnd) (d x y : SReg) : Raw :=
  { Raw.base h op with mod := f.code.setWidth 4, a := d, b := x, c := y, ext := r.code.setWidth 6 }

/-- A vector integer word (R163). -/
def encVint (h : Hdr) (op : BitVec 8) (k : KReg) (v : Bool) (d x : VReg) (y : VSrc) : Raw :=
  { Raw.base h op with kmask := k, mod := (0 : BitVec 1) ++ BitVec.ofBool v ++ (0 : BitVec 2), a := d, b := x, c := y.fields.1,
                       ext := BitVec.ofBool y.fields.2 ++ (0 : BitVec 5) }

/-- A vector FP word (R165). -/
def encVfp (h : Hdr) (op : BitVec 8) (k : KReg) (f : BitVec 3) (r : BitVec 3) (d x : BitVec 6) (y : VSrc) : Raw :=
  { Raw.base h op with kmask := k, mod := f.setWidth 4, a := d, b := x, c := y.fields.1,
                       ext := BitVec.ofBool y.fields.2 ++ (0 : BitVec 2) ++ r }

/-- A one-operand vector word. -/
def encVun (h : Hdr) (op : BitVec 8) (k : KReg) (m : BitVec 4) (d x : VReg) : Raw :=
  { Raw.base h op with kmask := k, mod := m, a := d, b := x }

/-- A reduction or scan word (R206). -/
def encRed (h : Hdr) (op : BitVec 8) (k : KReg) (g : Bool) (o : RedOp) (d a : VReg) : Raw :=
  { Raw.base h op with kmask := k, mod := BitVec.ofBool o.fields.1 ++ BitVec.ofBool g ++ (0 : BitVec 2), a := d, b := a,
                       d := o.fields.2.1, ext := o.fields.2.2 }

/-- A contiguous or strided vector memory word (R197). -/
def encVmem (h : Hdr) (op : BitVec 8) (hint : Hint) (k : KReg) (v : VReg) (b : SReg) (y : Src) : Raw :=
  { Raw.base h op with kmask := k, hint := hint.code, a := v, b := b }.putSrc 0 y

/-- An indexed vector memory word (R197). -/
def encVidx (h : Hdr) (op : BitVec 8) (hint : Hint) (k : KReg) (s : Bool) (iw : IdxW) (n : BitVec 2) (v : VReg) (b : SReg) (i : VReg) : Raw :=
  { Raw.base h op with kmask := k, hint := hint.code, mod := (0 : BitVec 1) ++ BitVec.ofBool s ++ iw.code, a := v, b := b, c := i,
                       ext := n.setWidth 6 }

/-- A ring-set word (R187). -/
def encRs (h : Hdr) (op : BitVec 8) (k : KReg) (m : BitVec 4) (d a b : BitVec 6) (ext : BitVec 6) : Raw :=
  { Raw.base h op with kmask := k, mod := m, a := d, b := a, c := b, ext := ext }

/-- A word with operand fields and mod only. -/
def encRaw (h : Hdr) (op : BitVec 8) (m : BitVec 4) (a b c d e ext : BitVec 6) : Raw :=
  { Raw.base h op with mod := m, a := a, b := b, c := c, d := d, e := e, ext := ext }

/-- The fields of a frame 00 instruction's word (R12 and the encoding tables); none for pair words, illegal units and steps. -/
def encodeRaw : Instr → Option Raw
  | .add h v w d x y => some (encAlu h 0x00 v w d x y)
  | .sub h v w d x y => some (encAlu h 0x01 v w d x y)
  | .mul h v w d x y => some (encAlu h 0x02 v w d x y)
  | .mulh h v w d x y => some (encAlu h 0x03 v w d x y)
  | .div h v w d x y => some (encAlu h 0x04 v w d x y)
  | .rem h v w d x y => some (encAlu h 0x05 v w d x y)
  | .and h w d x y => some (encAlu h 0x06 false w d x y)
  | .or h w d x y => some (encAlu h 0x07 false w d x y)
  | .xor h w d x y => some (encAlu h 0x08 false w d x y)
  | .andn h w d x y => some (encAlu h 0x09 false w d x y)
  | .shl h w d x y => some (encAlu h 0x0A false w d x y)
  | .shr h v w d x y => some (encAlu h 0x0B v w d x y)
  | .rot h v w d x y => some (encAlu h 0x0C v w d x y)
  | .min h v w d x y => some (encAlu h 0x0D v w d x y)
  | .max h v w d x y => some (encAlu h 0x0E v w d x y)
  | .cmp h c d x y => some ({ Raw.base h 0x0F with a := wide d, b := x }.putSrc c.code y)
  | .sel h d g x y => some (encRaw h 0x10 0 d x y (wide g) 0 0)
  | .clz h w d x => some (encUn h 0x11 w d x)
  | .ffs h w d x => some (encUn h 0x12 w d x)
  | .popc h w d x => some (encUn h 0x13 w d x)
  | .li h d i => some ({ Raw.base h 0x14 with a := d }.setImm24 i)
  | .lea h va d b y =>
    some (match y with
      | .off i => { ({ Raw.base h 0x15 with a := d, b := b }.setImm24 i) with mod := BitVec.ofBool true ++ BitVec.ofBool va ++ (0 : BitVec 2) }
      | .idx c n => { Raw.base h 0x15 with mod := BitVec.ofBool false ++ BitVec.ofBool va ++ n, a := d, b := b, c := c })
  | .ext h op d b y =>
    some (match y with
      | .reg c => { Raw.base h 0x16 with mod := BitVec.ofBool false ++ op.code, a := d, b := b, c := c }
      | .imm pos len => { Raw.base h 0x16 with mod := BitVec.ofBool true ++ op.code, a := d, b := b, e := len, ext := pos })
  | .plog h op d a b => some (encRaw h 0x20 (op.code.setWidth 4) (wide d) (wide a) (wide b) 0 0 0)
  | .pmov h f =>
    some (match f with
      | .toPred d b => encRaw h 0x21 0 (wide d) b 0 0 0 0
      | .fromPred d b => encRaw h 0x21 1 d (wide b) 0 0 0 0
      | .save d => encRaw h 0x21 2 d 0 0 0 0 0
      | .load b => encRaw h 0x21 3 0 b 0 0 0 0)
  | .br h i => some ((Raw.base h 0x22).setImm24 i)
  | .jal h d i => some ({ Raw.base h 0x23 with a := d }.setImm24 i)
  | .jalr h d b i => some ({ Raw.base h 0x24 with a := d, b := b }.setImm24 i)
  | .loop h b start len => some ({ Raw.base h 0x25 with b := b }.setImm24 (start ++ len))
  | .ld h hint s w d b y => some ({ Raw.base h 0x28 with hint := hint.code, a := d, b := b }.putAddr (modVW s w) y)
  | .st h hint w v b y => some ({ Raw.base h 0x29 with hint := hint.code, a := v, b := b }.putAddr (modVW false w) y)
  | .amo h hint op w d b y => some ({ encRaw h 0x2A (w.code.setWidth 4) d b y 0 0 (op.code.setWidth 6) with hint := hint.code })
  | .cas h hint w d b x n => some ({ encRaw h 0x2B (w.code.setWidth 4) d b x n 0 0 with hint := hint.code })
  | .cas128 h hint d b x n => some ({ encRaw h 0x2C 0 d b x n 0 0 with hint := hint.code })
  | .pref h hint lv b y => some ({ Raw.base h 0x2D with hint := hint.code, b := b }.putAddr (BitVec.ofBool false ++ lv.code) y)
  | .fadd h f r d x y => some (encFp h 0x30 f r d x y)
  | .fsub h f r d x y => some (encFp h 0x31 f r d x y)
  | .fmul h f r d x y => some (encFp h 0x32 f r d x y)
  | .ffma h form f r d x y z => some (encRaw h 0x33 (form.code ++ f.code) d x y z 0 (r.code.setWidth 6))
  | .fdiv h f r d x y => some (encFp h 0x34 f r d x y)
  | .fsqrt h f r d x => some (encFp h 0x35 f r d x 0)
  | .fmin h f d x y => some (encRaw h 0x36 (f.code.setWidth 4) d x y 0 0 0)
  | .fmax h f d x y => some (encRaw h 0x37 (f.code.setWidth 4) d x y 0 0 0)
  | .fcmp h c f d x y => some (encRaw h 0x38 (f.code.setWidth 4) (wide d) x y 0 0 (c.code.setWidth 6))
  | .fcvt h dst src r d x => some (encRaw h 0x39 dst.code d x (wide src.code) 0 0 (r.code.setWidth 6))
  | .fclass h f d x => some (encRaw h 0x3A (f.code.setWidth 4) d x 0 0 0 0)
  | .trap h code => some ((Raw.base h 0x40).setImm24 (code.setWidth 24))
  | .eret h => some (encRaw h 0x41 0 0 0 0 0 0 0)
  | .eretV h => some (encRaw h 0x41 1 0 0 0 0 0 0)
  | .ctlr h d n => some ({ Raw.base h 0x42 with a := d }.setImm24 (n.setWidth 24))
  | .ctlw h n b => some ({ Raw.base h 0x43 with b := b }.setImm24 (n.setWidth 24))
  | .halt h => some (Raw.base h 0x44)
  | .yield h => some (Raw.base h 0x45)
  | .nopre h => some (Raw.base h 0x46)
  | .preok h => some (Raw.base h 0x47)
  | .launch h d b l => some (encRaw h 0x48 0 d b l 0 0 0)
  | .movq h d => some (encRaw h 0x49 0 d 0 0 0 0 0)
  | .pair _ _ => none
  | .illegalUnit _ => none
  | .vclaim h d n => some ({ Raw.base h 0x50 with a := d }.putRegOrImm 0 n)
  | .vsetvl h claim d n => some ({ Raw.base h 0x51 with a := d }.putRegOrImm ((0 : BitVec 2) ++ BitVec.ofBool claim) n)
  | .vconfig h nv => some ({ ((Raw.base h 0x52).setImm24 (nv.setWidth 24)) with mod := 8 })
  | .vtype h v => some ((Raw.base h 0x53).putRegOrImm 0 v)
  | .mmode h d b t => some ({ ({ Raw.base h 0x54 with a := d, b := b }.setImm24 (t.setWidth 24)) with mod := 8 })
  | .mmodeOff h => some (Raw.base h 0x54)
  | .vadd h k v d x y => some (encVint h 0x58 k v d x y)
  | .vsub h k v d x y => some (encVint h 0x59 k v d x y)
  | .vmul h k v d x y => some (encVint h 0x5A k v d x y)
  | .vmulh h k v d x y => some (encVint h 0x5B k v d x y)
  | .vand h k d x y => some (encVint h 0x5C k false d x y)
  | .vor h k d x y => some (encVint h 0x5D k false d x y)
  | .vxor h k d x y => some (encVint h 0x5E k false d x y)
  | .vshl h k d x y => some (encVint h 0x5F k false d x y)
  | .vshr h k v d x y => some (encVint h 0x60 k v d x y)
  | .vmin h k v d x y => some (encVint h 0x61 k v d x y)
  | .vmax h k v d x y => some (encVint h 0x62 k v d x y)
  | .vcmp h k c d x y => some ({ encVint h 0x63 k false (wide d) x y with mod := c.code.setWidth 4 })
  | .vsel h m d x y => some (encVint h 0x64 m false d x y)
  | .vclz h k d x => some (encVun h 0x65 k 0 d x)
  | .vffs h k d x => some (encVun h 0x66 k 0 d x)
  | .vpopc h k d x => some (encVun h 0x67 k 0 d x)
  | .vfadd h k f r d x y => some (encVfp h 0x68 k f.code r.code d x y)
  | .vfsub h k f r d x y => some (encVfp h 0x69 k f.code r.code d x y)
  | .vfmul h k f r d x y => some (encVfp h 0x6A k f.code r.code d x y)
  | .vffma h k form f r d x y z => some ({ encVfp h 0x6B k f.code r.code d x y with d := z, ext := BitVec.ofBool y.fields.2 ++ form.code ++ r.code })
  | .vfdiv h k f r d x y => some (encVfp h 0x6C k (f.code.setWidth 3) r.code d x y)
  | .vfsqrt h k f r d x => some (encVfp h 0x6D k (f.code.setWidth 3) r.code d x (.vec 0))
  | .vfmin h k f d x y => some (encVfp h 0x6E k f.code 0 d x y)
  | .vfmax h k f d x y => some (encVfp h 0x6F k f.code 0 d x y)
  | .vfcmp h k c f d x y => some (encVfp h 0x70 k f.code c.code (wide d) x y)
  | .vfcvt h k dst src r d x => some ({ encVun h 0x71 k dst.code d x with c := wide src.code, ext := r.code.setWidth 6 })
  | .vfexp2 h k f d x => some (encVun h 0x72 k (f.code.setWidth 4) d x)
  | .vflog2 h k f d x => some (encVun h 0x73 k (f.code.setWidth 4) d x)
  | .vfrcp h k f d x => some (encVun h 0x74 k (f.code.setWidth 4) d x)
  | .vfrsq h k f d x => some (encVun h 0x75 k (f.code.setWidth 4) d x)
  | .vqpack h k t f r d s a => some ({ encVun h 0x78 k f.code d s with c := a, ext := (0 : BitVec 1) ++ t.code ++ r.code })
  | .vqunpack h k f r d a s => some ({ encVun h 0x79 k f.code d a with c := s, ext := r.code.setWidth 6 })
  | .vscacc h k src r d a s => some ({ encVun h 0x7A k src.code d a with c := s, ext := r.code.setWidth 6 })
  | .klog h op d a b => some (encRaw h 0x7B (op.code.setWidth 4) (wide d) (wide a) (wide b) 0 0 0)
  | .vred h k grp op d a => some (encRed h 0x80 k grp op d a)
  | .vscan h k ex op d a => some (encRed h 0x81 k ex op d a)
  | .vcomp h k cnt d a => some (encVun h 0x82 k ((0 : BitVec 3) ++ BitVec.ofBool cnt) d a)
  | .vexp h k d a => some (encVun h 0x83 k 0 d a)
  | .vperm h k iw d a i => some ({ encVun h 0x84 k (iw.code.setWidth 4) d a with c := i })
  | .vslide h k down d a n => some ({ Raw.base h 0x85 with kmask := k, a := d, b := a }.putSrc ((0 : BitVec 2) ++ BitVec.ofBool down) n)
  | .vbcast h k d a n => some ({ Raw.base h 0x86 with kmask := k, a := d, b := a }.putSrc 0 n)
  | .vtos h a n => some ({ Raw.base h 0x87 with b := a }.putSrc 0 n)
  | .vld h hint k d b off => some (encVmem h 0x88 hint k d b off)
  | .vlds h hint k d b stride => some (encVmem h 0x89 hint k d b stride)
  | .vldx h hint k s iw n d b i => some (encVidx h 0x8A hint k s iw n d b i)
  | .vst h hint k v b off => some (encVmem h 0x8B hint k v b off)
  | .vsts h hint k v b stride => some (encVmem h 0x8C hint k v b stride)
  | .vstx h hint k s iw n v b i => some (encVidx h 0x8D hint k s iw n v b i)
  | .vappend h hint k v b => some (encVmem h 0x8E hint k v b (.reg 0))
  | .rsload h hint q b => some ({ encRaw h 0x90 0 0 b 0 0 0 (q.setWidth 6) with hint := hint.code })
  | .rsadd h k t q d a b => some (encRs h 0x91 k (t.code.setWidth 4) d a b (q.setWidth 6))
  | .rssub h k t q d a b => some (encRs h 0x92 k (t.code.setWidth 4) d a b (q.setWidth 6))
  | .rsmul h k t q d a b => some (encRs h 0x93 k (t.code.setWidth 4) d a b (q.setWidth 6))
  | .rsdiv h k t q d a b => some (encRs h 0x94 k (t.code.setWidth 4) d a b (q.setWidth 6))
  | .rsrcp h k t q d a => some (encRs h 0x95 k (t.code.setWidth 4) d a 0 (q.setWidth 6))
  | .rssqr h k t q d a => some (encRs h 0x96 k (t.code.setWidth 4) d a 0 (q.setWidth 6))
  | .rssqrt h k t q d a => some (encRs h 0x97 k (t.code.setWidth 4) d a 0 (q.setWidth 6))
  | .rsunion h k t q d a b => some (encRs h 0x98 k (t.code.setWidth 4) d a b (q.setWidth 6))
  | .rsisect h k t q d a b => some (encRs h 0x99 k (t.code.setWidth 4) d a b (q.setWidth 6))
  | .rsfrom h k t f q d a b => some (encRs h 0x9A k (t.code.setWidth 4) d a b ((0 : BitVec 2) ++ f.code ++ q))
  | .rsbnd h k hi t f q d a => some (encRs h 0x9B k ((0 : BitVec 1) ++ BitVec.ofBool hi ++ t.code) d a 0 ((0 : BitVec 2) ++ f.code ++ q))
  | .rstest h k c t q d a b => some (encRs h 0x9C k (t.code.setWidth 4) (wide d) a b ((0 : BitVec 1) ++ c.code ++ q))
  | .mopa h form t a b =>
    some (match form with
      | .plain f => encRaw h 0xA0 (f.code.setWidth 4) (wide t) a b 0 0 0
      | .q4 vsa vsb => encRaw h 0xA0 8 (wide t) a b vsa vsb 0)
  | .mopag h f t a b n => some (encRaw h 0xA1 (f.code.setWidth 4) (wide t) a b n 0 0)
  | .mzero h z =>
    some (match z with
      | .one t => encRaw h 0xA2 0 (wide t) 0 0 0 0 0
      | .all => encRaw h 0xA2 1 0 0 0 0 0 0)
  | .mrd h col d t c => some (encRaw h 0xA3 ((0 : BitVec 3) ++ BitVec.ofBool col) d (wide t) c 0 0 0)
  | .mwr h col t a c => some (encRaw h 0xA4 ((0 : BitVec 3) ++ BitVec.ofBool col) (wide t) a c 0 0 0)
  | .mdrain h f kind col d t c => some (encRaw h 0xA5 f.code d (wide t) c 0 0 ((0 : BitVec 1) ++ kind.code ++ (0 : BitVec 2) ++ BitVec.ofBool col))
  | .mldt h hint t b c => some ({ encRaw h 0xA6 0 (wide t) b c 0 0 0 with hint := hint.code })
  | .mstt h hint t b c => some ({ encRaw h 0xA7 0 (wide t) b c 0 0 0 with hint := hint.code })
  | .cpset h n y =>
    some (match y with
      | .reg b => encRaw h 0xA8 0 (n.setWidth 6) b 0 0 0 0
      | .imm i => { ({ Raw.base h 0xA8 with a := n.setWidth 6 }.setImm24 i) with mod := 8 })
  | .cpgo h hint d => some ({ Raw.base h 0xA9 with hint := hint.code, a := d })
  | .cpgang h g b => some ({ ({ Raw.base h 0xAA with b := b }.setImm24 (g.setWidth 24)) with mod := 8 })
  | .cpgangOff h g => some ({ ((Raw.base h 0xAA).setImm24 (g.setWidth 24)) with mod := 9 })
  | .bellInit h n e => some ((Raw.base h 0xB0).putBell 0 n e)
  | .bellArrive h d n => some ({ ({ Raw.base h 0xB0 with a := d }.setImm24 (n.setWidth 24)) with mod := 1 })
  | .bellWait h n t => some ((Raw.base h 0xB0).putBell 2 n t)
  | .bellSync h n => some ({ ((Raw.base h 0xB0).setImm24 (n.setWidth 24)) with mod := 3 })
  | .bellRemote h d n w => some ({ Raw.base h 0xB0 with a := d }.putBell 4 n w)
  | .waitlt h c n => some ({ Raw.base h 0xB4 with a := wide c }.putRegOrImm 0 n)
  | .fence h o s => some (encRaw h 0xB1 (s.code.setWidth 4) 0 0 0 0 0 (o.code.setWidth 6))
  | .fenceo h => some (Raw.base h 0xB2)
  | .fencer h s t =>
    some (match t with
      | .sids b => encRaw h 0xB3 (s.code.setWidth 4) 0 b 0 0 0 0
      | .win b => encRaw h 0xB3 (s.code.setWidth 4) 0 b 0 0 0 1
      | .all => encRaw h 0xB3 (s.code.setWidth 4) 0 0 0 0 0 2)
  | .settle h b c n => some (encRaw h 0xB8 0 0 b c 0 0 (wide n))
  | .renew h b c => some (encRaw h 0xB9 0 0 b c 0 0 0)
  | .scount h clr d b => some (encRaw h 0xBA ((0 : BitVec 3) ++ BitVec.ofBool clr) d b 0 0 0 0)
  | .ipopSum h f x y c n => some (encRaw h 0xBB (f.code ++ (0 : BitVec 2)) x y c 0 0 (wide n))
  | .ipopScale h f x c a n => some (encRaw h 0xBB (f.code ++ (1 : BitVec 2)) x 0 c a 0 (wide n))
  | .ipopAxpy h f x y c a n => some (encRaw h 0xBB (f.code ++ (2 : BitVec 2)) x y c a 0 (wide n))
  | .ipopFill h f x c a n => some (encRaw h 0xBB (f.code ++ (3 : BitVec 2)) x 0 c a 0 (wide n))
  | .coll h op f x y c det n =>
    some (match det with
      | none => encRaw h 0xBC (f.code ++ op.code) x y c 0 0 (wide n)
      | some t => encRaw h 0xBC (f.code ++ op.code) x y c t 0 ((0 : BitVec 1) ++ BitVec.ofBool true ++ n))
  | .sqWaitEnd _ => none
  | .vclaimGrant _ => none
  | .tileGrant _ => none
  | .bellWaitRelease _ => none
  | .remoteArrival _ => none
  | .waitltRelease _ => none
  | .vectorBeat _ _ => none
  | .beatCommit _ => none
  | .vectorTrap _ => none
  | .xqPost _ => none
  | .matrixComplete _ => none
  | .rsloadCommit _ => none
  | .gangConsume _ => none
  | .transferChunk _ _ _ => none
  | .transferComplete _ _ => none
  | .copyFault _ => none
  | .settleLineStep _ _ _ => none
  | .ipopSector _ _ _ => none
  | .ipopComplete _ _ => none
  | .collLanding _ _ => none
  | .readAhead _ _ => none
  | .egressStep _ _ => none
  | .performStep _ _ => none
  | .fillRequest _ => none
  | .fillInstall _ _ => none
  | .rs _ _ => none
  | .rx _ _ => none
  | .wb _ _ => none
  | .dr _ _ => none
  | .at _ => none
  | .applyStep _ _ => none
  | .recall _ => none
  | .retire _ => none
  | .hostSnoop _ => none
  | .cxlMemRequest _ _ => none
  | .pcieCompletion _ _ => none
  | .completionTimeout _ => none
  | .postedWriteFailure _ => none
  | .hostLinkUp _ _ _ _ => none
  | .packetForward _ _ => none
  | .flitReplay _ _ => none
  | .peerLinkDown _ _ => none
  | .peerLinkUp _ _ _ => none
  | .peerPackageLost _ => none
  | .hallDieLost _ => none
  | .rollCallStep => none
  | .rollStallTimeout _ => none
  | .hrollAdv => none
  | .tick => none
  | .scrub _ => none
  | .vbondRepair _ => none
  | .vbctlGo _ => none
  | .l2wqWrite _ _ => none
  | .tlbicGo _ _ => none
  | .tlbiDone _ => none
  | .fresRetry _ _ => none
  | .fresDeliver _ _ => none
  | .fresEnd _ _ => none
  | .llctlWrite _ _ => none
  | .recordConsume _ => none
  | .launchPlacement _ => none
  | .placementRequest _ => none
  | .plres _ _ => none
  | .launchComplete _ => none
  | .launchEnd _ => none
  | .recess _ _ => none
  | .resume _ _ => none
  | .holdExpiry _ => none
  | .thermalThreshold _ _ _ => none
  | .tempBelowThr _ _ _ => none
  | .dieOvertemp _ _ => none
  | .powerWindow _ => none
  | .hostQueueAppend => none
  | .dutyWrite _ => none
  | .eresResume _ => none
  | .eresEnd _ => none
  | .trapRegisterWrite _ _ _ => none
  | .attctlGo _ => none
  | .attestationDone => none
  | .pwrlimWrite _ => none
  | .moduleReset => none
  | .almanacUpdate _ => none
  | .registerWrite _ _ => none

/-- An ORD prefix word (R19). -/
def encOrd (o : OrdPayload) : Word :=
  (2 : BitVec 2) ++ (1 : BitVec 4) ++ (0 : BitVec 52) ++ BitVec.ofBool o.strong ++ o.order.code ++ o.scope.code

/-- The prefix words of a unit, in the order IMM, ORD, CLASS (R19, R20). -/
def encPfx (p : Pfx) : List Word :=
  (match p.imm with
    | none => []
    | some i => [(2 : BitVec 2) ++ (0 : BitVec 4) ++ (0 : BitVec 18) ++ i]) ++
  (match p.ord with
    | none => []
    | some o => [encOrd o]) ++
  (match p.cls with
    | none => []
    | some c => [(2 : BitVec 2) ++ (2 : BitVec 4) ++ (0 : BitVec 56) ++ c.code])

/-- The words of an instruction; none for an illegal unit and for the steps of other agents, which no words name. -/
def encode (i : Instr) : Option (List Word) :=
  match i with
  | .pair s0 s1 => some [(1 : BitVec 2) ++ s0.pack ++ s1.pack]
  | i =>
    match i.hdr?, encodeRaw i with
    | some h, some r => some (encPfx h.pfx ++ [r.pack])
    | _, _ => none

end Sys2Proof
end

