-- ==== Sys2Proof/Config.lean ====
section
/-! DEFINITION. What the spec leaves open and the machine goes on with: free values, constants with no body. Nothing constrains them. -/
namespace Sys2Proof.Config

/-- A free value: the argument is the step's own counter `State.fresh`, so each use is a fresh value. It stands for the cells of tiles just
taken (assumption 4, R142), the bytes of a faulted copy (assumption 6, R252), what the host or a peer wrote (assumption 13), and the
choices among several outcomes that a rule allows (`State.anyOf`). -/
opaque freeNat : Nat → Nat

/-- VFEXP2, VFLOG2, VFRCP and VFRSQ for f64 and f32 where R169 gives a bound and no value (assumption 5): `op` is 0 to 3 in that
order, `wide` is true for f64, and `x` the operand's bits. The value is a fixed function of the operand (R169). -/
opaque transcendental : (op : Nat) → (wide : Bool) → (x : Nat) → Nat

/-- The SHAKE256 digest, 64 bytes, of bytes (assumption 7; R358, R359). -/
opaque shake256 : List Byte → Nat

/-- Whether a firmware image's Falcon-1024 signature is valid at a reset (assumption 7; R358): by image and by the count of resets. -/
opaque imageValid : Nat → Nat → Bool

/-- The digest of a firmware image (assumption 7; R359). -/
opaque imageDigest : Nat → Nat

/-- The identity signature over a digest, in padded form, 1,280 bytes (assumption 7; R359). -/
opaque identitySign : Nat → Nat

/-- The bytes of almanac record 9: the public key and its certificate (assumption 7; R359, R360). -/
opaque identityKey : List Byte

/-- The version of an almanac record, by its id, which R360 does not give (assumption 16). -/
opaque almanacVersion : Nat → Nat

/-- The firmware-state doubleword of almanac record 8, by 0 or one more than the number of the failed image (assumption 16; R358). -/
opaque firmwareState : Nat → Nat

/-- The version in an attestation report, which R359 does not give (assumption 16). -/
opaque reportVersion : Nat

/-- Device memory after the module reset numbered n, which R278 leaves unspecified (assumption 3): addresses with their bytes. -/
opaque resetCells : Nat → List (Nat × Byte)

end Sys2Proof.Config
end

