-- ==== Sys2Proof/Machine/State.lean ====
section
/-! DEFINITION. The state of the package, as plain data: every register, queue, cache, table and store the spec names, the machine right
after module reset, and the reasons a step can stop. -/
namespace Sys2Proof.Machine

/-- Why the machine stops. -/
inductive Fault where
  /-- Raised by a strand's turn or an event on a die that a triple tag error has stopped (R276: the die stops and the Preber
  reports a die failure); safe, since the spec gives the stopped die no further behaviour. -/
  | dieStopped (d : DieId)
  deriving DecidableEq, Repr

/-- Why an instruction has no meaning. -/
inductive Refusal where
  /-- Raised by an arm of `exec` whose instruction has no meaning yet; safe. -/
  | notModelled (mnemonic : String)
  deriving DecidableEq, Repr

/-- Bytes by address, in canonical form: addresses strictly rising, no byte equal to what an unlisted address reads as. -/
abbrev Memory := List Host.Cell

/-! ## A strand -/

/-- One hardware loop level (R63). -/
structure LoopLevel where
  n : Word
  start : Word
  stop : Word
  iter : Word
  deriving DecidableEq, Repr

/-- Where an access is performed: a byte of the local memory of the core at logical index `core` of a launch (R237, R239), or a
physical address (R260). -/
inductive Place where
  | loc (lid : BitVec 32) (core : Nat) (off : Nat)
  | phys (pa : Nat)
  deriving DecidableEq, Repr

/-- What a leaf and the instruction say of an access (R265, R267 to R270, R15, R22). -/
structure Attr where
  mkind : BitVec 2
  ut : Bool
  sl : Bool
  pk : Bool
  lt : BitVec 8
  cls : LineClass
  hint : Hint
  deriving DecidableEq, Repr

/-- A translated access: its place and its attributes. -/
structure Target where
  place : Place
  attr : Attr
  deriving DecidableEq, Repr

/-- An entry of a strand's store buffer (R119, R292). -/
structure SbEntry where
  tgt : Target
  n : Nat
  val : Nat
  age : Nat
  rel : Bool
  strong : Bool
  scope : Scope
  va : Word
  deriving DecidableEq, Repr

/-- A read that a load unit, or a sector of an IPOP sum, has taken ahead of its issue (R289, R294): for the unit at `pc` when the strand comes
there for the `nth` time from now, with the registers that its address comes from. `overtaken` are the strand's own transfers that have
written these bytes since, by key while they are in flight, each with its counter (R251), and `brought` says that the read took its effects
then. -/
structure Ahead where
  pc : Word
  nth : Nat
  part : Option Nat
  addr : Word
  n : Nat
  val : Nat
  regs : List SReg
  place : Place
  strong : Bool
  overtaken : List (Option (BitVec 32) × CtrNo)
  brought : Bool
  deriving DecidableEq, Repr

/-- A relaxed SCOUNT that has issued and whose value is not yet returned (R289): its address, its destination and its region. -/
structure LateCount where
  pc : Word
  d : SReg
  region : Nat
  deriving DecidableEq, Repr

/-- What a vector or matrix instruction captures when it issues (R59). -/
structure Captured where
  vl : Nat
  mvl : Nat
  vtype : Word
  rm : BitVec 3
  en : BitVec 5
  slip : Nat
  x : Word
  y : Word
  deriving DecidableEq, Repr

/-- A ring: its size and its positive finite values, as binary64 bits (R177, R179, R181). -/
structure Ring where
  n : Nat
  vals : List Word
  deriving DecidableEq, Repr

/-- An entry of VQ (R60, R62), with the state its rules keep in it: the next commit group to start, a VAPPEND's old tail,
data base and acceptance (R205), a VSCAN's carry and partial (R209); `mark` is the age below
which store-buffer entries are older than it (R203), `skip` the count of its first elements that were done before a recess (R347), `snap`
holds source registers that its own packed results overlap, as they were before its first result (R154), `ring` the ring its first
beat read (R183), and `words` the words of an RSLOAD's image that it has read, by index (R181). -/
structure VqEntry where
  seq : Nat
  pc : Word
  instr : Instr
  cap : Captured
  nextGrp : Nat
  skip : Nat
  tail : Option (Word × Word × Bool)
  scanLocal : Option Nat
  scanCarry : Option Nat
  sq : Bool
  barrier : Bool
  mark : Nat
  snap : List (VReg × Bool × Nat)
  ring : Option Ring
  words : List (Nat × Nat)
  deriving DecidableEq, Repr

/-- A slot of SQ: the instruction that reserved it and its result once delivered (R61, R134). -/
structure SqSlot where
  seq : Nat
  val : Option Word
  deriving DecidableEq, Repr

/-- A pre-image in the history buffer (R145); that of a mask comes with the errors of the words that were written whole (R70). -/
inductive PreImage where
  | vec (r : VReg) (valid : Bool) (data : Nat)
  | mask (k : KReg) (data : Nat) (errs : List (Nat × ErrKind))
  deriving DecidableEq, Repr

/-- A store of an element that an open beat holds until it commits (R145). -/
structure HeldStore where
  e : Nat
  va : Word
  tgt : Target
  bits : Nat
  val : Nat
  deriving DecidableEq, Repr

/-- A trap's own values (R66 to R68), with what a page-fault record says of the access (R274). -/
structure TrapInfo where
  cause : BitVec 8
  val : Word
  access : BitVec 3
  va : Word
  elem : BitVec 32
  xfer : BitVec 32
  deriving DecidableEq, Repr

/-- An open beat: one commit group of one VQ instruction (R144, R145): `done` are the lane groups that have finished their share, `fromTr`
says that its fault goes to the host, as was decided when it arose (R274, R353), `got` are the elements of a load already read, and `out` is a
result for SQ. -/
structure Beat where
  seq : Nat
  grp : Nat
  done : BitVec 8
  ran : Bool
  got : List (Nat × Nat)
  pre : List PreImage
  stores : List HeldStore
  flags : BitVec 6
  fault : Option TrapInfo
  fromTr : Bool
  out : Option Word
  tail : Option (Word × Word × Bool)
  scanLocal : Option Nat
  scanCarry : Option Nat
  deriving DecidableEq, Repr

/-- Where a trap arises (R67, R252). -/
inductive Origin where | scalar | vector | matrix | copy
  deriving DecidableEq, Repr

/-- A fault that is taken at the strand's next unit boundary (R70, R252, R291, R347); `host` says that page faults were the host's when it
arose (R353). -/
structure PendTrap where
  info : TrapInfo
  origin : Origin
  host : Bool
  deriving DecidableEq, Repr

/-- A parked strand (R66, R274, R355): the trap's values, where it stopped, its tag, and who answers it. -/
structure ParkInfo where
  info : TrapInfo
  origin : Origin
  stopPc : Word
  vpc : Word
  grp : Nat
  tag : BitVec 16
  page : Bool
  die : DieId
  answer : Option (BitVec 2)
  deriving DecidableEq, Repr

/-- Whether a slot holds a strand and what it is doing. -/
inductive RunState where
  | idle
  | running
  | halted
  | parked (p : ParkInfo)
  deriving DecidableEq, Repr

/-- What a strand waits for inside a unit (R61, R137, R142, R149, R251, R254, R257, R285, R288, R298, R304, R366). -/
inductive WaitKind where
  | sq
  | lanes (n : Nat)
  | tiles (n : Nat)
  | bell (b : BitVec 8) (t : Bool)
  | gang
  | remote (core : Nat) (b : BitVec 8)
  | counter (n : Nat)
  | host (pa : Nat) (ok : Bool)
  | atomic (t : Target)
  | casRel
  | fencer (go : Bool) (todo : List (Nat × SlotId))
  | ipop (id : BitVec 32)
  | renew (todo : List (Nat × Word))
  | fill (line : Nat)
  deriving DecidableEq, Repr

/-- A wait, with the unit that waits. -/
structure Waiting where
  kind : WaitKind
  instr : Instr
  deriving DecidableEq, Repr

/-- The atomic journal record of a strand (R325): `mask` are the bytes of the new line that are written home and `op` those of them that the
operation itself wrote, `wrote` says that step 2 is done, `bad` that its bytes held an uncorrectable error, and `vec` that the atomic is a VAPPEND's, whose capacity and base stand in `desc`
(R204); `attr` are the class and hint of its access (R263). -/
structure Journal where
  line : Nat
  oldLine : Nat
  newLine : Nat
  mask : Nat
  op : Nat
  oldVal : Nat
  wrote : Bool
  done : Bool
  bad : Bool
  vec : Bool
  desc : Nat × Nat
  attr : Attr
  deriving DecidableEq, Repr

/-- A residual transfer of a recessed strand (R255): chunks from `chunk` on are still to be read. `leader` and `mark` are those of its
transfer. -/
structure Residual where
  csrc : Word
  csstr : Word
  rows : Nat
  rb : Nat
  chk : Nat
  cdst : Nat
  vr : VReg
  k : KReg
  ctr : CtrNo
  l : Nat
  w : Nat
  chunk : Nat
  id : BitVec 32
  cls : Option LineClass
  hint : Hint
  leader : Option (Nat × SlotId)
  mark : Nat
  deriving DecidableEq, Repr

/-- A strand (R54 to R65, R119, R132, R139, R142, R240). `stalled` says that the stall bound of R329 has passed for it,
`hostBad` that its next request to host memory from a beat, a tile row, a chunk or a fetch ends with that cause (R326, R366), and `drain` are the
stores of the commit group that committed last which are still to be performed (R62, R202). -/
structure Strand where
  run : RunState
  s : Vector Word 64
  p : BitVec 16
  k : Vector Nat 16
  v : Vector Nat 64
  vvalid : BitVec 64
  pc : Word
  fpctl : Word
  vtype : Word
  vl : Nat
  mvl : Nat
  slip : Word
  sid : Word
  lcoord : Word
  lid : Word
  strip0 : Word
  stripn : Word
  epc : Word
  evcp : Word
  ecause : Word
  eval : Word
  estatus : Word
  tvec : Word
  hold : Word
  ctr : Vector (BitVec 16) 16
  loops : List LoopLevel
  vq : List VqEntry
  beats : List Beat
  vseq : Nat
  barrier : Bool
  sq : List SqSlot
  nv : Nat
  claimed : Option Nat
  tilesHeld : List (Fin 16)
  matrixMode : Bool
  region : Option (BitVec 32)
  recessAsked : Bool
  shadow : Vector Word 7
  sb : List SbEntry
  sbAge : Nat
  ahead : List Ahead
  late : List LateCount
  wait : Option Waiting
  pend : List PendTrap
  mfault : Option (Word × TrapInfo × Bool)
  mdropped : Option VqEntry
  pausedBy : List StrandId
  journal : Option Journal
  savedLanes : Nat
  residual : List Residual
  stalled : Bool
  hostBad : Option (BitVec 8)
  drain : List HeldStore
  deriving DecidableEq, Repr

/-! ## A core -/

/-- An entry of XQ (R60, R215); `rows` are the targets of an MSTT's rows, with their addresses, once all its translations are checked (R228), and
`got` the doublewords of an MLDT's rows that have been read, by number (R227). -/
structure XqEntry where
  slot : SlotId
  entry : VqEntry
  rows : List (List (Target × Word))
  got : List (Nat × Nat)
  deriving DecidableEq, Repr

/-- A slate tile: 128 by 128 cells of 64 bits, with the sticky bits of each cell (R87, R142). -/
structure Tile where
  cells : Nat
  cx : Nat
  cv : Nat
  deriving DecidableEq, Repr

/-- A bell (R148). -/
structure Bell where
  v : Bool
  p : Bool
  c : BitVec 16
  e : BitVec 16
  deriving DecidableEq, Repr

/-- An L1 line with its five recorded generations (R146, R147). -/
structure L1Line where
  line : Nat
  data : Nat
  gen : Vector (BitVec 4) 5
  deriving DecidableEq, Repr

/-- An L1 fill in flight (R298). -/
structure Fill where
  line : Nat
  data : Nat
  waiters : List SlotId
  killed : Bool
  deriving DecidableEq, Repr

/-- A store that has left a store buffer and is not yet performed at its point (R292, R295). -/
structure EgressEntry where
  slot : SlotId
  entry : SbEntry
  deriving DecidableEq, Repr

/-- An arming of a gang (R253). -/
structure Arming where
  g : BitVec 4
  slot : SlotId
  vr : VReg
  k : KReg
  ctr : CtrNo
  l : Nat
  w : Nat
  deriving DecidableEq, Repr

/-- A member of a gang delivery: the core it is on, by logical index, and its arming (R254). -/
structure GangMember where
  core : Nat
  arm : Arming
  landed : List Nat
  fin : Bool
  deriving DecidableEq, Repr

/-- Where a copy's stream goes (R246, R249, R254). -/
inductive CopyDest where
  | mem
  | regs (vr : VReg) (k : KReg) (l w : Nat)
  | gang (ms : List GangMember)
  deriving DecidableEq, Repr

/-- A copy in flight (R245 to R248, R292): `read` are the chunks that were read and have still to land, with their bytes, and `landed` those that
have landed; of a gang, `landed` are the chunks read, and each member has its own that landed on it. `spare` are bytes of chunks as they were
when one above them landed, for a chunk that cannot be read later (R252), and `leader` is the core, by logical index, and the slot of the
strand whose CPGO it was, of a member's delivery that goes on by itself (R255). -/
structure CopyJob where
  csrc : Word
  cdst : Word
  csstr : Word
  cdstr : Word
  rows : Nat
  rb : Nat
  chk : Nat
  dest : CopyDest
  read : List (Nat × Nat)
  landed : List Nat
  snap : Option (List Byte)
  cls : Option LineClass
  hint : Hint
  mark : Nat
  spare : List (Nat × Nat)
  leader : Option (Nat × SlotId)
  deriving DecidableEq, Repr

/-- The operation of an IPOP in flight (R287). -/
inductive IpopKind where | sum | scale | axpy | fill
  deriving DecidableEq, Repr

/-- A virtual range as the pages it was translated to: its address, the offset in the first page, and each page's base with its
attributes. -/
structure PageMap where
  va : Word
  off : Nat
  pages : List Target
  deriving DecidableEq, Repr

/-- An IPOP in flight (R287, R288): `todo` are the sectors still to do, those of X first, `early` are a sum's sectors that
were read before it issued (R289), `vals` are the x elements read so far, by index, and `res` is where a sum's result goes. -/
structure IpopJob where
  kind : IpopKind
  fmt : IpFmt
  x : PageMap
  y : PageMap
  res : Option Target
  n : Nat
  a : Nat
  rm : BitVec 3
  todo : List Nat
  early : List (Nat × Nat)
  vals : List (Nat × Nat)
  flags : BitVec 5
  deriving DecidableEq, Repr

/-- A COLL in flight (R374): `det` are its rank, the count of contributions and the tag, `mark` the age below which store-buffer entries are
older than it, `todo` the sectors of X still to read, and of Y still to apply once its elements `xs` are read, `got` the elements
read so far, by index, `fills` says that its contribution filled a deterministic group, `sent` that it has reached Y's die, and `arr` when a fast one
did, among those that are still being applied. -/
structure CollJob where
  op : CollOp
  fmt : IpFmt
  x : PageMap
  y : PageMap
  n : Nat
  det : Option (Nat × Nat × BitVec 32)
  xs : Option (List Nat)
  mark : Nat
  todo : List Nat
  got : List (Nat × Nat)
  fills : Bool
  sent : Bool
  arr : Nat
  deriving DecidableEq, Repr

/-- The work of a transfer (R240, R284, R288, R374): a SETTLE's lines to do come with their virtual addresses. -/
inductive XferKind where
  | copy (j : CopyJob)
  | settle (lines : List (Nat × Word)) (regions : List Nat) (mark : Nat)
  | ipop (j : IpopJob)
  | coll (j : CollJob)
  deriving DecidableEq, Repr

/-- A transfer in flight on a core (R240). -/
structure Xfer where
  id : BitVec 32
  slot : SlotId
  ctr : CtrNo
  kind : XferKind
  deriving DecidableEq, Repr

/-- A held translation (R264, R271): an address space, a first page, a count of pages and the leaf walked for it. -/
structure TlbEntry where
  asid : BitVec 16
  vpn : Nat
  pages : Nat
  pa : Nat
  leaf : Word
  deriving DecidableEq, Repr

/-- A core (R136 to R151, R179, R238 to R240, R271, R292). -/
structure Core where
  strands : Vector Strand 8
  lid : Option (BitVec 32)
  lx : Nat
  ly : Nat
  root : Word
  asid : BitVec 16
  laneOwn : Vector (Option SlotId) 8
  laneAbs : BitVec 8
  tileOwn : Vector (Option SlotId) 16
  claimQ : List SlotId
  tileQ : List SlotId
  xq : List XqEntry
  tiles : Vector Tile 16
  l1 : List L1Line
  fills : List Fill
  gens : Vector (BitVec 4) 5
  egress : List EgressEntry
  loc : Memory
  bells : Vector Bell 256
  rings : Vector (Option Ring) 4
  xfers : List Xfer
  armings : List Arming
  nextXfer : BitVec 32
  tlb : List TlbEntry
  clkLow : Bool
  deriving DecidableEq, Repr

/-! ## A die -/

/-- The state of a holder's copy (R313); `home` is a home L2 copy that is not held through the Roll. -/
inductive CopySt where | home | m | e | o | s | sd
  deriving DecidableEq, Repr

/-- A line held by an L2 or an RDC (R262, R314): its bytes, the mask of dirty bytes, its way and retention priority; the list a line
stands in is ordered by use, the most recent first. -/
structure CacheLine where
  line : Nat
  rdc : Bool
  data : Nat
  dirty : Nat
  st : CopySt
  way : Nat
  prio : Nat
  deriving DecidableEq, Repr

/-- A monitor register (R356). -/
structure Mon where
  proc : BitVec 16
  volt : BitVec 16
  thr : BitVec 16
  temp : BitVec 16
  deriving DecidableEq, Repr

/-- A page-fault record that has not been answered (R274): its tag and the strand, named by launch, logical core and slot. -/
structure PageTag where
  tag : BitVec 16
  lid : BitVec 32
  core : Nat
  slot : SlotId
  deriving DecidableEq, Repr

/-- A deterministic contribution held by a base die (R374, R375): its strand's counter, by launch, logical core and slot, unless it came from
another package. -/
structure Contribution where
  rank : Nat
  xs : List Nat
  who : Option (BitVec 32 × Nat × SlotId × CtrNo)
  deriving DecidableEq, Repr

/-- A group of deterministic contributions (R374, R375), under its key: an admitted one has its space reserved. -/
structure DetGroup where
  y : PageMap
  n : Nat
  fmt : IpFmt
  op : CollOp
  r : Nat
  tag : BitVec 32
  members : List Contribution
  admitted : Bool
  deriving DecidableEq, Repr

/-- A die (R262 to R276, R314, R356, R375): `tlbcRun` is the address space of the invalidation that runs, `vbBuses` are the buses whose count
passed THR, and `vbHost` says of each stack that its pending repair began in host-assisted mode (R353). -/
structure Die where
  lines : List CacheLine
  outBits : List Nat
  l2wq : Word
  tlba : Word
  tlbcBusy : Bool
  tlbcAsid : BitVec 16
  tlbcPages : BitVec 20
  tlbcRun : BitVec 16
  tlb : List TlbEntry
  vbPend : Vector Bool 2
  vbHost : Vector Bool 2
  vbBuses : List Nat
  vbSpare : BitVec 8
  vbRuns : BitVec 16
  vbThr : BitVec 16
  busCount : List (Nat × Nat)
  busSpare : List (Nat × Nat)
  ceCount : Nat
  pageTags : List PageTag
  nextPageTag : BitVec 16
  mon : Vector Mon 5
  halved : Bool
  groups : List DetGroup
  stopped : Bool
  deriving DecidableEq, Repr

/-- The state of a 4 KiB region for short-lived accesses (R269). -/
inductive LifeSt where
  | none
  | live (deadline : Nat)
  | dead
  deriving DecidableEq, Repr

/-- A region whose count, expired status or short-lived state is not the reset one (R269, R281). -/
structure Region where
  r : Nat
  count : BitVec 32
  exp : Bool
  life : LifeSt
  deriving DecidableEq, Repr

/-! ## The Roll and the Hall dies -/

/-- The state of a Roll entry (R312, R313). -/
inductive RollSt where | s | e | o | m
  deriving DecidableEq, Repr

/-- OWN of a Roll entry (R312). -/
inductive RollOwner where
  | die (d : DieId)
  | store
  | host
  | peer (p : BitVec 6)
  deriving DecidableEq, Repr

/-- A Roll entry, with the line store's copy of the line while LS is 1 (R312, R317). `mine` says of a proxy entry that this package holds the line's
ownership at its home (R370), `known` are the bytes of an O line that the host or another package owns, once a reader has had them (R313), and
the entry with the least `use` is the least recently used one (R318). -/
structure RollEntry where
  line : Nat
  st : RollSt
  rc : Bool
  atom : Bool
  px : Bool
  own : RollOwner
  ls : Bool
  lsData : Nat
  lsDirty : Nat
  hs : Bool
  dies : BitVec 4
  peers : List (BitVec 6)
  mine : Bool
  known : Option Nat
  use : Nat
  deriving DecidableEq, Repr

/-- The kinds of requests to a slice (R315). -/
inductive ReqKind where | rs | rx | wb | dr | at
  deriving DecidableEq, Repr

/-- A request waiting at a slice (R316, R324): an AT names its strand, its operation being the unit the strand waits in or, with `vec`,
the VAPPEND at its VQ head. -/
structure SliceReq where
  line : Nat
  kind : ReqKind
  holder : Holder
  strand : Option StrandId
  attr : Attr
  vec : Bool
  deriving DecidableEq, Repr

/-- What asks the home of another package's line for it: this package's proxy entry (R370), or a strong, acquire or atomic read at system scope
(R377), by its strand, by a walker or another party of a die, or by the launch engine and the Preber; one that has gone does not want its answer any
more, and `sent` stands for a request that keeps no copy and was dropped on its way (R368). -/
inductive Asker where
  | proxy
  | strand (id : StrandId)
  | party (d : DieId)
  | engine
  | gone
  | sent
  deriving DecidableEq, Repr

/-- A request of this package at the home of a line of another package (R370): for ownership or for a copy, with the answer once it has come;
`dropped` says that its packet would have needed a seventh hop (R368). -/
structure HomeAsk where
  line : Nat
  excl : Bool
  who : Asker
  ans : Option (Bool × Bool × Bool × Nat)
  dropped : Bool
  deriving DecidableEq, Repr

/-- A slice of the Roll (R311, R316): `busy` are the lines with an atomic between its intent and its done record (R325), and `asks` its requests
at the homes of other packages' lines. -/
structure Slice where
  entries : List RollEntry
  queue : List SliceReq
  busy : List Nat
  waiting : Bool
  asks : List HomeAsk
  deriving DecidableEq, Repr

/-- An invalidation that a grant sent and that is not yet applied (R322): its line, the holder it goes to, the holder whose ownership
it serves, and the strands with a store performed under that ownership. -/
structure PendingInv where
  line : Nat
  holder : Holder
  owner : Holder
  strands : List StrandId
  deriving DecidableEq, Repr

/-- A peer port's status (R369). -/
structure Port where
  up : Bool
  pres : Bool
  peer : BitVec 6
  retry : BitVec 16
  downs : BitVec 16
  deriving DecidableEq, Repr

/-- A packet that has arrived at a Hall die and is still to be acted on, or to be acted on further: `left` are the sectors of a contribution that
are still to be applied, once it has been taken (R374), `arr` is when it was, and an invalidation with nothing left waits for those inside this
package (R377). -/
structure Arrived where
  p : PeerPacket
  left : Option (List Nat)
  arr : Nat
  deriving DecidableEq, Repr

/-- A Hall die (R311, R327 to R332, R362 to R369): `accepted` are the packets it has accepted, by source package, source Hall die, line and
sequence number, the latest first, `inbox` those among them that wait, in the order of their arrival, `inspect` the line that the Roll inspection window shows (assumption 64), and `failNext` says that the next posted write through its
host port that no egress holds fails (R366). -/
structure Hall where
  present : Bool
  lost : Bool
  recalls : BitVec 32
  rollto : BitVec 24
  up : Bool
  spd : BitVec 3
  wid : BitVec 5
  cxl : Bool
  cto : BitVec 32
  ports : Vector Port 18
  rte : Vector Word 64
  accepted : List (BitVec 6 × HallId × Nat × BitVec 32)
  inbox : List Arrived
  failNext : Bool
  inspect : BitVec 45
  outPackets : List (BitVec 5 × PeerPacket)
  deriving DecidableEq, Repr

/-! ## Launches -/

/-- The registers of a launch list (R333), and TAIL in the serving Hall's copy of its tail line while it holds one (R336). -/
structure LaunchList where
  base : BitVec 44
  root : BitVec 40
  en : Bool
  prio : BitVec 2
  sz : BitVec 4
  asid : BitVec 16
  lerr : BitVec 8
  tail : Option Word
  deriving DecidableEq, Repr

/-- Where a block of a launch stands (R341, R346): not yet placed, named by the host, running on a cluster, or saved. -/
inductive BlockSt where
  | waiting
  | named (cluster : Fin 16)
  | placed (cluster : Fin 16)
  | saved
  deriving DecidableEq, Repr

/-- A dependence of a launch (R339): a word with bit 63 set and the launch id it waits for, with the `uid` of the launch that it was found to
name; bit 63 clear is none. -/
structure Dep where
  word : Word
  uid : Option Nat
  deriving DecidableEq, Repr

/-- A launch whose record was consumed (R337 to R345): `after0` and `after1` are its dependences, `since` is
the tick at which it became ready (R342), `uid` tells it from every other launch, `hdr` and `recAt` are the addresses of its list's header
and of its slot, `slots` is the count of its list's slots, and `moving` are the blocks that leave a hot cluster, with that cluster (R348). -/
structure Launch where
  uid : Nat
  hdr : Nat
  recAt : Nat
  slots : Nat
  lid : BitVec 32
  list : Fin 64
  recNo : Nat
  asid : BitVec 16
  root : BitVec 40
  status : Nat
  entry : Word
  arg : Word
  w : Nat
  h : Nat
  strands : Nat
  lanes : Nat
  prio : BitVec 2
  det : Bool
  pre : Bool
  strips : Nat
  after0 : Dep
  after1 : Dep
  blocks : List BlockSt
  asked : Bool
  src : Word
  since : Option Nat
  moving : List (Nat × Fin 16)
  deriving DecidableEq, Repr

/-- A core's part of a launch in the recess store (R346). -/
structure SavedCore where
  lid : BitVec 32
  block : Nat
  core : Core
  deriving DecidableEq, Repr

/-! ## Management -/

/-- A record for the host queue (R354): its kind and its four doublewords, and the launch (its `uid`) that ends before it is appended (R355). -/
structure HqRecord where
  kind : BitVec 4
  w0 : Word
  w1 : Word
  w2 : Word
  w3 : Word
  ends : Option Nat
  deriving DecidableEq, Repr

/-- A parked strand that holds a tag of the Preber (R355). -/
structure ErrTag where
  tag : BitVec 16
  lid : BitVec 32
  core : Nat
  slot : SlotId
  deriving DecidableEq, Repr

/-- The almanac's own facts about the part (R360, R361). -/
structure Almanac where
  package : BitVec 6
  gen : BitVec 32
  lanes : Vector (BitVec 8) 128
  cores : BitVec 128
  hallMask : BitVec 2
  stackMask : BitVec 8
  buses : Vector (BitVec 64) 4
  ports : BitVec 36
  deriving DecidableEq, Repr

/-- The Preber controller (R352 to R360, R366). -/
structure Preber where
  duty : BitVec 6
  hqbase : BitVec 40
  hqsz : BitVec 4
  prod : BitVec 16
  cons : BitVec 16
  waitRecs : List HqRecord
  nonce : Vector Word 4
  attBusy : Bool
  attBuf : BitVec 40
  attNonce : Vector Word 4
  pwrlim : BitVec 12
  errTags : List ErrTag
  nextErrTag : BitVec 16
  postedFails : Nat
  badImage : Option (Fin 4)
  clkSteps : Nat
  deriving DecidableEq, Repr

/-- Roll call (R328, R330, R331). -/
structure RollCall where
  rca : Bool
  lost : Bool
  who : HallId
  step : BitVec 2
  host : Bool
  deriving DecidableEq, Repr

/-- An entry of the schedule: which strand takes a turn, or which step of another agent runs (R293). -/
inductive Turn where
  | strand (s : StrandId)
  | event (i : Instr)
  deriving DecidableEq, Repr

/-- The whole package, with host and peer memory as far as it is reached; `absentPend` are the units whose mark of absence waits until no
launch is on them (R361). -/
structure State where
  cores : Vector Core 128
  dies : Vector Die 4
  halls : Vector Hall 2
  slices : Vector Slice 2
  pending : List PendingInv
  rollCall : RollCall
  arrays : Memory
  regions : List Region
  tick : Nat
  lists : Vector LaunchList 64
  launches : List Launch
  recessStore : List SavedCore
  preber : Preber
  almanac : Almanac
  lostPeers : List (BitVec 6)
  absentPend : List AbsentUnit
  errs : List (ErrSite × ErrKind)
  agenda : List Turn
  cur : StrandId
  fresh : Nat
  deriving DecidableEq, Repr

/-! ## Reset -/

/-- The registers of a slot before any launch: the values a launch gives (R55, R56), with no launch's own values
(DESIGN CHOICE, assumption 2). -/
def Strand.reset : Strand where
  run := .idle
  s := Vector.replicate 64 0
  p := 0
  k := Vector.replicate 16 0
  v := Vector.replicate 64 0
  vvalid := 0
  pc := 0
  fpctl := 0
  vtype := 0x283
  vl := 0
  mvl := 0
  slip := 0
  sid := 0
  lcoord := 0
  lid := 0
  strip0 := 0
  stripn := 0
  epc := 0
  evcp := 1
  ecause := 0
  eval := 0
  estatus := 0
  tvec := 0
  hold := 250000
  ctr := Vector.replicate 16 0
  loops := []
  vq := []
  beats := []
  vseq := 0
  barrier := false
  sq := []
  nv := 32
  claimed := none
  tilesHeld := []
  matrixMode := false
  region := none
  recessAsked := false
  shadow := Vector.replicate 7 0
  sb := []
  sbAge := 0
  ahead := []
  late := []
  wait := none
  pend := []
  mfault := none
  mdropped := none
  pausedBy := []
  journal := none
  savedLanes := 0
  residual := []
  stalled := false
  hostBad := none
  drain := []

/-- A core with no launch on it (R136, R148, R179, R239). The cells of the slate are unspecified (R142); a strand that takes a
tile finds free values in it (assumption 4). -/
def Core.reset : Core where
  strands := Vector.replicate 8 Strand.reset
  lid := none
  lx := 0
  ly := 0
  root := 0
  asid := 0
  laneOwn := Vector.replicate 8 none
  laneAbs := 0
  tileOwn := Vector.replicate 16 none
  claimQ := []
  tileQ := []
  xq := []
  tiles := Vector.replicate 16 ⟨0, 0, 0⟩
  l1 := []
  fills := []
  gens := Vector.replicate 5 0
  egress := []
  loc := []
  bells := Vector.replicate 256 ⟨false, false, 0, 0⟩
  rings := Vector.replicate 4 none
  xfers := []
  armings := []
  nextXfer := 1
  tlb := []
  clkLow := false

/-- A die after module reset (R263, R272, R275, R356). -/
def Die.reset : Die where
  lines := []
  outBits := []
  l2wq := 0
  tlba := 0
  tlbcBusy := false
  tlbcAsid := 0
  tlbcPages := 0
  tlbcRun := 0
  tlb := []
  vbPend := Vector.replicate 2 false
  vbHost := Vector.replicate 2 false
  vbBuses := []
  vbSpare := 4
  vbRuns := 0
  vbThr := 64
  busCount := []
  busSpare := []
  ceCount := 0
  pageTags := []
  nextPageTag := 1
  mon := Vector.replicate 5 ⟨0, 0, 760, 0⟩
  halved := false
  groups := []
  stopped := false

/-- A Hall die after module reset (R330, R369). -/
def Hall.reset : Hall where
  present := true
  lost := false
  recalls := 0
  rollto := 2000
  up := false
  spd := 0
  wid := 0
  cxl := false
  cto := 10000
  ports := Vector.replicate 18 ⟨false, true, 0, 0, 0⟩
  rte := Vector.replicate 64 0
  accepted := []
  inbox := []
  failNext := false
  inspect := 0
  outPackets := []

/-- A slice with no entries (R312). -/
def Slice.reset : Slice := ⟨[], [], [], false, []⟩

/-- A launch list after module reset (R333). -/
def LaunchList.reset : LaunchList := ⟨0, 0, false, 0, 0, 0, 0, none⟩

/-- The Preber after module reset (R352). -/
def Preber.reset : Preber where
  duty := 0
  hqbase := 0
  hqsz := 0
  prod := 0
  cons := 0
  waitRecs := []
  nonce := Vector.replicate 4 0
  attBusy := false
  attBuf := 0
  attNonce := Vector.replicate 4 0
  pwrlim := 2800
  errTags := []
  nextErrTag := 1
  postedFails := 0
  badImage := none
  clkSteps := 0

/-- The almanac of a full part, package 0 (DESIGN CHOICE, assumption 9). -/
def Almanac.full : Almanac where
  package := 0
  gen := 0
  lanes := Vector.replicate 128 0xFF
  cores := BitVec.allOnes 128
  hallMask := 3
  stackMask := 0xFF
  buses := Vector.replicate 4 0
  ports := BitVec.allOnes 36

/-- The machine right after module reset: no launch, empty caches and queues, every register at its reset value. -/
def State.reset : State where
  cores := Vector.replicate 128 Core.reset
  dies := Vector.replicate 4 Die.reset
  halls := Vector.replicate 2 Hall.reset
  slices := Vector.replicate 2 Slice.reset
  pending := []
  rollCall := ⟨false, false, 0, 0, false⟩
  arrays := []
  regions := []
  tick := 0
  lists := Vector.replicate 64 LaunchList.reset
  launches := []
  recessStore := []
  preber := Preber.reset
  almanac := Almanac.full
  lostPeers := []
  absentPend := []
  errs := []
  agenda := []
  cur := ⟨0, 0⟩
  fresh := 0

end Sys2Proof.Machine
end

