-- ==== Sys2Proof/Machine/Bits.lean ====
section
/-! DEFINITION. Memory as canonical byte lists, packed elements in a number, and small helpers over words and lists. -/
namespace Sys2Proof.Machine

/-- What a byte that nothing has written reads as. DESIGN CHOICE (assumption 3): R278 leaves both images of memory unspecified after
reset. -/
def dfltByte : Byte := 0

/-- The byte at an address. -/
def Memory.get : Memory → Nat → Byte
  | [], _ => dfltByte
  | (k, b) :: m, a => if a = k then b else Memory.get m a

/-- Write a byte, keeping the canonical form. -/
def Memory.set : Memory → Nat → Byte → Memory
  | [], a, b => if b = dfltByte then [] else [(a, b)]
  | (k, c) :: m, a, b =>
    if a < k then (if b = dfltByte then (k, c) :: m else (a, b) :: (k, c) :: m)
    else if a = k then (if b = dfltByte then m else (a, b) :: m)
    else (k, c) :: Memory.set m a b

/-- The canonical form of a memory. -/
abbrev Memory.wf (m : Memory) : Prop :=
  m.Pairwise (fun x y => x.1 < y.1) ∧ ∀ c ∈ m, c.2 ≠ dfltByte

/-- n bytes from an address up, little-endian (R2). -/
def Memory.read (m : Memory) (a : Nat) : Nat → Nat
  | 0 => 0
  | n + 1 => (m.get a).toNat + 256 * Memory.read m (a + 1) n

/-- Write the low n bytes of a value from an address up, little-endian (R2). -/
def Memory.write (m : Memory) (a : Nat) : Nat → Nat → Memory
  | 0, _ => m
  | n + 1, v => Memory.write (m.set a (BitVec.ofNat 8 v)) (a + 1) n (v / 256)

/-- Write those of the low n bytes of a value whose bit in `mask` is set. -/
def Memory.writeMasked (m : Memory) (a : Nat) : Nat → Nat → Nat → Memory
  | 0, _, _ => m
  | n + 1, mask, v =>
    Memory.writeMasked (if mask % 2 = 1 then m.set a (BitVec.ofNat 8 v) else m) (a + 1) n (mask / 2) (v / 256)

/-- Make n bytes from an address up zero. -/
def Memory.zero (m : Memory) (a n : Nat) : Memory := m.filter fun c => !(a ≤ c.1 && c.1 < a + n)

/-- Element e, w bits wide, of packed data. -/
def getE (w d e : Nat) : Nat := (d >>> (w * e)) % 2 ^ w

/-- Packed data with element e, w bits wide, replaced. -/
def setE (w d e x : Nat) : Nat :=
  d % 2 ^ (w * e) + (x % 2 ^ w) * 2 ^ (w * e) + (d >>> (w * (e + 1))) * 2 ^ (w * (e + 1))

/-- A bit set in a number taken as a set of indexes. -/
def setBit (d e : Nat) (b : Bool) : Nat := setE 1 d e (if b then 1 else 0)

/-- The low bits of `a` where `mask` has a 1 and of `b` elsewhere, byte by byte for n bytes. -/
def mergeBytes : Nat → Nat → Nat → Nat → Nat
  | 0, _, _, b => b
  | n + 1, mask, a, b => (if mask % 2 = 1 then a % 256 else b % 256) + 256 * mergeBytes n (mask / 2) (a / 256) (b / 256)

/-- The sign-extension to 64 bits of the low w bits of a number. -/
def sextN (w x : Nat) : Word := (BitVec.ofNat w x).signExtend 64

/-- The value of the low w bits read as two's complement. -/
def sintN (w x : Nat) : Int := (BitVec.ofNat w x).toInt

/-- The pattern of an integer in w bits. -/
def ofInt (w : Nat) (i : Int) : Nat := (BitVec.ofInt w i).toNat

/-- An integer clamped to the signed range of w bits (R71). -/
def clampS (w : Nat) (i : Int) : Int := min (max i (-(2 ^ (w - 1) : Int))) (2 ^ (w - 1) - 1)

/-- The count of significant bits. -/
def bitlen (m : Nat) : Nat := if m = 0 then 0 else Nat.log2 m + 1

/-- The count of set bits among the low n. -/
def popN : Nat → Nat → Nat
  | 0, _ => 0
  | n + 1, x => x % 2 + popN n (x / 2)

/-- The index of the lowest set bit among the low n, counted from i; i + n when there is none. -/
def ffsN : Nat → Nat → Nat → Nat
  | 0, _, i => i
  | n + 1, x, i => if x % 2 = 1 then i else ffsN n (x / 2) (i + 1)

/-- The count of zero bits above the highest set bit in w bits (R101). -/
def clzN (w x : Nat) : Nat := w - bitlen (x % 2 ^ w)

/-- Replace the first element that satisfies a test, if there is one. -/
def replaceFirst {α : Type} (p : α → Bool) (f : α → α) : List α → List α
  | [] => []
  | x :: xs => if p x then f x :: xs else x :: replaceFirst p f xs

/-- Remove the first element that satisfies a test, if there is one. -/
def removeFirst {α : Type} (p : α → Bool) : List α → List α
  | [] => []
  | x :: xs => if p x then xs else x :: removeFirst p xs

/-- The integer square root, one bit at a time from bit n down. -/
def isqrtFrom (x : Nat) : Nat → Nat → Nat
  | 0, r => r
  | n + 1, r => isqrtFrom x n (if (r + 2 ^ n) * (r + 2 ^ n) ≤ x then r + 2 ^ n else r)

/-- The integer square root. -/
def isqrt (x : Nat) : Nat := isqrtFrom x (bitlen x / 2 + 1) 0

end Sys2Proof.Machine
end

