-- ==== Sys2Proof/Machine/Flags.lean ====
section
/-! DEFINITION. Floating-point: the formats (R72 to R75), the rounding of an exact value with its flags (R79 to R84), the arithmetic
(R80, R110, R111), comparisons (R112), conversions (R85, R86, R113), the 4-bit block family (R76 to R78), and the trees and folds of
R89, R93 and R94. Flags stand in the bit order of `fpctl` [8:4]: NV DZ OF UF NX. -/
namespace Sys2Proof.Machine

/-- A set of floating-point flags in the order of `fpctl` [8:4] (R57). -/
abbrev FpFlags := BitVec 5

def flNV : FpFlags := 0b10000
def flDZ : FpFlags := 0b01000
def flOF : FpFlags := 0b00100
def flUF : FpFlags := 0b00010
def flNX : FpFlags := 0b00001

/-- The rounding modes of R79. -/
inductive Mode where | rne | rtz | rdn | rup | rmm | rto
  deriving DecidableEq, Repr

/-- The mode of `fpctl.RM`; the reserved codes are written as 000 (R57). -/
def Mode.ofRM (rm : BitVec 3) : Mode :=
  match rm.toNat with
  | 1 => .rtz
  | 2 => .rdn
  | 3 => .rup
  | 4 => .rmm
  | 5 => .rto
  | _ => .rne

/-- The mode a rounding selection gives (R109). -/
def Mode.select (r : Rnd) (rm : BitVec 3) : Mode :=
  match r with
  | .dyn => Mode.ofRM rm
  | .rne => .rne
  | .rtz => .rtz
  | .rdn => .rdn
  | .rup => .rup
  | .rmm => .rmm
  | .rto => .rto

/-- A floating format: its exponent and fraction widths, and whether it is E4M3 (R72, R74). -/
structure Fmt where
  eb : Nat
  fb : Nat
  e4m3 : Bool
  deriving DecidableEq, Repr

def Fmt.f64 : Fmt := ⟨11, 52, false⟩
def Fmt.f32 : Fmt := ⟨8, 23, false⟩
def Fmt.f16 : Fmt := ⟨5, 10, false⟩
def Fmt.bf16 : Fmt := ⟨8, 7, false⟩
def Fmt.e5m2 : Fmt := ⟨5, 2, false⟩
def Fmt.fp8 : Fmt := ⟨4, 3, true⟩
def Fmt.xa128 : Fmt := ⟨15, 112, false⟩

/-- The format of a scalar FP instruction (R109). -/
def sfmt : SFmt → Fmt
  | .f64 => .f64
  | .f32 => .f32
  | .f16 => .f16
  | .bf16 => .bf16

/-- The format of a vector FP instruction (R165). -/
def ffmt : FFmt → Fmt
  | .f64 => .f64
  | .f32 => .f32
  | .f16 => .f16
  | .bf16 => .bf16
  | .e5m2 => .e5m2
  | .e4m3 => .fp8

/-- The width of a format in bits (R72). -/
def Fmt.width (f : Fmt) : Nat := 1 + f.eb + f.fb
/-- The exponent bias (R72). -/
def Fmt.bias (f : Fmt) : Int := 2 ^ (f.eb - 1) - 1
/-- The exponent of the last place of the subnormal grid (R72). -/
def Fmt.qmin (f : Fmt) : Int := 1 - f.bias - f.fb
/-- The significand of the largest finite value: 1.111 but for E4M3, whose is 1.110 (R72, R74). -/
def Fmt.maxSig (f : Fmt) : Nat := if f.e4m3 then 2 ^ (f.fb + 1) - 2 else 2 ^ (f.fb + 1) - 1
/-- The exponent of the last place of the largest finite value. -/
def Fmt.maxQ (f : Fmt) : Int := (if f.e4m3 then f.bias + 1 else f.bias) - f.fb

/-- The value of a floating operand: a NaN (signalling or not), an infinity, or ±m × 2^e. -/
inductive FVal where
  | nan (snan : Bool)
  | inf (neg : Bool)
  | fin (neg : Bool) (m : Nat) (e : Int)
  deriving DecidableEq, Repr

/-- Read the bits of a format (R72 to R74). -/
def Fmt.decode (f : Fmt) (x : Nat) : FVal :=
  let frac := x % 2 ^ f.fb
  let ex := (x / 2 ^ f.fb) % 2 ^ f.eb
  let neg := (x / 2 ^ (f.fb + f.eb)) % 2 = 1
  if f.e4m3 then
    if ex = 2 ^ f.eb - 1 ∧ frac = 2 ^ f.fb - 1 then .nan false
    else if ex = 0 then .fin neg frac f.qmin
    else .fin neg (2 ^ f.fb + frac) (ex - f.bias - f.fb)
  else if ex = 2 ^ f.eb - 1 then
    if frac = 0 then .inf neg else .nan (frac < 2 ^ (f.fb - 1))
  else if ex = 0 then .fin neg frac f.qmin
  else .fin neg (2 ^ f.fb + frac) (ex - f.bias - f.fb)

/-- The sign bit of a format. -/
def Fmt.signBit (f : Fmt) (neg : Bool) : Nat := if neg then 2 ^ (f.fb + f.eb) else 0
/-- Infinity of a sign (R73). -/
def Fmt.infBits (f : Fmt) (neg : Bool) : Nat := f.signBit neg + (2 ^ f.eb - 1) * 2 ^ f.fb
/-- The canonical NaN (R73, R74). -/
def Fmt.cnan (f : Fmt) : Nat :=
  if f.e4m3 then 2 ^ (f.fb + f.eb) - 1 else (2 ^ f.eb - 1) * 2 ^ f.fb + 2 ^ (f.fb - 1)
/-- Zero of a sign. -/
def Fmt.zeroBits (f : Fmt) (neg : Bool) : Nat := f.signBit neg
/-- The bits of ±t × 2^q, where q is at least the subnormal grid's and t has at most one bit more than the significand. -/
def Fmt.encodeFin (f : Fmt) (neg : Bool) (t : Nat) (q : Int) : Nat :=
  let (t, q) := if t = 2 ^ (f.fb + 1) then (2 ^ f.fb, q + 1) else (t, q)
  if t < 2 ^ f.fb then f.signBit neg + t
  else f.signBit neg + (q + f.fb + f.bias).toNat * 2 ^ f.fb + (t - 2 ^ f.fb)
/-- The largest finite value of a sign (R72). -/
def Fmt.maxBits (f : Fmt) (neg : Bool) : Nat := f.encodeFin neg f.maxSig f.maxQ

/-- Round m × 2^e to a whole multiple of 2^q: the multiple and whether it is exact (R79). -/
def roundTo (mode : Mode) (neg : Bool) (m : Nat) (e q : Int) : Nat × Bool :=
  if q ≤ e then (m * 2 ^ (e - q).toNat, true)
  else
    let sh := (q - e).toNat
    let t := m / 2 ^ sh
    let r := m % 2 ^ sh
    if r = 0 then (t, true)
    else
      let half := 2 ^ (sh - 1)
      let up : Bool := match mode with
        | .rne => decide (r > half) || (r == half && t % 2 == 1)
        | .rtz => false
        | .rdn => neg
        | .rup => !neg
        | .rmm => decide (r ≥ half)
        | .rto => t % 2 == 0
      (if up then t + 1 else t, false)

/-- Compare a × 2^p with b × 2^q: whether the first is larger. -/
def magGt (a : Nat) (p : Int) (b : Nat) (q : Int) : Bool :=
  if p ≥ q then a * 2 ^ (p - q).toNat > b else a > b * 2 ^ (q - p).toNat

/-- What a result's rounding depends on besides the mode: FP8 saturation and flush-outputs (R74, R75, R84). -/
structure RndCtx where
  mode : Mode
  sat : Bool
  fo : Bool
  deriving DecidableEq, Repr

/-- The result of an overflow (R74, R75, R81). -/
def Fmt.overflow (f : Fmt) (c : RndCtx) (neg : Bool) : Nat :=
  if f.e4m3 then (if c.sat then f.maxBits neg else f.cnan)
  else if f = .e5m2 ∧ c.sat then f.maxBits neg
  else match c.mode with
    | .rne | .rmm => f.infBits neg
    | .rtz | .rto => f.maxBits neg
    | .rdn => if neg then f.infBits true else f.maxBits false
    | .rup => if neg then f.maxBits true else f.infBits false

/-- Round the exact value ±m × 2^e to a format, with its flags (R79, R81, R82, R84). -/
def Fmt.round (f : Fmt) (c : RndCtx) (neg : Bool) (m : Nat) (e : Int) : Nat × FpFlags :=
  if m = 0 then (f.zeroBits neg, 0)
  else
    let qu : Int := e + bitlen m - (f.fb + 1)
    let (tu, _) := roundTo c.mode neg m e qu
    if magGt tu qu f.maxSig f.maxQ then (f.overflow c neg, flOF ||| flNX)
    else
      let tiny := magGt 1 (1 - f.bias) tu qu
      if tiny && c.fo then (f.zeroBits neg, flUF ||| flNX)
      else
        let q := max qu f.qmin
        let (t, exact) := roundTo c.mode neg m e q
        (f.encodeFin neg t q, if exact then 0 else if tiny then flUF ||| flNX else flNX)

/-- The NaN result of an operation, with NV when an operand was signalling or the operation is invalid (R73, R82). -/
def Fmt.nanRes (f : Fmt) (invalid : Bool) : Nat × FpFlags := (f.cnan, if invalid then flNV else 0)

/-- An infinite result. E4M3 has no infinity: it becomes the largest finite value or NaN, with NV (R74). -/
def Fmt.infRes (f : Fmt) (c : RndCtx) (neg : Bool) : Nat × FpFlags :=
  if f.e4m3 then ((if c.sat then f.maxBits neg else f.cnan), flNV) else (f.infBits neg, 0)

def FVal.isSnan : FVal → Bool
  | .nan s => s
  | _ => false
def FVal.isNan : FVal → Bool
  | .nan _ => true
  | _ => false
def FVal.neg : FVal → FVal
  | .nan s => .nan s
  | .inf n => .inf !n
  | .fin n m e => .fin (!n) m e
def FVal.isZero : FVal → Bool
  | .fin _ 0 _ => true
  | _ => false
/-- The sign of an infinity or a finite value. -/
def FVal.sign : FVal → Bool
  | .nan _ => false
  | .inf n => n
  | .fin n _ _ => n

/-- Flush-inputs: a subnormal operand becomes a zero of its sign (R84). -/
def Fmt.flushIn (f : Fmt) (fi : Bool) (v : FVal) : FVal :=
  match v with
  | .fin n m e => if fi && m < 2 ^ f.fb then .fin n 0 f.qmin else .fin n m e
  | v => v

/-- m × 2^e as a signed multiple of 2^q, q at most e. -/
def scaled (neg : Bool) (m : Nat) (e q : Int) : Int :=
  let v : Int := m * 2 ^ (e - q).toNat
  if neg then -v else v

/-- The exact sum of two finite values: its sign and magnitude, with the sign of an exact zero by R80: that of both operands when
they agree, otherwise minus in RDN only. -/
def finSum (mode : Mode) (n1 : Bool) (m1 : Nat) (e1 : Int) (n2 : Bool) (m2 : Nat) (e2 : Int) : Bool × Nat × Int :=
  let q := min e1 e2
  let s := scaled n1 m1 e1 q + scaled n2 m2 e2 q
  if s = 0 then ((if n1 = n2 then n1 else mode == .rdn), 0, q) else (s < 0, s.natAbs, q)

/-- x + y (R80, R82). -/
def fAdd (f : Fmt) (c : RndCtx) (x y : FVal) : Nat × FpFlags :=
  match x, y with
  | .nan s, y => f.nanRes (s || y.isSnan)
  | x, .nan s => f.nanRes (s || x.isSnan)
  | .inf a, .inf b => if a = b then f.infRes c a else f.nanRes true
  | .inf a, .fin _ _ _ => f.infRes c a
  | .fin _ _ _, .inf b => f.infRes c b
  | .fin n1 m1 e1, .fin n2 m2 e2 =>
    let (n, m, e) := finSum c.mode n1 m1 e1 n2 m2 e2
    f.round c n m e

/-- x − y (R80). -/
def fSub (f : Fmt) (c : RndCtx) (x y : FVal) : Nat × FpFlags := fAdd f c x y.neg

/-- x × y (R80, R82). -/
def fMul (f : Fmt) (c : RndCtx) (x y : FVal) : Nat × FpFlags :=
  match x, y with
  | .nan s, y => f.nanRes (s || y.isSnan)
  | x, .nan s => f.nanRes (s || x.isSnan)
  | .inf a, y => if y.isZero then f.nanRes true else f.infRes c (a != y.sign)
  | x, .inf b => if x.isZero then f.nanRes true else f.infRes c (x.sign != b)
  | .fin n1 m1 e1, .fin n2 m2 e2 => f.round c (n1 != n2) (m1 * m2) (e1 + e2)

/-- The exact product of two values that are no NaN; none for 0 × ∞ (R82). -/
def exactMul (x y : FVal) : Option FVal :=
  match x, y with
  | .inf a, y => if y.isZero then none else some (.inf (a != y.sign))
  | x, .inf b => if x.isZero then none else some (.inf (x.sign != b))
  | .fin n1 m1 e1, .fin n2 m2 e2 => some (.fin (n1 != n2) (m1 * m2) (e1 + e2))
  | _, _ => none

/-- ±(x × y) ± z in one rounding (R111); 0 × ∞ raises NV even when z is a quiet NaN. -/
def fFma (f : Fmt) (c : RndCtx) (form : FmaForm) (x y z : FVal) : Nat × FpFlags :=
  let sn := x.isSnan || y.isSnan || z.isSnan
  if x.isNan || y.isNan then f.nanRes sn
  else
    match exactMul x y with
    | none => f.nanRes true
    | some p =>
      let p := match form with
        | .plain | .ms => p
        | .nm | .nms => p.neg
      let z := match form with
        | .plain | .nm => z
        | .ms | .nms => z.neg
      fAdd f c p z

/-- x / y (R80, R82). -/
def fDiv (f : Fmt) (c : RndCtx) (x y : FVal) : Nat × FpFlags :=
  match x, y with
  | .nan s, y => f.nanRes (s || y.isSnan)
  | x, .nan s => f.nanRes (s || x.isSnan)
  | .inf _, .inf _ => f.nanRes true
  | .inf a, .fin n _ _ => f.infRes c (a != n)
  | .fin n _ _, .inf b => (f.zeroBits (n != b), 0)
  | .fin n1 m1 e1, .fin n2 m2 e2 =>
    if m2 = 0 then (if m1 = 0 then f.nanRes true else ((f.infRes c (n1 != n2)).1, flDZ))
    else if m1 = 0 then (f.zeroBits (n1 != n2), 0)
    else
      let k := f.fb + 4 + bitlen m2
      let q := (m1 * 2 ^ k) / m2
      let sticky := (m1 * 2 ^ k) % m2 ≠ 0
      f.round c (n1 != n2) (2 * q + (if sticky then 1 else 0)) (e1 - e2 - k - 1)

/-- √x (R110). -/
def fSqrt (f : Fmt) (c : RndCtx) (x : FVal) : Nat × FpFlags :=
  match x with
  | .nan s => f.nanRes s
  | .inf n => if n then f.nanRes true else f.infRes c false
  | .fin n m e =>
    if m = 0 then (f.zeroBits n, 0)
    else if n then f.nanRes true
    else
      let (m, e) := if e % 2 = 0 then (m, e) else (2 * m, e - 1)
      let k := f.fb + 4
      let v := m * 2 ^ (2 * k)
      let r := isqrt v
      f.round c false (2 * r + (if r * r = v then 0 else 1)) (e / 2 - k - 1)

/-- Compare two values that are no NaN; −0 equals +0. -/
def fCmp (x y : FVal) : Ordering :=
  match x, y with
  | .inf a, .inf b => if a = b then .eq else if a then .lt else .gt
  | .inf a, _ => if a then .lt else .gt
  | _, .inf b => if b then .gt else .lt
  | .fin n1 m1 e1, .fin n2 m2 e2 =>
    let q := min e1 e2
    compare (scaled n1 m1 e1 q) (scaled n2 m2 e2 q)
  | _, _ => .eq

/-- Minimum or maximum (R73): the other operand when exactly one is a NaN, −0 below +0. The operands' bits are delivered as they are,
after flush-inputs. -/
def fMinMax (f : Fmt) (fi : Bool) (isMax : Bool) (xb yb : Nat) : Nat × FpFlags :=
  let x := f.flushIn fi (f.decode xb)
  let y := f.flushIn fi (f.decode yb)
  let bitsOf (v : FVal) (b : Nat) : Nat := match v with
    | .fin n 0 _ => f.zeroBits n
    | _ => b
  let fl := if x.isSnan || y.isSnan then flNV else 0
  match x.isNan, y.isNan with
  | true, true => (f.cnan, fl)
  | true, false => (bitsOf y yb, fl)
  | false, true => (bitsOf x xb, fl)
  | false, false =>
    let xLess := match fCmp x y with
      | .lt => true
      | .gt => false
      | .eq => x.sign && !y.sign
    (if xLess != isMax then bitsOf x xb else bitsOf y yb, fl)

/-- An operand of a tree or a scan as its leaf (R73, R84): a NaN as the canonical one, with NV when it is signalling, and a subnormal
as a zero of its sign under flush-inputs. -/
def Fmt.leaf (f : Fmt) (fi : Bool) (b : Nat) : Nat × FpFlags :=
  match f.flushIn fi (f.decode b) with
  | .nan s => f.nanRes s
  | .fin n 0 _ => (f.zeroBits n, 0)
  | _ => (b, 0)

/-- A result that is delivered without rounding, under flush-outputs (R84). -/
def Fmt.flushOut (f : Fmt) (fo : Bool) (b : Nat) : Nat × FpFlags :=
  match f.decode b with
  | .fin n m _ => if fo && m != 0 && m < 2 ^ f.fb then (f.zeroBits n, flUF ||| flNX) else (b, 0)
  | _ => (b, 0)

/-- The FCMP conditions (R112): the truth and the flags. -/
def fCond (cc : FCond) (x y : FVal) : Bool × FpFlags :=
  let nan := x.isNan || y.isNan
  let sig := x.isSnan || y.isSnan
  let quiet := if sig then flNV else 0
  let signal := if nan then flNV else 0
  let o := fCmp x y
  match cc with
  | .eq => (!nan && o == .eq, quiet)
  | .lt => (!nan && o == .lt, signal)
  | .le => (!nan && o != .gt, signal)
  | .un => (nan, quiet)
  | .ne => (nan || o != .eq, quiet)
  | .qlt => (!nan && o == .lt, quiet)
  | .qle => (!nan && o != .gt, quiet)

/-- The class of a value, as a bit index (R114). -/
def fClass (f : Fmt) (x : Nat) : Nat :=
  match f.decode x with
  | .nan s => if s then 8 else 9
  | .inf n => if n then 0 else 7
  | .fin n m _ =>
    if m = 0 then (if n then 3 else 4)
    else if m < 2 ^ f.fb then (if n then 2 else 5)
    else (if n then 1 else 6)

/-- A floating value in another floating format (R85, R74, R75). -/
def fConvert (f : Fmt) (c : RndCtx) (x : FVal) : Nat × FpFlags :=
  match x with
  | .nan s => f.nanRes s
  | .inf n => f.infRes c n
  | .fin n m e => f.round c n m e

/-- An integer in a floating format (R85). -/
def fOfInt (f : Fmt) (c : RndCtx) (i : Int) : Nat × FpFlags := f.round c (i < 0) i.natAbs 0

/-- A floating value as an integer of w bits, signed or not (R86). -/
def fToInt (signed : Bool) (w : Nat) (mode : Mode) (x : FVal) : Int × FpFlags :=
  let lo : Int := if signed then -(2 ^ (w - 1) : Int) else 0
  let hi : Int := if signed then 2 ^ (w - 1) - 1 else 2 ^ w - 1
  match x with
  | .nan _ => (0, flNV)
  | .inf n => (if n then lo else hi, flNV)
  | .fin n m e =>
    let (t, exact) := roundTo mode n m e 0
    let v : Int := if n then -(t : Int) else t
    if v < lo then (lo, flNV) else if v > hi then (hi, flNV) else (v, if exact then 0 else flNX)

/-- A floating value rounded to an integral value of the same format (R113). -/
def fIntegral (f : Fmt) (c : RndCtx) (x : Nat) (v : FVal) : Nat × FpFlags :=
  match v with
  | .nan s => f.nanRes s
  | .inf _ => (x, 0)
  | .fin n m e =>
    if m = 0 then (f.zeroBits n, 0)
    else
      let (t, exact) := roundTo c.mode n m e 0
      ((f.round c n t 0).1, if exact then 0 else flNX)

/-! ## FCVT and VFCVT -/

/-- The width of a conversion format (R113). -/
def cvtWidth : CvtFmt → Nat
  | .f64 | .s64 | .u64 => 64
  | .f32 | .s32 | .u32 => 32
  | .f16 | .bf16 => 16
  | .e5m2 | .e4m3 => 8

/-- The floating format of a conversion code, if it is one. -/
def cvtFmt : CvtFmt → Option Fmt
  | .f64 => some .f64
  | .f32 => some .f32
  | .f16 => some .f16
  | .bf16 => some .bf16
  | .e5m2 => some .e5m2
  | .e4m3 => some .fp8
  | .s64 | .u64 | .s32 | .u32 => none

/-- Whether an integer conversion code is signed. -/
def cvtSigned : CvtFmt → Bool
  | .s64 | .s32 => true
  | _ => false

/-- Convert the bits of one format to another, or round to an integral value (R113, R168). Flush-outputs is not
applied to the widenings that R85 lists, which end in binary32 or binary64; it is to E5M2 in binary16 (R84; assumption 61). -/
def convert (dst src : CvtFmt) (c : RndCtx) (fi : Bool) (x : Nat) : Nat × FpFlags :=
  match cvtFmt dst, cvtFmt src with
  | some fd, some fs =>
    let v := fs.flushIn fi (fs.decode x)
    if dst = src then fIntegral fd c x v else fConvert fd (if fs.width < fd.width ∧ 32 ≤ fd.width then { c with fo := false } else c) v
  | some fd, none => fOfInt fd c (if cvtSigned src then sintN (cvtWidth src) x else (x % 2 ^ cvtWidth src : Nat))
  | none, some fs =>
    let (i, fl) := fToInt (cvtSigned dst) (cvtWidth dst) c.mode (fs.flushIn fi (fs.decode x))
    (ofInt (cvtWidth dst) i, fl)
  | none, none => (x, 0)

/-! ## The 4-bit block family (R76 to R78) -/

/-- Eight times the magnitude of index m in a type of the block family: types 01, 10 and 11 (R77). -/
def blockMag8 (t : QType) (m : Nat) : Nat :=
  match t with
  | .int => 0
  | .e2m1 => [0, 4, 8, 12, 16, 24, 32, 48].getD m 0
  | .pow2 => [0, 1, 2, 4, 8, 16, 32, 64].getD m 0
  | .hyb => [0, 8, 16, 24, 32, 48, 64, 96].getD m 0

/-- code_value (R77), as a sign and a multiple of 2^-3. -/
def codeValue (t : QType) (c : Nat) : FVal :=
  match t with
  | .int => let i := sintN 4 c; .fin (i < 0) (8 * i.natAbs) (-3)
  | _ => .fin (c / 8 % 2 = 1) (blockMag8 t (c % 8)) (-3)

/-- The type in bits [7:6] of a scale byte (R76). -/
def scaleType (b : Nat) : QType :=
  match b / 64 % 4 with
  | 0 => .int
  | 1 => .e2m1
  | 2 => .pow2
  | _ => .hyb

/-- The largest magnitude index m below 8 with magnitude at most the value. -/
def blockFloor (t : QType) (m8 : Nat) (q : Int) : Nat → Nat
  | 0 => 0
  | n + 1 => if magGt (blockMag8 t (n + 1)) (-3) m8 q then blockFloor t m8 q n else n + 1

/-- Choose between index i and i + 1 for an inexact magnitude (R78 items 1 to 3). -/
def blockUp (mode : Mode) (neg : Bool) (t : QType) (m : Nat) (e : Int) (i : Nat) : Bool :=
  let sum := blockMag8 t i + blockMag8 t (i + 1)
  let above := magGt (2 * m) e sum (-3)
  let below := magGt sum (-3) (2 * m) e
  match mode with
  | .rne => above || (!below && i % 2 = 1)
  | .rtz => false
  | .rdn => neg
  | .rup => !neg
  | .rmm => !below
  | .rto => i % 2 = 0

/-- Convert x / 2^(ex - 32) to a code of a block type (R78). -/
def blockCode (t : QType) (mode : Mode) (x : FVal) (ex : Nat) : Nat × FpFlags :=
  match x with
  | .nan _ => (0, flNV)
  | .inf n => (match t with
      | .int => if n then 8 else 7
      | _ => (if n then 8 else 0) + 7, flNV)
  | .fin n m e =>
    let e := e - ((ex : Int) - 32)
    match t with
    | .int =>
      let (k, exact) := roundTo mode n m e 0
      let beyond := if n then magGt m e 8 0 else magGt m e 7 0
      if beyond then (if n then 8 else 7, flOF ||| flNX)
      else (ofInt 4 (if n then -(k : Int) else k), if exact then 0 else flNX)
    | _ =>
      let s := if n then 8 else 0
      if magGt m e (blockMag8 t 7) (-3) then (s + 7, flOF ||| flNX)
      else
        let i := blockFloor t m e 7
        if magGt m e (blockMag8 t i) (-3) then (s + (if blockUp mode n t m e i then i + 1 else i), flNX) else (s + i, 0)

/-! ## Trees and folds (R89, R93, R94) -/

/-- One level of a tree: neighbours combined, an absent one passing the other through (R89). -/
def treeLevel (op : Nat → Nat → Nat × FpFlags) : List (Option Nat) → List (Option Nat) × FpFlags
  | a :: b :: rest =>
    let (r, fl) := treeLevel op rest
    match a, b with
    | some x, some y => let (v, g) := op x y; (some v :: r, fl ||| g)
    | some x, none => (some x :: r, fl)
    | none, y => (y :: r, fl)
  | [a] => ([a], 0)
  | [] => ([], 0)

/-- n levels of a tree (R89, R93). -/
def treeLevels (op : Nat → Nat → Nat × FpFlags) : Nat → List (Option Nat) → List (Option Nat) × FpFlags
  | 0, l => (l, 0)
  | n + 1, l =>
    let (l', f) := treeLevel op l
    let (l'', g) := treeLevels op n l'
    (l'', f ||| g)

/-- The levels of a tree over at least 64 leaves and at least vl: its leaf count is the smallest such power of two (R93). -/
def treeDepth (vl : Nat) : Nat := if vl ≤ 64 then 6 else bitlen (vl - 1)

/-- The root of the tree of R93 over leaves, with its flags. -/
def treeRoot (op : Nat → Nat → Nat × FpFlags) (vl : Nat) (leaves : List (Option Nat)) : Option Nat × FpFlags :=
  let d := treeDepth vl
  let (l, f) := treeLevels op d (leaves ++ List.replicate (2 ^ d - leaves.length) none)
  (l.headD none, f)

/-- ⊕ where an absent value returns the other unrounded (R94). -/
def optOp (op : Nat → Nat → Nat × FpFlags) (a b : Option Nat) : Option Nat × FpFlags :=
  match a, b with
  | some x, some y => let (v, g) := op x y; (some v, g)
  | some x, none => (some x, 0)
  | none, y => (y, 0)

end Sys2Proof.Machine
end

