-- ==== Sys2Proof/Machine/Ops.lean ====
section
/-! DEFINITION. The operations every meaning shares: reading and writing the parts of the state, the registers (R54, R55), hardware loops
(R63 to R65), taking a trap and parking (R66 to R68), returning from one (R69), and running one unit of a strand (R13, R16, R30). -/
namespace Sys2Proof.Machine

/-- The outcome of a step of this machine. -/
abbrev Out := Host.Outcome State Fault Refusal

/-! ## Parts of the state -/

def State.setCore (s : State) (c : CoreId) (x : Core) : State := { s with cores := s.cores.set c.val x c.isLt }
def State.core (s : State) (c : CoreId) : Core := s.cores[c.val]
def State.strand (s : State) (id : StrandId) : Strand := (s.core id.core).strands[id.slot.val]
def Core.setStrand (c : Core) (k : SlotId) (x : Strand) : Core := { c with strands := c.strands.set k.val x k.isLt }
def State.setStrand (s : State) (id : StrandId) (x : Strand) : State :=
  s.setCore id.core ((s.core id.core).setStrand id.slot x)
def State.modStrand (s : State) (id : StrandId) (f : Strand → Strand) : State := s.setStrand id (f (s.strand id))
def State.modCore (s : State) (c : CoreId) (f : Core → Core) : State := s.setCore c (f (s.core c))
def State.die (s : State) (d : DieId) : Die := s.dies[d.val]
def State.setDie (s : State) (d : DieId) (x : Die) : State := { s with dies := s.dies.set d.val x d.isLt }
def State.modDie (s : State) (d : DieId) (f : Die → Die) : State := s.setDie d (f (s.die d))
def State.hall (s : State) (h : HallId) : Hall := s.halls[h.val]
def State.modHall (s : State) (h : HallId) (f : Hall → Hall) : State := { s with halls := s.halls.set h.val (f (s.hall h)) h.isLt }
def State.slice (s : State) (h : HallId) : Slice := s.slices[h.val]
def State.modSlice (s : State) (h : HallId) (f : Slice → Slice) : State := { s with slices := s.slices.set h.val (f (s.slice h)) h.isLt }
def State.me (s : State) : Strand := s.strand s.cur
def State.modMe (s : State) (f : Strand → Strand) : State := s.modStrand s.cur f
def State.myCore (s : State) : Core := s.core s.cur.core

/-- The die of a core (R350: core n is core n mod 32 of die n div 32). -/
def dieOf (c : CoreId) : DieId := ⟨c.val / 32, by omega⟩

/-- The logical index of a core in its launch, from its logical coordinates (R56, R236). -/
def Core.index (c : Core) : Nat := c.lx + 16 * c.ly

/-! ## Soft errors (R70, R151, R276) -/

/-- The error a place holds. -/
def State.errAt (s : State) (e : ErrSite) : Option ErrKind := (s.errs.find? fun x => x.1 == e).map (·.2)

/-- A place holds no error any more. -/
def State.clearErr (s : State) (e : ErrSite) : State := { s with errs := s.errs.filter fun x => x.1 != e }

/-- Places that are written anew hold no error any more. -/
def State.clearErrs (s : State) (es : List ErrSite) : State := { s with errs := s.errs.filter fun x => !es.contains x.1 }

/-- A corrected error is added to the die's count (R70, R276). -/
def State.countCorrected (s : State) (d : DieId) : State := s.modDie d fun x => { x with ceCount := x.ceCount + 1 }

/-- Read the check bits of places: single-bit errors are corrected and counted, and the first place with an uncorrectable error is
named (R70). -/
def State.consume (d : DieId) : List ErrSite → State → State × Option ErrSite
  | [], s => (s, none)
  | e :: es, s =>
    match s.errAt e with
    | none => State.consume d es s
    | some .single => State.consume d es ((s.clearErr e).countCorrected d)
    | some _ => (s, some e)

/-! ## Registers -/

/-- Read a scalar register; s0 reads as zero (R54). -/
def Strand.rS (t : Strand) (r : SReg) : Word := if r = 0 then 0 else t.s[r.toNat]'r.isLt
/-- Write a scalar register; writes to s0 are discarded (R54). -/
def Strand.wS (t : Strand) (r : SReg) (v : Word) : Strand := if r = 0 then t else { t with s := t.s.set r.toNat v r.isLt }
/-- Read a predicate; p0 reads as true (R54). -/
def Strand.rP (t : Strand) (r : PReg) : Bool := r == 0 || t.p.getLsbD r.toNat
/-- Write a predicate; writes to p0 are discarded (R54). -/
def Strand.wP (t : Strand) (r : PReg) (v : Bool) : Strand :=
  if r = 0 then t
  else { t with p := if v then t.p ||| ((1 : BitVec 16) <<< r.toNat) else t.p &&& ~~~((1 : BitVec 16) <<< r.toNat) }
/-- Bit e of an element mask; k0 reads as all ones (R54). -/
def Strand.rKbit (t : Strand) (k : KReg) (e : Nat) : Bool := k == 0 || (t.k[k.toNat]'k.isLt).testBit e
/-- The bits of an element mask below n (R54). -/
def Strand.rK (t : Strand) (k : KReg) (n : Nat) : Nat := if k = 0 then 2 ^ n - 1 else (t.k[k.toNat]'k.isLt) % 2 ^ n
/-- Write an element mask; writes to k0 are discarded (R54). -/
def Strand.wK (t : Strand) (k : KReg) (v : Nat) : Strand := if k = 0 then t else { t with k := t.k.set k.toNat v k.isLt }
/-- Read a completion counter (R56). -/
def Strand.rC (t : Strand) (c : CtrNo) : BitVec 16 := t.ctr[c.toNat]'c.isLt
/-- Write a completion counter. -/
def Strand.wC (t : Strand) (c : CtrNo) (v : BitVec 16) : Strand := { t with ctr := t.ctr.set c.toNat v c.isLt }
/-- A counter falls by 1 (R251). -/
def Strand.decC (t : Strand) (c : CtrNo) : Strand := t.wC c (t.rC c - 1)
/-- A counter rises by 1 (R251). -/
def Strand.incC (t : Strand) (c : CtrNo) : Strand := t.wC c (t.rC c + 1)
/-- The bytes of a vector register; an invalid one reads as zero (R138, R154). -/
def Strand.rV (t : Strand) (r : VReg) : Nat := if t.vvalid.getLsbD r.toNat then t.v[r.toNat]'r.isLt else 0
/-- Write a vector register, which becomes valid (R154). -/
def Strand.wV (t : Strand) (r : VReg) (v : Nat) : Strand :=
  { t with v := t.v.set r.toNat v r.isLt, vvalid := t.vvalid ||| ((1 : BitVec 64) <<< r.toNat) }

/-- Whether the strand is in handler state: `estatus`.HS (R58, R66). -/
def Strand.hs (t : Strand) : Bool := t.estatus.getLsbD 0
/-- Whether `vtype`.ILL is set (R140). -/
def Strand.ill (t : Strand) : Bool := t.vtype.getLsbD 15
/-- The trap enables `fpctl` [13:9] (R57). -/
def Strand.enables (t : Strand) : BitVec 5 := t.fpctl.extractLsb' 9 5
/-- `fpctl`.RM (R57). -/
def Strand.rm (t : Strand) : BitVec 3 := t.fpctl.extractLsb' 0 3
/-- OR flags into the sticky fields of `fpctl` (R82). -/
def Strand.raise (t : Strand) (f : FpFlags) : Strand := { t with fpctl := t.fpctl ||| (f.setWidth 64 <<< 4) }
/-- Set `fpctl`.RSH when a ring-set result was widened to a hull (R57, R82). -/
def Strand.raiseRsh (t : Strand) (b : Bool) : Strand := if b then { t with fpctl := t.fpctl ||| 0x4000 } else t
/-- `vcp`: the address of the oldest vector or matrix instruction that has not committed, 0x1 when there is none (R62). -/
def Strand.vcp (t : Strand) : Word :=
  match t.vq with
  | [] => 1
  | e :: _ => e.pc

/-- A strand writes a scalar register: a word it replaces holds no error any more. -/
def State.wS (s : State) (id : StrandId) (r : SReg) (v : Word) : State := (s.modStrand id (·.wS r v)).clearErr (.sreg id r)
/-- A strand writes a predicate. -/
def State.wP (s : State) (id : StrandId) (r : PReg) (v : Bool) : State := (s.modStrand id (·.wP r v)).clearErr (.preg id r)

/-! ## Lanes and shapes (R137 to R141) -/

/-- The lane groups a slot owns, in ascending order (R137). -/
def Core.groupsOf (c : Core) (k : SlotId) : List (Fin 8) := (List.finRange 8).filter fun g => c.laneOwn[g.val] == some k
/-- `lanes`: the count of lane groups a strand is granted (R56). -/
def State.lanes (s : State) (id : StrandId) : Nat := ((s.core id.core).groupsOf id.slot).length
/-- The element width EW of a `vtype`; 0 for an unsupported code (R140). -/
def vtEW (vt : Word) : Nat :=
  match (vt.extractLsb' 0 3).toNat with
  | 0 => 4
  | 1 => 8
  | 2 => 16
  | 3 => 32
  | 4 => 64
  | _ => 0
/-- The grouping L of a `vtype` (R140). -/
def vtL (vt : Word) : Nat := 2 ^ (vt.extractLsb' 3 2).toNat
/-- The block size of a `vtype` (R140). -/
def vtBS (vt : Word) : Nat := 16 * 2 ^ (vt.extractLsb' 7 2).toNat
def vtFI (vt : Word) : Bool := vt.getLsbD 5
def vtFO (vt : Word) : Bool := vt.getLsbD 6
def vtSAT (vt : Word) : Bool := vt.getLsbD 9
/-- Whether fields [9:0] of a `vtype` value are unsupported (R141). -/
def vtUnsupported (vt : Word) : Bool :=
  vtEW vt == 0 || (vt.extractLsb' 7 2).toNat == 3 || (vtEW vt == 4 && (vtFI vt || vtFO vt))
/-- The bytes of one vector register (R139). -/
def regBytes (lanes nv : Nat) : Nat := lanes * 196608 / nv
/-- MAXVL (R139). -/
def maxVL (lanes nv : Nat) (vt : Word) : Nat := vtL vt * regBytes lanes nv * 8 / vtEW vt
/-- The elements of one commit group (R6, R144). -/
def commitGroup (lanes ew : Nat) : Nat := 2048 * lanes / ew

/-- Write fields [9:0] of `vtype` and evaluate them (R141). -/
def Strand.writeVtype (t : Strand) (lanes : Nat) (v : BitVec 10) : Strand :=
  let vt : Word := v.setWidth 64
  if vtUnsupported vt then { t with vtype := vt ||| 0x8000 }
  else { t with vtype := vt, vl := min t.vl (maxVL lanes t.nv vt) }

/-! ## Hardware loops -/

/-- R64: the last word of a unit that completes without a taken branch lies at `last`, and `next` is the word after it. -/
def loopBack (last next : Word) : List LoopLevel → List LoopLevel × Word
  | [] => ([], next)
  | l :: ls =>
    if last = l.stop then
      if l.iter.toNat < l.n.toNat then ({ l with iter := l.iter + 1 } :: ls, l.start) else loopBack last next ls
    else (l :: ls, next)

/-- Whether an address lies in a level's body (R65). -/
def LoopLevel.holds (l : LoopLevel) (a : Word) : Bool := l.start.toNat ≤ a.toNat && a.toNat ≤ l.stop.toNat

/-- R65: a taken branch to `target` pops the levels whose bodies do not contain it. -/
def popLoops (target : Word) : List LoopLevel → List LoopLevel
  | [] => []
  | l :: ls => if l.holds target then l :: ls else popLoops target ls

/-- A read taken ahead as its strand leaves the unit at an address: one taken for this coming there is gone (R294). -/
def Ahead.left (x : Ahead) (pc : Word) : Option Ahead :=
  if x.pc ≠ pc then some x
  else match x.nth with
    | 0 => none
    | n + 1 => some { x with nth := n }

/-- The strand leaves its unit and goes on at an address. -/
def Strand.goTo (t : Strand) (pc : Word) : Strand := { t with pc := pc, ahead := t.ahead.filterMap (·.left t.pc) }

/-- The unit completes without a taken branch: loop-back, or the next word (R64); frozen in handler state (R66). -/
def Strand.advance (t : Strand) (words : Nat) : Strand :=
  let last := t.pc + 8 * BitVec.ofNat 64 (words - 1)
  let next := t.pc + 8 * BitVec.ofNat 64 words
  if t.hs then t.goTo next
  else { t.goTo (loopBack last next t.loops).2 with loops := (loopBack last next t.loops).1 }

/-- A taken branch (R65, R107). -/
def Strand.branch (t : Strand) (target : Word) : Strand :=
  { t.goTo target with loops := if t.hs then t.loops else popLoops target t.loops }

/-! ## Traps -/

/-- A trap that carries a cause and a value. -/
def trapInfo (cause : Nat) (val : Word) : TrapInfo := ⟨BitVec.ofNat 8 cause, val, 0, 0, 0, 0⟩
/-- A translation fault of an access, with the access code of R274. -/
def faultInfo (cause : Nat) (va : Word) (access : Nat) : TrapInfo := ⟨BitVec.ofNat 8 cause, va, BitVec.ofNat 3 access, va, 0, 0⟩

/-- A record for the host queue waits for a slot (R354). -/
def State.hqPut (s : State) (r : HqRecord) : State :=
  { s with preber := { s.preber with waitRecs := s.preber.waitRecs ++ [r] } }

/-- Offset 8 of a fault or error record (R274, R355). -/
def recordWho (lid : BitVec 32) (c : CoreId) (k : SlotId) (cause : BitVec 8) (access : BitVec 3) : Word :=
  (0 : BitVec 5) ++ access ++ cause ++ (0 : BitVec 5) ++ BitVec.ofNat 3 k.val ++ (0 : BitVec 1) ++ BitVec.ofNat 7 c.val ++ lid

/-- The next tag of a sequence that runs from 1, wraps after 0xFFFF and skips 0 and every tag in use (R274, R355). -/
def freeTag (used : List (BitVec 16)) : Nat → BitVec 16 → BitVec 16
  | 0, t => t
  | n + 1, t => if t = 0 ∨ used.contains t then freeTag used n (t + 1) else t

/-- Whether the strand is inside a unit that no trap interrupts: its request is on its way, or part of its work is done (R149, R285, R288,
R304, R324, R326). A load that waits for the host's answer is abandoned and runs again (R125). -/
def Strand.midUnit (t : Strand) : Bool :=
  match t.wait with
  | some ⟨.host .., .ld ..⟩ => false
  | some ⟨.remote .., _⟩ | some ⟨.host .., _⟩ | some ⟨.atomic _, _⟩ | some ⟨.ipop _, _⟩ | some ⟨.fencer true _, _⟩
  | some ⟨.renew _, _⟩
  | some ⟨.bell .., .bellSync ..⟩ => true
  | _ => false

/-- Whether the trap of a region that a recess ended waits to be taken: it comes before any other (R70, R347). -/
def Strand.holdEnded (t : Strand) : Bool := t.pend.any fun p => p.info.cause == 0x10

/-- Whether an instruction goes to XQ (R60). -/
def isMatrix : Instr → Bool
  | .mopa .. | .mopag .. | .mzero .. | .mrd .. | .mwr .. | .mdrain .. | .mldt .. | .mstt .. => true
  | _ => false

/-- The group at which the vector side resumes: the head instruction's first group that has not committed (R67). -/
def Strand.resumeGroup (t : Strand) : Nat :=
  match t.vq with
  | [] => 0
  | e :: _ =>
    match t.beats.find? fun b => b.seq == e.seq with
    | some b => b.grp
    | none => if isMatrix e.instr then 0 else e.nextGrp

/-- Fields of `estatus` (R58). -/
def mkEstatus (vt : BitVec 16) (cg : BitVec 16) (en : BitVec 5) (vf xf hs : Bool) : Word :=
  (0 : BitVec 16) ++ vt ++ cg ++ en ++ BitVec.ofBool vf ++ BitVec.ofBool xf ++ (0 : BitVec 8) ++ BitVec.ofBool hs

/-- Askers that go away leave their requests at the homes of other packages' lines to be answered for nobody. -/
def State.unaskBy (s : State) (out : Asker → Bool) : State :=
  let leave (a : HomeAsk) : Option HomeAsk :=
    if !out a.who then some a else if a.ans.isSome || a.dropped then none else some { a with who := .gone }
  { s with slices := s.slices.map fun (x : Slice) => { x with asks := x.asks.filterMap leave } }

/-- A strand that traps in a wait for lane groups or tiles waits for them no more (R67, R137, R142), nor for the answer of another package's line. -/
def State.leaveWait (s : State) (id : StrandId) : State :=
  let s := s.unaskBy (· == Asker.strand id)
  match (s.strand id).wait with
  | some ⟨.tiles _, _⟩ => s.modCore id.core fun c => { c with tileQ := c.tileQ.filter (· != id.slot) }
  | some ⟨.lanes _, _⟩ => s.modCore id.core fun c => { c with claimQ := c.claimQ.filter (· != id.slot) }
  | _ => s

/-- Whether a launch's status is final (R338, R340). -/
def finalStatus (st : Nat) : Bool := st == 3 || st == 4 || st ≥ 0x11

/-- Park a strand for the error-handling party (R66, R355). With ER = 0 the Preber ends the launch, which the step `launchEnd`
finishes, and the record's tag is 0. -/
def State.park (s : State) (id : StrandId) (o : Origin) (i : TrapInfo) (stopPc vpc : Word) (grp : Nat) : State :=
  let s := s.leaveWait id
  let t := s.strand id
  let c := s.core id.core
  let er := s.preber.duty.getLsbD 2
  let ended : Option Nat := if er then none else (s.launches.find? fun l => l.lid == t.lid.setWidth 32 && l.status == 2).map (·.uid)
  let tag := if er then freeTag (s.preber.errTags.map (·.tag)) 65536 s.preber.nextErrTag else 0
  let s := s.modStrand id fun t =>
    { t with run := .parked ⟨i, o, stopPc, vpc, grp, tag, false, dieOf id.core, none⟩, ahead := [], wait := none, stalled := false }
  let s := if er then
      { s with preber := { s.preber with nextErrTag := tag + 1,
                                         errTags := ⟨tag, t.lid.setWidth 32, c.index, id.slot⟩ :: s.preber.errTags } }
    else { s with launches := s.launches.map fun l => if ended = some l.uid then { l with status := 5 } else l }
  s.hqPut ⟨1, i.val, recordWho (t.lid.setWidth 32) id.core id.slot i.cause 0, stopPc, tag.setWidth 64, ended⟩

/-- Park a strand for host-assisted page-fault handling and send the kind 0 record (R274). -/
def State.parkPage (s : State) (id : StrandId) (o : Origin) (i : TrapInfo) (stopPc vpc : Word) (grp : Nat) : State :=
  let s := s.leaveWait id
  let t := s.strand id
  let c := s.core id.core
  let d := dieOf id.core
  let tag := freeTag ((s.die d).pageTags.map (·.tag)) 65536 (s.die d).nextPageTag
  let s := s.modStrand id fun t =>
    { t with run := .parked ⟨i, o, stopPc, vpc, grp, tag, true, d, none⟩, ahead := [], wait := none, stalled := false }
  let s := s.modDie d fun x =>
    { x with nextPageTag := tag + 1, pageTags := ⟨tag, t.lid.setWidth 32, c.index, id.slot⟩ :: x.pageTags }
  s.hqPut ⟨0, i.va, recordWho (t.lid.setWidth 32) id.core id.slot i.cause i.access, i.xfer ++ i.elem, tag.setWidth 64, none⟩

/-- Trap entry in the strand's registers, HS being 0 and a handler being set (R66): `epc` and the vector side's point are given. -/
def Strand.enterTrap (t : Strand) (o : Origin) (i : TrapInfo) (epc vpc : Word) (grp : Nat) : Strand :=
  { t with
    ecause := i.cause.setWidth 64
    eval := i.val
    epc := epc
    evcp := vpc
    estatus := mkEstatus (t.vtype.extractLsb' 0 16) (BitVec.ofNat 16 grp) t.enables (o == .vector) (o == .matrix) true
    fpctl := t.fpctl &&& ~~~(0x3E00 : Word)
    pc := t.tvec
    ahead := []
    wait := none
    stalled := false }

/-- Whether a trap is a translation fault that host-assisted page-fault handling takes instead (R274). -/
def TrapInfo.isTranslation (i : TrapInfo) : Bool := i.va != 0 || i.access != 0

/-- Take a trap (R66, R67): enter the handler, or park where there is none or the strand is in handler state. -/
def State.takeTrap (s : State) (id : StrandId) (o : Origin) (i : TrapInfo) (epc vpc : Word) (grp : Nat) : State :=
  let t := s.strand id
  if t.hs ∨ t.tvec = 0 then s.park id o i epc vpc grp
  else ((s.leaveWait id).modStrand id fun t => t.enterTrap o i epc vpc grp).clearErrs
    [.ctl id 0x20, .ctl id 0x21, .ctl id 0x22, .ctl id 0x23, .ctl id 0x24]

/-- A scalar unit traps before it has any effect: `epc` is its first word and the vector side stops at the next commit group (R67). -/
def State.scalarTrap (s : State) (id : StrandId) (i : TrapInfo) : State :=
  let t := s.strand id
  s.takeTrap id .scalar i t.pc t.vcp t.resumeGroup

/-- A translation fault of a scalar unit: to the host when the duty map says so, otherwise a trap (R274, R352). -/
def State.scalarFault (s : State) (id : StrandId) (i : TrapInfo) : State :=
  let t := s.strand id
  if s.preber.duty.getLsbD 1 then s.parkPage id .scalar i t.pc t.vcp t.resumeGroup else s.scalarTrap id i

/-- ERET and ERET.V, HS being 1 and `epc` a multiple of 8 (R69, R128): restore `vtype` and the enables, leave handler state, and go
to `epc`. Without .V the remaining groups of the instruction at `evcp` are not executed, and an undelivered SQ slot of it receives
`eval`; a dropped matrix instruction is posted again only with .V. -/
def Strand.eret (t : Strand) (lanes : Nat) (dotV : Bool) : Strand :=
  let vf := t.estatus.getLsbD 10
  let xf := t.estatus.getLsbD 9
  let vt : BitVec 10 := t.estatus.extractLsb' 32 10
  let en : BitVec 5 := t.estatus.extractLsb' 11 5
  let t := t.writeVtype lanes vt
  let t := { t with
    fpctl := (t.fpctl &&& ~~~(0x3E00 : Word)) ||| (en.setWidth 64 <<< 9)
    estatus := t.estatus &&& ~~~(1 : Word)
    loops := popLoops t.epc t.loops }
  let t := t.goTo t.epc
  if vf && !dotV then
    match t.vq with
    | [] => t
    | e :: rest =>
      { t with vq := rest,
               sq := t.sq.map fun q => if q.seq == e.seq && q.val.isNone then { q with val := some t.eval } else q }
  else t

/-! ## Units -/

/-- How a unit of a strand ends. -/
inductive UnitRes where
  /-- It completed and execution falls through (R64). -/
  | done (s : State)
  /-- It completed with a taken branch (R65). -/
  | jump (s : State) (target : Word)
  /-- It traps, with no other effect. -/
  | trap (s : State) (i : TrapInfo)
  /-- It faults in translation, with no other effect (R274). -/
  | tfault (s : State) (i : TrapInfo)
  /-- It waits: the strand stays at the unit. -/
  | wait (s : State)
  /-- It ended with the strand's registers already as they must be. -/
  | gone (s : State)

/-- Finish the strand's unit by how it ended. -/
def finish (words : Nat) : UnitRes → Out
  | .done s => .next (s.modMe fun t => { t.advance words with wait := none })
  | .jump s target => .next (s.modMe fun t => { t.branch target with wait := none })
  | .trap s i => .next (s.scalarTrap s.cur i)
  | .tfault s i => .next (s.scalarFault s.cur i)
  | .wait s => .next s
  | .gone s => .next s

/-- The innermost active level whose body contains the instruction word (R16). -/
def decidingLevel (a : Word) (ls : List LoopLevel) : Option LoopLevel := ls.find? (·.holds a)

/-- Whether sched code 4 or 5 suppresses the instruction (R16); both act as 0 in handler state (R66). -/
def suppressed (t : Strand) (a : Word) (sc : Sched) : Bool :=
  if t.hs then false
  else match sc, decidingLevel a t.loops with
    | .first, some l => l.iter != 1
    | .last, some l => l.iter != l.n
    | _, _ => false

/-- Let a step of a queue or wait act for a strand: the operation runs as that strand's, and the turn stays where it was. -/
def onStrand (id : StrandId) (f : State → Out) (s : State) : Out :=
  match f { s with cur := id } with
  | .next s' => .next { s' with cur := s.cur }
  | o => o

/-- Any one of several things that may come next: a free value chooses (R293, R304, R374). -/
def State.anyOf {α : Type} (s : State) : List α → Option (State × α)
  | [] => none
  | [x] => some (s, x)
  | x :: y :: xs => some ({ s with fresh := s.fresh + 1 }, (x :: y :: xs)[Config.freeNat s.fresh % (xs.length + 2)]?.getD x)

/-- Whether a FENCER in progress holds a strand paused (R304). -/
def State.pausedNow (s : State) (id : StrandId) : Bool :=
  (s.strand id).pausedBy.any fun j => match (s.strand j).run, (s.strand j).wait with
    | .running, some ⟨.fencer .., _⟩ => true
    | _, _ => false

/-- What a strand waits for has come: its unit goes on, unless a FENCER holds the strand before that unit (R304). -/
def onWaiting (id : StrandId) (f : State → Out) (s : State) : Out := if s.pausedNow id then .next s else onStrand id f s

/-- Whether an instruction is an MLDT or an MSTT. -/
def isTileMem : Instr → Bool
  | .mldt .. | .mstt .. => true
  | _ => false

/-- Whether an instruction is an MDRAIN, which folds its flags when it completes (R215). -/
def isDrain : Instr → Bool
  | .mdrain .. => true
  | _ => false

/-- The wait of sched code 3 (R16, R59, R229): every older vector instruction has committed, every older MLDT, MSTT and MDRAIN has completed,
one that trapped and may be posted again not,
what has committed is visible, and every older store-buffer entry has been performed at its point. DEDUCED (assumption 19): R59 has a CTLR with sched code 3 read the flags
of all older vector work, and an MDRAIN folds its flags at its completion. -/
def csyncReady (s : State) : Bool :=
  let slow (e : VqEntry) : Bool := isTileMem e.instr || isDrain e.instr
  s.me.vq.isEmpty && s.me.drain.isEmpty && s.me.sb.isEmpty && (s.myCore.egress.all fun e => e.slot != s.cur.slot) &&
  (s.myCore.xq.all fun x => x.slot != s.cur.slot || !slow x.entry) && !s.me.mdropped.any slow

/-- The word address of a frame 00 unit's instruction (R16: the body contains the instruction, not its prefixes). -/
def hdrWords (h : Hdr) : Nat :=
  1 + (if h.pfx.imm.isSome then 1 else 0) + (if h.pfx.ord.isSome then 1 else 0) + (if h.pfx.cls.isSome then 1 else 0)

/-- `eval` of a machine check on on-core state: bit 63, the file and the index (R68). -/
def checkEval (file index : Nat) : Word := BitVec.ofNat 64 (2 ^ 63 + 256 * file + index)

/-- `eval` of a machine check at a place (R68, R151). -/
def errEval : ErrSite → Word
  | .sreg _ r => checkEval 0 r.toNat
  | .preg _ r => checkEval 1 r.toNat
  | .kreg _ r _ => checkEval 2 r.toNat
  | .vreg _ r _ => checkEval 3 r.toNat
  | .history _ r _ => checkEval 3 r.toNat
  | .image _ _ r _ => checkEval 3 r.toNat
  | .ctl _ n => checkEval 4 n.toNat
  | .cell _ t _ => checkEval 5 t.val
  | .ring _ q => checkEval 6 q.val
  | .bell _ n => checkEval 7 n.toNat
  | .timetable _ n => checkEval 8 n.val
  | _ => 0

/-- What the scheduling code does before the body: code 2 makes the next vector instruction a barrier (R16). -/
def State.begun (s : State) (h : Hdr) : State :=
  if h.sched = .barrier then s.modMe fun t => { t with barrier := true } else s

/-- The word of a frame 00 unit that holds its instruction, its prefixes coming before it (R16, R20). -/
def instrAddr (h : Hdr) (s : State) : Word := s.me.pc + 8 * BitVec.ofNat 64 (hdrWords h - 1)

/-- Run a unit that may start: the loop codes, the guard with its check bits, the sources' check bits, then the body (R13, R16, R70). -/
def runBody (h : Hdr) (srcs : List ErrSite) (body : State → UnitRes) (s : State) : Out :=
  if suppressed s.me (instrAddr h s) h.sched then finish (hdrWords h) (.done s)
  else
    match s.consume (dieOf s.cur.core) [.preg s.cur h.guard] with
    | (s, some e) => finish (hdrWords h) (.trap s (trapInfo 0x0C (errEval e)))
    | (s, none) =>
      if s.me.rP h.guard = h.gneg then finish (hdrWords h) (.done s)
      else match s.consume (dieOf s.cur.core) srcs with
        | (s, some e) => finish (hdrWords h) (.trap s (trapInfo 0x0C (errEval e)))
        | (s, none) => finish (hdrWords h) (body s)

/-- Run a frame 00 unit: the sched codes decided before the guard, the guard, the sources' check bits, then the body (R13, R16, R30,
R70). `srcs` are the registers the body reads; `body` is given the state and answers how the unit ends. -/
def runUnit (h : Hdr) (srcs : List ErrSite) (body : State → UnitRes) (s : State) : Out :=
  if (s.die (dieOf s.cur.core)).stopped then .fault (.dieStopped (dieOf s.cur.core))
  else if h.sched = .csync ∧ ¬ csyncReady s then .next s
  else runBody h srcs body (s.begun h)

/-- The place of a scalar register of the strand that takes the turn. -/
def sSite (s : State) (r : SReg) : ErrSite := .sreg s.cur r

/-- The 64-bit immediate of an immediate form (R18): sign-extended without an IMM prefix, joined with it otherwise. -/
def imm64 (h : Hdr) (i : BitVec 24) : Word :=
  match h.pfx.imm with
  | none => i.signExtend 64
  | some p => p ++ i

end Sys2Proof.Machine
end

