-- ==== Sys2Proof/Machine/Operands.lean ====
section
/-! DEFINITION. The operand forms of a strand's instructions: scalar sources and immediates (R18, R97), addresses (R103, R116, R117), and the
widths and formats they select. -/
namespace Sys2Proof.Machine

/-- The bits of a width (R97). -/
def widthBits : Width → Nat
  | .w64 => 64
  | .w32 => 32
  | .w16 => 16
  | .w8 => 8

/-- The bytes of a width (R117). -/
def widthBytes (w : Width) : Nat := widthBits w / 8

/-- The places whose check bits a read of scalar registers consults. -/
def sSites (s : State) (rs : List SReg) : List ErrSite := rs.map (sSite s)
/-- The places whose check bits a read of predicates consults. -/
def pSites (s : State) (rs : List PReg) : List ErrSite := rs.map fun r => .preg s.cur r
/-- The place of a control register of the strand that takes the turn. -/
def ctlSite (s : State) (n : Nat) : ErrSite := .ctl s.cur (BitVec.ofNat 12 n)
/-- The place of a completion counter of that strand (R56). -/
def ctrSite (s : State) (n : CtrNo) : ErrSite := ctlSite s (0x40 + n.toNat)
/-- What the clamp of `vl` to MAXVL reads (R138, R141, R160): while ILL is set it does not take place. -/
def vlSites (s : State) (ill : Bool) : List ErrSite := if ill then [] else [ctlSite s 2]

/-- The registers a source names. -/
def srcRegs : Src → List SReg
  | .reg c => [c]
  | .imm _ => []

/-- The 64-bit value of a source: a register, or the immediate with its prefix (R18). -/
def srcVal (h : Hdr) (t : Strand) : Src → Word
  | .reg c => t.rS c
  | .imm i => imm64 h i

/-- The value of a source that is a register or an immediate of fewer bits, zero-extended (R157, R243, R256). -/
def roiVal {n : Nat} (t : Strand) : RegOrImm n → Word
  | .reg b => t.rS b
  | .imm i => i.setWidth 64

/-- The registers a register-or-immediate source names. -/
def roiRegs {n : Nat} : RegOrImm n → List SReg
  | .reg b => [b]
  | .imm _ => []

/-- The registers a scalar address reads. -/
def addrRegs (b : SReg) : AddrSrc → List SReg
  | .off _ => [b]
  | .idx i _ => [b, i]

/-- A scalar address, modulo 2^64 (R103, R117). -/
def addrVal (h : Hdr) (t : Strand) (b : SReg) : AddrSrc → Word
  | .off i => t.rS b + imm64 h i
  | .idx i n => t.rS b + (t.rS i <<< n.toNat)

/-- The canonical 48-bit virtual address of a value (R103). -/
def canon48 (a : Word) : Word := (a.setWidth 48).signExtend 64

/-- Whether bits [63:48] of an address equal bit 47 (R117). -/
def canonical (a : Word) : Bool := canon48 a == a

/-- The instruction word of a unit, for a trap whose value is the word (R29, R69). -/
def unitWord (i : Instr) : Word :=
  match encode i with
  | some ws => ws.getLastD 0
  | none => 0

/-- The instruction completes with a value for a scalar register. -/
def doneS (s : State) (d : SReg) (v : Word) : UnitRes := .done (s.wS s.cur d v)
/-- The instruction completes with a value for a predicate. -/
def doneP (s : State) (d : PReg) (v : Bool) : UnitRes := .done (s.wP s.cur d v)

/-- A scalar floating-point result with its flags: the trap of an enabled flag comes before any write, otherwise the flags are ORed in
and the destination is written (R109). -/
def fpDone (s : State) (fl : FpFlags) (write : State → State) : UnitRes :=
  if s.me.enables &&& fl ≠ 0 then .trap s (trapInfo 0x09 (fl.setWidth 64 <<< 4))
  else .done (write (s.modMe (·.raise fl)))

/-- The bits of an operand of a scalar format: the low bits of the register (R109). -/
def fpBits (f : SFmt) (v : Word) : Nat := v.toNat % 2 ^ (sfmt f).width

/-- Scalar FP never flushes (R84) and its formats have no saturation. -/
def scalarCtx (t : Strand) (r : Rnd) : RndCtx := ⟨Mode.select r t.rm, false, false⟩

end Sys2Proof.Machine
end

