-- ==== Sys2Proof/Machine/Coherence.lean ====
section
/-! DEFINITION. Lines and where they are: physical addresses and homes (R260, R261), L2 and RDC (R262, R263), short-lived regions (R269,
R270), the Roll (R311 to R320), and the value of a line at its points (R121, R322, R323). -/
namespace Sys2Proof.Machine

/-! ## Physical addresses -/

/-- The ranges of R260. -/
inductive PaKind where
  | device (p : Nat)
  | control (p : Nat)
  | reserved
  | host
  deriving DecidableEq, Repr

/-- The range a physical address falls in (R260). -/
def paKind (pa : Nat) : PaKind :=
  if pa.testBit 51 then .host
  else if pa.testBit 50 then .reserved
  else if pa % 2 ^ 44 < 0x6000000000 then .device ((pa >>> 44) % 64)
  else .control ((pa >>> 44) % 64)

/-- The line of an address. -/
def lineOf (pa : Nat) : Nat := pa / 128
/-- The 4 KiB region of an address (R261), with the package bits kept. -/
def regionOf (pa : Nat) : Nat := pa / 4096
/-- This package's number (R260). -/
def State.pkg (s : State) : Nat := s.almanac.package.toNat

/-- Whether an address lies in this package's device memory. -/
def State.ownDevice (s : State) (pa : Nat) : Bool := paKind pa == .device s.pkg
/-- Whether an address lies in this package's control windows (R350). -/
def State.ownControl (s : State) (pa : Nat) : Bool := paKind pa == .control s.pkg

/-- The die of a device-memory address by its region number (R261). -/
def dieOfAddr (pa : Nat) : DieId := ⟨(pa % 2 ^ 44 / 4096 % 8) / 2, by omega⟩
/-- The home die of a line of this package's device memory; none for a line of another package or of the host (R261). -/
def State.homeDie (s : State) (line : Nat) : Option DieId := if s.ownDevice (128 * line) then some (dieOfAddr (128 * line)) else none

/-- The slice of a line (R311). -/
def sliceOf (line : Nat) : HallId := ⟨popN 13 line % 2, by omega⟩
/-- The Hall die that serves a slice: its own, or the other when it is absent or lost (R311). -/
def State.serving (s : State) (h : HallId) : Option HallId :=
  let ok (x : HallId) := (s.hall x).present && !(s.hall x).lost
  if ok h then some h else if ok (1 - h) then some (1 - h) else none
/-- Whether a slice serves requests: a Hall die serves it, and roll call does not hold it (R328, R332). -/
def State.sliceUp (s : State) (h : HallId) : Bool := (s.serving h).isSome && !(s.slice h).waiting
/-- The Hall die through which a line's host and peer traffic goes (R363, R368). -/
def State.portOf (s : State) (line : Nat) : HallId := (s.serving (sliceOf line)).getD (sliceOf line)
/-- Whether a package is present in the system: this one, or one that the route table of the line's Hall reaches (R260, R368). -/
def State.packagePresent (s : State) (p line : Nat) : Bool :=
  p == s.pkg || (((s.hall (s.portOf line)).rte[p % 64]'(Nat.mod_lt _ (by decide))).getLsbD 63)
/-- Whether a line of a package is present: of this package, every one but for regions of an absent stack (R260, R361). -/
def State.present (s : State) (p line : Nat) : Bool :=
  s.packagePresent p line && (p != s.pkg || s.almanac.stackMask.getLsbD (line / 32 % 8))

/-! ## Cached lines -/

/-- A die's copy of a line. -/
def State.findLine (s : State) (d : DieId) (line : Nat) : Option CacheLine := (s.die d).lines.find? (·.line == line)
/-- A die's copy of a line becomes the most recently used, with new contents. -/
def State.putLine (s : State) (d : DieId) (c : CacheLine) : State :=
  s.modDie d fun x => { x with lines := c :: x.lines.filter (·.line != c.line) }
/-- The words of a die's copy of a line hold no error any more: the copy goes, or is replaced (R276). -/
def State.freshCopy (s : State) (d : DieId) (line : Nat) : State :=
  { s with errs := s.errs.filter fun e => match e.1 with
      | .copyWord x pa => !(x == d && lineOf pa == line)
      | _ => true }
/-- A die drops its copy of a line. -/
def State.dropLine (s : State) (d : DieId) (line : Nat) : State :=
  (s.modDie d fun x => { x with lines := x.lines.filter (·.line != line) }).freshCopy d line
/-- A die's copy of a line changes where it is. -/
def State.modLine (s : State) (d : DieId) (line : Nat) (f : CacheLine → CacheLine) : State :=
  s.modDie d fun x => { x with lines := x.lines.map fun c => if c.line == line then f c else c }

/-- The Roll entry of a line (R312). -/
def State.entry (s : State) (line : Nat) : Option RollEntry := (s.slice (sliceOf line)).entries.find? (·.line == line)
/-- The use of an entry that is used now: above that of every other one (R318). -/
def State.nextUse (s : State) : Nat :=
  (s.slices[0].entries ++ s.slices[1].entries).foldl (fun m e => max m (e.use + 1)) 0
/-- The Roll entry of a line is written and becomes the most recently used. -/
def State.putEntry (s : State) (e : RollEntry) : State :=
  s.modSlice (sliceOf e.line) fun x => { x with entries := { e with use := s.nextUse } :: x.entries.filter (·.line != e.line) }
/-- The Roll entry of a line changes where it is. -/
def State.modEntry (s : State) (line : Nat) (f : RollEntry → RollEntry) : State :=
  s.modSlice (sliceOf line) fun x => { x with entries := x.entries.map fun e => if e.line == line then f e else e }
/-- The words of a line store's copy of a line hold no error any more: the copy goes, or is replaced (R276). -/
def State.freshStore (s : State) (line : Nat) : State :=
  { s with errs := s.errs.filter fun e => match e.1 with
      | .storeWord pa => lineOf pa != line
      | _ => true }
/-- The Roll entry of a line is freed, and the line store's copy goes with it. -/
def State.dropEntry (s : State) (line : Nat) : State :=
  (s.modSlice (sliceOf line) fun x => { x with entries := x.entries.filter (·.line != line) }).freshStore line
/-- The out bit of a line homed here is written (R314). -/
def State.setOut (s : State) (line : Nat) (b : Bool) : State :=
  match s.homeDie line with
  | none => s
  | some d => s.modDie d fun x =>
      { x with outBits := if b then line :: x.outBits.filter (· != line) else x.outBits.filter (· != line) }
/-- The out bit of a line: clear while the home serves it alone (R314). A line homed elsewhere has none and always goes to its slice. -/
def State.isOut (s : State) (line : Nat) : Bool :=
  match s.homeDie line with
  | none => true
  | some d => (s.die d).outBits.contains line

/-! ## The data of a line with its check bits (R276, R279): bit 1024 + w is 1 when word w holds an uncorrectable error, which goes with
the word wherever it goes. -/

/-- Whether word w of a line's data holds an uncorrectable error. -/
def badWord (x w : Nat) : Bool := x.testBit (1024 + w)
/-- The flags of bad words as they stand above a line's bytes. -/
def badFlags (f : Nat → Bool) : Nat := (List.range 16).foldl (fun m w => if f w then m + 2 ^ (1024 + w) else m) 0
/-- Line data with the bytes of `mask` replaced by those of other data: a word replaced whole takes the other's check bits, and one
replaced in part stays bad when either is (R279). -/
def mergeLine (mask new old : Nat) : Nat :=
  mergeBytes 128 mask new (old % 2 ^ 1024) + badFlags fun w =>
    let c := mask / 2 ^ (8 * w) % 256
    if c = 255 then badWord new w else if c = 0 then badWord old w else badWord old w || badWord new w
/-- The bytes of a line with n of them at an offset replaced. -/
def patchLine (x off n val : Nat) : Nat := mergeLine ((2 ^ n - 1) * 2 ^ off) (val % 2 ^ (8 * n) * 2 ^ (8 * off)) x
/-- n bytes of a line's data at an offset. -/
def lineBytes (x off n : Nat) : Nat := x / 2 ^ (8 * off) % 2 ^ (8 * n)
/-- Whether a word of the n bytes of a line's data at an offset is bad. -/
def badBytes (x off n : Nat) : Bool := (List.range 16).any fun w => badWord x w && decide (8 * w < off + n) && decide (off < 8 * w + 8)

/-- Words that a write replaces whole in the arrays hold no error any more (R279). -/
def State.cleanWords (s : State) (pa n : Nat) : State :=
  { s with errs := s.errs.filter fun e => match e.1 with
      | .word w => !(pa ≤ w && w + 8 ≤ pa + n)
      | _ => true }
/-- The 128 bytes of a line in the arrays, or in another package's or the host's memory, with its bad words. -/
def State.arrayLine (s : State) (line : Nat) : Nat :=
  Memory.read s.arrays (128 * line) 128 +
    (if s.errs.isEmpty then 0 else badFlags fun w => match s.errAt (.word (128 * line + 8 * w)) with
      | some ErrKind.double | some ErrKind.triple => true
      | _ => false)
/-- An array write of the bytes of a line that `mask` names (R278): a word written whole takes the check bits of the data, and one written
in part stays bad when either is (R279). -/
def State.arrayWrite (s : State) (line data mask : Nat) : State :=
  let s := { s with arrays := s.arrays.writeMasked (128 * line) 128 mask data }
  if s.errs.isEmpty ∧ data / 2 ^ 1024 = 0 then s
  else (List.range 16).foldl (fun s w =>
    let c := mask / 2 ^ (8 * w) % 256
    let e : ErrSite := .word (128 * line + 8 * w)
    if c = 0 then s
    else if badWord data w then { s.clearErr e with errs := (e, .double) :: (s.clearErr e).errs }
    else if c = 255 then s.clearErr e else s) s
/-- Errors that stand in a die's copy of a line are met as the copy is read (R276): single ones are corrected and counted, the others go
with its data. -/
def State.foldErrs (s : State) (d : DieId) (line : Nat) : State :=
  if s.errs.isEmpty then s
  else (List.range 16).foldl (fun s w =>
    let e : ErrSite := .copyWord d (128 * line + 8 * w)
    match s.errAt e with
    | none => s
    | some ErrKind.single => (s.clearErr e).countCorrected d
    | some _ => (s.clearErr e).modLine d line fun c => if badWord c.data w then c else { c with data := c.data + 2 ^ (1024 + w) }) s
/-- The same for a line store's copy, on the way out of its entry. -/
def State.foldStore (s : State) (line x : Nat) : State × Nat :=
  if s.errs.isEmpty then (s, x)
  else (List.range 16).foldl (fun (s, x) w =>
    let e : ErrSite := .storeWord (128 * line + 8 * w)
    match s.errAt e with
    | none => (s, x)
    | some ErrKind.single => ((s.clearErr e).countCorrected (dieOfAddr (128 * line)), x)
    | some _ => (s.clearErr e, if badWord x w then x else x + 2 ^ (1024 + w))) (s, x)
/-- The single errors of the arrays' words of a line are met as it is read there: its home's base die corrects them, and they count for that
die (R276; DEDUCED, assumption 86). -/
def State.fillWords (s : State) (line : Nat) : State :=
  if s.errs.isEmpty then s
  else match s.homeDie line with
    | none => s
    | some d => (List.range 16).foldl (fun s w =>
      let e : ErrSite := .word (128 * line + 8 * w)
      if s.errAt e = some .single then (s.clearErr e).countCorrected d else s) s
/-- The errors of a line are met as it is read at its home: those of the home L2's copy, or those of the arrays. -/
def State.foldHome (s : State) (line : Nat) : State :=
  match s.homeDie line with
  | none => s
  | some d => if (s.findLine d line).isSome then s.foldErrs d line else s.fillWords line
/-- Whether a sent invalidation of a holder's copy is not yet applied (R322). -/
def State.hasPending (s : State) (h : Holder) (line : Nat) : Bool := s.pending.any fun p => p.line == line && p.holder == h

/-- The line at its home: the home L2's copy, or the arrays. A clean copy whose invalidation is on its way may be older than the arrays (R284). -/
def State.homeData (s : State) (line : Nat) : Nat :=
  match s.homeDie line with
  | none => s.arrayLine line
  | some d => match s.findLine d line with
    | some c => if c.dirty = 0 ∧ s.hasPending (.die d) line then s.arrayLine line else c.data
    | none => s.arrayLine line

/-! ## Ways and victims (R262, R263) -/

/-- The retention priority of a fill (R15, R262). -/
def hintPrio : Hint → Nat
  | .streaming => 0
  | .keep => 2
  | _ => 1

/-- The class a class number names (R265). -/
def classOf (n : BitVec 2) : LineClass :=
  match n.toNat with
  | 0 => .general
  | 1 => .weights
  | 2 => .activations
  | _ => .kvCache

/-- The ways open to an L2 fill (R263): the blocks are placed in order from way 0, and the ways after the last one are open. -/
def openWays (q : Word) (cls : LineClass) (hint : Hint) : List Nat :=
  let n (i : Nat) := (q.extractLsb' (5 * i) 5).toNat
  let (i, start) := match cls with
    | .general => (0, 0)
    | .weights => (1, n 0)
    | .activations => (2, n 0 + n 1)
    | .kvCache => (3, n 0 + n 1 + n 2)
  let block := (List.range (n i)).map (· + start)
  let sum := n 0 + n 1 + n 2 + n 3
  let free := (List.range (24 - sum)).map (· + sum)
  if hint = .quota then (if block.isEmpty then free else block) else block ++ free

/-- The set a line falls in (assumption 12: the line number modulo the count of sets). -/
def setOf (rdc : Bool) (line : Nat) : Nat := line % (if rdc then 16384 else 32768)

/-- The way a fill takes, with the line it displaces (R262): an invalid way, otherwise the lowest priority, and among those the least
recently used. -/
def pickWay (lines : List CacheLine) (rdc : Bool) (line : Nat) (ways : List Nat) : Option (Nat × Option CacheLine) :=
  let inSet := lines.filter fun c => c.rdc == rdc && setOf rdc c.line == setOf rdc line && ways.contains c.way
  match ways.find? fun w => inSet.all (·.way != w) with
  | some w => some (w, none)
  | none =>
    let low := inSet.foldl (fun m c => min m c.prio) 2
    match (inSet.filter (·.prio == low)).getLast? with
    | some c => some (c.way, some c)
    | none => none

/-! ## Holders -/

/-- Whether a holder is another package. -/
def isPeer : Holder → Bool
  | .peer _ => true
  | _ => false
/-- Whether an entry lists a holder (R312). -/
def RollEntry.has (e : RollEntry) : Holder → Bool
  | .die d => e.dies.getLsbD d.val
  | .host => e.hs
  | .peer p => e.peers.contains p
  | .hall _ => e.ls
/-- An entry with a holder added. -/
def RollEntry.add (e : RollEntry) : Holder → RollEntry
  | .die d => { e with dies := e.dies ||| ((1 : BitVec 4) <<< d.val) }
  | .host => { e with hs := true }
  | .peer p => { e with peers := p :: e.peers.filter (· != p) }
  | .hall _ => { e with ls := true }
/-- An entry with a holder removed. -/
def RollEntry.del (e : RollEntry) : Holder → RollEntry
  | .die d => { e with dies := e.dies &&& ~~~((1 : BitVec 4) <<< d.val) }
  | .host => { e with hs := false }
  | .peer p => { e with peers := e.peers.filter (· != p) }
  | .hall _ => { e with ls := false }
/-- The holders of an entry other than the line store. -/
def RollEntry.holders (e : RollEntry) : List Holder :=
  (((List.finRange 4).filter fun d => e.dies.getLsbD d.val).map Holder.die) ++
  (if e.hs then [.host] else []) ++ e.peers.map Holder.peer
/-- The OWN code of a holder (R312). -/
def ownerOf : Holder → RollOwner
  | .die d => .die d
  | .host => .host
  | .peer p => .peer p
  | .hall _ => .store

/-! ## Tail lines (R334, R336): the Hall that serves a list holds its tail line as a Roll holder, in the line store -/

/-- The physical address of a list's header (R334). -/
def LaunchList.addr (l : LaunchList) : Nat := l.base.toNat * 256
/-- The Hall die whose engine serves a list (R333). -/
def State.listHall (s : State) (n : Fin 64) : HallId := (s.serving (if n.val % 2 = 0 then 0 else 1)).getD 0
/-- The list whose tail line a Hall holds in a line. -/
def State.tailList (s : State) (line : Nat) : Option (Fin 64) :=
  (List.finRange 64).find? fun n => (s.lists[n.val]).tail.isSome && lineOf (s.lists[n.val]).addr == line
/-- The invalidation that a grant sends a Hall that holds the line as a tail line. -/
def State.tellHall (s : State) (line : Nat) (owner : Holder) (strands : List StrandId) : List PendingInv :=
  match s.tailList line with
  | some n => [⟨line, .hall (s.listHall n), owner, strands⟩]
  | none => []

/-- The apply step for a holder (R322): its copy is removed. At the home die a copy with dirty bytes becomes the home's own line (R314), since they
are nowhere else. -/
def State.applyPending (s : State) (h : Holder) (line : Nat) : State :=
  if s.hasPending h line then
    let s := { s with pending := s.pending.filter fun p => !(p.line == line && p.holder == h) }
    match h with
    | .die d => (match (if s.homeDie line = some d then s.findLine d line else none) with
        | some c => if c.dirty = 0 then s.dropLine d line else s.modLine d line fun c => { c with st := .home }
        | none => s.dropLine d line)
    | .hall _ => (match s.tailList line with
        | some n => { s with lists := s.lists.set n.val { s.lists[n.val] with tail := none } n.isLt }
        | none => s)
    | _ => s
  else s

/-- An invalidation on its way to a holder, sent for the ownership of another (R322). -/
def inval (line : Nat) (owner : Holder) (strands : List StrandId) (h : Holder) : PendingInv := ⟨line, h, owner, strands⟩

/-- A holder's copy goes back to its home: dirty bytes are merged into a copy there, or the line is placed there by `place`. Another
package's or the host's line is written in that memory. -/
def State.mergeHome (s : State) (line data dirty : Nat) (place : State → DieId → State) : State :=
  match s.homeDie line with
  | none => s.arrayWrite line data dirty
  | some h =>
    let s := (s.applyPending (.die h) line).foldErrs h line
    match s.findLine h line with
    | some c => s.modLine h line fun _ => { c with data := mergeLine dirty data c.data, dirty := c.dirty ||| dirty }
    | none => place s h

/-- The attributes of an access with no leaf: one to local memory, or a party's own. -/
def localAttr (hint : Hint) : Attr := ⟨0, false, false, false, 0, .general, hint⟩

/-- The number of no way: a line on its way out, which stands in the write-back buffer of its L2 or RDC until its WB or DR is served (R262,
R315). It stays readable there. -/
def outWay : Nat := 24

/-- A line loses its way to a fill (R262): a home's own line, and one whose invalidation is on its way, leaves at once, its dirty bytes in the
arrays; another one goes by a WB or a DR through the Roll, which takes it from the write-back buffer. -/
def State.displace (s : State) (d : DieId) (line : Nat) : State :=
  let s := s.foldErrs d line
  match s.findLine d line with
  | none => s
  | some c =>
    if c.rdc ∧ s.hasPending (.die d) line then s.applyPending (.die d) line
    else if c.st = .home ∨ s.hasPending (.die d) line then
      ((s.arrayWrite line c.data c.dirty).applyPending (.die d) line).dropLine d line
    else s.modLine d line fun c => { c with way := outWay }

/-- Place a line in a die's L2 or RDC in one of the given ways; none where none is open. -/
def State.place (s : State) (d : DieId) (ways : List Nat) (c : CacheLine) : Option State :=
  (pickWay (s.die d).lines c.rdc c.line ways).map fun (w, v) =>
    ((v.map fun x => s.displace d x.line).getD s).putLine d { c with way := w }

/-- Write data at a line's home (R314, R320): into the home L2, in a way open to the class and the hint that `attr` gives, or into the arrays when
none is. A WB, a retire, a recall and roll call bring no attributes: they fill as the general class with no hint (DESIGN CHOICE, assumption 95). -/
def State.homeWrite (s : State) (line data dirty : Nat) (attr : Attr := localAttr .default) : State :=
  s.mergeHome line data dirty fun s d =>
    (s.place d (openWays (s.die d).l2wq attr.cls attr.hint)
      ⟨line, false, mergeLine dirty data (s.arrayLine line), dirty, .home, 0, hintPrio attr.hint⟩).getD (s.arrayWrite line data dirty)

/-! ## The line stores (R1, R317) -/

/-- The lines of a Hall die's line store (R1): 128 MiB. -/
def storeSize : Nat := 1048576

/-- The entries of a Hall die, as it serves a line: those of its slice, and of the other one where it serves both. While roll call waits it holds
none of a lost die's (R311, R328). -/
def State.hallEntries (s : State) (line : Nat) : List RollEntry :=
  let h := sliceOf line
  (s.slice h).entries ++ (if s.serving h = s.serving (1 - h) ∧ ¬ (s.slice (1 - h)).waiting then (s.slice (1 - h)).entries else [])

/-- The least recently used of several entries (R318). -/
def leastUsed : List RollEntry → Option RollEntry
  | [] => none
  | e :: es => some (es.foldl (fun m x => if x.use < m.use then x else m) e)

/-- Retire (R320): the clear step of R314 with the line store's dirty data, and the entry is freed. -/
def State.retire (s : State) (e : RollEntry) (home : State → Nat → Nat → State) : State :=
  let s := if e.own = .store ∧ e.lsDirty ≠ 0 then (let (s, x) := s.foldStore e.line e.lsData; home s x e.lsDirty) else s
  let s := (s.dropEntry e.line).setOut e.line false
  match s.homeDie e.line with
  | some d => (s.applyPending (.die d) e.line).modLine d e.line fun c => { c with st := .home }
  | none => s

/-- The line store gives up its copy of a line (assumption 68): dirty data goes home, a Hall's tail line goes with it, and the first of the other
holders is the supplier; with none the entry retires. -/
def State.leaveStore (s : State) (e : RollEntry) : State :=
  let s := match s.tailList e.line with
    | some n => { s with lists := s.lists.set n.val { s.lists[n.val] with tail := none } n.isLt }
    | none => s
  let s := if e.own = .store ∧ e.lsDirty ≠ 0 then (let (s, x) := s.foldStore e.line e.lsData; s.homeWrite e.line x e.lsDirty) else s
  let r : RollEntry := { e with ls := false, lsData := 0, lsDirty := 0 }
  let s := s.freshStore e.line
  if e.own ≠ .store then s.modEntry e.line fun _ => r
  else match r.holders with
    | [] => s.retire r fun s _ _ => s
    | x :: _ =>
      let clean (c : CacheLine) : CacheLine := if c.st = .sd then { c with st := .s } else c
      ((List.finRange 4).foldl (fun s d => s.modLine d e.line clean) s).modEntry e.line fun _ => { r with st := .s, own := ownerOf x }

/-- An entry is written whose line the line store takes, or holds anew. A full line store gives up its least recently used line first (R1 gives its
size; DESIGN CHOICE, assumption 68). -/
def State.putStore (s : State) (e : RollEntry) : State :=
  let held := (s.hallEntries e.line).filter fun x => x.ls && x.line != e.line
  let s := if held.length < storeSize then s
    else ((leastUsed (held.filter fun x => !x.rc && !x.atom)).map s.leaveStore).getD s
  (s.freshStore e.line).putEntry e

/-- A holder's copy leaves the Roll: a WB of a dirty copy or a DR of a clean one (R316, R317). `home` writes data at the line's home. Where the
supplier of an S line leaves, the line store follows it if it holds the line, else the lowest die, the host, or a peer, in that order
(DESIGN CHOICE, assumption 89); an O line that its last holder but the line store leaves retires, unless a Hall holds its tail line
(DESIGN CHOICE, assumption 90). -/
def State.leaveRoll (s : State) (h : Holder) (line data dirty : Nat) (home : State → Nat → Nat → State) : State :=
  match s.entry line with
  | none => s
  | some e =>
    let r := e.del h
    let tail : Bool := r.ls && (s.tailList line).isSome
    let shared (s : State) (x m : Nat) : State := (home s x m).putStore { r with st := .s, own := .store, lsData := x, lsDirty := 0 }
    if e.own = ownerOf h then
      match e.st with
      | .m => (home s data dirty).retire r home
      | .o =>
        if r.holders.isEmpty then (if tail then shared s data dirty else (home s data dirty).retire r home)
        else
          let s := r.holders.foldl (fun s x => match x with
            | .die d => s.modLine d line fun c => { c with st := .sd }
            | _ => s) s
          s.putStore { r with own := .store, ls := true, lsData := data, lsDirty := dirty }
      | _ =>
        match r.holders with
        | x :: _ => s.putEntry { r with st := .s, own := if r.ls then .store else ownerOf x }
        | [] => if r.ls then s.putEntry { r with st := .s, own := .store } else s.retire { r with st := .s } home
    else if r.holders.isEmpty ∧ e.own = .store then
      (if e.st ≠ .o then s.putEntry r
       else if tail then (let (s, x) := s.foldStore line e.lsData; shared s x e.lsDirty)
       else s.retire r home)
    else if r.holders.isEmpty ∧ ¬ tail then s.retire r home
    else s.putEntry r

/-- Whether an atomic on a line is between its intent and its done record (R325). -/
def State.busy (s : State) (line : Nat) : Bool := (s.slice (sliceOf line)).busy.contains line

/-- The 2-bit fold of a physical address that chooses a peer port (R368). -/
def peerFold (pa : Nat) : Nat :=
  let b (i : Nat) : Nat := if pa.testBit i then 1 else 0
  (b 7 + b 9 + b 11 + b 13 + b 15 + b 17 + b 19) % 2 + 2 * ((b 8 + b 10 + b 12 + b 14 + b 16 + b 18) % 2)

/-- The ports that a Hall die's route table names toward a package for a line, in the cyclic order in which they are tried (R368). -/
def Hall.routePorts (x : Hall) (q line : Nat) : List (BitVec 5) :=
  let e : Word := x.rte[q % 64]'(Nat.mod_lt _ (by decide))
  let n := (e.extractLsb' 61 2).toNat + 1
  if e.getLsbD 63 then (List.range n).map fun i => e.extractLsb' (5 * ((peerFold (128 * line) + i) % n)) 5 else []
/-- Whether a number names a peer port that is up. -/
def Hall.portUp (x : Hall) (p : BitVec 5) : Bool := if lt : p.toNat < 18 then (x.ports[p.toNat]'lt).up else false
/-- The Hall die and the port by which a packet leaves a Hall die toward a package for a line (R368): ports that are down are skipped, and
31 names the other Hall die, whose own table and ports then serve it. -/
def State.route (s : State) (h : HallId) (q line : Nat) : Option (HallId × BitVec 5) :=
  let x := s.hall h
  let y := s.hall (1 - h)
  let across : Option (BitVec 5) := if y.present && !y.lost then (y.routePorts q line).find? y.portUp else none
  (x.routePorts q line).findSome? fun p =>
    if p.toNat < 18 then (if x.portUp p then some (h, p) else none) else across.map fun r => (1 - h, r)

/-- Whether the links reach the package of a line (R371). -/
def State.routed (s : State) (line : Nat) : Bool :=
  match paKind (128 * line) with
  | .device p => p == s.pkg || (!s.lostPeers.any (·.toNat == p) && (s.route (s.portOf line) p line).isSome)
  | _ => true

/-- The same for an access that goes to a package with no grant of its line (R268, R371, R373): a hop count that dropped a packet of the line makes
the package unreachable, until the access it was of is given up (R368). -/
def State.reached (s : State) (line : Nat) : Bool :=
  s.routed line && !((s.slice (sliceOf line)).asks.any fun a => a.line == line && a.dropped && a.who == .sent)

/-- What a request needs of other packages (R316, R371): nothing but its line's home, the package that has the data, or every package that
holds a copy. -/
inductive Reach where | home | data | all
  deriving DecidableEq, Repr

/-- Whether a line is homed in another package (R370). -/
def State.foreign (s : State) (line : Nat) : Bool :=
  match paKind (128 * line) with
  | .device p => p != s.pkg
  | _ => false

/-- Whether a request for a line has to go on to the line's home in another package: it misses this package's proxy entry, or it takes an
ownership that the package does not hold (R370). -/
def State.homeNeed (s : State) (line : Nat) (excl : Bool) : Bool :=
  s.foreign line && (match s.entry line with
    | some e => excl && !e.mine
    | none => true)

/-- Whether the links reach the packages that a request for a line needs (R371). -/
def State.linked (s : State) (line : Nat) (need : Reach := .all) : Bool :=
  let reaches (p : BitVec 6) : Bool := (s.route (s.portOf line) p.toNat line).isSome
  let atHome : Bool := match s.entry line, need with
    | some e, .home => e.st == .m || e.holders.length ≤ 1
    | none, _ => true
    | some _, need => s.homeNeed line (need == .all)
  (s.routed line || !atHome) &&
  (match s.entry line, need with
    | some e, .all => e.peers.all reaches
    | some e, .data => (match e.own with
        | .peer p => e.ls || reaches p
        | _ => true)
    | _, _ => true)

/-- Whether a slice can serve a request for a line now (R316, R328, R371): it serves, the packages concerned are reached, and no recall or
atomic of the line is in progress. -/
def State.lineFree (s : State) (line : Nat) (need : Reach := .all) : Bool :=
  s.sliceUp (sliceOf line) && s.linked line need && !s.busy line &&
  (match s.entry line with
    | some e => !e.rc && !e.atom
    | none => true)
/-- The same for a request that arrives now, behind those that wait (R316). -/
def State.canServe (s : State) (line : Nat) (need : Reach := .all) : Bool :=
  s.lineFree line need && !((s.slice (sliceOf line)).queue.any (·.line == line))

/-- Empty the way of a line in a home L2, making the arrays hold what its copy held (R262). None when its Roll entry cannot be served
now. -/
def State.evictHome (s : State) (d : DieId) (c : CacheLine) : Option State :=
  let s := s.foldErrs d c.line
  let c := (s.findLine d c.line).getD c
  let w := s.arrayWrite c.line c.data c.dirty
  if c.st = .home ∨ s.hasPending (.die d) c.line then some ((w.applyPending (.die d) c.line).dropLine d c.line)
  else if s.canServe c.line .home then
    some ((w.dropLine d c.line).leaveRoll (.die d) c.line c.data c.dirty fun s x m => s.arrayWrite c.line x m)
  else none

/-- Empty the way of a line in an RDC: a WB or a DR through the Roll (R262). -/
def State.evictRdc (s : State) (d : DieId) (c : CacheLine) : Option State :=
  let s := s.foldErrs d c.line
  let c := (s.findLine d c.line).getD c
  if s.hasPending (.die d) c.line then some (s.applyPending (.die d) c.line)
  else if s.canServe c.line .home then
    some ((s.dropLine d c.line).leaveRoll (.die d) c.line c.data c.dirty fun s x m => s.homeWrite c.line x m)
  else none

/-- Place a granted line in a die that holds it through the Roll: its RDC, or its L2 when it is the home and a way is open to the fill (R261,
R263, R314). -/
def State.placeCopy (s : State) (d : DieId) (line : Nat) (attr : Attr) (data dirty : Nat) (st : CopySt) : Option State :=
  if s.homeDie line = some d then
    match s.findLine d line with
    | some c => some ((s.putLine d { c with data := data, dirty := c.dirty ||| dirty, st := st }).freshCopy d line)
    | none => s.place d (openWays (s.die d).l2wq attr.cls attr.hint) ⟨line, false, data, dirty, st, 0, hintPrio attr.hint⟩
  else
    match s.findLine d line with
    | some c => some ((s.putLine d { c with data := data, dirty := dirty, st := st }).freshCopy d line)
    | none => s.place d (List.range 16) ⟨line, true, data, dirty, st, 0, hintPrio attr.hint⟩

/-! ## The value of a line at its serialisation point -/

/-- The data and the dirty bytes of a line that is owned outside this package (R313): one in S or E is clean, and the bytes of one in O are those of
every copy here. What its owner wrote is a free value (assumption 13), which stays as it is while the line is in O. -/
def State.outsideData (s : State) (e : RollEntry) : State × Nat × Nat :=
  let copy (s : State) (d : DieId) : Option CacheLine :=
    if e.dies.getLsbD d.val ∧ ¬ s.hasPending (.die d) e.line then s.findLine d e.line else none
  if e.st = .s ∨ e.st = .e then
    let s := s.foldHome e.line
    (s, s.homeData e.line, 0)
  else if e.ls then
    let (s, x) := s.foldStore e.line e.lsData
    (s, x, 2 ^ 128 - 1)
  else match (List.finRange 4).find? fun d => (copy s d).isSome with
    | some d =>
      let s := s.foldErrs d e.line
      (s, ((copy s d).map (·.data)).getD 0, 2 ^ 128 - 1)
    | none => match e.known with
      | some x => (s, x, 2 ^ 128 - 1)
      | none =>
        let x := Config.freeNat s.fresh % 2 ^ 1024
        let s := { s with fresh := s.fresh + 1 }
        (if e.st = .o then s.modEntry e.line fun y => { y with known := some x } else s, x, 2 ^ 128 - 1)

/-- The data and the dirty bytes of a line with an entry, from its owner or supplier (R313). -/
def State.entryData (s : State) (e : RollEntry) : State × Nat × Nat :=
  match e.own with
  | .die d =>
    let s := s.foldErrs d e.line
    (match s.findLine d e.line with
      | some c => (s, c.data, c.dirty)
      | none => let s := s.foldHome e.line; (s, s.homeData e.line, 0))
  | .store => let (s, x) := s.foldStore e.line e.lsData; (s, x, e.lsDirty)
  | .host => s.outsideData e
  | .peer _ => s.outsideData e

/-- A line's value at its serialisation point (R297, R323): the home while the out bit is clear, the entry's owner otherwise. -/
def State.serialData (s : State) (line : Nat) : State × Nat :=
  match s.entry line with
  | none => let s := s.foldHome line; (s, s.homeData line)
  | some e => let (s, x, _) := s.entryData e; (s, x)

/-! ## Requests at the homes of other packages' lines (R370, R377) -/

/-- The requests of this package at a line's home. -/
def State.asksOf (s : State) (line : Nat) : List HomeAsk := (s.slice (sliceOf line)).asks.filter (·.line == line)

/-- The answer of a line's home to a request of an asker, where it gives what is asked: own, dirty, pend and the data. -/
def State.homeAns (s : State) (line : Nat) (excl : Bool) (who : Asker) : Option (Bool × Bool × Bool × Nat) :=
  (s.asksOf line).findSome? fun a => if a.who = who then a.ans.filter fun (own, _) => own || !excl else none

/-- A request goes to a line's home, once; an answer that does not give what is asked goes with it. -/
def State.askHome (s : State) (line : Nat) (excl : Bool) (who : Asker) : State :=
  if (s.asksOf line).any fun a => a.who == who && a.ans.isNone && (a.excl || !excl) then s
  else s.modSlice (sliceOf line) fun x =>
    { x with asks := x.asks.filter (fun a => !(a.line == line && a.who == who && a.ans.isSome)) ++ [⟨line, excl, who, none, false⟩] }

/-- The answer to an asker's request is used. -/
def State.takeAns (s : State) (line : Nat) (who : Asker) : State :=
  s.modSlice (sliceOf line) fun x => { x with asks := removeFirst (fun a => a.line == line && a.who == who && a.ans.isSome) x.asks }

/-- The requests for a line that a hop count has dropped are given up (R368, R371). -/
def State.giveUp (s : State) (line : Nat) : State :=
  s.modSlice (sliceOf line) fun x => { x with asks := x.asks.filter fun a => !(a.line == line && a.dropped) }

/-- The invalidations of a home's grant that are on their way, which the home tells this package of once they are applied (R370). -/
def homePend (line : Nat) (owner : Holder) (pend : Bool) : List PendingInv :=
  match paKind (128 * line) with
  | .device q => if pend then [⟨line, .peer (BitVec.ofNat 6 q), owner, []⟩] else []
  | _ => []

/-- A read at the home of another package's line, by an asker that keeps no copy (R377). None while the answer is on its way. -/
def State.homeRead (s : State) (line : Nat) (who : Asker) : State × Option Nat :=
  match s.homeAns line false who with
  | some (_, _, _, x) => (s.takeAns line who, some x)
  | none => (s.askHome line false who, none)

/-! ## Grants (R314, R316, R322) -/

/-- The copy a holder keeps after a grant. A die's copy is placed; nothing of the host's or a peer's copy is held here. -/
def State.giveCopy (s : State) (h : Holder) (line : Nat) (attr : Attr) (data dirty : Nat) (st : CopySt) : Option State :=
  match h with
  | .die d => s.placeCopy d line attr data dirty st
  | _ => some s

/-- A new entry for a line, owned by a holder. -/
def freshEntry (line : Nat) (h : Holder) (st : RollSt) (px : Bool) : RollEntry :=
  (RollEntry.mk line st false false px (ownerOf h) false 0 0 false 0 [] true none 0).add h

/-- The rows of RS for an entry (R316): M and O become O, E and S become S, and a die that owns the line follows. The bytes of a line that is owned
outside this package are known from then on. -/
def State.shareEntry (s : State) (e : RollEntry) (x : Nat) : State × RollEntry :=
  let known : Option Nat := match e.own with
    | .host | .peer _ => some x
    | _ => none
  let st : RollSt := match e.st with
    | .m | .o => .o
    | _ => .s
  let s := match e.own with
    | .die d => s.modLine d e.line fun c => { c with st := if st = RollSt.o then .o else .s }
    | _ => s
  let e := { e with st := st, known := if st = RollSt.o then known else none }
  (s.putEntry e, e)

/-- The grant of another package's line that misses its proxy entry, from the answer of its home (R370): the entry is in S, E or M as the home
granted it. -/
def State.grantFar (s : State) (h : Holder) (line : Nat) (excl : Bool) (attr : Attr) : Option State :=
  (s.homeAns line excl .proxy).bind fun (own, more, pend, x) =>
    let dirty := own && more
    let st : RollSt := if !own then .s else if dirty then .m else .e
    let copy : CopySt := if !own then .s else if dirty then .m else .e
    let s := { s.takeAns line .proxy with pending := homePend line h pend ++ s.pending }
    (s.putEntry { freshEntry line h st true with mine := own }).giveCopy h line attr x (if dirty then 2 ^ 128 - 1 else 0) copy

/-- A home L2's copy of a line that its holder outside owns dirty is to take that line's bytes: its own dirty bytes go to the arrays first, since
the line reverts to them if that holder is lost (R371; DEDUCED, assumption 49). -/
def State.settleHome (s : State) (e : RollEntry) : State :=
  match s.homeDie e.line, e.own with
  | some d, .host | some d, .peer _ => let s := s.foldErrs d e.line; (match s.findLine d e.line with
      | some c => (s.arrayWrite e.line c.data c.dirty).modLine d e.line fun c => { c with dirty := 0 }
      | none => s)
  | _, _ => s

/-- The grant of a shared copy (R316); a holder that has one keeps it. None when the holder has no room for it now. -/
def State.grantRS (s : State) (h : Holder) (line : Nat) (attr : Attr) : Option State :=
  match s.entry line with
  | none =>
    if s.foreign line then s.grantFar h line false attr
    else
      let s := s.foldHome line
      let x := s.homeData line
      ((s.setOut line true).putEntry (freshEntry line h .e (s.homeDie line).isNone)).giveCopy h line attr x 0 .e
  | some e =>
    let (s, x, _) := s.entryData e
    let (s, e) := s.shareEntry e x
    if e.has h then some s
    else
      let s := if e.st = RollSt.o ∧ s.homeDie line = (match h with
        | .die d => some d
        | _ => none) then s.settleHome e else s
      (s.putEntry (e.add h)).giveCopy h line attr x 0 (if e.st = RollSt.o ∧ e.own = RollOwner.store then .sd else .s)

/-- The grant of ownership (R316): every other holder is sent an invalidation, a dirty copy goes with the ownership, and in a set step
the home L2's copy is removed. -/
def State.grantRX (s : State) (h : Holder) (line : Nat) (attr : Attr) : Option State :=
  match s.entry line with
  | none =>
    if s.foreign line then s.grantFar h line true attr
    else
      let s := s.foldHome line
      let (x, m, s) := match s.homeDie line with
        | some d => (match s.findLine d line with
            | some c => (c.data, c.dirty, s.dropLine d line)
            | none => (s.arrayLine line, 0, s))
        | none => (s.arrayLine line, 0, s)
      let dirty := m != 0
      ((s.setOut line true).putEntry (freshEntry line h (if dirty then .m else .e) (s.homeDie line).isNone)).giveCopy h line attr x m
        (if dirty then .m else .e)
  | some e =>
    let (s, x, m) := s.entryData e
    let (farDirty, farPend) := match s.homeAns line true .proxy with
      | some (_, dirty, pend, _) => if e.mine then (false, false) else (dirty, pend)
      | none => (false, false)
    let s := if e.mine then s else s.takeAns line .proxy
    let dirty := e.st == .m || e.st == .o || farDirty
    let m := if farDirty then 2 ^ 128 - 1 else m
    let s := { s with pending := (e.holders.filter (· != h)).map (inval line h []) ++ s.tellHall line h [] ++ homePend line h farPend ++
                                 s.pending }
    (s.putEntry (freshEntry line h (if dirty then .m else .e) e.px)).giveCopy h line attr x (if dirty then m else 0)
      (if dirty then .m else .e)

/-! ## Overflow and recall (R318, R319) -/

/-- The set of an entry within its slice: 16 Mi entries in 16 ways (R311; assumption 12). Bit 0 of the line follows from the slice and bits 1
to 12, so the bits above it choose the set. -/
def rollSet (line : Nat) : Nat := line / 2 % 1048576

/-- The entries that share the ways of a line's Roll set: those of both slices when one Hall die serves both (R311). -/
def State.rollWays (s : State) (line : Nat) : List RollEntry := (s.hallEntries line).filter fun e => rollSet e.line == rollSet line

/-- Begin the recall of an entry (R319): RC is set, every holder is sent an invalidation, and dirty data goes home. Until it retires the entry shows
S, the line store and no holder (DESIGN CHOICE, assumption 91). -/
def State.recallEntry (s : State) (e : RollEntry) : State :=
  let (s, x, m) := s.entryData e
  let s := { s with pending := e.holders.map (fun y => inval e.line y [] y) ++ s.tellHall e.line (.hall 0) [] ++ s.pending }
  let s := s.putStore { e with st := .s, rc := true, own := .store, ls := true, lsData := x, lsDirty := 0, hs := false, dies := 0,
                               peers := [] }
  if e.st = .m ∨ e.st = .o then s.homeWrite e.line x m else s

/-- Whether an entry's recall has sent its invalidations (R319). -/
def RollEntry.recalled (e : RollEntry) : Bool := e.rc && e.st == .s && e.own == .store && e.holders.isEmpty

/-- A recall is asked for (R319): RC is set at once, and while an atomic is in progress on the line, its slice waits or a holder's package is not
reached, the recall goes on later. -/
def State.askRecall (s : State) (line : Nat) : State :=
  match s.entry line with
  | none => s
  | some e =>
    if e.recalled then s
    else if e.atom || !s.sliceUp (sliceOf line) || !s.linked line then s.modEntry line fun e => { e with rc := true }
    else s.recallEntry e

/-- The 128 bits of an entry as the inspection window shows them (R312). -/
def RollEntry.bits (e : RollEntry) : BitVec 128 :=
  let st : BitVec 3 := match e.st with
    | .s => 1
    | .e => 2
    | .o => 3
    | .m => 4
  let (own, pkg) : BitVec 3 × BitVec 6 := match e.own with
    | .die d => (BitVec.ofNat 3 d.val, 0)
    | .store => (4, 0)
    | .host => (5, 0)
    | .peer p => (6, p)
  let peers : BitVec 16 := e.peers.foldl (fun m p => m ||| ((1 : BitVec 16) <<< (p.toNat / 4))) 0
  BitVec.ofNat 45 e.line ++ st ++ BitVec.ofBool e.rc ++ BitVec.ofBool e.atom ++ BitVec.ofBool e.px ++ own ++ pkg ++ BitVec.ofBool e.ls ++
    BitVec.ofBool e.hs ++ e.dies ++ peers ++ (0 : BitVec 46)

/-- A request that needs a new entry in a full set starts the recall of the least recently used way that has neither RC nor AT, and waits
for the recall in progress (R318). -/
def State.makeWay (s : State) (line : Nat) : State × Bool :=
  if (s.entry line).isSome ∨ (s.rollWays line).length < 16 then (s, true)
  else if (s.rollWays line).any (·.rc) then (s, false)
  else
    match leastUsed ((s.rollWays line).filter fun e => !e.rc && !e.atom) with
    | some e => (s.askRecall e.line, false)
    | none => (s, false)

/-- A request waits at its slice, once (R316). -/
def State.enqueue (s : State) (r : SliceReq) : State :=
  if (s.slice (sliceOf r.line)).queue.any fun x => x.line == r.line && x.kind == r.kind && x.holder == r.holder && x.strand == r.strand
  then s
  else s.modSlice (sliceOf r.line) fun x => { x with queue := x.queue ++ [r] }

/-! ## Obtaining a line at a die point (R121, R262, R322) -/

/-- What an access finds at its die point. -/
inductive Got where
  /-- The die's copy serves it. -/
  | copy (s : State)
  /-- No way is open to the fill: it is a single transfer at the home (R263). -/
  | bypass (s : State)
  /-- It waits. -/
  | wait (s : State)

/-- Whether a die is the home of a line, holds no copy of it, and has no way open to it: an access to it is a single transfer (R263). -/
def State.noRoom (s : State) (d : DieId) (line : Nat) (attr : Attr) : Bool :=
  s.homeDie line == some d && (s.findLine d line).isNone && (openWays (s.die d).l2wq attr.cls attr.hint).isEmpty

/-- One grant step (R316, R318, R322), the holder's own invalidation being applied first. False when it has to wait: a full set starts a
recall, a line of another package is asked for at its home (R370), and a copy that displaces one waits for that one to leave. -/
def State.grant (s : State) (h : Holder) (line : Nat) (excl : Bool) (attr : Attr) : State × Bool :=
  match (s.applyPending h line).makeWay line with
  | (s', false) => (s', false)
  | (s', true) =>
    if s'.homeNeed line excl ∧ (s'.homeAns line excl .proxy).isNone then (s'.askHome line excl .proxy, false)
    else match (if excl then s'.grantRX h line attr else s'.grantRS h line attr) with
    | some s' => (s', true)
    | none => (s, false)

/-- A die reads (or, with `excl`, owns) a line for an access: from its copy, by a fill from the arrays at the home while the out bit is
clear, or by a grant of the Roll. A copy that it holds stays readable whatever goes on at the slice, and so does one whose invalidation is on its
way (R322, R328); its home waits while it performs an atomic on the line for another die (R325), but when no Hall die is left (R332). -/
def State.obtain (s : State) (d : DieId) (line : Nat) (excl : Bool) (attr : Attr) : Got :=
  let s := s.foldErrs d line
  if s.homeDie line = some d ∧ ¬ s.isOut line then
    if s.busy line ∧ (s.serving (sliceOf line)).isSome then .wait s
    else match s.findLine d line with
    | some c => .copy (s.putLine d c)
    | none =>
      if s.noRoom d line attr then .bypass s
      else
        let s := s.fillWords line
        match s.place d (openWays (s.die d).l2wq attr.cls attr.hint) ⟨line, false, s.arrayLine line, 0, .home, 0, hintPrio attr.hint⟩ with
        | some s => .copy s
        | none => .wait s
  else
    let usable : Option CacheLine := (s.findLine d line).filter fun c =>
      c.st != .home && (!excl || ((c.st == .m || c.st == .e) && !s.hasPending (.die d) line))
    match usable with
    | some c => .copy (s.putLine d c)
    | none =>
      let req : SliceReq := ⟨line, if excl then .rx else .rs, .die d, none, attr, false⟩
      if ¬ s.canServe line (if excl then .all else .data) then .wait (s.enqueue req)
      else if s.noRoom d line attr then .bypass s
      else match s.grant (.die d) line excl attr with
        | (s', true) => .copy s'
        | (s', false) => .wait (s'.enqueue req)

/-- A strand's store is performed in a line: it is visible once the invalidations of the line that are on their way are applied, whichever grant
sent them (R322, R379; DEDUCED, assumption 93). -/
def State.joinPending (s : State) (line : Nat) (id : StrandId) : State :=
  { s with pending := s.pending.map fun p =>
      if p.line == line && !p.strands.contains id then { p with strands := id :: p.strands } else p }

/-- A die writes bytes of a line it may write: dirty bits and the M state follow (R313, R322). The strand's store counts as performed under
the ownership the die holds. -/
def State.storeMask (s : State) (d : DieId) (line mask x : Nat) (who : Option StrandId) : State :=
  let s := s.modLine d line fun c =>
    { c with data := mergeLine mask x c.data, dirty := c.dirty ||| mask, st := if c.st = .e then .m else c.st }
  let s := match s.entry line with
    | some e => if e.own = .die d ∧ e.st = .e then s.modEntry line fun y => { y with st := .m } else s
    | none => s
  match who with
  | none => s
  | some id => s.joinPending line id
/-- The same for n bytes at an offset. -/
def State.storeLine (s : State) (d : DieId) (line off n val : Nat) (who : Option StrandId) : State :=
  s.storeMask d line ((2 ^ n - 1) * 2 ^ off) (val % 2 ^ (8 * n) * 2 ^ (8 * off)) who

/-! ## Short-lived regions (R269, R270) -/

/-- What a SCOUNT returns of a region: its count, and its expired status in bit 32 (R281, R286). -/
def Region.word (x : Region) : Word := (0 : BitVec 31) ++ BitVec.ofBool x.exp ++ x.count

/-- The state a region holds; the reset one when it is not listed, and DEAD while its own state has an uncorrectable error (R276). -/
def State.region (s : State) (r : Nat) : Region :=
  let x : Region := (s.regions.find? (·.r == r)).getD ⟨r, 0, false, LifeSt.none⟩
  match s.errAt (.region r) with
  | some ErrKind.double | some ErrKind.triple => { x with life := LifeSt.dead }
  | _ => x
/-- A single-bit error of a region's state is corrected and counted as it is read (R276). -/
def State.readRegion (s : State) (r : Nat) : State :=
  if s.errAt (.region r) = some .single then (s.clearErr (.region r)).countCorrected (dieOfAddr (4096 * r)) else s
/-- A region's state is written; a region at the reset values is not listed. -/
def State.putRegion (s : State) (x : Region) : State :=
  let s := s.readRegion x.r
  let rest := s.regions.filter (·.r != x.r)
  (State.clearErr { s with regions := if x.count = 0 ∧ x.exp = false ∧ x.life = .none then rest else x :: rest } (.region x.r))

/-- Every byte of a region becomes zero, in the arrays and in any copy, with good check bits (R269, R278, R279). -/
def State.zeroRegion (s : State) (r : Nat) : State :=
  let inR (line : Nat) : Bool := line / 32 == r
  let cleared (e : RollEntry) : RollEntry := { e with lsData := 0, lsDirty := 0, known := e.known.map fun _ => 0 }
  { s with
    arrays := s.arrays.zero (4096 * r) 4096
    errs := s.errs.filter fun e => match e.1 with
      | .word pa | .copyWord _ pa | .storeWord pa => pa / 4096 != r
      | _ => true
    dies := s.dies.map fun d => { d with lines := d.lines.map fun c => if inR c.line then { c with data := 0, dirty := 0 } else c }
    slices := s.slices.map fun x => { x with entries := x.entries.map fun e => if inR e.line then cleared e else e } }

/-- The lifetime of a code, in ticks (R269). -/
def lifetime (lt : BitVec 8) : Nat := (16 + (lt.extractLsb' 0 4).toNat) * 2 ^ (lt.extractLsb' 4 4).toNat

/-- Whether a short-lived read of a region reads zeros (R269). -/
def State.deadRead (s : State) (pa : Nat) (attr : Attr) : Bool :=
  attr.sl && s.ownDevice pa && (s.region (regionOf pa)).life == .dead

/-- An access meets its region at its point (R269): the new state, with the region zeroed where the table says so. -/
def State.meetRegion (s : State) (pa : Nat) (attr : Attr) (write : Bool) : State :=
  if !s.ownDevice pa then s
  else
    let s := s.readRegion (regionOf pa)
    let x := s.region (regionOf pa)
    let live : LifeSt := .live (s.tick + lifetime attr.lt)
    match x.life, attr.sl, write with
    | .none, true, true => s.putRegion { x with life := live }
    | .none, _, _ => s
    | .live _, false, _ => s.putRegion { x with life := .none }
    | .live _, _, _ => s
    | .dead, true, false => s.putRegion { x with exp := true }
    | .dead, true, true => (s.zeroRegion x.r).putRegion { x with exp := true, life := live }
    | .dead, false, _ => (s.zeroRegion x.r).putRegion { x with life := .none }

/-! ## Accesses at a physical address -/

/-- What an access at a point answers: a value, a wait, or a fault with its cause. -/
inductive Acc (α : Type) where
  | ok (s : State) (a : α)
  | wait (s : State)
  | bad (s : State) (cause : Nat)

/-- Go on with an access that was answered. -/
def Acc.bind {α β : Type} (x : Acc α) (f : State → α → Acc β) : Acc β :=
  match x with
  | .ok s a => f s a
  | .wait s => .wait s
  | .bad s c => .bad s c

/-- Whether the strand's stall bound has passed while what a line's access needs is not served: its slice by roll call, or a package by the
links or the hop count (R329, R332, R368, R371). -/
def State.stallOver (s : State) (who : StrandId) (line : Nat) (need : Reach := .all) : Bool :=
  (s.strand who).stalled &&
    (!(s.sliceUp (sliceOf line) && s.linked line need) || (need == .home && !s.routed line) ||
      (s.asksOf line).any fun a => a.dropped && (a.who == .proxy || a.who == .engine || a.who == .sent || a.who == .strand who || a.who == .party (dieOf who.core)))

/-- An access that waits past the bound ends with the fault, and the strand's next wait has a bound of its own (R329). -/
def State.stallEnd (s : State) (who : StrandId) (line : Nat) : State := (s.giveUp line).modStrand who fun t => { t with stalled := false }

/-- A wait on the slice of a line becomes the fault 0x0D once the strand's stall bound has passed (R329, R332, R371). -/
def State.stallOr {α : Type} (s : State) (who : StrandId) (line : Nat) (need : Reach := .all) : Acc α :=
  if s.stallOver who line need then .bad (s.stallEnd who line) 0x0D else .wait s

/-- The check bits of the words of [pa, pa + n) in the arrays (R276): single errors are corrected by the home's base die and counted there
(DEDUCED, assumption 86), an uncorrectable one faults the consumer. -/
def State.checkWords (s : State) (pa n : Nat) : Acc Unit :=
  let words := (List.range ((pa + n - 1) / 8 - pa / 8 + 1)).map fun i => ErrSite.word (8 * (pa / 8 + i))
  let bad (e : ErrSite) : Bool := (s.errAt e).any (· != .single)
  if !s.ownDevice pa then (if words.any bad then .bad s 0x0C else .ok s ())
  else match s.consume (dieOfAddr pa) words with
    | (s, none) => .ok s ()
    | (s, some _) => .bad s 0x0C

/-- n bytes of a line's data at an offset go to a consumer, which faults on a bad word (R276). -/
def State.give (s : State) (x off n : Nat) : Acc Nat := if badBytes x off n then .bad s 0x0C else .ok s (lineBytes x off n)

/-- Whether a host-coherent access finds no CXL link (R363). -/
def State.noCxl (s : State) (pa : Nat) (attr : Attr) : Bool := attr.mkind == 1 && !(s.hall (s.portOf (lineOf pa))).cxl

/-- A non-posted request to non-coherent host memory that is made and answered in one step ends with the cause its completion brings (R326,
R366). -/
def State.hostAnswer (s : State) (who : StrandId) (attr : Attr) : Acc Unit :=
  match (s.strand who).hostBad with
  | some c => if attr.mkind = 2 then .bad (s.modStrand who fun t => { t with hostBad := none }) c.toNat else .ok s ()
  | none => .ok s ()

/-! ## A party's own reads and writes at the serialisation point -/

/-- Whether a line's serialisation point can serve a party on a die that keeps no copy: the home itself while the out bit is clear, if that is the
party's die, and the slice otherwise (R314 to R316, R332). -/
def State.pointFree (s : State) (d : DieId) (line : Nat) (need : Reach := .all) : Bool :=
  !s.busy line && ((s.homeDie line == some d && !s.isOut line) || s.canServe line need)

/-- A strong system-scope read of a line at its serialisation point, by a party that keeps no copy: a walker, an append, or an access with no way
open to it (R263, R266, R335). It meets its region (R269), and a line of another package that this one does not own is read at its home (R377). -/
def State.sysLine (s : State) (d : DieId) (pa : Nat) (attr : Attr) : Acc Nat :=
  let line := lineOf pa
  if s.deadRead pa attr then .ok (s.meetRegion pa attr false) 0
  else if !s.pointFree d line .data then .wait s
  else if s.homeNeed line true then
    match s.homeRead line (.party d) with
    | (s, some x) => .ok s x
    | (s, none) => .wait s
  else
    let (s, x) := (s.meetRegion pa attr false).serialData line
    .ok s x
/-- The same for n bytes within a line. -/
def State.sysRead (s : State) (d : DieId) (pa n : Nat) (attr : Attr) : Acc Nat :=
  (s.sysLine d pa attr).bind fun s x => s.give x (pa % 128) n

/-- A Hall collects ownership of a line into its line store, for an access of the owner's (R324): every other holder is sent an invalidation, and
another package's line is granted by its home first (R370). The line is clean or dirty as it was. With no entry, a line of this package stays at its
home. The answer is the line with the bytes that are dirty. -/
def State.collect (s : State) (owner : Holder) (who : List StrandId) (line : Nat) (atom : Bool) : State × Nat × Nat :=
  let joined (s : State) : State := who.foldl (fun s id => s.joinPending line id) s
  let (far, farDirty, farPend) := match s.homeAns line true .proxy with
    | some (_, dirty, pend, x) => (x, dirty, pend)
    | none => (0, false, false)
  let asked := s.homeNeed line true
  let s := if asked then s.takeAns line .proxy else s
  let given := homePend line owner (asked && farPend)
  match s.entry line with
  | none =>
    if asked then
      let m := if farDirty then 2 ^ 128 - 1 else 0
      ((joined { s with pending := given ++ s.pending }).putStore
        { freshEntry line (.hall 0) .s true with atom := atom, lsData := far, lsDirty := m }, far, m)
    else let s := s.foldHome line; (s, s.homeData line, 0)
  | some e =>
    let (s, x, m) := s.entryData e
    let m := if asked && farDirty then 2 ^ 128 - 1 else m
    let s := { s with pending := e.holders.map (inval line owner who) ++ s.tellHall line owner who ++ given ++ s.pending }
    ((joined s).putStore
      { e with st := .s, atom := atom, own := .store, ls := true, lsData := x, lsDirty := m, hs := false, dies := 0, peers := [],
               mine := true, known := none }, x, m)

/-- What a party's write, which keeps no copy, finds in its way (R318, R370): a line of another package is granted by its home first, into a way of
the set. Answered with whether it may go on. -/
def State.mayCollect (s : State) (line : Nat) : State × Bool :=
  if s.homeNeed line true then
    match s.makeWay line with
    | (s, false) => (s, false)
    | (s, true) => if (s.homeAns line true .proxy).isNone then (s.askHome line true .proxy, false) else (s, true)
  else (s, true)

/-- A write within a line at its serialisation point, by a party that keeps no copy: `f` gives the bytes and their mask from what the line holds. It
goes to the home, with every holder sent an invalidation while the line has an entry. -/
def State.sysUpdate (s : State) (d : DieId) (line : Nat) (attr : Attr) (f : Nat → Nat × Nat) : Acc Unit :=
  if !s.pointFree d line then .wait s
  else match s.mayCollect line with
    | (s, false) => .wait s
    | (s, true) =>
      let (s, old, m) := (s.meetRegion (128 * line) attr true).collect (.hall (sliceOf line)) [] line false
      let (mask, x) := f old
      match s.entry line with
      | none => .ok (s.homeWrite line x mask attr) ()
      | some e => let y := mergeLine mask x old; .ok ((s.putStore { e with lsData := y, lsDirty := 0 }).homeWrite line y (m ||| mask) attr) ()
/-- The same for bytes that do not depend on the line. -/
def State.sysWriteMask (s : State) (d : DieId) (line mask x : Nat) (attr : Attr) : Acc Unit := s.sysUpdate d line attr fun _ => (mask, x)
/-- The same for n bytes at an address. -/
def State.sysWrite (s : State) (d : DieId) (pa n val : Nat) (attr : Attr) : Acc Unit :=
  s.sysWriteMask d (lineOf pa) ((2 ^ n - 1) * 2 ^ (pa % 128)) (val % 2 ^ (8 * n) * 2 ^ (8 * (pa % 128))) attr
/-- Bits are set in the byte at an address, atomically (R266). -/
def State.sysOr (s : State) (d : DieId) (pa bits : Nat) (attr : Attr) : Acc Unit :=
  let off := pa % 128
  s.sysUpdate d (lineOf pa) attr fun x => (2 ^ off, (lineBytes x off 1 ||| bits) * 2 ^ (8 * off))

/-! ## The Halls' reads of tail lines -/

/-- The serving Hall reads a list's tail line again, as a Roll holder that keeps it in the line store, as an access without SL (R269, R315, R336).
False when it cannot now: a list in host memory needs the CXL link (R363), one in another package its home's answer (R370). -/
def State.hallRead (s : State) (n : Fin 64) : State × Bool :=
  let pa := (s.lists[n.val]).addr
  let line := lineOf pa
  let h := Holder.hall (s.listHall n)
  let reached : Bool := match paKind pa with
    | .device _ => true
    | .host => (s.hall (s.portOf line)).cxl
    | _ => false
  if !reached || !s.canServe line .data then (s, false)
  else match (s.applyPending h line).makeWay line with
    | (s, false) => (s, false)
    | (s, true) =>
      let ans := s.homeAns line false .proxy
      if s.homeNeed line false ∧ ans.isNone then (s.askHome line false .proxy, false)
      else
      let s := s.meetRegion pa (localAttr .default) false
      let (s, x) := if s.homeNeed line false then (s, (ans.map fun a => a.2.2.2).getD 0) else s.serialData line
      if badBytes x 0 8 then (s, false)
      else match s.grantRS h line (localAttr .default) with
        | none => (s, false)
        | some s =>
          let s := match s.entry line with
            | some e => if e.own = RollOwner.store then s.putStore { e with lsData := x }
                else s.putStore { e with lsData := x, lsDirty := 0, own := if e.st = RollSt.o then e.own else RollOwner.store }
            | none => s
          ({ s with lists := s.lists.set n.val { s.lists[n.val] with tail := some (BitVec.ofNat 64 (lineBytes x 0 8)) } n.isLt }, true)

/-! ## Reads, writes and atomics within a line at its point -/

/-- A store of a strand to a line whose out bit is set while no way is open to it at its home die: under an ownership that the home takes with no
copy, the line is a single transfer to the arrays and its entry is gone (R263, R322). -/
def State.transferOut (s : State) (who : StrandId) (line mask x : Nat) : State :=
  match s.entry line with
  | none => s.arrayWrite line x mask
  | some e =>
    let (s, old, m) := s.entryData e
    let owner : Holder := .die (dieOf who.core)
    let s := { s with pending := (e.holders.filter (· != owner)).map (inval line owner [who]) ++ s.tellHall line owner [who] ++ s.pending }
    ((((s.arrayWrite line (mergeLine mask x old) (m ||| mask)).dropEntry line).setOut line false).joinPending line who)

/-- A read at the arrays, or at the host for a non-coherent page (R202, R263, R267, R268): it meets its region before its words are read (R269). -/
def State.arrayRead (s : State) (pa n : Nat) (attr : Attr) : Acc Nat :=
  if s.deadRead pa attr then .ok (s.meetRegion pa attr false) 0
  else ((s.meetRegion pa attr false).checkWords pa n).bind fun s _ => .ok s (Memory.read s.arrays pa n)
/-- A write at the arrays, or at the host for a non-coherent page. -/
def State.arrayPut (s : State) (pa n val : Nat) (attr : Attr) : State :=
  let s := s.meetRegion pa attr true
  { s with arrays := Memory.write s.arrays pa n val }.cleanWords pa n

/-- Read n bytes within a line at the die point of its line, at the arrays for an untracked page, at the host for a non-coherent one
(R121, R202, R267, R268). -/
def State.pointRead (s : State) (who : StrandId) (pa n : Nat) (attr : Attr) : Acc Nat :=
  let d := dieOf who.core
  let line := lineOf pa
  if s.deadRead pa attr then .ok (s.meetRegion pa attr false) 0
  else if attr.mkind = 2 ∨ attr.ut then
    (if !s.reached line then s.stallOr who line .home else (s.hostAnswer who attr).bind fun s _ => s.arrayRead pa n attr)
  else
    match s.obtain d line false attr with
    | .wait s => s.stallOr who line .data
    | .bypass s =>
      if s.isOut line then (match s.sysRead d pa n attr with
        | .wait s => s.stallOr who line .data
        | x => x)
      else s.arrayRead pa n attr
    | .copy s =>
      let s := s.meetRegion pa attr false
      s.give (((s.findLine d line).map (·.data)).getD 0) (pa % 128) n

/-- Write n bytes within a line at its point. -/
def State.pointWrite (s : State) (who : StrandId) (pa n val : Nat) (attr : Attr) : Acc Unit :=
  let d := dieOf who.core
  let line := lineOf pa
  if attr.mkind = 2 ∨ attr.ut then
    (if !s.reached line then s.stallOr who line .home else .ok (s.arrayPut pa n val attr) ())
  else
    match s.obtain d line true attr with
    | .wait s => s.stallOr who line
    | .bypass s =>
      let off := pa % 128
      .ok (if s.isOut line then
          (s.meetRegion pa attr true).transferOut who line ((2 ^ n - 1) * 2 ^ off) (val % 2 ^ (8 * n) * 2 ^ (8 * off))
        else s.arrayPut pa n val attr) ()
    | .copy s => .ok ((s.meetRegion pa attr true).storeLine d line (pa % 128) n val (some who)) ()

/-- A strong, acquire or atomic read at package or system scope (R323, R370, R377): at the home while the line's out bit is clear, through a grant of
the slice for another die, which reads no older copy, and while the bit is set. At system scope a line of another package that this package does not own is read at its home. -/
def State.serialRead (s : State) (who : StrandId) (pa n : Nat) (sys : Bool) (attr : Attr) : Acc Nat :=
  let d := dieOf who.core
  let line := lineOf pa
  if attr.mkind = 2 ∨ attr.ut ∨ (s.homeDie line = some d ∧ ¬ s.isOut line) ∨ s.deadRead pa attr then s.pointRead who pa n attr
  else if ¬ s.canServe line .data then (s.enqueue ⟨line, .rs, .die d, none, attr, false⟩).stallOr who line .data
  else if s.noRoom d line attr then s.sysRead d pa n attr
  else if sys && s.foreign line && ((s.entry line).any fun e => !e.mine) then
    match s.homeRead line (.strand who) with
    | (s, some x) => s.give x (pa % 128) n
    | (s, none) => s.stallOr who line .home
  else
    match s.grant (.die d) line false attr with
    | (s', true) => s'.pointRead who pa n attr
    | (s', false) => (s'.enqueue ⟨line, .rs, .die d, none, attr, false⟩).stallOr who line .data

/-- An atomic on n bytes within a line at its die point, its arrays or its host: `f` gives the new value, or none for a failed compare
(R121, R305). -/
def State.pointAtomic (s : State) (who : StrandId) (pa n : Nat) (attr : Attr) (f : Nat → Option Nat) : Acc Nat :=
  let d := dieOf who.core
  let line := lineOf pa
  let atArrays (s : State) : Acc Nat :=
    ((s.meetRegion pa attr true).checkWords pa n).bind fun s _ =>
      let old := Memory.read s.arrays pa n
      match f old with
      | none => .ok s old
      | some v => .ok ({ s with arrays := Memory.write s.arrays pa n v }.cleanWords pa n) old
  if attr.mkind = 2 ∨ attr.ut then
    (if !s.reached line then s.stallOr who line .home else (s.hostAnswer who attr).bind fun s _ => atArrays s)
  else
    match s.obtain d line true attr with
    | .wait s => s.stallOr who line
    | .bypass s =>
      if s.isOut line then
        let s := s.meetRegion pa attr true
        let (s, x) := s.serialData line
        (s.give x (pa % 128) n).bind fun s old =>
          match f old with
          | none => .ok s old
          | some v =>
            let off := pa % 128
            .ok (s.transferOut who line ((2 ^ n - 1) * 2 ^ off) (v % 2 ^ (8 * n) * 2 ^ (8 * off))) old
      else atArrays s
    | .copy s =>
      let s := s.meetRegion pa attr true
      (s.give (((s.findLine d line).map (·.data)).getD 0) (pa % 128) n).bind fun s old =>
        match f old with
        | none => .ok s old
        | some v => .ok (s.storeLine d line (pa % 128) n v (some who)) old

/-! ## Atomics through the slice (R324, R325) -/

/-- Step 1 of R325: the line is taken, the operation is performed, and the record is written, marked intent. An uncorrectable error in the
bytes, or in what else the operation reads (`err`), answers the atomic with nothing done (R276). `vec` and `desc` are those of the record. -/
def State.atomicIntent (s : State) (who : StrandId) (pa n : Nat) (attr : Attr) (vec err : Bool) (desc : Nat × Nat)
    (f : Nat → Option Nat) : State :=
  let line := lineOf pa
  let off := pa % 128
  let s := s.meetRegion pa attr true
  let record (x y m op old : Nat) (bad : Bool) : State → State := fun s =>
    s.modStrand who fun t => { t with journal := some ⟨line, x, y, m, op, old, bad, bad, bad, vec, desc, attr⟩ }
  let (s', x, m) := s.collect (.die (dieOf who.core)) [who] line true
  if err || badBytes x off n then record 0 0 0 0 0 true s
  else
    let old := lineBytes x off n
    let (y, dm) := match f old with
      | some v => (patchLine x off n v, (2 ^ n - 1) * 2 ^ off)
      | none => (x, 0)
    (record x y (m ||| dm) dm old false s').modSlice (sliceOf line) fun z => { z with busy := line :: z.busy }

/-- The bytes that an atomic wrote reach the copy of the line in its core's L1, and a fill in flight (R146: L1 holds nothing that is not at the
point; DEDUCED, assumption 88). -/
def Core.l1Merge (c : Core) (line mask x : Nat) : Core :=
  { c with l1 := c.l1.map fun y => if y.line == line then { y with data := mergeLine mask x y.data } else y,
           fills := c.fills.map fun y => if y.line == line then { y with data := mergeLine mask x y.data } else y }

/-- Step 2 of R325: the new line is written home, filling as the access's class and hint say (R263), and an entry's line store holds it clean. A
record with nothing to write, as one of a region that has died (R270), changes no data. -/
def State.atomicWrite (s : State) (who : StrandId) (j : Journal) : State :=
  let s := s.modStrand who fun t => { t with journal := some { j with wrote := true } }
  if j.mask = 0 then s
  else
    let s := (s.homeWrite j.line j.newLine j.mask j.attr).modCore who.core (·.l1Merge j.line j.op j.newLine)
    match s.entry j.line with
    | some e => s.putStore { e with lsData := j.newLine, lsDirty := 0 }
    | none => s

/-- Step 3 of R325: the record is marked done and the line serves again. -/
def State.atomicDone (s : State) (who : StrandId) (j : Journal) : State :=
  let s := s.modStrand who fun t => { t with journal := some { j with wrote := true, done := true } }
  let s := s.modSlice (sliceOf j.line) fun z => { z with busy := z.busy.filter (· != j.line) }
  match s.entry j.line with
  | some e => s.putEntry { e with atom := false }
  | none => s

end Sys2Proof.Machine
end

