-- ==== Sys2Proof/Machine/Access.lean ====
section
/-! DEFINITION. From a virtual address to a byte: the local window (R236 to R239), the page tables and TLBs (R264 to R272), and the reads,
writes and atomics of a translated access at its point. -/
namespace Sys2Proof.Machine

/-! ## Local memory (R236 to R239) -/

/-- The logical index of the core that a core sees in a window (R236). -/
def Core.window (c : Core) (w : Nat) : Nat :=
  let q := (c.lx % 4 + 4 * (c.ly % 2)) ^^^ (w % 8)
  (c.lx / 4 * 4 + q % 4) + 16 * (c.ly / 2 * 2 + q / 4)

/-- The running core at a logical index of a launch. -/
def State.coreAt (s : State) (lid : BitVec 32) (idx : Nat) : Option CoreId :=
  (List.finRange 128).find? fun c => (s.core c).lid == some lid && (s.core c).index == idx
/-- The saved image of a core at a logical index of a launch (R239, R346). -/
def State.savedAt (s : State) (lid : BitVec 32) (idx : Nat) : Option SavedCore :=
  s.recessStore.find? fun x => x.lid == lid && x.core.index == idx
/-- The core's state, running or saved. -/
def State.coreImage (s : State) (lid : BitVec 32) (idx : Nat) : Option Core :=
  match s.coreAt lid idx with
  | some c => some (s.core c)
  | none => (s.savedAt lid idx).map (·.core)
/-- Change a core's state, running or saved (R239). -/
def State.modImage (s : State) (lid : BitVec 32) (idx : Nat) (f : Core → Core) : State :=
  match s.coreAt lid idx with
  | some c => s.modCore c f
  | none =>
    let hit (x : SavedCore) : Bool := x.lid == lid && x.core.index == idx
    { s with recessStore := replaceFirst hit (fun x => { x with core := f x.core }) s.recessStore }

/-- Whether an address lies in the local window region (R237). -/
def inLocal (a : Word) : Bool := a.toNat / 2 ^ 24 == 0x7F00_0000_0000 / 2 ^ 24

/-- The place of a local-window address as a core sees it; none when the core in that window is not placed on the launch (R237). -/
def State.localPlace (s : State) (c : CoreId) (a : Word) : Option Place :=
  let x := s.core c
  match x.lid with
  | none => none
  | some lid =>
    let idx := x.window (a.toNat / 2 ^ 21 % 8)
    if (s.coreImage lid idx).isSome then some (.loc lid idx (a.toNat % 2 ^ 21)) else none

/-! ## Translation (R264 to R266, R271) -/

/-- The kinds of access a translation serves, in the order of the codes of R274. -/
inductive AccKind where | fetch | sread | swrite | atomic | vread | vwrite | cread | cwrite
  deriving DecidableEq, Repr

/-- The access code of a page-fault record (R274). -/
def AccKind.code : AccKind → Nat
  | .fetch => 0
  | .sread => 1
  | .swrite => 2
  | .atomic => 3
  | .vread => 4
  | .vwrite => 5
  | .cread => 6
  | .cwrite => 7

/-- Whether an access writes. -/
def AccKind.writes : AccKind → Bool
  | .swrite | .atomic | .vwrite | .cwrite => true
  | _ => false

/-- Whether a leaf permits an access (R266). -/
def permits (leaf : Word) : AccKind → Bool
  | .fetch => leaf.getLsbD 4
  | .sread | .vread | .cread => leaf.getLsbD 2
  | .swrite | .vwrite | .cwrite => leaf.getLsbD 3
  | .atomic => leaf.getLsbD 2 && leaf.getLsbD 3

/-- PA[51:12] of an entry, as an address (R265). -/
def ptePa (e : Word) : Nat := (e.extractLsb' 12 40).toNat * 4096
/-- The bytes a leaf at a level maps, but for a contiguous group (R264). -/
def leafSize (level : Nat) : Nat := 4096 * 512 ^ (level - 1)

/-- Whether a valid leaf at a level is malformed (R266). -/
def State.badLeaf (s : State) (level : Nat) (e : Word) : Bool :=
  let pa := ptePa e
  let mk := (e.extractLsb' 53 2).toNat
  let sl := e.getLsbD 11
  let ut := e.getLsbD 10
  let devOk := match paKind pa with
    | .device p => s.packagePresent p (lineOf pa)
    | .control p => p == s.pkg
    | _ => false
  e.getLsbD 63 || mk == 3 || level == 4 || pa % leafSize level != 0 ||
  ((sl || ut || e.getLsbD 52) && mk != 0) || (sl && !s.ownDevice pa) || (ut && !devOk) ||
  (e.getLsbD 7 && level != 1) || (mk == 0 && pa.testBit 51) || (mk != 0 && !pa.testBit 51)

/-- What a walk answers: a leaf with its level, the address of its entry and the line it was read in, a cause, or a wait for the slice of an
entry's line. -/
inductive Walk where
  | leaf (s : State) (level : Nat) (addr : Nat) (e : Word) (line : Nat)
  | fault (s : State) (cause : Nat)
  | wait (s : State) (line : Nat)

/-- A walker reads one entry, with its line, as an access without SL (R266, R269, R276). -/
def State.readEntry (s : State) (d : DieId) (pa : Nat) : Acc (Word × Nat) :=
  (s.sysLine d pa (localAttr .default)).bind fun s x => (s.give x (pa % 128) 8).bind fun s v => .ok s (BitVec.ofNat 64 v, x)

/-- Walk from a table at a level down (R264, R266). In a table entry only V, LEAF and PA are read (R265). -/
def State.walk (s : State) (d : DieId) (va : Word) (table : Nat) : Nat → Walk
  | 0 => .fault s 0x05
  | level + 1 =>
    let pa := table + 8 * (va.toNat / (4096 * 512 ^ level) % 512)
    match s.readEntry d pa with
    | .wait s => .wait s (lineOf pa)
    | .bad s c => .fault s c
    | .ok s (e, x) =>
      if !e.getLsbD 0 then .fault s 0x05
      else if e.getLsbD 1 then
        if s.badLeaf (level + 1) e then .fault s 0x05 else .leaf s (level + 1) pa e x
      else State.walk s d va (ptePa e) level

/-- Whether the aligned group of 16 level-1 entries around one maps 64 KiB (R264): all valid with C = 1, alike but for PA, A and D, and
at consecutive addresses. They fill the line that the walk read; a bad word in it makes no group. -/
def contiguous (line addr : Nat) (e : Word) : Bool :=
  let i0 := addr % 128 / 8
  let strip (x : Word) : Word := x &&& ~~~(0x000FFFFFFFFFF060 : Word)
  e.getLsbD 7 && (List.range 16).all fun i =>
    let x : Word := BitVec.ofNat 64 (lineBytes line (8 * i) 8)
    !badWord line i && strip x == strip e && x.getLsbD 0 && ptePa x + 4096 * i0 == ptePa e + 4096 * i &&
      ptePa x % 65536 == 4096 * i % 65536

/-- Whether a TLB entry serves a page of an address space. -/
def TlbEntry.serves (t : TlbEntry) (asid : BitVec 16) (vpn : Nat) : Bool := t.asid == asid && t.vpn ≤ vpn && vpn < t.vpn + t.pages

/-- A translation is held by the core's and the die's TLBs (R271; assumption 14: the oldest entry leaves a full TLB). -/
def State.holdTlb (s : State) (c : CoreId) (t : TlbEntry) : State :=
  let ins (n : Nat) (l : List TlbEntry) := (t :: l.filter fun x => !(x.serves t.asid t.vpn)).take n
  (s.modCore c fun x => { x with tlb := ins 256 x.tlb }).modDie (dieOf c) fun x => { x with tlb := ins 16384 x.tlb }

/-- What a translation answers; a wait says for which line, and what of other packages it needs. -/
inductive Tr where
  | ok (s : State) (pa : Nat) (leaf : Word)
  | fault (s : State) (cause : Nat)
  | wait (s : State) (line : Nat) (need : Reach)

/-- The held translation of a page, from the core's TLB or the die's; entries with a parity error are dropped (R271, R276). -/
def State.lookupTlb (s : State) (c : CoreId) (vpn : Nat) : State × Option TlbEntry :=
  let d := dieOf c
  let s := if (s.errAt (.tlb d)).isSome then
      ((s.modDie d fun x => { x with tlb := [] }).modCore c fun x => { x with tlb := [] }).clearErr (.tlb d)
    else s
  let x := s.core c
  match x.tlb.find? (·.serves x.asid vpn) with
  | some t => (s, some t)
  | none =>
    match (s.die d).tlb.find? (·.serves x.asid vpn) with
    | some t => (s.modCore c fun x => { x with tlb := (t :: x.tlb).take 256 }, some t)
    | none => (s, none)

/-- Translate an address for an access of a core's launch (R117, R264 to R266). A held translation whose D is clear walks again for a
write. -/
def State.translate (s : State) (c : CoreId) (va : Word) (k : AccKind) : Tr :=
  if !canonical va then .fault s 0x05
  else
    let vpn := va.toNat % 2 ^ 48 / 4096
    let (s, hit) := s.lookupTlb c vpn
    let fresh (s : State) : Tr :=
      match s.walk (dieOf c) va (s.core c).root.toNat 4 with
      | .wait s line => .wait s line .data
      | .fault s x => .fault s x
      | .leaf s level addr e line =>
        if !permits e k then .fault s 0x06
        else
          let bits : Word := if k.writes then 0x60 else 0x20
          let e' := e ||| bits
          match (if e' = e then .ok s () else s.sysOr (dieOf c) addr bits.toNat (localAttr .default)) with
          | .wait s => .wait s (lineOf addr) .all
          | .bad s x => .fault s x
          | .ok s () =>
            let off := va.toNat % leafSize level
            let group : Bool := level == 1 && contiguous line addr e
            let t : TlbEntry :=
              if group then
                ⟨(s.core c).asid, vpn / 16 * 16, 16, ptePa e - 4096 * (vpn % 16), e'⟩
              else ⟨(s.core c).asid, vpn / (leafSize level / 4096) * (leafSize level / 4096), leafSize level / 4096, ptePa e, e'⟩
            .ok (s.holdTlb c t) (ptePa e + off) e'
    match hit with
    | none => fresh s
    | some t =>
      if k.writes && !t.leaf.getLsbD 6 then fresh s
      else if !permits t.leaf k then .fault s 0x06
      else .ok s (t.pa + (va.toNat % 2 ^ 48 - 4096 * t.vpn)) t.leaf

/-- The attributes a leaf gives an access, with the class a prefix names (R22, R265). -/
def leafAttr (leaf : Word) (cls : Option LineClass) (hint : Hint) : Attr where
  mkind := leaf.extractLsb' 53 2
  ut := leaf.getLsbD 10
  sl := leaf.getLsbD 11
  pk := leaf.getLsbD 52
  lt := leaf.extractLsb' 55 8
  cls := cls.getD (classOf (leaf.extractLsb' 8 2))
  hint := hint

/-- What an access resolves to: a place, a fault (and whether it comes from translation, R274), or a wait. -/
inductive Resolved where
  | ok (s : State) (t : Target)
  | fault (s : State) (cause : Nat) (fromTr : Bool)
  | wait (s : State)

/-- The place of an access of a strand (R117, R237, R260, R363). `ctl` says whether the access may reach a control window (R350). A walk that
waits for a slice or a link past the strand's stall bound is a fault of the access (R329, R332, R371). -/
def State.resolve (s : State) (id : StrandId) (va : Word) (k : AccKind) (cls : Option LineClass) (hint : Hint) (ctl : Bool) : Resolved :=
  if inLocal va then
    match s.localPlace id.core va with
    | some p => .ok s ⟨p, localAttr hint⟩
    | none => .fault s 0x06 false
  else
    match s.translate id.core va k with
    | .wait s line need => if s.stallOver id line need then .fault (s.stallEnd id line) 0x0D false else .wait s
    | .fault s x => .fault s x (x == 0x05 || x == 0x06)
    | .ok s pa leaf =>
      let a := leafAttr leaf cls hint
      match paKind pa with
      | .reserved => .fault s 0x06 true
      | .device p => if s.present p (lineOf pa) then .ok s ⟨.phys pa, a⟩ else .fault s 0x06 true
      | .control _ => if a.ut && ctl then .ok s ⟨.phys pa, a⟩ else .fault s 0x06 false
      | .host => if s.noCxl pa a then .fault s 0x06 false else .ok s ⟨.phys pa, a⟩

/-! ## Accesses at a target -/

/-- The check bits of the words of a running core's local memory (R151). -/
def State.checkLocal (s : State) (d : DieId) (lid : BitVec 32) (idx off n : Nat) : Acc Unit :=
  match s.coreAt lid idx with
  | none => .ok s ()
  | some c =>
    match s.consume d ((List.range ((off + n - 1) / 8 - off / 8 + 1)).map fun i => .localWord c (off / 8 + i)) with
    | (s, none) => .ok s ()
    | (s, some _) => .bad s 0x0C

/-- Write bytes of a local memory (R238, R239); a core that is gone takes nothing. -/
def State.writeLocal (s : State) (lid : BitVec 32) (idx off n val : Nat) : State :=
  let s := s.modImage lid idx fun c => { c with loc := Memory.write c.loc off n val }
  match s.coreAt lid idx with
  | none => s
  | some c => { s with errs := s.errs.filter fun e => match e.1 with
      | .localWord x w => !(x == c && off ≤ 8 * w && 8 * w + 8 ≤ off + n)
      | _ => true }

/-- Read n bytes at the point of a target; `serial` asks for the serialisation point of package scope, or (true) of system scope (R121, R202,
R323). -/
def State.readAt (s : State) (who : StrandId) (t : Target) (n : Nat) (serial : Option Bool) : Acc Nat :=
  match t.place with
  | .loc lid idx off => (s.checkLocal (dieOf who.core) lid idx off n).bind fun s _ =>
      .ok s (Memory.read ((s.coreImage lid idx).map (·.loc) |>.getD []) off n)
  | .phys pa => match serial with
    | some sys => s.serialRead who pa n sys t.attr
    | none => s.pointRead who pa n t.attr

/-- Write n bytes at the point of a target. -/
def State.writeAt (s : State) (who : StrandId) (t : Target) (n val : Nat) : Acc Unit :=
  match t.place with
  | .loc lid idx off => .ok (s.writeLocal lid idx off n val) ()
  | .phys pa => s.pointWrite who pa n val t.attr

/-- An atomic at the point of a target (R121, R305). -/
def State.atomicAt (s : State) (who : StrandId) (t : Target) (n : Nat) (f : Nat → Option Nat) : Acc Nat :=
  match t.place with
  | .loc lid idx off => (s.checkLocal (dieOf who.core) lid idx off n).bind fun s _ =>
      let old := Memory.read ((s.coreImage lid idx).map (·.loc) |>.getD []) off n
      match f old with
      | none => .ok s old
      | some v => .ok (s.writeLocal lid idx off n v) old
  | .phys pa => s.pointAtomic who pa n t.attr f

/-- Whether n bytes at a target and m bytes at another overlap. -/
def overlaps (p : Place) (n : Nat) (q : Place) (m : Nat) : Bool :=
  match p, q with
  | .loc l i a, .loc l' i' b => l == l' && i == i' && decide (a < b + m) && decide (b < a + n)
  | .phys a, .phys b => decide (a < b + m) && decide (b < a + n)
  | _, _ => false

/-- The byte offset of one place within another, when the first holds all m bytes of the second. -/
def within (p : Place) (n : Nat) (q : Place) (m : Nat) : Option Nat :=
  match p, q with
  | .loc l i a, .loc l' i' b => if l = l' ∧ i = i' ∧ a ≤ b ∧ b + m ≤ a + n then some (b - a) else none
  | .phys a, .phys b => if a ≤ b ∧ b + m ≤ a + n then some (b - a) else none
  | _, _ => none

/-! ## L1 (R146, R147, R298) -/

/-- The set of an L1 line: 128 sets of 16 ways. -/
def l1Set (line : Nat) : Nat := line % 128

/-- A current L1 copy of a line (R147). -/
def Core.l1Find (c : Core) (line : Nat) : Option L1Line := c.l1.find? fun x => x.line == line && x.gen == c.gens

/-- Whether a slot's load waits on a fill of a line (R298). -/
def Core.waitsFill (c : Core) (line : Nat) (k : SlotId) : Bool :=
  match c.strands[k.val].wait with
  | some ⟨.fill l, _⟩ => l == line
  | _ => false

/-- A fill that is not to be installed: it stays for the loads that wait on it (R298). -/
def Core.killFill (c : Core) (f : Fill) : Option Fill :=
  let ws := f.waiters.filter (c.waitsFill f.line)
  if ws.isEmpty then none else some { f with waiters := ws, killed := true }

/-- The words of a core's copy of a line in L1 hold no error any more: the copy goes, or is replaced (R151). -/
def State.freshL1 (s : State) (c : CoreId) (gone : Nat → Bool) : State :=
  { s with errs := s.errs.filter fun e => match e.1 with
      | .l1Line x line => !(x == c && gone line)
      | _ => true }

/-- The core drops its L1 copy of a line; a fill of it in flight is not installed (R146, R298). -/
def Core.l1Drop (c : Core) (line : Nat) : Core :=
  { c with l1 := c.l1.filter (·.line != line),
           fills := c.fills.filterMap fun f => if f.line != line then some f else c.killFill f }

/-- A store of the core updates its L1 copy of a line, and a fill in flight (R119, R298). -/
def Core.l1Store (c : Core) (line off n val : Nat) : Core :=
  { c with l1 := c.l1.map fun x => if x.line == line then { x with data := patchLine x.data off n val } else x,
           fills := c.fills.map fun f => if f.line == line then { f with data := patchLine f.data off n val } else f }

/-- A core drops its L1 copy of a line (R146). -/
def State.l1Drop (s : State) (c : CoreId) (line : Nat) : State := (s.modCore c (·.l1Drop line)).freshL1 c (· == line)

/-- The copy of a line leaves a core's L1; a fill of it in flight goes on. -/
def State.l1Evict (s : State) (c : CoreId) (line : Nat) : State :=
  (s.modCore c fun x => { x with l1 := x.l1.filter (·.line != line) }).freshL1 c (· == line)

/-- An L1 line is placed with the core's current generations; a full set loses one of its lines, which a free value chooses (assumption 14). -/
def State.l1Install (s : State) (c : CoreId) (line data : Nat) : State :=
  let x := s.core c
  let rest := x.l1.filter (·.line != line)
  let same := rest.filter fun y => l1Set y.line == l1Set line
  let place (s : State) (l : List L1Line) : State := s.modCore c fun x => { x with l1 := ⟨line, data, x.gens⟩ :: l }
  if same.length < 16 then (place s rest).freshL1 c (· == line)
  else
    let v := ((same[Config.freeNat s.fresh % same.length]?).map (·.line)).getD line
    (place { s with fresh := s.fresh + 1 } (rest.filter (·.line != v))).freshL1 c fun l => l == line || l == v

/-- The index of a scope among the generations. -/
def scopeIdx : Scope → Fin 5
  | .core => 0
  | .cluster => 1
  | .die => 2
  | .package => 3
  | .system => 4

/-- G[S] advances by one (R147): fills in flight are not installed, and a wrap empties L1. -/
def Core.advanceGen (c : Core) (sc : Scope) : Core :=
  let i := scopeIdx sc
  let g := c.gens[i.val] + 1
  { c with gens := c.gens.set i.val g,
           l1 := if g = 0 then [] else c.l1,
           fills := c.fills.filterMap c.killFill }

end Sys2Proof.Machine
end

