-- ==== Sys2Proof/Machine/Lanes.lean ====
section
/-! DEFINITION. Lane groups and tiles of a core: claims and renegotiation (R137, R138), tile grants and releases (R142). -/
namespace Sys2Proof.Machine

/-- The lane groups present on a core (R136). -/
def Core.presentGroups (c : Core) : List (Fin 8) := (List.finRange 8).filter fun g => !c.laneAbs.getLsbD g.val
/-- The present lane groups nobody owns. -/
def Core.freeGroups (c : Core) : List (Fin 8) := c.presentGroups.filter fun g => (c.laneOwn[g.val]).isNone
/-- The count of groups a slot holds. -/
def Core.held (c : Core) (k : SlotId) : Nat := (c.groupsOf k).length

/-- A strand's vector registers and masks become invalid (R55, R138, R139). -/
def Strand.invalidate (t : Strand) : Strand := { t with vvalid := 0, k := Vector.replicate 16 0 }

/-- What a change of the granted count does to the strand's own state (R138). -/
def Strand.recount (t : Strand) (lanes : Nat) : Strand :=
  let t := t.invalidate
  { t with vl := if t.ill then t.vl else min t.vl (maxVL lanes t.nv t.vtype), mvl := min t.mvl (min 128 (regBytes lanes t.nv / 384)) }

/-- Give a slot exactly n groups (R137): it keeps its lowest-numbered ones and takes free ones in ascending order. -/
def Core.setHeld (c : Core) (k : SlotId) (n : Nat) : Core :=
  let mine := c.groupsOf k
  let keep := mine.take n
  let more := c.freeGroups.take (n - keep.length)
  let now := keep ++ more
  let own (g : Fin 8) : Option SlotId :=
    if now.contains g then some k
    else if c.laneOwn[g.val] = some k then none
    else c.laneOwn[g.val]
  let c' := { c with laneOwn := Vector.ofFn own }
  if now.length = mine.length then c'
  else c'.setStrand k (c'.strands[k.val].recount now.length)

/-- The standing request of a slot. -/
def Core.request (c : Core) (k : SlotId) : Nat := (c.strands[k.val].claimed).getD 1

/-- H of R137: the strands that hold groups or wait, with S counted once. -/
def Core.claimants (c : Core) (k : Option SlotId) : Nat :=
  ((List.finRange 8).filter fun j => c.held j > 0 || c.claimQ.contains j || k == some j).length
/-- q of R137. -/
def Core.quota (c : Core) (k : Option SlotId) : Nat := max 1 (c.presentGroups.length / c.claimants k)

/-- Distribute free groups to the waiting strands: a first pass up to q, a second up to their requests; those that hold groups leave W
(R137). -/
def Core.distribute (c : Core) (q : Nat) : Core :=
  let w := c.claimQ
  let c := w.foldl (fun c k => c.setHeld k (c.held k + min (min (c.request k) q) c.freeGroups.length)) c
  let c := w.foldl (fun c k => c.setHeld k (c.held k + min (c.request k - c.held k) c.freeGroups.length)) c
  { c with claimQ := c.claimQ.filter fun k => c.held k == 0 }

/-- A renegotiation of a slot for n groups (R137). -/
def Core.renegotiate (c : Core) (k : SlotId) (n : Nat) : Core :=
  let q := c.quota (some k)
  let most := c.held k + c.freeGroups.length
  let grant := if (c.claimQ.filter (· != k)).isEmpty then min n most else min (min n q) most
  let c := if grant = 0 then (if c.claimQ.contains k then c else { c with claimQ := c.claimQ ++ [k] }) else c.setHeld k grant
  c.distribute q

/-- A slot's strand ends or is recessed: its groups are released and go to the waiting strands (R130, R137). -/
def Core.releaseLanes (c : Core) (k : SlotId) : Core :=
  let c := { c with laneOwn := c.laneOwn.map fun o => if o = some k then none else o, claimQ := c.claimQ.filter (· != k) }
  c.distribute (c.quota none)

/-- Whether a core grants at least the slot that waits a group: it is no longer in W (R137). -/
def Core.granted (c : Core) (k : SlotId) : Bool := !c.claimQ.contains k && c.held k > 0

/-- The owner that entry n of a core's timetable names (R136): lane groups, then tiles. -/
def Core.owner (c : Core) (n : Fin 24) : Option SlotId :=
  if h : n.val < 8 then c.laneOwn[n.val] else c.tileOwn[n.val - 8]

/-- A change of a core's lane groups or tiles: masks that become zero, and timetable entries that are written, hold no error any more (R70,
R138, R151). -/
def State.relane (s : State) (c : CoreId) (f : Core → Core) : State :=
  let old := s.core c
  let new := f old
  let s := s.setCore c new
  if s.errs.isEmpty then s
  else { s with errs := s.errs.filter fun e => match e.1 with
    | .kreg i _ _ => !(i.core == c && old.held i.slot != new.held i.slot)
    | .timetable x n => !(x == c && old.owner n != new.owner n)
    | _ => true }

/-! ## Tiles (R142) -/

/-- The tiles nobody owns. -/
def Core.freeTiles (c : Core) : List (Fin 16) := (List.finRange 16).filter fun t => (c.tileOwn[t.val]).isNone

/-- A slot's tiles are released. -/
def Core.releaseTiles (c : Core) (k : SlotId) : Core :=
  let c := { c with tileOwn := c.tileOwn.map fun o => if o = some k then none else o, tileQ := c.tileQ.filter (· != k) }
  c.setStrand k { c.strands[k.val] with tilesHeld := [] }

end Sys2Proof.Machine
end

