-- ==== Sys2Proof/Machine/Launches.lean ====
section
/-! DEFINITION. The launch engine: lists in memory (R334 to R340), placement and start (R341 to R345), ends, recess and resume (R344, R346,
R347), and the vertical-bond repair that it runs (R275). -/
namespace Sys2Proof.Machine

/-! ## Lists -/

/-- The launch id of record k of list n (R339). -/
def launchId (n : Fin 64) (k : Nat) : BitVec 32 := BitVec.ofNat 32 (n.val * 2 ^ 26 + k % 2 ^ 26)
/-- The list a launch id names. -/
def listOfId (id : BitVec 32) : Fin 64 := ⟨id.toNat / 2 ^ 26 % 64, Nat.mod_lt _ (by decide)⟩
/-- The count of a list's slots (R333). -/
def LaunchList.slots (l : LaunchList) : Nat := 2 ^ (l.sz.toNat + 1)
/-- The physical address of the slot of record k (R334). -/
def LaunchList.slot (l : LaunchList) (k : Nat) : Nat := l.addr + 256 + 128 * (k % l.slots)

/-- The doublewords of a launch record (R337). -/
structure Record where
  entry : Word
  arg : Word
  shape : Word
  strips : Word
  after0 : Word
  after1 : Word
  rest : Bool
  src : Word
  deriving DecidableEq, Repr

/-- Why a step of the engine does not go on now: the line of another package that it has to ask for at its home, for a read or with the ownership
(R370), or none where it has nothing to do or only waits. -/
abbrev EngStop := Option (Nat × Bool)
/-- A computation of the engine: nothing of it has happened where it stops. -/
abbrev Eng (α : Type) := Except EngStop α

/-- Read a doubleword of memory for the engine: it stops while the line cannot be served, or holds an uncorrectable error there (assumption
62). A line of another package that this one does not own is read at its home: the answer serves every read of the step (R377). -/
def State.engRead (s : State) (pa : Nat) : Eng (State × Word) :=
  let line := lineOf pa
  if s.homeNeed line true then
    match (s.homeAns line true .proxy <|> s.homeAns line false .engine) with
    | some (_, _, _, x) => if badBytes x (pa % 128) 8 then .error none else .ok (s, BitVec.ofNat 64 (lineBytes x (pa % 128) 8))
    | none => .error (some (line, false))
  else match s.sysRead (dieOfAddr pa) pa 8 (localAttr .default) with
    | .ok s v => .ok (s, BitVec.ofNat 64 v)
    | _ => .error none
/-- Write n bytes of a line for the engine. -/
def State.engWrite (s : State) (pa n v : Nat) : Eng State :=
  match s.sysWrite (dieOfAddr pa) pa n v (localAttr .default) with
  | .ok s () => .ok s
  | _ => .error (some (lineOf pa, true))

/-- A step of the engine that stops asks for what it lacks (R318, R370). -/
def State.engWait (s : State) : EngStop → State
  | some (line, true) => if s.canServe line then (s.mayCollect line).1 else s
  | some (line, false) => if s.sliceUp (sliceOf line) && s.routed line then s.askHome line false .engine else s
  | none => s
/-- The answers to the engine's reads are used. -/
def State.endEng (s : State) : State :=
  { s with slices := s.slices.map fun (x : Slice) => { x with asks := x.asks.filter fun a => !(a.who == .engine && a.ans.isSome) } }
/-- The state after a step of the engine, done or waiting. -/
def State.engDone (s : State) : Eng State → State
  | .ok t => t.endEng
  | .error e => s.engWait e

/-- Read n doublewords from an address up. -/
def State.engReadMany (s : State) (pa : Nat) : Nat → Eng (State × List Word)
  | 0 => .ok (s, [])
  | n + 1 => do
    let (s, v) ← s.engRead pa
    let (s, vs) ← State.engReadMany s (pa + 8) n
    return (s, v :: vs)

/-- Read the record in a slot (R336). -/
def State.readRecord (s : State) (pa : Nat) : Eng (State × Record) :=
  (s.engReadMany pa 15).map fun (s, ws) =>
    let w (i : Nat) := ws.getD i 0
    (s, ⟨w 0, w 1, w 2, w 3, w 4, w 5, (List.range 8).any (fun i => w (6 + i) != 0), w 14⟩)

/-- The most recent launch with an id. -/
def State.newestLaunch (s : State) (id : BitVec 32) : Option Launch := s.launches.reverse.find? (·.lid == id)
/-- The launch with an id: the one that runs, otherwise the oldest that waits, otherwise the most recent one. A list whose base changed may give
out an id that a launch still has; the new launch is not placed before that one ends (DESIGN CHOICE, assumption 94). -/
def State.launch (s : State) (id : BitVec 32) : Option Launch :=
  let first (p : Nat → Bool) : Option Launch := s.launches.find? fun l => l.lid == id && p l.status
  first (fun x => x == 2 || x == 5) <|> first (· == 1) <|> s.newestLaunch id
/-- Change one launch. -/
def State.modUid (s : State) (uid : Nat) (f : Launch → Launch) : State :=
  { s with launches := replaceFirst (fun x => x.uid == uid) f s.launches }
/-- Change the launch with an id. -/
def State.modLaunch (s : State) (id : BitVec 32) (f : Launch → Launch) : State :=
  match s.launch id with
  | some l => s.modUid l.uid f
  | none => s

/-! ## Dependences (R339) -/

/-- How a dependence stands. -/
inductive DepState where | met | waiting | failed
  deriving DecidableEq, Repr

/-- The launch that a dependence was found to name. -/
def State.depLaunch (s : State) (x : Dep) : Option Launch := x.uid.bind fun u => s.launches.find? (·.uid == u)

/-- NEXT of the list that a dependence's launch id names, as the engine reads it: of the header that the launch came from where it is known. -/
def State.readNext (s : State) (x : Dep) : Eng (State × Word) :=
  s.engRead (((s.depLaunch x).map (·.hdr)).getD (s.lists[(listOfId (x.word.extractLsb' 0 32)).val]).addr + 128)
/-- NEXT of that list, while the engine can read it. -/
def State.depNext (s : State) (x : Dep) : Option Word := (s.readNext x).toOption.map (·.2)

/-- How a dependence stands: bit 63 of its word set names a launch id. A record more than 1,024 before NEXT of its list is met, whatever became
of it; while NEXT cannot be read the dependence waits. -/
def State.depState (s : State) (x : Dep) : DepState :=
  if !x.word.getLsbD 63 then .met
  else
    let id : BitVec 32 := x.word.extractLsb' 0 32
    match s.depNext x with
    | none => .waiting
    | some next =>
      let behind := (next.toNat + 2 ^ 26 - id.toNat % 2 ^ 26) % 2 ^ 26
      if 1024 < behind ∧ behind < 2 ^ 25 then .met
      else match s.depLaunch x with
        | some l => if l.status = 3 then .met else if finalStatus l.status then .failed else .waiting
        | none => if x.uid.isSome then .met else .waiting

/-- The engine reads what tells how every dependence of accepted launches, and of a new record, stands; it stops where it cannot. -/
def State.readDeps (s : State) (xs : List Dep) : Eng State :=
  (xs ++ s.launches.flatMap fun l => if l.status = 1 then [l.after0, l.after1] else []).foldlM (fun s x =>
    if x.word.getLsbD 63 then (s.readNext x).map (·.1) else .ok s) s

/-- The launches of the records before record k of a list, the last first, as its present header has given them: the numbers of another set-up of
the list do not go on from them (R339). -/
def State.before (s : State) (n : Fin 64) (k : Nat) : List Launch :=
  let own := s.launches.reverse.filter fun l => l.list == n && l.hdr == (s.lists[n.val]).addr
  ((own.zip (List.range own.length)).takeWhile fun (l, i) => l.recNo + i + 1 == k).map (·.1)

/-- A record's AFTER word as a dependence on a launch id: a record address names the most recent earlier record of the list among the last 1,024
with that source, and no dependence when there is none (R339). The launch it names is held by its own number, since a list whose base changes gives
out its ids again (assumption 94). -/
def State.resolveAfter (s : State) (n : Fin 64) (k : Nat) (w : Word) : Dep :=
  if !w.getLsbD 63 then ⟨0, none⟩
  else if !w.getLsbD 62 then
    let id : BitVec 32 := w.extractLsb' 0 32
    ⟨(1 : BitVec 32) <<< 31 ++ id, (s.newestLaunch id).map (·.uid)⟩
  else match ((s.before n k).take 1024).find? fun l => l.src.extractLsb' 0 48 == w.extractLsb' 0 48 with
    | some l => ⟨(1 : BitVec 32) <<< 31 ++ l.lid, some l.uid⟩
    | none => ⟨0, none⟩
/-- A dependence on an id that had no launch yet names the first launch that takes it. -/
def Dep.meets (x : Dep) (l : Launch) : Dep := if x.word.getLsbD 63 ∧ x.uid = none ∧ x.word.extractLsb' 0 32 = l.lid then { x with uid := some l.uid } else x

/-- Whether an AFTER word names record k of list n, or a later record of the list (R338, code 0x15). -/
def afterSelf (n : Fin 64) (k : Nat) (w : Word) : Bool :=
  w.getLsbD 63 && !w.getLsbD 62 && listOfId (w.extractLsb' 0 32) == n &&
  decide (((w.extractLsb' 0 26).toNat + 2 ^ 26 - k % 2 ^ 26) % 2 ^ 26 < 2 ^ 25)

/-- A launch becomes ready when its dependences are met; the tick is kept (R342). -/
def State.refreshReady (s : State) : State :=
  { s with launches := s.launches.map fun l =>
      if l.status = 1 ∧ l.since = none ∧ s.depState l.after0 = .met ∧ s.depState l.after1 = .met then { l with since := some s.tick }
      else l }

/-! ## Status, HEAD and DONE (R338, R340) -/

/-- Advance HEAD past every leading record whose STATUS is final, up to NEXT: `fuel` records are left before it (R334, R340). -/
def State.advanceHead (s : State) (hdr slots : Nat) : Nat → Nat → Eng State
  | 0, h => s.engWrite (hdr + 136) 8 h
  | fuel + 1, h => do
    let (s, st) ← s.engRead (hdr + 256 + 128 * (h % slots) + 120)
    if finalStatus st.toNat then s.advanceHead hdr slots fuel (h + 1) else s.engWrite (hdr + 136) 8 h

/-- Write a launch's status in its record, and with a final one add to DONE for a completion and advance HEAD (R340). The record and the
header are those it was consumed from. -/
def State.setStatus (s : State) (l : Launch) (st : Nat) : Eng State := do
  let s := s.modUid l.uid fun x => { x with status := st }
  let s ← s.engWrite (l.recAt + 120) 8 st
  if finalStatus st then
    let s ← (if st = 3 then do
        let (s, d) ← s.engRead (l.hdr + 144)
        s.engWrite (l.hdr + 144) 8 (d.toNat + 1)
      else .ok s)
    let (s, h) ← s.engRead (l.hdr + 136)
    let (s, next) ← s.engRead (l.hdr + 128)
    s.advanceHead l.hdr l.slots (min (next.toNat - h.toNat) l.slots) h.toNat
  else .ok s

/-- Dependent records take 0x16 in the same step as the launch they name ends (R339). -/
def State.failDependents (s : State) : Nat → Eng State
  | 0 => .ok s
  | fuel + 1 =>
    match s.launches.find? fun l => l.status == 1 && (s.depState l.after0 == .failed || s.depState l.after1 == .failed) with
    | none => .ok s
    | some l => do
      let s ← s.setStatus l 0x16
      s.failDependents fuel

/-- A launch takes a final status, with everything that follows from it in the same step. -/
def State.finishLaunch (s : State) (l : Launch) (st : Nat) : Eng State := do
  let s ← s.readDeps []
  let s ← s.setStatus l st
  let s ← s.failDependents s.launches.length
  return s.refreshReady

/-! ## Consumption (R336 to R338) -/

/-- The code of a malformed record, in the order of the rows of R338. -/
def State.recordCode (s : State) (n : Fin 64) (k : Nat) (r : Record) (a0 a1 : Dep) : Option Nat :=
  let sh := r.shape
  if sh.getLsbD 7 || sh.getLsbD 11 || sh.extractLsb' 20 44 != 0 || r.strips.extractLsb' 32 32 != 0 || r.rest then some 0x11
  else if r.entry.extractLsb' 0 3 != 0 || !canonical r.entry then some 0x12
  else if (sh.extractLsb' 12 4).toNat > 8 then some 0x13
  else if sh.getLsbD 18 && r.strips.extractLsb' 0 32 == 0 then some 0x14
  else if afterSelf n k r.after0 || afterSelf n k r.after1 then some 0x15
  else if s.depState a0 == .failed || s.depState a1 == .failed then some 0x16
  else none

/-- A number that no launch has. -/
def State.nextUid (s : State) : Nat := s.launches.foldl (fun m x => max m (x.uid + 1)) 0

/-- The count of launches the engine holds (R336). -/
def State.accepted (s : State) : Nat := (s.launches.filter fun l => !finalStatus l.status).length

/-- Consume the next record of a list up to the TAIL its Hall has observed: its launch is accepted, or the record is malformed (R336, R338).
It stops when there is none, or the list cannot be read now. -/
def State.consumeRecord (s : State) (n : Fin 64) : Eng State := do
  let q := s.lists[n.val]
  if !q.en || s.accepted ≥ 256 then .error none
  let tail : Word ← (match q.tail with
    | some x => .ok x
    | none => .error none)
  let (s, next) ← s.engRead (q.addr + 128)
  if tail = next then .error none
  let (s, head) ← s.engRead (q.addr + 136)
  let k := next.toNat
  let (s, r) ← s.readRecord (q.slot k)
  let a0 := s.resolveAfter n k r.after0
  let a1 := s.resolveAfter n k r.after1
  let s ← s.readDeps [a0, a1]
  let code := s.recordCode n k r a0 a1
  let sh := r.shape
  let w := (sh.extractLsb' 0 4).toNat + 1
  let h := (sh.extractLsb' 4 3).toNat + 1
  let prio : BitVec 2 := sh.extractLsb' 16 2
  let l : Launch :=
    { uid := s.nextUid, hdr := q.addr, recAt := q.slot k, slots := q.slots, lid := launchId n k, list := n, recNo := k,
      asid := q.asid, root := q.root, status := 1, entry := r.entry, arg := r.arg,
      w := w, h := h, strands := (sh.extractLsb' 8 3).toNat + 1, lanes := (sh.extractLsb' 12 4).toNat,
      prio := if prio.ult q.prio then prio else q.prio, det := sh.getLsbD 18, pre := sh.getLsbD 19,
      strips := (r.strips.extractLsb' 0 32).toNat, after0 := a0, after1 := a1,
      blocks := List.replicate ((w + 3) / 4 * ((h + 1) / 2)) .waiting, asked := false, src := r.src, since := none,
      moving := [] }
  let old (x : Launch) : Bool := x.list == n && finalStatus x.status && decide (x.recNo + 2048 < k) && decide (x.recNo < head.toNat)
  let told (x : Launch) : Launch := { x with after0 := x.after0.meets l, after1 := x.after1.meets l }
  let s := { s with launches := (s.launches.filter fun x => !old x).map told ++ [l] }
  let s ← s.engWrite (q.addr + 128) 8 (k + 1)
  match code with
  | none => do
    let s ← s.setStatus l 1
    return s.refreshReady
  | some c => do
    let s := { s with lists := s.lists.set n.val { q with lerr := BitVec.ofNat 8 c } n.isLt }
    s.finishLaunch l c

/-- The clock of a die is halved once its own monitor reads 110 degrees or above, until that falls below its threshold (R356). -/
def Die.clocked (d : Die) : Die :=
  let m := d.mon[4]
  { d with halved := (880 : BitVec 16).sle m.temp || (d.halved && m.thr.sle m.temp) }

/-! ## Vertical-bond repair (R275) -/

/-- The count of a bus, and its spare lanes. -/
def Die.busErrors (d : Die) (b : Nat) : Nat := ((d.busCount.find? (·.1 == b)).map (·.2)).getD 0
def Die.spares (d : Die) (b : Nat) : Nat := ((d.busSpare.find? (·.1 == b)).map (·.2)).getD 4

/-- Whether a die has a pending repair that began in a mode: host-assisted, or the hardware's (R275, R353). -/
def Die.repairs (d : Die) (host : Bool) : List (Fin 2) := (List.finRange 2).filter fun i => d.vbPend[i.val] && d.vbHost[i.val] == host

/-- Run the pending repairs of a die that began in a mode: each bus of their stacks whose count passed THR has a lane replaced by a spare and its count
returns to 0; a bus left without a spare is reported in the almanac, each one by itself (R275, R361; assumption 15: one failing lane per bus). -/
def State.vbRepair (s : State) (d : DieId) (host : Bool) : State :=
  let x := s.die d
  let now := x.repairs host
  let bad := x.vbBuses.filter fun b => now.any (·.val == b / 32)
  let spare (b : Nat) := x.spares b - 1
  let none' := bad.filter fun b => spare b == 0 && x.spares b != 0
  let y := { x with
    busCount := x.busCount.filter fun c => !bad.contains c.1
    busSpare := bad.map (fun b => (b, spare b)) ++ x.busSpare.filter fun (c : Nat × Nat) => !bad.contains c.1
    vbRuns := x.vbRuns + BitVec.ofNat 16 now.length
    vbPend := Vector.ofFn fun i => x.vbPend[i.val] && !now.contains i
    vbBuses := x.vbBuses.filter fun b => !bad.contains b }
  let y := { y with vbSpare := BitVec.ofNat 8 ((List.range 64).foldl (fun m b => min m (y.spares b)) 4) }
  let s := s.setDie d y
  if none'.isEmpty then s
  else
    let m : BitVec 64 := none'.foldl (fun m b => m ||| ((1 : BitVec 64) <<< b)) (s.almanac.buses[d.val])
    { s with almanac := { s.almanac with buses := s.almanac.buses.set d.val m d.isLt, gen := s.almanac.gen + BitVec.ofNat 32 none'.length } }

/-- The engine runs a die's pending repairs that began in hardware mode before it places or recesses there (R275, R353). -/
def State.engineRepair (s : State) (ds : List DieId) : State :=
  ds.foldl (fun s d => s.vbRepair d false) s

/-! ## Blocks and clusters (R341, R351) -/

/-- The core at a position of a physical cluster (R351). -/
def coreOfCluster (cl : Fin 16) (pos : Nat) : CoreId :=
  let x := 4 * (cl.val % 4) + pos % 4
  let y := 2 * (cl.val / 4) + pos / 4 % 2
  ⟨(32 * (x / 8 % 2 + 2 * (y / 4 % 2)) + 8 * (y % 4) + x % 8) % 128, Nat.mod_lt _ (by decide)⟩

/-- The logical coordinates of a block's core at a position, when the launch has it (R341). -/
def Launch.corePos (l : Launch) (block pos : Nat) : Option (Nat × Nat) :=
  let nbx := (l.w + 3) / 4
  let x := 4 * (block % nbx) + pos % 4
  let y := 2 * (block / nbx) + pos / 4
  if x < l.w ∧ y < l.h then some (x, y) else none

/-- Whether a unit that serves a core is to be marked absent, which placement waits for (R361). -/
def State.markWaits (s : State) (c : CoreId) : Bool :=
  s.absentPend.any fun u => match u with
    | .laneGroup x _ | .core x => x == c
    | _ => true

/-- Whether a block may be put on a cluster (R341). -/
def State.clusterTakes (s : State) (l : Launch) (block : Nat) (cl : Fin 16) : Bool :=
  (List.range 8).all fun pos => match l.corePos block pos with
    | none => true
    | some _ =>
      let c := coreOfCluster cl pos
      s.almanac.cores.getLsbD c.val && (s.core c).lid.isNone && !s.markWaits c &&
        decide (l.lanes ≤ popN 8 (s.almanac.lanes[c.val]).toNat)

/-- The clusters for the blocks of a launch that are not yet placed: each the lowest-numbered one that takes it (R341). -/
def State.chooseClusters (s : State) (l : Launch) : List Nat → List (Fin 16) → Option (List (Nat × Fin 16))
  | [], _ => some []
  | b :: bs, used =>
    match (List.finRange 16).find? fun cl => !used.contains cl && s.clusterTakes l b cl with
    | none => none
    | some cl => (s.chooseClusters l bs (cl :: used)).map ((b, cl) :: ·)

/-! ## Start (R55, R344, R345) -/

/-- A strand at the start of a launch (R55, R344, R345). -/
def Launch.startStrand (l : Launch) (slot : SlotId) (x y : Nat) : Strand :=
  let i := x + l.w * y
  let n := l.w * l.h
  { Strand.reset with
    run := .running
    s := Strand.reset.s.set 1 l.arg (by decide)
    pc := l.entry
    sid := BitVec.ofNat 64 slot.val
    lcoord := BitVec.ofNat 64 (x + 256 * y)
    lid := l.lid.setWidth 64
    strip0 := if l.det then BitVec.ofNat 64 (i * l.strips / n) else 0
    stripn := if l.det then BitVec.ofNat 64 ((i + 1) * l.strips / n) else 0 }

/-- Whether an error place lies in a core's own storage. -/
def siteOnCore (c : CoreId) : ErrSite → Bool
  | .sreg i _ | .preg i _ | .kreg i _ _ | .vreg i _ _ | .ctl i _ | .queue i _ _ | .history i _ _ | .image i _ _ _ => i.core == c
  | .cell x _ _ | .ring x _ | .bell x _ | .localWord x _ | .timetable x _ => x == c
  | _ => false

/-- A core starts its part of a launch (R344). -/
def State.startCore (s : State) (l : Launch) (c : CoreId) (x y : Nat) : State :=
  let old := s.core c
  let new : Core := { Core.reset with
    strands := Vector.ofFn fun k => if k.val < l.strands then l.startStrand k x y else Strand.reset
    lid := some l.lid
    lx := x
    ly := y
    root := l.root.setWidth 64 <<< 12
    asid := l.asid
    laneAbs := ~~~(s.almanac.lanes[c.val])
    l1 := old.l1
    gens := old.gens
    tlb := old.tlb
    clkLow := old.clkLow }
  let s := s.setCore c new
  { s with errs := s.errs.filter fun e => !siteOnCore c e.1 }

/-- The cores of a block on a cluster, with their logical coordinates. -/
def Launch.blockCores (l : Launch) (block : Nat) (cl : Fin 16) : List (CoreId × Nat × Nat) :=
  (List.range 8).filterMap fun pos => (l.corePos block pos).map fun (x, y) => (coreOfCluster cl pos, x, y)

/-- The dies a cluster lies on. -/
def clusterDies (cl : Fin 16) : List DieId := [dieOf (coreOfCluster cl 0)]

/-- Start a launch on the clusters chosen for its blocks, in one step (R341, R344). -/
def State.startLaunch (s : State) (l : Launch) (plan : List (Nat × Fin 16)) : Eng State := do
  let s := s.engineRepair ((plan.map fun p => clusterDies p.2).flatten)
  let s := plan.foldl (fun s p => (l.blockCores p.1 p.2).foldl (fun s (c, x, y) => s.startCore l c x y) s) s
  let s := s.modUid l.uid fun l => { l with blocks := (plan.map fun p => BlockSt.placed p.2) }
  s.setStatus { l with status := 2 } 2

/-! ## Recess and resume (R255, R346, R347) -/

/-- The keys of a core's work in flight, with those of the residuals that it keeps for a resume (R255). -/
def Core.keys (c : Core) : List (BitVec 32) := c.xfers.map (·.id) ++ c.strands.toList.flatMap fun t => t.residual.map (·.id)

/-- The key of work of a core that is none of its own copies: it takes no transfer id of a CPGO (R245, R284), so its key is the last one that the ids
have gone past and that nothing else on the core has. -/
def Core.workKey (c : Core) : BitVec 32 :=
  let past := (List.range (c.keys.length + 2)).map fun i => c.nextXfer - 1 - BitVec.ofNat 32 i
  (past.find? fun x => x != 0 && !c.keys.contains x).getD 0

/-- Whether a transfer's destination is the registers of its own strand. -/
def ownRegs (x : Xfer) : Bool :=
  match x.kind with
  | .copy j => match j.dest with
    | .regs .. => true
    | _ => false
  | _ => false

/-- The first chunk not yet landed. -/
def firstMissing (landed : List Nat) : Nat → Nat → Nat
  | 0, j => j
  | n + 1, j => if landed.contains j then firstMissing landed n (j + 1) else j

/-- The elements wholly in the first f chunks of a delivery (R249). -/
def chunkElems (j : CopyJob) (w f : Nat) : Nat := ((128 * 2 ^ j.chk * f + j.cdst.toNat) * 8 / w)

/-- A gang's transfer as one of its members goes on with it by itself: its source stays as the leader's core sees it, and the leader's older stores to
local memory come first (R237, R247, R255). -/
def CopyJob.ledBy (j : CopyJob) (idx : Nat) (k : SlotId) : CopyJob := { j with leader := some (idx, k) }

/-- A delivery into a strand's registers stops at a chunk boundary: the mask keeps the bits of the chunks below it, and the rest is kept as
a residual transfer on the same counter (R255). -/
def Strand.leaveResidual (t : Strand) (j : CopyJob) (vr : VReg) (k : KReg) (ctr : CtrNo) (l w : Nat) (landed : List Nat)
    (id : BitVec 32) : Strand :=
  let f := firstMissing landed landed.length 0
  let lo := (j.cdst.toNat * 8 + w - 1) / w
  let hi := chunkElems j w f
  let hiAll := (j.cdst.toNat + j.rows * j.rb) * 8 / w
  let cleared := (List.range (hiAll - max lo hi)).foldl (fun m i => setBit m (max lo hi + i) false) (t.rK k (hiAll + 1))
  let t := if k = 0 then t else t.wK k (cleared + (t.k[k.toNat]'k.isLt) / 2 ^ (hiAll + 1) * 2 ^ (hiAll + 1))
  { t with residual := t.residual ++ [⟨j.csrc, j.csstr, j.rows, j.rb, j.chk, j.cdst.toNat, vr, k, ctr, l, w, f, id, j.cls, j.hint, j.leader,
                                          j.mark⟩] }

/-- Whether a recess may fall at the strand's next unit boundary: no open region holds it back (R132). -/
def Strand.regionShut (t : Strand) : Bool :=
  match t.region, t.run with
  | none, _ => true
  | some _, .parked _ => true
  | some b, _ => b == 0

/-- Whether a strand that was asked to stop for a recess has come to the boundary at which it is saved: it issues nothing more (R132,
R346). -/
def Strand.stopped (t : Strand) : Bool :=
  t.recessAsked && t.regionShut && (match t.wait with
    | some ⟨.fencer .., _⟩ | some ⟨.bell .., _⟩ => true
    | _ => !t.midUnit)

/-- Whether a strand can be saved now (R346): at a unit boundary, with every wait of the rule ended. Its stores have drained once the invalidations
that they wait for are applied (R125, R322, R380; DEDUCED, assumption 93). -/
def State.canSave (s : State) (id : StrandId) : Bool :=
  let t := s.strand id
  let c := s.core id.core
  t.regionShut && t.sb.isEmpty && t.drain.isEmpty && t.late.isEmpty && t.journal.isNone &&
  (s.pending.all fun p => !p.strands.contains id) &&
  (c.xq.all fun x => x.slot != id.slot || (x.entry.nextGrp == 0 && x.rows.isEmpty && x.got.isEmpty)) &&
  (match t.wait with
    | some ⟨.fencer .., _⟩ | some ⟨.bell .., _⟩ => true
    | _ => !t.midUnit) &&
  (c.egress.all fun e => e.slot != id.slot) &&
  (c.xfers.all fun x => x.slot != id.slot || ownRegs x) &&
  ((s.slices[0].queue ++ s.slices[1].queue).all fun r => r.strand != some id)

/-- The state of a strand as it is saved (R346): open beats are rolled back by the caller, waits but those at a bell are abandoned, reads taken ahead are
dropped, and a region whose budget ran out ends with cause 0x10 on resume. -/
def Strand.saved (t : Strand) (held : Nat) : Strand :=
  let w := match t.wait with
    | some ⟨.bell b p, i⟩ => some ⟨.bell b p, i⟩
    | _ => none
  let t := { t with wait := w, ahead := [], recessAsked := false, savedLanes := held, pausedBy := [] }
  match t.region, t.run with
  | some b, .running =>
    if b = 0 then { t with region := none, pend := ⟨trapInfo 0x10 0, .scalar, false⟩ :: t.pend } else t
  | _, _ => t

/-- Roll back the open beats of a strand (R145, R67): pre-images return, held stores and flags are discarded, and each entry resumes at its
first group that has not committed; one of which none has reads its ring slot again (R183), and an RSLOAD its words (R181). -/
def Strand.rollback (t : Strand) : Strand :=
  let undo (t : Strand) : PreImage → Strand
    | .vec r valid data =>
      let m : BitVec 64 := (1 : BitVec 64) <<< r.toNat
      { t with v := t.v.set r.toNat data r.isLt, vvalid := if valid then t.vvalid ||| m else t.vvalid &&& ~~~m }
    | .mask k data _ => { t with k := t.k.set k.toNat data k.isLt }
  let t' := t.beats.reverse.foldl (fun t b => b.pre.reverse.foldl undo t) t
  let first (e : VqEntry) : VqEntry :=
    match t.beats.find? fun b => b.seq == e.seq with
    | some b =>
      { e with nextGrp := b.grp, tail := b.tail, scanLocal := b.scanLocal, scanCarry := b.scanCarry, words := [],
               ring := if b.grp = 0 ∧ e.skip = 0 then none else e.ring }
    | none => { e with words := [] }
  { t' with vq := t.vq.map first, beats := [] }

/-- The entries of VQ as they are saved with a count of lane groups: the elements of the groups that are committed are done (R347). -/
def VqEntry.keepDone (e : VqEntry) (lanes : Nat) : VqEntry :=
  { e with skip := if vtEW e.cap.vtype = 0 then e.skip else max e.skip (min e.cap.vl (e.nextGrp * commitGroup lanes (vtEW e.cap.vtype))) }

/-- Requests that strands of a core have at the homes of other packages' lines are forgotten. -/
def State.unask (s : State) (c : CoreId) : State :=
  s.unaskBy fun a => match a with
    | .strand id => id.core == c
    | _ => false

/-- A core's part of a launch is saved and the core is free (R346). -/
def State.saveCore (s : State) (lid : BitVec 32) (block : Nat) (c : CoreId) : State :=
  let x := s.core c
  let saveOne (x : Core) (k : SlotId) : Core :=
    let t := x.strands[k.val]
    let t := (t.rollback).saved (x.held k)
    let t := { t with vq := t.vq.map fun e => e.keepDone (x.held k) }
    let t := (x.xfers.filter fun f => f.slot == k && ownRegs f).foldl (fun t f => match f.kind with
      | .copy j => match j.dest with
        | .regs vr km l w => t.leaveResidual j vr km f.ctr l w j.landed f.id
        | _ => t
      | _ => t) t
    x.setStrand k t
  let x := (List.finRange 8).foldl saveOne x
  let x := { x with xfers := [], claimQ := [], tileQ := [], laneOwn := Vector.replicate 8 none, fills := [], egress := [] }
  let free : Core := { Core.reset with l1 := (s.core c).l1, gens := (s.core c).gens, tlb := (s.core c).tlb,
                                       laneAbs := (s.core c).laneAbs, clkLow := (s.core c).clkLow }
  ({ s.setCore c free with recessStore := ⟨lid, block, x⟩ :: s.recessStore }).unask c

/-- A strand that stops for a recess and is a member of a gang delivery takes the rest as a residual (R254, R255). -/
def State.leaveGangs (s : State) (lid : BitVec 32) (id : StrandId) : State :=
  let c := id.core
  let idx := (s.core c).index
  let mineIs (m : GangMember) : Bool := m.core == idx && m.arm.slot == id.slot
  let step (s : State) (lc : CoreId) : State :=
    (s.core lc).xfers.foldl (fun s x => match x.kind with
      | .copy j => match j.dest with
        | .gang ms =>
          let mine := ms.filter fun m => mineIs m && !m.fin
          if mine.isEmpty then s
          else
            let s := mine.foldl (fun s m => s.modStrand ⟨c, m.arm.slot⟩ fun t =>
              t.leaveResidual (j.ledBy (s.core lc).index x.slot) m.arm.vr m.arm.k m.arm.ctr m.arm.l m.arm.w m.landed (s.core c).workKey) s
            s.modCore lc fun y => { y with xfers := y.xfers.map fun z => if z.id == x.id then
              { z with kind := .copy { j with dest := .gang (ms.map fun m => if mineIs m then { m with fin := true } else m) } }
              else z }
        | _ => s
      | _ => s) s
  if (s.core c).lid = some lid then
    ((List.finRange 128).filter fun lc => (s.core lc).lid == some lid).foldl step s
  else s

/-- A strand whose count of lane groups changes at a resume goes through its VQ entries' groups anew, past the elements that are done, with its
registers as they then are (R138, R347). -/
def Strand.regroup (t : Strand) : Strand :=
  { t with vq := t.vq.map fun e => if isMatrix e.instr then e else { e with nextGrp := 0, snap := [], words := [] } }

/-- A strand's lanes at a resume (R347): its saved count when that many groups are free, fewer with its registers invalid, or a place in
W. -/
def Core.resumeLanes (c : Core) (k : SlotId) : Core :=
  let t := c.strands[k.val]
  if t.savedLanes = 0 then c
  else
    let g := min t.savedLanes c.freeGroups.length
    if g = 0 then { c with claimQ := c.claimQ ++ [k], strands := c.strands.set k.val (t.recount 0).regroup k.isLt }
    else
      let c' := c.setHeld k g
      if g = t.savedLanes then { c' with strands := c'.strands.set k.val t k.isLt } else c'.setStrand k c'.strands[k.val].regroup

/-- A residual transfer starts again on a core (R255). It lands in registers of the size that the strand then has, where that is 0 its mask bits
alone, and its faults are the strand's own, those of a gang's delivery too (DESIGN CHOICE, assumption 101). -/
def Core.resumeResidual (c : Core) (k : SlotId) : Core :=
  let t := c.strands[k.val]
  let c := t.residual.foldl (fun c r =>
    let j : CopyJob := { csrc := r.csrc, cdst := BitVec.ofNat 64 r.cdst, csstr := r.csstr, cdstr := 0, rows := r.rows, rb := r.rb,
                         chk := r.chk, dest := .regs r.vr r.k r.l r.w, read := [], landed := List.range r.chunk, snap := none, cls := r.cls,
                         hint := r.hint, mark := r.mark, spare := [], leader := r.leader }
    { c with xfers := c.xfers ++ [⟨r.id, k, r.ctr, .copy j⟩] }) c
  c.setStrand k { c.strands[k.val] with residual := [] }

/-- A saved core's state is restored on a physical core, and G[core] advances (R299, R347). Its registers, masks, cells, ring slots, bells and local
memory hold no error as they come back (DESIGN CHOICE, assumption 100). -/
def State.restoreCore (s : State) (sv : SavedCore) (c : CoreId) : State :=
  let old := s.core c
  let x : Core := { sv.core with l1 := old.l1, gens := old.gens, tlb := old.tlb, laneAbs := ~~~(s.almanac.lanes[c.val]),
                                 clkLow := old.clkLow, laneOwn := Vector.replicate 8 none, claimQ := [] }
  let x := x.advanceGen .core
  let x := (List.finRange 8).foldl Core.resumeLanes x
  let x := (List.finRange 8).foldl Core.resumeResidual x
  let s := s.setCore c x
  { s with errs := s.errs.filter fun e => !siteOnCore c e.1 }

/-- Recess a block (R346): its strands are asked to stop, each at its next boundary or when its open region ends; one that has stopped leaves its
gang deliveries, and a core is saved once every strand on it can be. The block is saved with its last core. -/
def State.recessBlock (s : State) (l : Launch) (block : Nat) (cl : Fin 16) : State :=
  let cs := ((l.blockCores block cl).map (·.1)).filter fun c => (s.core c).lid == some l.lid
  let ids : List StrandId := (cs.map fun c => (List.finRange 8).map fun k => StrandId.mk c k).flatten
  let live := ids.filter fun id => (s.strand id).run != .idle && (s.strand id).run != .halted
  let s := live.foldl (fun s id => s.modStrand id fun t => { t with recessAsked := true }) s
  let s := live.foldl (fun s id => if (s.strand id).stopped then s.leaveGangs l.lid id else s) s
  let ready := cs.filter fun c => (live.filter fun id => id.core == c).all s.canSave
  let s := if ready.isEmpty then s else s.engineRepair (clusterDies cl)
  let s := ready.foldl (fun s c => s.saveCore l.lid block c) s
  if ready.length = cs.length then
    s.modLaunch l.lid fun l =>
      { l with blocks := l.blocks.set block .saved, asked := false,
               since := if l.blocks.contains .saved then l.since else some s.tick }
  else s

/-- Resume a saved block on a cluster (R347). -/
def State.resumeBlock (s : State) (l : Launch) (block : Nat) (cl : Fin 16) : State :=
  let s := s.engineRepair (clusterDies cl)
  let s := (l.blockCores block cl).foldl (fun s (c, x, y) =>
    match s.recessStore.find? fun v => v.lid == l.lid && v.core.index == x + 16 * y with
    | some sv => { s.restoreCore sv c with recessStore := s.recessStore.filter (· != sv) }
    | none => s) s
  s.modLaunch l.lid fun l =>
    let bs := l.blocks.set block (.placed cl)
    { l with blocks := bs, since := if bs.contains .saved then l.since else none, moving := l.moving.filter (·.1 != block) }

/-! ## The order of placement (R342) -/

/-- Whether a launch waits for cores: accepted and ready, or with a saved block. -/
def Launch.waits (l : Launch) : Bool := (l.status == 1 || (l.status == 2 && l.blocks.contains .saved)) && l.since.isSome

/-- The blocks a launch needs placed: those that a host has named for one that has not started among them (R341). -/
def Launch.missing (l : Launch) : List Nat :=
  (List.range l.blocks.length).filter fun b => match l.blocks.getD b .waiting with
    | .placed _ => false
    | _ => true

/-- Whether a waiting launch fits now. -/
def State.fits (s : State) (l : Launch) : Bool := (s.chooseClusters l l.missing []).isSome

/-- Whether a launch has its turn among those with its id (assumption 94). -/
def State.idTurn (s : State) (l : Launch) : Bool := (s.launch l.lid).any (·.uid == l.uid)

/-- Whether every launch that goes before one in descending priority, and oldest first within a priority, does not fit and has waited less
than 100 µs (R342). -/
def State.mayPlace (s : State) (l : Launch) : Bool :=
  let before (x : Launch) (older : Bool) : Bool := l.prio.ult x.prio || (x.prio == l.prio && older)
  let i := s.launches.findIdx (·.uid == l.uid)
  (List.range s.launches.length).all fun j =>
    match s.launches[j]? with
    | none => true
    | some x => !(x.waits && x.uid != l.uid && s.idTurn x && before x (j < i)) || (!s.fits x && decide (s.tick < x.since.getD 0 + 100))

/-- Whether a launch is the first of those that wait: of the highest priority, and the oldest within it (R342). -/
def State.firstWaiting (s : State) (l : Launch) : Bool :=
  let i := s.launches.findIdx (·.uid == l.uid)
  (List.range s.launches.length).all fun j =>
    match s.launches[j]? with
    | none => true
    | some x => !(x.waits && x.uid != l.uid && s.idTurn x && (l.prio.ult x.prio || (x.prio == l.prio && decide (j < i))))

/-! ## The end of a launch (R340, R344) -/

/-- The cores a launch runs on. -/
def State.coresOf (s : State) (lid : BitVec 32) : List CoreId := (List.finRange 128).filter fun c => (s.core c).lid == some lid

/-- A core is released by its launch. -/
def State.releaseCore (s : State) (c : CoreId) : State :=
  let x := s.core c
  let s := (s.setCore c { Core.reset with l1 := x.l1, gens := x.gens, tlb := x.tlb, laneAbs := x.laneAbs, clkLow := x.clkLow }).unask c
  { s with errs := s.errs.filter fun e => !siteOnCore c e.1 }

/-- Whether every strand of a launch has ended by HALT (R340). -/
def State.allHalted (s : State) (l : Launch) : Bool :=
  (l.blocks.all fun b => match b with
    | .placed _ => true
    | _ => false) &&
  (s.recessStore.all fun x => x.lid != l.lid) &&
  ((s.coresOf l.lid).all fun c => (List.finRange 8).all fun k =>
    (s.core c).strands[k.val].run == .halted || (s.core c).strands[k.val].run == .idle)

end Sys2Proof.Machine
end

