-- ==== Sys2Proof/Machine/RollCall.lean ====
section
/-! DEFINITION. The loss of a Hall die and roll call (R327 to R332). -/
namespace Sys2Proof.Machine

/-- A Hall die is declared lost (R327): what contributions it passed on goes on at their dies (R374), its slices wait, tail lines are read again (R348), the almanac is updated (R361), and roll call begins
when a Hall die survives. -/
def State.loseHall (s : State) (h : HallId) : State :=
  let mine := (List.finRange 2).filter fun x => s.serving x == some h
  let landing := ((s.hall h).inbox).filter (·.left.isSome)
  let s := s.modHall h fun x => { x with lost := true, inbox := [] }
  let s := s.modHall (1 - h) fun x => { x with inbox := x.inbox ++ landing }
  let s := mine.foldl (fun s x => s.modSlice x fun y => { y with waiting := true }) s
  let hallOnly (p : PendingInv) : Bool := match p.holder with
    | .hall _ => true
    | _ => false
  let lists := s.lists.map fun (l : LaunchList) => { l with tail := none }
  let s := { s with lists := lists, pending := s.pending.filter fun p => !hallOnly p }
  let survives := (s.serving h).isSome
  let s := { s with
    rollCall := { rca := survives, lost := true, who := h, step := 0, host := s.preber.duty.getLsbD 4 }
    almanac := { s.almanac with hallMask := s.almanac.hallMask &&& ~~~((1 : BitVec 2) <<< h.val), gen := s.almanac.gen + 1 } }
  s

/-- The lines of the lost slice, as the dies and the old entries report them. -/
def State.reported (s : State) (h : HallId) : List Nat :=
  let inS (x : Nat) : Bool := sliceOf x == h
  let copies := ((List.finRange 4).map fun d =>
    (((s.die d).lines.filter fun c => c.st != .home).map (·.line)) ++ (s.die d).outBits).flatten
  ((copies ++ (s.slice h).entries.map (·.line)).filter inS).eraseDups

/-- The address register of an atomic. -/
def atomicBase : Instr → Option SReg
  | .amo _ _ _ _ _ b _ | .cas _ _ _ _ b _ _ | .cas128 _ _ _ b _ _ => some b
  | _ => none

/-- An atomic whose record was discarded traps (R329): at its unit, or for a VAPPEND in its beat, where `eval` is D (R204). -/
def State.discarded (s : State) (id : StrandId) (j : Journal) : State :=
  if j.vec then
    s.modStrand id fun t =>
      let inBeat (b : Beat) : Beat :=
        if t.vq.head?.any (·.seq == b.seq) then { b with fault := some (trapInfo 0x0D 0x8000000000000000), fromTr := false } else b
      { t with beats := t.beats.map inBeat, stalled := false }
  else match (s.strand id).wait with
    | some ⟨.atomic _, i⟩ =>
      (s.modStrand id fun t => { t with wait := none }).scalarTrap id
        (trapInfo 0x0D (((atomicBase i).map fun b => (s.strand id).rS b).getD 0))
    | _ => s

/-- Step 1, journals: each intent record of the lost slice is resolved and answered (R328, R329). One that was not performed is performed, unless
its strand's stall bound has passed: then the line is as it was, and the strand traps. -/
def State.rollJournals (s : State) (h : HallId) : State :=
  ((List.finRange 128).map fun c => (List.finRange 8).map fun k => StrandId.mk c k).flatten.foldl (fun s id =>
    match (s.strand id).journal with
    | some j =>
      if j.done ∨ sliceOf j.line ≠ h then s
      else
        let gone (x : Slice) : Slice := { x with queue := x.queue.filter fun r => r.strand != some id }
        let ends (s : State) : State := { s.atomicDone id j with slices := (s.atomicDone id j).slices.map gone }
        if j.wrote then ends s
        else if s.homeData j.line % 2 ^ 1024 = j.newLine % 2 ^ 1024 then ends (s.modCore id.core (·.l1Merge j.line j.op j.newLine))
        else if (s.strand id).stalled then
          ((ends (if j.mask = 0 then s else s.homeWrite j.line j.oldLine j.mask j.attr)).modStrand id fun t => { t with journal := none }).discarded id j
        else ends (s.atomicWrite id j)
    | none => s) s

/-- Step 2 for one line: pending invalidations are applied, a holder in M or O writes its data home and reports S, and for a line whose
owner was the line store the lowest-numbered holder writes it home, a peer when no die holds it (R328). -/
def State.rollReport (s : State) (line : Nat) : State :=
  let s := (s.pending.filter (·.line == line)).foldl (fun s p => s.applyPending p.holder line) s
  let home (s : State) (d : DieId) : State :=
    let s := s.foldErrs d line
    match s.findLine d line with
    | some c =>
      let s := if c.st = .m ∨ c.st = .o then s.homeWrite line c.data c.dirty
        else if c.st = .sd then s.homeWrite line c.data (2 ^ 128 - 1) else s
      s.modLine d line fun c => if c.st = .home then c else
        { c with st := if c.st = .e then .e else .s, dirty := if s.homeDie line = some d then c.dirty else 0 }
    | none => s
  let s := (List.finRange 4).foldl home s
  match s.entry line with
  | some e => (match e.own with
      | .peer _ | .host => if e.st = .m ∨ e.st = .o then (let (s, x, m) := s.entryData e; s.homeWrite line x m) else s
      | .store => if e.st = .o ∧ e.dies = 0 then (let (s, x) := s.foldStore line e.lsData; s.homeWrite line x (2 ^ 128 - 1)) else s
      | _ => s)
  | none => s

/-- Step 3 for one line: an entry is built from the holders that reported, and of one that has written since in the line it held alone (R313); a
line with no holder retires, and a recall asked for before goes on (R319, R328). -/
def State.rollRebuild (s : State) (line : Nat) : State :=
  let dies := (List.finRange 4).filter fun d => match s.findLine d line with
    | some c => c.st != .home
    | none => false
  let old := s.entry line
  let peers := (old.map (·.peers)).getD []
  let hs := (old.map (·.hs)).getD false
  let hold : List Holder := dies.map Holder.die ++ (if hs then [.host] else []) ++ peers.map Holder.peer
  match hold with
  | [] => (s.dropEntry line).setOut line false
  | x :: rest =>
    let only (st : CopySt) : Bool := rest.isEmpty && (match x with
      | .die d => ((s.findLine d line).map (·.st)) == some st
      | _ => false)
    let st : RollSt := match x with
      | .die _ => if only .m then .m else if only .e then .e else .s
      | y => if rest.isEmpty ∧ old.any (fun e => e.st == .e && e.own == ownerOf y) then .e else .s
    let s := if st = .s then (List.finRange 4).foldl (fun s d => s.modLine d line fun c =>
      if c.st = .home then c else { c with st := .s }) s else s
    let e := hold.foldl RollEntry.add { freshEntry line x st (s.homeDie line).isNone with
      mine := (old.map (·.mine)).getD true, rc := (old.map (·.rc)).getD false }
    let s := (s.setOut line true).putEntry e
    if (s.rollWays line).length ≤ 16 then s
    else match leastUsed ((s.rollWays line).filter fun e => !e.rc && !e.atom) with
      | some v => s.recallEntry v
      | none => s

/-- One step of roll call (R328); the last one lets the slice serve again. -/
def State.rollCallRun (s : State) : State :=
  let r := s.rollCall
  let h := r.who
  let next (s : State) : State := { s with rollCall := { r with step := r.step + 1 } }
  match r.step.toNat with
  | 0 => next (s.rollJournals h)
  | 1 => next ((s.reported h).foldl State.rollReport s)
  | 2 => next ((s.reported h).foldl State.rollRebuild s)
  | _ =>
    let s := s.modSlice 0 fun x => { x with waiting := false }
    let s := s.modSlice 1 fun x => { x with waiting := false }
    { s with rollCall := { r with rca := false } }

/-- Whether the engine that serves a list runs: its Hall die, the only one, or for the lists of a lost die the survivor once roll call has
resumed (R333, R348). -/
def State.listServed (s : State) (n : Fin 64) : Bool :=
  let own : HallId := if n.val % 2 = 0 then 0 else 1
  (s.serving own).isSome && !(s.rollCall.rca && s.rollCall.who == own)
end Sys2Proof.Machine
end

