-- ==== Sys2Proof/Machine/Registers.lean ====
section
/-! DEFINITION. Registers that software reaches by number or address: the control registers of a strand (R56 to R59), and the control
windows with the effects of their writes (R350, R263, R272, R274, R275, R330, R333, R343, R352 to R360, R369). -/
namespace Sys2Proof.Machine

/-! ## Control registers of a strand (R56) -/

/-- Read a control register (R56, R129). -/
def State.ctlRead (s : State) (id : StrandId) (n : BitVec 12) : Word :=
  let t := s.strand id
  match n.toNat with
  | 0x000 => t.fpctl
  | 0x001 => t.vtype
  | 0x002 => BitVec.ofNat 64 t.vl
  | 0x003 => BitVec.ofNat 64 t.mvl
  | 0x004 => BitVec.ofNat 64 (s.lanes id)
  | 0x005 => t.slip
  | 0x006 => t.vcp
  | 0x010 => t.sid
  | 0x011 => t.lcoord
  | 0x012 => t.lid
  | 0x013 => t.strip0
  | 0x014 => t.stripn
  | 0x020 => t.epc
  | 0x021 => t.evcp
  | 0x022 => t.ecause
  | 0x023 => t.eval
  | 0x024 => t.estatus
  | 0x025 => t.tvec
  | 0x030 => t.hold
  | n => if 0x040 ≤ n ∧ n < 0x050 then (t.rC (BitVec.ofNat 4 n)).setWidth 64 else 0

/-- The value `fpctl` takes from a written word (R57): reserved bits read as zero, and RM 110 and 111 are written as 000. -/
def fpctlOf (v : Word) : Word :=
  let v := v &&& 0x7FF7
  if (v.extractLsb' 0 3).toNat ≥ 6 then v &&& ~~~(7 : Word) else v

/-- Write a control register (R56 to R59, R129); a register that is RO ignores it. -/
def Strand.ctlWrite (t : Strand) (lanes : Nat) (n : BitVec 12) (v : Word) : Strand :=
  match n.toNat with
  | 0x000 => { t with fpctl := fpctlOf v }
  | 0x001 => t.writeVtype lanes (v.extractLsb' 0 10)
  | 0x005 => { t with slip := v &&& 7 }
  | 0x020 => { t with epc := v }
  | 0x022 => { t with ecause := v &&& 0xFF }
  | 0x023 => { t with eval := v }
  | 0x024 =>
    let m : Word := 0x0000FFFF0000F800
    { t with estatus := (t.estatus &&& ~~~m) ||| (v &&& m) }
  | 0x025 => { t with tvec := v }
  | 0x030 => { t with hold := v &&& 0xFFFFFFFF }
  | _ => t

/-- Whether a write replaces all of a control register: not where it is RO, and not of `estatus`, which keeps fields (R129). -/
def ctlReplaced (n : BitVec 12) : Bool :=
  [0x000, 0x001, 0x005, 0x020, 0x022, 0x023, 0x025, 0x030].contains n.toNat

/-- A strand's control register is written; one that is replaced holds no error any more (R70, R129). -/
def State.ctlPut (s : State) (id : StrandId) (lanes : Nat) (n : BitVec 12) (v : Word) : State :=
  let s := s.modStrand id fun t => t.ctlWrite lanes n v
  if ctlReplaced n then s.clearErr (.ctl id n) else s

/-! ## Answers to parked strands (R274, R355) -/

/-- A parked strand by its launch, logical core and slot, when its core is running. -/
def State.whereIs (s : State) (lid : BitVec 32) (idx : Nat) (k : SlotId) : Option StrandId := (s.coreAt lid idx).map fun c => ⟨c, k⟩

/-- The launch of a parked strand is to be ended (R344). -/
def State.endOf (s : State) (lid : BitVec 32) : State :=
  s.modLaunch lid fun l => if finalStatus l.status then l else { l with status := 5 }

/-- The cause and value of a parked strand's trap as hardware mode takes it: a copy's fault is cause 0x0F (R252, R274). -/
def ParkInfo.trap (p : ParkInfo) : TrapInfo := if p.page ∧ p.origin = .copy then { p.info with cause := 0x0F } else p.info

/-- A transfer of a core is dropped and its counter falls, and reads taken ahead that it has overtaken are noted as older than what is done (R251); with
a gang, so does the counter of every member whose delivery it ends (R252). -/
def State.dropXfer (s : State) (id : StrandId) (x : BitVec 32) : State :=
  match (s.core id.core).xfers.find? fun f => f.id == x && f.slot == id.slot with
  | none => s
  | some f =>
    let ms : List GangMember := match f.kind with
      | .copy j => (match j.dest with
          | .gang ms => ms.filter fun m => !m.fin
          | _ => [])
      | _ => []
    let fall (s : State) (m : GangMember) : State :=
      match (s.core id.core).lid with
      | some lid => s.modImage lid m.core fun c => c.setStrand m.arm.slot (c.strands[m.arm.slot.val].decC m.arm.ctr)
      | none => s
    let s := ms.foldl fall s
    let past (o : Option (BitVec 32) × CtrNo) : Option (BitVec 32) × CtrNo := if o.1 = some x then (none, o.2) else o
    (s.modCore id.core fun c => { c with xfers := c.xfers.filter fun g => !(g.id == x && g.slot == id.slot) }).modStrand id
      fun t => { t.decC f.ctr with ahead := t.ahead.map fun y => { y with overtaken := y.overtaken.map past } }

/-- A dropped matrix instruction is posted again ahead of the strand's held XQ entries (R69). -/
def State.repost (s : State) (id : StrandId) : State :=
  match (s.strand id).mdropped with
  | none => s
  | some e =>
    let ins (q : List XqEntry) : List XqEntry :=
      (q.takeWhile fun x => x.slot != id.slot) ++ ⟨id.slot, e, [], []⟩ :: q.dropWhile fun x => x.slot != id.slot
    (s.modCore id.core fun c => { c with xq := ins c.xq }).modStrand id fun t => { t with mdropped := none }

/-- A parked strand goes on (R274 action 0, R355 action 0): at the unit the record names for an error. A matrix instruction whose trap parked it is
posted again (DESIGN CHOICE, assumption 96); one that was dropped for a trap still to be taken, or whose handler the strand is in, stays aside
(R67, R231). -/
def State.unpark (s : State) (id : StrandId) (p : ParkInfo) : State :=
  let s := s.modStrand id fun t => { t with run := .running, pc := p.stopPc }
  if (s.strand id).hs || (s.strand id).mfault.isSome then s else s.repost id

/-- A parked strand takes the trap it would have taken (R274 action 1). -/
def State.deliver (s : State) (id : StrandId) (p : ParkInfo) : State :=
  let s := s.modStrand id fun t => { t with run := .running }
  let s := if p.origin = .copy then s.dropXfer id p.info.xfer else s
  s.takeTrap id p.origin p.trap p.stopPc p.vpc p.grp

/-- A held fault is taken at a unit boundary (R70, R252, R274, R291): that of a transfer ends it, unless the host handles a copy's page
fault. -/
def State.takePend (s : State) (id : StrandId) (p : PendTrap) : State :=
  let t := s.strand id
  if p.origin = .copy ∧ p.info.isTranslation ∧ p.host then s.parkPage id .copy p.info t.pc t.vcp t.resumeGroup
  else
    let s := if p.info.xfer = 0 then s else s.dropXfer id p.info.xfer
    s.takeTrap id p.origin ⟨if p.origin = .copy then 0x0F else p.info.cause, p.info.val, 0, 0, 0, 0⟩ t.pc t.vcp t.resumeGroup

/-- Act on an answer to a parked strand: 1 delivers its trap, any other one lets it go on. -/
def State.answer (s : State) (id : StrandId) (p : ParkInfo) (a : BitVec 2) : State :=
  if a = 1 then s.deliver id p else s.unpark id p

/-- Answer a parked strand where it is: at once when its core runs, kept with the saved state otherwise (R274). -/
def State.answerAt (s : State) (lid : BitVec 32) (idx : Nat) (k : SlotId) (a : BitVec 2) : State :=
  match s.whereIs lid idx k with
  | some id => (match (s.strand id).run with
      | .parked p => s.answer id p a
      | _ => s)
  | none => s.modImage lid idx fun c =>
      let t := c.strands[k.val]
      match t.run with
      | .parked p => c.setStrand k { t with run := .parked { p with answer := some a } }
      | _ => c

/-- Whether the record of a parked strand still waits for its slot of the host queue: until it is appended its tag names no record (R354). -/
def State.unrecorded (s : State) (kind : BitVec 4) (tag : BitVec 16) (d : Option DieId) : Bool :=
  s.preber.waitRecs.any fun r => r.kind == kind && r.w3 == tag.setWidth 64 &&
    d.all fun d => (r.w1.extractLsb' 32 7).toNat / 32 == d.val

/-- Whether the strand that a tag was given to is still parked with it: the launch of an unanswered tag may have ended. With a die the tag is that
die's, and without one the Preber's. -/
def State.parkedWith (s : State) (lid : BitVec 32) (idx : Nat) (k : SlotId) (tag : BitVec 16) (d : Option DieId) : Bool :=
  match (s.coreImage lid idx).map fun (c : Core) => c.strands[k.val].run with
  | some (.parked p) => p.tag == tag && p.page == d.isSome && d.all (· == p.die)
  | _ => false

/-- A write of FRES (R274): action 3 is taken as 0. -/
def State.fres (s : State) (d : DieId) (tag : BitVec 16) (act : BitVec 2) : State :=
  match (s.die d).pageTags.find? (·.tag == tag) with
  | none => s
  | some x =>
    if s.unrecorded 0 tag (some d) then s
    else
      let s := s.modDie d fun y => { y with pageTags := y.pageTags.filter (·.tag != tag) }
      if ¬ s.parkedWith x.lid x.core x.slot tag (some d) then s
      else if act = 2 then s.endOf x.lid else s.answerAt x.lid x.core x.slot (if act = 1 then 1 else 0)

/-- A write of ERES (R355): actions 1 and 3 are taken as 0. -/
def State.eres (s : State) (tag : BitVec 16) (act : BitVec 2) : State :=
  match s.preber.errTags.find? (·.tag == tag) with
  | none => s
  | some x =>
    if s.unrecorded 1 tag none then s
    else
      let s := { s with preber := { s.preber with errTags := s.preber.errTags.filter (·.tag != tag) } }
      if ¬ s.parkedWith x.lid x.core x.slot tag none then s
      else if act = 2 then s.endOf x.lid else s.answerAt x.lid x.core x.slot 0

/-! ## Registers of a die -/

/-- A write of L2WQ (R263). -/
def State.writeL2wq (s : State) (d : DieId) (v : Word) : State :=
  let f (i : Nat) := (v.extractLsb' (5 * i) 5).toNat
  s.modDie d fun x =>
    if f 0 + f 1 + f 2 + f 3 > 24 then { x with l2wq := x.l2wq ||| 0x100000 } else { x with l2wq := v &&& 0xFFFFF }

/-- Whether a held translation maps a byte of an invalidated range (R272). -/
def TlbEntry.hit (t : TlbEntry) (asid : BitVec 16) (vpn pages : Nat) : Bool :=
  t.asid == asid && (pages == 0 || (decide (t.vpn < vpn + pages) && decide (vpn < t.vpn + t.pages)))

/-- A write of TLBIC (R272). What a walker of the die has read of another package's tables for an access before it is not used any more. -/
def State.writeTlbic (s : State) (d : DieId) (v : Word) : State :=
  let x := s.die d
  let go := v.getLsbD 62
  if go && x.tlbcBusy then s
  else
    let asid : BitVec 16 := v.extractLsb' 24 16
    let pages : BitVec 20 := v.extractLsb' 0 20
    let s := s.modDie d fun x => { x with tlbcAsid := asid, tlbcPages := pages }
    if !go then s
    else
      let s := s.unaskBy (· == .party d)
      let keep (t : TlbEntry) : Bool := !t.hit asid (x.tlba.toNat / 4096) pages.toNat
      let s := s.modDie d fun x => { x with tlb := x.tlb.filter keep, tlbcBusy := true, tlbcRun := asid }
      ((List.finRange 128).filter fun c => dieOf c == d).foldl
        (fun s c => s.modCore c fun y => { y with tlb := y.tlb.filter keep }) s

/-- A write of VBCTL (R275): GO runs the pending repairs that began in host-assisted mode (R353); THR is written whatever becomes of GO (DESIGN CHOICE,
assumption 97). A THR below the present count of a bus makes no repair
pending before the next corrected error of that bus (DESIGN CHOICE, assumption 87). -/
def State.writeVbctl (s : State) (d : DieId) (v : Word) : State :=
  let s := s.modDie d fun x => { x with vbThr := v.extractLsb' 0 16 }
  if v.getLsbD 62 then s.vbRepair d true else s

/-- A register of a die's status window. -/
def State.readDieReg (s : State) (d : DieId) (off : Nat) : Word :=
  let x := s.die d
  let mon (m : Mon) : Word := m.proc ++ m.volt ++ m.thr ++ m.temp
  match off with
  | 0x100 => x.l2wq
  | 0x110 => x.tlba
  | 0x118 => BitVec.ofBool x.tlbcBusy ++ (0 : BitVec 23) ++ x.tlbcAsid ++ (0 : BitVec 4) ++ x.tlbcPages
  | 0x140 => BitVec.ofBool (x.vbPend[0] || x.vbPend[1]) ++ (0 : BitVec 23) ++ x.vbSpare ++ x.vbRuns ++ x.vbThr
  | 0x400 => mon x.mon[0]
  | 0x408 => mon x.mon[1]
  | 0x410 => mon x.mon[2]
  | 0x418 => mon x.mon[3]
  | 0x420 => mon x.mon[4]
  | _ => 0

/-- A write of a register of a die's status window. -/
def State.writeDieReg (s : State) (d : DieId) (off : Nat) (v : Word) : State :=
  let thr (i : Fin 5) : State := s.modDie d fun x =>
    { x with mon := x.mon.set i.val { x.mon[i.val] with thr := v.extractLsb' 16 16 } i.isLt }.clocked
  match off with
  | 0x100 => s.writeL2wq d v
  | 0x110 => s.modDie d fun x => { x with tlba := v &&& 0x0000FFFFFFFFF000 }
  | 0x118 => s.writeTlbic d v
  | 0x140 => s.writeVbctl d v
  | 0x150 => s.fres d (v.extractLsb' 16 16) (v.extractLsb' 0 2)
  | 0x400 => thr 0
  | 0x408 => thr 1
  | 0x410 => thr 2
  | 0x418 => thr 3
  | 0x420 => thr 4
  | _ => s

/-! ## Registers of a Hall die -/

/-- A register of a launch list (R333). -/
def LaunchList.reg (l : LaunchList) (i : Nat) : Word :=
  match i with
  | 0 => (0 : BitVec 12) ++ l.base.setWidth 44 ++ (0 : BitVec 8)
  | 1 => (0 : BitVec 12) ++ l.root ++ (0 : BitVec 12)
  | 2 => BitVec.ofBool l.en ++ l.prio ++ l.sz ++ (0 : BitVec 17) ++ l.asid ++ l.lerr ++ (0 : BitVec 16)
  | _ => 0

/-- A write of LLCTL, LLBASE or LLROOT (R333): while EN = 1, BASE, ROOT, SZ and ASID ignore writes. A list that is enabled has its tail line
still to be read (R336). -/
def LaunchList.write (l : LaunchList) (i : Nat) (v : Word) : LaunchList :=
  match i with
  | 0 => if l.en then l else { l with base := v.extractLsb' 8 44 }
  | 1 => if l.en then l else { l with root := v.extractLsb' 12 40 }
  | 2 =>
    let l' := if l.en then l else { l with sz := v.extractLsb' 57 4, asid := v.extractLsb' 24 16 }
    { l' with en := v.getLsbD 63, prio := v.extractLsb' 61 2, tail := if v.getLsbD 63 && l.en then l.tail else none }
  | _ => l

/-- A write of a register of launch list n; firmware that failed at reset enables no list (R358). -/
def State.writeList (s : State) (n : Fin 64) (i : Nat) (v : Word) : State :=
  { s with lists := s.lists.set n.val ((s.lists[n.val]).write i v) n.isLt }

/-- A write of PLRES (R343): a block of a waiting launch is put on a cluster; a cluster that breaks R341, or a launch that the Hall does not
serve, makes it ignored. A saved block resumes there, and a launch starts when every block has been named; a block named earlier on a cluster
that breaks R341 by then has to be named again (assumption 63). -/
def State.plresWrite (s : State) (h : HallId) (v : Word) : State :=
  let lid : BitVec 32 := v.extractLsb' 0 32
  let b := (v.extractLsb' 32 8).toNat
  let cl : Fin 16 := ⟨(v.extractLsb' 40 4).toNat, (v.extractLsb' 40 4).isLt⟩
  match s.launch lid with
  | none => s
  | some l =>
    if !s.preber.duty.getLsbD 0 || !l.asked || s.listHall l.list != h || !s.clusterTakes l b cl || l.blocks.contains (.named cl) then s
    else if l.status = 2 ∧ l.blocks.getD b .waiting = .saved ∧ b < l.blocks.length then s.resumeBlock l b cl
    else if l.status = 1 ∧ l.waits ∧ b < l.blocks.length then
      let bs : List BlockSt := l.blocks.set b (.named cl)
      let s := s.modLaunch lid fun l => { l with blocks := bs }
      if bs.all fun x => match x with
          | .named _ => true
          | _ => false then
        let plan := (List.range bs.length).filterMap fun i => match bs.getD i .waiting with
          | .named c => some (i, c)
          | _ => none
        let taken := plan.filter fun p => !s.clusterTakes l p.1 p.2
        if taken.isEmpty then s.engDone (s.startLaunch l plan)
        else s.modLaunch lid fun l =>
          { l with asked := false, blocks := taken.foldl (fun bs p => bs.set p.1 .waiting) bs }
      else s
    else s

/-- The entry that a Hall die's inspection window shows, 0 where its line has none or the other Hall serves it (R312; assumption 64). -/
def State.inspected (s : State) (h : HallId) : BitVec 128 :=
  let line := (s.hall h).inspect.toNat
  match s.entry line with
  | some e => if s.serving (sliceOf line) = some h then e.bits else 0
  | none => 0

/-- A register of a Hall die's status window (R330, R333, R369). That of a die that was lost reads as that of an absent one, and takes no write (DESIGN
CHOICE, assumption 98). -/
def State.readHallReg (s : State) (h : HallId) (off : Nat) : Word :=
  let x := s.hall h
  let r := s.rollCall
  if !x.present || x.lost then 0
  else if off = 0x200 then
    BitVec.ofBool r.rca ++ BitVec.ofBool r.lost ++ BitVec.ofNat 1 r.who.val ++ r.step ++ (0 : BitVec 27) ++ x.recalls
  else if off = 0x208 then x.rollto.setWidth 64
  else if off = 0x400 then x.inspect.setWidth 64
  else if off = 0x408 then (s.inspected h).extractLsb' 0 64
  else if off = 0x410 then (s.inspected h).extractLsb' 64 64
  else if off = 0x500 then BitVec.ofBool x.up ++ x.spd ++ x.wid ++ BitVec.ofBool x.cxl ++ (0 : BitVec 22) ++ x.cto
  else if 0x600 ≤ off ∧ off < 0x600 + 8 * 18 then
    let p := x.ports[(off - 0x600) / 8 % 18]'(Nat.mod_lt _ (by decide))
    BitVec.ofBool p.up ++ BitVec.ofBool p.pres ++ p.peer ++ (0 : BitVec 24) ++ p.retry ++ p.downs
  else if 0x800 ≤ off ∧ off < 0x800 + 8 * 64 then x.rte[(off - 0x800) / 8 % 64]'(Nat.mod_lt _ (by decide))
  else if 0x1000 ≤ off ∧ off < 0x1000 + 0x20 * 64 then
    (s.lists[(off - 0x1000) / 0x20 % 64]'(Nat.mod_lt _ (by decide))).reg (off % 0x20 / 8)
  else 0

/-- A write of HROLL.ADV (R331): in host-assisted roll call it runs one step and the host is told. -/
def State.advRoll (s : State) : State :=
  if s.rollCall.rca && s.rollCall.host then
    let st := s.rollCall.step
    (s.rollCallRun).hqPut ⟨5, st.setWidth 64, 0, 0, 0, none⟩
  else s

/-- A write of a register of a Hall die's status window; one of a die that was lost is ignored (DESIGN CHOICE, assumption 98). -/
def State.writeHallReg (s : State) (h : HallId) (off : Nat) (v : Word) : State :=
  let x := s.hall h
  if !x.present || x.lost then s
  else if off = 0x200 then (if v.getLsbD 58 then s.advRoll else s)
  else if off = 0x208 then
    let b := v.extractLsb' 0 24
    s.modHall h fun y => { y with rollto := if b.toNat < 100 then 100 else b }
  else if off = 0x300 then s.plresWrite h v
  else if off = 0x400 then
    let s := s.modHall h fun y => { y with inspect := v.extractLsb' 0 45 }
    let line := (v.extractLsb' 0 45).toNat
    if v.getLsbD 63 && s.serving (sliceOf line) == some h then s.askRecall line else s
  else if off = 0x500 then
    let b := v.extractLsb' 0 32
    s.modHall h fun y => { y with cto := if b.toNat < 1000 then 1000 else b }
  else if 0x800 ≤ off ∧ off < 0x800 + 8 * 64 then
    s.modHall h fun y => { y with rte := y.rte.set ((off - 0x800) / 8 % 64) (v &&& 0xE0000000000FFFFF) (Nat.mod_lt _ (by decide)) }
  else if 0x1000 ≤ off ∧ off < 0x1000 + 0x20 * 64 then
    s.writeList ⟨(off - 0x1000) / 0x20 % 64, Nat.mod_lt _ (by decide)⟩ (off % 0x20 / 8) v
  else s

/-! ## The Preber and the almanac -/

/-- The bytes of a number, lowest first. -/
def bytesOf : Nat → Nat → List Byte
  | 0, _ => []
  | n + 1, v => BitVec.ofNat 8 v :: bytesOf n (v / 256)

/-- The contents of the almanac's records, in order of id (R360). -/
def State.almanacRecords (s : State) : List (Nat × List Byte) :=
  let a := s.almanac
  [(1, bytesOf 8 (a.package.toNat + a.gen.toNat * 2 ^ 32)),
   (2, (List.finRange 128).map fun c => a.lanes[c.val]),
   (3, bytesOf 16 a.cores.toNat),
   (4, bytesOf 8 a.hallMask.toNat),
   (5, bytesOf 8 a.stackMask.toNat ++ bytesOf 8 (popN 8 a.stackMask.toNat * 48 * 2 ^ 30)),
   (6, ((List.finRange 4).map fun d => bytesOf 8 (a.buses[d.val]).toNat).flatten),
   (7, bytesOf 8 a.ports.toNat),
   (8, bytesOf 8 (Config.firmwareState (match s.preber.badImage with
      | none => 0
      | some i => 1 + i.val))),
   (9, Config.identityKey)]

/-- Records one after another, each with its header, at 8-byte-aligned offsets (R360; assumption 16: the order, the padding, and
each version a free value). -/
def layRecords (off : Nat) : List (Nat × List Byte) → List Byte
  | [] => []
  | (id, body) :: rest =>
    let len := 16 + body.length
    let pad := (8 - len % 8) % 8
    let next := if rest.isEmpty then 0 else off + len + pad
    bytesOf 8 (id + Config.almanacVersion id % 65536 * 65536 + len * 2 ^ 32) ++ bytesOf 8 next ++ body ++ List.replicate pad 0 ++ layRecords (off + len + pad) rest

/-- The bytes of the almanac. -/
def State.almanacBytes (s : State) : List Byte := layRecords 0 s.almanacRecords

/-- A Preber register (R352). -/
def State.readPreber (s : State) (off : Nat) : Word :=
  let p := s.preber
  match off with
  | 0x00 => p.duty.setWidth 64
  | 0x10 => (0 : BitVec 12) ++ p.hqbase ++ (0 : BitVec 12)
  | 0x18 => p.hqsz ++ (0 : BitVec 28) ++ p.prod ++ p.cons
  | 0x40 => p.nonce[0]
  | 0x48 => p.nonce[1]
  | 0x50 => p.nonce[2]
  | 0x58 => p.nonce[3]
  | 0x60 => BitVec.ofBool p.attBusy ++ (0 : BitVec 11) ++ p.attBuf ++ (0 : BitVec 12)
  | 0x70 => p.pwrlim.setWidth 64
  | _ => 0

/-- A write of a Preber register (R352). -/
def State.writePreber (s : State) (off : Nat) (v : Word) : State :=
  let p := s.preber
  let nonce (i : Fin 4) : State := { s with preber := { p with nonce := p.nonce.set i.val v i.isLt } }
  match off with
  | 0x00 => { s with preber := { p with duty := v.extractLsb' 0 6 } }
  | 0x10 => { s with preber := { p with hqbase := v.extractLsb' 12 40 } }
  | 0x18 => { s with preber := { p with hqsz := v.extractLsb' 60 4, cons := v.extractLsb' 0 16 } }
  | 0x20 => s.eres (v.extractLsb' 16 16) (v.extractLsb' 0 2)
  | 0x40 => nonce 0
  | 0x48 => nonce 1
  | 0x50 => nonce 2
  | 0x58 => nonce 3
  | 0x60 =>
    let p := { p with attBuf := v.extractLsb' 12 40 }
    { s with preber := if v.getLsbD 62 && !p.attBusy then { p with attBusy := true, attNonce := p.nonce } else p }
  | 0x70 =>
    let w := (v.extractLsb' 0 12).toNat
    { s with preber := { p with pwrlim := BitVec.ofNat 12 (if w > 2800 then 2800 else if w < 1000 then 1000 else w) } }
  | _ => s

/-! ## Core windows (R350, R136) -/

/-- A register of a core's status window: the timetable, and the trap registers of a slot. -/
def State.readCoreReg (s : State) (c : CoreId) (off : Nat) : Word :=
  let x := s.core c
  let owned (o : Option SlotId) (abs : Bool) (req : Nat) : Word :=
    BitVec.ofNat 64 ((if o.isSome then 2 ^ 15 else 0) + (if abs then 2 ^ 14 else 0) + 256 * (o.map (·.val)).getD 0 + req)
  if off < 0x40 then
    let g := off / 8 % 8
    let o := x.laneOwn[g]'(Nat.mod_lt _ (by decide))
    owned o (x.laneAbs.getLsbD g) ((o.map x.request).getD 0)
  else if off < 0x40 + 8 * 16 then owned (x.tileOwn[(off - 0x40) / 8 % 16]'(Nat.mod_lt _ (by decide))) false 0
  else if 0x800 ≤ off ∧ off % 0x100 < 0x30 then
    s.ctlRead ⟨c, ⟨(off - 0x800) / 0x100 % 8, Nat.mod_lt _ (by decide)⟩⟩ (BitVec.ofNat 12 (0x20 + off % 0x100 / 8))
  else 0

/-- A write of a slot's trap register, while its strand is parked (R350): as a CTLW, and a misaligned `tvec` is ignored as a whole. -/
def State.writeTrapReg (s : State) (id : StrandId) (n : BitVec 12) (v : Word) : State :=
  match (s.strand id).run with
  | .parked _ =>
    if (n = 0x25 ∧ v.extractLsb' 0 3 ≠ 0) ∨ n.toNat < 0x20 ∨ 0x25 < n.toNat then s
    else s.ctlPut id 0 n v
  | _ => s

/-- A write of a register of a core's status window: only the trap registers of a slot take one. -/
def State.writeCoreReg (s : State) (c : CoreId) (off : Nat) (v : Word) : State :=
  if 0x800 ≤ off ∧ off % 0x100 < 0x30 then
    s.writeTrapReg ⟨c, ⟨(off - 0x800) / 0x100 % 8, Nat.mod_lt _ (by decide)⟩⟩ (BitVec.ofNat 12 (0x20 + off % 0x100 / 8)) v
  else s

/-! ## The control windows (R350) -/

/-- Read the doubleword at an offset of this package's control windows. An offset that no table assigns, and a register that only takes writes, reads
as zero, and a write of the former is ignored (DESIGN CHOICE, assumption 99). -/
def State.readReg (s : State) (off : Nat) : Word :=
  if off < 0x10000 then s.readPreber off
  else if off < 0x20000 then s.readHallReg 0 (off - 0x10000)
  else if off < 0x30000 then s.readHallReg 1 (off - 0x20000)
  else if 0x100000 ≤ off ∧ off < 0x140000 then
    s.readDieReg ⟨(off - 0x100000) / 0x10000 % 4, Nat.mod_lt _ (by decide)⟩ (off % 0x10000)
  else if 0x1000000 ≤ off ∧ off < 0x1000000 + 0x1000 * 128 then
    s.readCoreReg ⟨(off - 0x1000000) / 0x1000 % 128, Nat.mod_lt _ (by decide)⟩ (off % 0x1000)
  else if 0x8000000 ≤ off ∧ off < 0x8100000 then
    ((List.range 8).foldl (fun v i => v + ((s.almanacBytes.getD (off - 0x8000000 + i) 0).toNat) * 256 ^ i) 0 : Nat)
  else 0

/-- A read of a core's status window corrects a single-bit error of the timetable entry or of the trap register that it reads (R70, R151). -/
def State.readChecked (s : State) (off : Nat) : State :=
  let c : CoreId := ⟨(off - 0x1000000) / 0x1000 % 128, Nat.mod_lt _ (by decide)⟩
  let o := off % 0x1000
  let site : List ErrSite :=
    if off < 0x1000000 ∨ 0x1000000 + 0x1000 * 128 ≤ off then []
    else if o < 0x40 + 8 * 16 then [.timetable c ⟨o / 8 % 24, Nat.mod_lt _ (by decide)⟩]
    else if 0x800 ≤ o ∧ o % 0x100 < 0x30 then
      [.ctl ⟨c, ⟨(o - 0x800) / 0x100 % 8, Nat.mod_lt _ (by decide)⟩⟩ (BitVec.ofNat 12 (0x20 + o % 0x100 / 8))]
    else []
  (s.consume (dieOf c) site).1

/-- Write the doubleword at an offset of this package's control windows. With a firmware image that failed its check, only HQBASE and HQCTL
take writes (R358). -/
def State.writeReg (s : State) (off : Nat) (v : Word) : State :=
  if s.preber.badImage.isSome ∧ off ≠ 0x10 ∧ off ≠ 0x18 then s
  else if off < 0x10000 then s.writePreber off v
  else if off < 0x20000 then s.writeHallReg 0 (off - 0x10000) v
  else if off < 0x30000 then s.writeHallReg 1 (off - 0x20000) v
  else if 0x100000 ≤ off ∧ off < 0x140000 then
    s.writeDieReg ⟨(off - 0x100000) / 0x10000 % 4, Nat.mod_lt _ (by decide)⟩ (off % 0x10000) v
  else if 0x1000000 ≤ off ∧ off < 0x1000000 + 0x1000 * 128 then
    s.writeCoreReg ⟨(off - 0x1000000) / 0x1000 % 128, Nat.mod_lt _ (by decide)⟩ (off % 0x1000) v
  else s

/-- The offset of a physical address within the control windows (R350). -/
def ctlOff (pa : Nat) : Nat := pa % 2 ^ 44 - 0x6000000000

end Sys2Proof.Machine
end

