-- ==== Sys2Proof/Machine/ScalarInt.lean ====
section
/-! DEFINITION. The scalar integer and address group (R96 to R104): the results of R97 on W bits, and one meaning for each opcode. -/
namespace Sys2Proof.Machine

/-! ## Results on W bits (R97, R98) -/

/-- A result of W bits extended to 64 (R97). -/
def extend {W : Nat} (signed : Bool) (x : BitVec W) : Word := if signed then x.signExtend 64 else x.setWidth 64

/-- The clamped signed result of `.sat`. -/
def satVal (W : Nat) (i : Int) : BitVec W := BitVec.ofInt W (clampS W i)

def addRes (v : Bool) {W : Nat} (x y : BitVec W) : BitVec W := if v then satVal W (x.toInt + y.toInt) else x + y
def subRes (v : Bool) {W : Nat} (x y : BitVec W) : BitVec W := if v then satVal W (x.toInt - y.toInt) else x - y
def mulRes (v : Bool) {W : Nat} (x y : BitVec W) : BitVec W := if v then satVal W (x.toInt * y.toInt) else x * y
/-- Bits [2W−1:W] of the product, unsigned when v is true. -/
def mulhRes (v : Bool) {W : Nat} (x y : BitVec W) : BitVec W :=
  if v then BitVec.ofNat W (x.toNat * y.toNat / 2 ^ W) else BitVec.ofInt W (x.toInt * y.toInt / 2 ^ W)
/-- The quotient; all ones for a zero divisor, x for −2^(W−1) / −1 (R98). -/
def divRes (v : Bool) {W : Nat} (x y : BitVec W) : BitVec W :=
  if y = 0 then BitVec.allOnes W
  else if v then BitVec.ofNat W (x.toNat / y.toNat)
  else BitVec.ofInt W (x.toInt.tdiv y.toInt)
/-- The remainder; x for a zero divisor, 0 for −2^(W−1) / −1 (R98). -/
def remRes (v : Bool) {W : Nat} (x y : BitVec W) : BitVec W :=
  if y = 0 then x
  else if v then BitVec.ofNat W (x.toNat % y.toNat)
  else BitVec.ofInt W (x.toInt.tmod y.toInt)
def shlRes {W : Nat} (x y : BitVec W) : BitVec W := x <<< (y.toNat % W)
def shrRes (v : Bool) {W : Nat} (x y : BitVec W) : BitVec W :=
  if v then x.sshiftRight (y.toNat % W) else x >>> (y.toNat % W)
def rotRes (v : Bool) {W : Nat} (x y : BitVec W) : BitVec W :=
  if v then x.rotateLeft (y.toNat % W) else x.rotateRight (y.toNat % W)
def minRes (v : Bool) {W : Nat} (x y : BitVec W) : BitVec W :=
  if v then (if x.ult y then x else y) else (if x.slt y then x else y)
def maxRes (v : Bool) {W : Nat} (x y : BitVec W) : BitVec W :=
  if v then (if x.ult y then y else x) else (if x.slt y then y else x)

/-- The conditions of CMP (R99). -/
def condHolds {W : Nat} (c : Cond) (x y : BitVec W) : Bool :=
  match c with
  | .eq => x == y
  | .ne => x != y
  | .lt => x.slt y
  | .ge => !x.slt y
  | .ltu => x.ult y
  | .geu => !x.ult y
  | .tst => x &&& y != 0

/-- The counts of CLZ, FFS and POPC on W bits (R101). -/
def clzRes {W : Nat} (x : BitVec W) : Nat := clzN W x.toNat
def ffsRes {W : Nat} (x : BitVec W) : Nat := ffsN W x.toNat 0
def popRes {W : Nat} (x : BitVec W) : Nat := popN W x.toNat

/-- The bit-field operation of EXT on a descriptor (R104). -/
def extRes (op : ExtOp) (pos len : Nat) (old b : Word) : Word :=
  let f := b.toNat >>> pos
  match op with
  | .u => BitVec.ofNat 64 (f % 2 ^ len)
  | .s => sextN len f
  | .dep =>
    let m : Word := BitVec.ofNat 64 ((2 ^ len - 1) <<< pos)
    (old &&& ~~~m) ||| ((b <<< pos) &&& m)

/-! ## The shape of the group -/

/-- An instruction of R97: x and y truncated to W bits, the result extended. -/
def binUnit (h : Hdr) (w : Width) (d x : SReg) (y : Src) (signed : Bool)
    (f : {W : Nat} → BitVec W → BitVec W → BitVec W) (s : State) : Out :=
  runUnit h (sSites s (x :: srcRegs y)) (fun s =>
    let W := widthBits w
    doneS s d (extend signed (f ((s.me.rS x).setWidth W) ((srcVal h s.me y).setWidth W)))) s

/-- CLZ, FFS and POPC (R101). -/
def countUnit (h : Hdr) (w : Width) (d x : SReg) (f : {W : Nat} → BitVec W → Nat) (s : State) : Out :=
  runUnit h (sSites s [x]) (fun s =>
    doneS s d (BitVec.ofNat 64 (f ((s.me.rS x).setWidth (widthBits w))))) s

/-! ## Meanings -/

/-- ADD (R97, R98). -/
def execAdd (h : Hdr) (v : Bool) (w : Width) (d x : SReg) (y : Src) (s : State) : Out := binUnit h w d x y true (addRes v) s
/-- SUB (R97, R98). -/
def execSub (h : Hdr) (v : Bool) (w : Width) (d x : SReg) (y : Src) (s : State) : Out := binUnit h w d x y true (subRes v) s
/-- MUL (R97, R98). -/
def execMul (h : Hdr) (v : Bool) (w : Width) (d x : SReg) (y : Src) (s : State) : Out := binUnit h w d x y true (mulRes v) s
/-- MULH (R97, R98). -/
def execMulh (h : Hdr) (v : Bool) (w : Width) (d x : SReg) (y : Src) (s : State) : Out := binUnit h w d x y (!v) (mulhRes v) s
/-- DIV (R97, R98). -/
def execDiv (h : Hdr) (v : Bool) (w : Width) (d x : SReg) (y : Src) (s : State) : Out := binUnit h w d x y (!v) (divRes v) s
/-- REM (R97, R98). -/
def execRem (h : Hdr) (v : Bool) (w : Width) (d x : SReg) (y : Src) (s : State) : Out := binUnit h w d x y (!v) (remRes v) s
/-- AND (R97, R98). -/
def execAnd (h : Hdr) (w : Width) (d x : SReg) (y : Src) (s : State) : Out := binUnit h w d x y false (fun x y => x &&& y) s
/-- OR (R97, R98). -/
def execOr (h : Hdr) (w : Width) (d x : SReg) (y : Src) (s : State) : Out := binUnit h w d x y false (fun x y => x ||| y) s
/-- XOR (R97, R98). -/
def execXor (h : Hdr) (w : Width) (d x : SReg) (y : Src) (s : State) : Out := binUnit h w d x y false (fun x y => x ^^^ y) s
/-- ANDN (R97, R98). -/
def execAndn (h : Hdr) (w : Width) (d x : SReg) (y : Src) (s : State) : Out := binUnit h w d x y false (fun x y => x &&& ~~~y) s
/-- SHL (R97, R98). -/
def execShl (h : Hdr) (w : Width) (d x : SReg) (y : Src) (s : State) : Out := binUnit h w d x y false shlRes s
/-- SHR (R97, R98). -/
def execShr (h : Hdr) (v : Bool) (w : Width) (d x : SReg) (y : Src) (s : State) : Out := binUnit h w d x y v (shrRes v) s
/-- ROT (R97, R98). -/
def execRot (h : Hdr) (v : Bool) (w : Width) (d x : SReg) (y : Src) (s : State) : Out := binUnit h w d x y false (rotRes v) s
/-- MIN (R97, R98). -/
def execMin (h : Hdr) (v : Bool) (w : Width) (d x : SReg) (y : Src) (s : State) : Out := binUnit h w d x y (!v) (minRes v) s
/-- MAX (R97, R98). -/
def execMax (h : Hdr) (v : Bool) (w : Width) (d x : SReg) (y : Src) (s : State) : Out := binUnit h w d x y (!v) (maxRes v) s

/-- CMP (R99). -/
def execCmp (h : Hdr) (c : Cond) (d : PReg) (x : SReg) (y : Src) (s : State) : Out :=
  runUnit h (sSites s (x :: srcRegs y)) (fun s => doneP s d (condHolds c (s.me.rS x) (srcVal h s.me y))) s

/-- SEL (R100). -/
def execSel (h : Hdr) (d : SReg) (g : PReg) (x y : SReg) (s : State) : Out :=
  runUnit h (pSites s [g] ++ sSites s [x, y]) (fun s => doneS s d (if s.me.rP g then s.me.rS x else s.me.rS y)) s

/-- CLZ (R101). -/
def execClz (h : Hdr) (w : Width) (d x : SReg) (s : State) : Out := countUnit h w d x clzRes s
/-- FFS (R101). -/
def execFfs (h : Hdr) (w : Width) (d x : SReg) (s : State) : Out := countUnit h w d x ffsRes s
/-- POPC (R101). -/
def execPopc (h : Hdr) (w : Width) (d x : SReg) (s : State) : Out := countUnit h w d x popRes s

/-- LI (R102). -/
def execLi (h : Hdr) (d : SReg) (i : BitVec 24) (s : State) : Out := runUnit h [] (fun s => doneS s d (imm64 h i)) s

/-- LEA (R103). -/
def execLea (h : Hdr) (va : Bool) (d b : SReg) (y : AddrSrc) (s : State) : Out :=
  runUnit h (sSites s (addrRegs b y)) (fun s =>
    let a := addrVal h s.me b y
    doneS s d (if va then canon48 a else a)) s

/-- EXT (R104): the deposit reads its destination. -/
def execExt (h : Hdr) (op : ExtOp) (d b : SReg) (y : FieldSrc) (s : State) : Out :=
  let yr := match y with
    | .reg c => [c]
    | .imm _ _ => []
  runUnit h (sSites s (b :: yr ++ (if op = .dep then [d] else []))) (fun s =>
    let t := s.me
    let (pos, lenM1) := match y with
      | .reg c => ((t.rS c).extractLsb' 0 6, (t.rS c).extractLsb' 6 6)
      | .imm p l => (p, l)
    doneS s d (extRes op pos.toNat (lenM1.toNat + 1) (t.rS d) (t.rS b))) s

end Sys2Proof.Machine
end

