-- ==== Sys2Proof/Machine/ScalarMem.lean ====
section
/-! DEFINITION. The scalar memory group (R116 to R124) with the store buffer, the egress and the L1 fills (R119, R295 to R298), and the
steps that move them on. -/
namespace Sys2Proof.Machine

/-! ## Orders, scopes and visibility -/

/-- The order, scope and strength of an access: relaxed, weak and at system scope without a prefix (R22). -/
def ordOf (h : Hdr) : OrdPayload := h.pfx.ord.getD ⟨false, .relaxed, .system⟩
/-- Whether an order has an acquire half. -/
def acquires : Order → Bool
  | .acquire | .acqRel => true
  | _ => false
/-- Whether an order has a release half. -/
def releases : Order → Bool
  | .release | .acqRel => true
  | _ => false
/-- Whether a scope is package or system. -/
def wideScope : Scope → Bool
  | .package | .system => true
  | _ => false

/-- The serialisation point a read asks for (R323): that of package or, when true, of system scope, for a strong or acquire one. -/
def serialOf (o : OrdPayload) : Option Bool :=
  if wideScope o.scope && (o.strong || acquires o.order) then some (o.scope == .system) else none

/-- Whether every store of a strand that is older than a mark is visible at a scope (R297, R322); one to host non-coherent memory has to be
complete in host memory whatever the scope (R378). The invalidations that the home of another package's line sends count at system scope alone
(R370). -/
def State.visible (s : State) (id : StrandId) (sc : Scope) (mark : Nat) : Bool :=
  ((s.strand id).sb.all fun e => decide (mark ≤ e.age)) &&
  ((s.core id.core).egress.all fun e => e.slot != id.slot || decide (mark ≤ e.entry.age) ||
    (sc == .core && e.entry.tgt.attr.mkind != 2)) &&
  (match sc with
    | .package => s.pending.all fun p => !p.strands.contains id || (s.foreign p.line && isPeer p.holder)
    | .system => s.pending.all fun p => !p.strands.contains id
    | _ => true)

/-- An acquire completes: G[S] of the strand's core advances (R147). -/
def State.acquired (s : State) (id : StrandId) (sc : Scope) : State := s.modCore id.core (·.advanceGen sc)

/-! ## The store buffer and the egress as a load sees them -/

/-- What buffered stores give a load: a value, a wait, or nothing (R119, R296). -/
inductive Fwd where
  | hit (v : Nat)
  | stall
  | miss

/-- The newest of the stores that overlap a load serves it when it holds all its bytes. -/
def forward (es : List SbEntry) (t : Target) (n : Nat) : Fwd :=
  match (es.filter fun e => overlaps e.tgt.place e.n t.place n).getLast? with
  | none => .miss
  | some e => match within e.tgt.place e.n t.place n with
    | some off => .hit (e.val / 2 ^ (8 * off) % 2 ^ (8 * n))
    | none => .stall

/-- Whether a store of the core's egress overlaps bytes at a target. -/
def Core.egressOverlaps (c : Core) (t : Target) (n : Nat) : Bool := c.egress.any fun e => overlaps e.entry.tgt.place e.entry.n t.place n

/-- Whether a line may be held in L1 for an access (R15, R261, R270). -/
def l1May (t : Target) : Bool :=
  match t.place with
  | .loc .. => false
  | .phys _ => !t.attr.ut && !t.attr.sl && t.attr.mkind != 2

/-- The line of a target at its point, after it was read there. -/
def State.lineAtPoint (s : State) (d : DieId) (line : Nat) : Nat :=
  match s.findLine d line with
  | some c => c.data
  | none => (s.serialData line).2

/-- The L1 copy a weak load of n bytes at an offset may take; an uncorrectable error drops the line, and both kinds are counted (R147, R151).
A line that came with a bad word in the bytes is read at the point again (R276). -/
def State.l1Read (s : State) (c : CoreId) (line off n : Nat) : State × Option Nat :=
  match (s.core c).l1Find line with
  | none => (s, none)
  | some x =>
    if badBytes x.data off n then (s, none) else
    match s.errAt (.l1Line c line) with
    | none => (s, some x.data)
    | some .single => ((s.clearErr (.l1Line c line)).countCorrected (dieOf c), some x.data)
    | some _ => (((s.clearErr (.l1Line c line)).countCorrected (dieOf c)).modCore c fun y => { y with l1 := y.l1.filter (·.line != line) },
                 none)

/-- The data of a fill in flight that a slot waits on: it is consumed once (R298). -/
def State.takeFill (s : State) (c : CoreId) (k : SlotId) (line : Nat) : State × Option Nat :=
  match (s.core c).fills.find? fun f => f.line == line && f.waiters.contains k && (s.core c).waitsFill line k with
  | none => (s, none)
  | some f =>
    let f' := { f with waiters := f.waiters.filter (· != k) }
    let upd (l : List Fill) : List Fill :=
      if f'.killed ∧ f'.waiters.isEmpty then l.filter (· != f) else l.map fun x => if x == f then f' else x
    (s.modCore c fun y => { y with fills := upd y.fills }, some f.data)

/-- The value of a scalar load (R296). One of a control window whose bytes a store of the core still carries waits until the store is performed, and
reads the register (DESIGN CHOICE, assumption 82). -/
def State.loadValue (s : State) (id : StrandId) (t : Target) (n : Nat) (o : OrdPayload) (hint : Hint) : Acc Nat :=
  let c := id.core
  let ctl := match t.place with
    | .phys pa => s.ownControl pa
    | _ => false
  let inLine (x : Nat) : Nat := match t.place with
    | .phys pa => x / 2 ^ (8 * (pa % 128)) % 2 ^ (8 * n)
    | _ => x
  match (if ctl then (if (s.strand id).sb.any fun e => overlaps e.tgt.place e.n t.place n then Fwd.stall else .miss)
         else forward (s.strand id).sb t n) with
  | .hit v => .ok s v
  | .stall => .wait s
  | .miss =>
    let egr := forward ((s.core c).egress.map (·.entry)) t n
    let fromPoint (s : State) : Acc Nat := s.readAt id t n (serialOf o)
    if ctl then
      (if (s.core c).egressOverlaps t n then .wait s
       else match t.place with
        | .phys pa => .ok (s.readChecked (ctlOff pa)) (s.readReg (ctlOff pa)).toNat
        | _ => .ok s 0)
    else if o.strong then
      match o.scope, egr with
      | .core, .hit v => .ok s v
      | _, .miss => fromPoint s
      | _, _ => .wait s
    else
      match egr with
      | .hit v => .ok s v
      | .stall => .wait s
      | .miss =>
        match t.place with
        | .loc .. => fromPoint s
        | .phys pa =>
          if !l1May t || ((serialOf o).isSome && s.isOut (lineOf pa)) then fromPoint s
          else
            let line := lineOf pa
            match s.takeFill c id.slot line with
            | (s, some x) => s.give x (pa % 128) n
            | (s, none) =>
              match s.l1Read c line (pa % 128) n with
              | (s, some x) => .ok s (inLine x)
              | (s, none) => (fromPoint s).bind fun s v =>
                  .ok (if hint = .streaming then s else s.l1Install c line (s.lineAtPoint (dieOf c) line)) v

/-! ## Addresses -/

/-- A fault of a scalar access: to the host when it comes from translation and the duty map says so (R117, R274). -/
def memFault (s : State) (a : Word) (k : AccKind) (cause : Nat) (fromTr : Bool) : UnitRes :=
  if fromTr then .tfault s (faultInfo cause a k.code) else .trap s (trapInfo cause a)

/-- Form and check an address (R117), then go on with its target. -/
def withTarget (s : State) (a : Word) (n : Nat) (k : AccKind) (h : Hdr) (hint : Hint) (ctl : Bool)
    (f : State → Target → UnitRes) : UnitRes :=
  if a.toNat % n ≠ 0 then .trap s (trapInfo 0x04 a)
  else
    match s.resolve s.cur a k h.pfx.cls hint ctl with
    | .wait s => .wait s
    | .fault s c tr => memFault s a k c tr
    | .ok s t => f s t

/-- Go on with an access that was answered: its fault traps with the address, its wait holds the strand. -/
def withAcc {α : Type} (x : Acc α) (a : Word) (f : State → α → UnitRes) : UnitRes :=
  match x with
  | .ok s v => f s v
  | .wait s => .wait s
  | .bad s c => .trap s (trapInfo c a)

/-- Whether the strand's older host non-coherent stores to a port are all performed (R267). -/
def State.hostOrdered (s : State) (id : StrandId) (pa : Nat) : Bool :=
  let same (e : SbEntry) : Bool := match e.tgt.place with
    | .phys q => e.tgt.attr.mkind == 2 && s.portOf (lineOf q) == s.portOf (lineOf pa)
    | _ => false
  ((s.strand id).sb.all fun e => !same e) && (s.core id.core).egress.all fun e => e.slot != id.slot || !same e.entry

/-- A non-posted host request (R267, R326): it leaves once the strand's older ones to the port are performed, and completes when the host
answers. -/
def hostRequest (s : State) (i : Instr) (t : Target) (f : State → UnitRes) : UnitRes :=
  match t.place with
  | .loc .. => f s
  | .phys pa =>
    match s.me.wait with
    | some ⟨.host _ true, _⟩ => f (s.modMe fun u => { u with hostBad := none })
    | some ⟨.host _ false, _⟩ => .wait s
    | _ => if s.hostOrdered s.cur pa then .wait (s.modMe fun u => { u with wait := some ⟨.host pa false, i⟩ }) else .wait s

/-! ## LD, ST and PREF -/

/-- A transfer of the strand writes bytes: reads of them that the strand took ahead are older than its completion (R251). -/
def State.overtake (s : State) (id : StrandId) (x : Option (BitVec 32)) (c : CtrNo) (p : Place) (n : Nat) : State :=
  let mark (y : Ahead) : Ahead := if overlaps y.place y.n p n then { y with overtaken := (x, c) :: y.overtaken } else y
  if (s.strand id).ahead.isEmpty then s else s.modStrand id fun t => { t with ahead := t.ahead.map mark }

/-- A WAITLT on a counter ends: reads taken ahead that its completed transfers have overtaken are discarded (R251), and those of an IPOP sum, of
which what is known now may be newer (R289). -/
def State.seenDone (s : State) (id : StrandId) (c : CtrNo) : State :=
  let gone (y : Ahead) : Bool := y.part.isSome || y.overtaken.contains (none, c)
  if (s.strand id).ahead.any gone then s.modStrand id fun t => { t with ahead := t.ahead.filter fun y => !gone y } else s

/-- LD (R116 to R120); a value taken ahead for this unit is delivered, and the unit brings the line as it issues, where the read did not (R294; DESIGN
CHOICE, assumption 77). -/
def execLd (h : Hdr) (hint : Hint) (sx : Bool) (w : Width) (d b : SReg) (y : AddrSrc) (s : State) : Out :=
  runUnit h (sSites s (addrRegs b y)) (fun s =>
    let n := widthBytes w
    let a := addrVal h s.me b y
    let o := ordOf h
    let i := Instr.ld h hint sx w d b y
    let deliver (s : State) (v : Nat) : UnitRes :=
      let s := if acquires o.order then s.acquired s.cur o.scope else s
      doneS s d (if sx then sextN (8 * n) v else BitVec.ofNat 64 v)
    withTarget s a n .sread h hint (w = .w64) fun s t =>
      match s.me.ahead.find? fun x => x.pc == s.me.pc && x.nth == 0 && x.part.isNone && x.addr == a && x.n == n with
      | some x => deliver (if x.brought then s else match s.loadValue s.cur t n o hint with
          | .ok s _ => s
          | _ => s) x.val
      | none =>
        if t.attr.mkind = 2 then
          (if s.myCore.egressOverlaps t n then .wait s else hostRequest s i t fun s => withAcc (s.readAt s.cur t n none) a deliver)
        else withAcc (s.loadValue s.cur t n o hint) a deliver) s

/-- ST (R118, R119): one entry of the store buffer. -/
def execSt (h : Hdr) (hint : Hint) (w : Width) (v b : SReg) (y : AddrSrc) (s : State) : Out :=
  runUnit h (sSites s (v :: addrRegs b y)) (fun s =>
    let n := widthBytes w
    let a := addrVal h s.me b y
    let o := ordOf h
    withTarget s a n .swrite h hint (w = .w64) fun s t =>
      if s.me.sb.length ≥ 32 then .wait s
      else
        .done (s.modMe fun u => { u with
          sb := u.sb ++ [⟨t, n, (u.rS v).toNat % 2 ^ (8 * n), u.sbAge, releases o.order, o.strong, o.scope, a⟩]
          sbAge := u.sbAge + 1 })) s

/-- The target of a prefetch, when it is not dropped (R124, R266): no page-table bit is written. -/
def State.prefTarget (s : State) (c : CoreId) (a : Word) (lv : PrefLevel) (cls : Option LineClass) (hint : Hint) : Option (State × Target) :=
  let need (leaf : Word) : Bool :=
    (if lv = .w then leaf.getLsbD 3 && leaf.getLsbD 6 else leaf.getLsbD 2) && leaf.getLsbD 5
  if !canonical a || inLocal a then none
  else
    let vpn := a.toNat % 2 ^ 48 / 4096
    let found : Option (State × Nat × Word) := match s.lookupTlb c vpn with
      | (s, some t) => some (s, t.pa + (a.toNat % 2 ^ 48 - 4096 * t.vpn), t.leaf)
      | (s, none) => match s.walk (dieOf c) a (s.core c).root.toNat 4 with
        | .leaf s level _ e _ => some (s, ptePa e + a.toNat % leafSize level, e)
        | _ => none
    match found with
    | none => none
    | some (s, pa, leaf) =>
      let t : Target := ⟨.phys pa, leafAttr leaf cls hint⟩
      let ok := match paKind pa with
        | .device p => s.present p (lineOf pa)
        | .host => !s.noCxl pa t.attr
        | _ => false
      if need leaf && ok && t.attr.mkind != 2 && !t.attr.ut then some (s, t) else none

/-- PREF (R124): it changes where the line is, and nothing else. L1 takes no line of a region with a deadline, which a load would meet (R269, R270). -/
def execPref (h : Hdr) (hint : Hint) (lv : PrefLevel) (b : SReg) (y : AddrSrc) (s : State) : Out :=
  runUnit h (sSites s (addrRegs b y)) (fun s =>
    match s.prefTarget s.cur.core (addrVal h s.me b y) lv h.pfx.cls hint with
    | some (s', ⟨.phys pa, a⟩) =>
      let life : LifeSt := if s'.ownDevice pa then (s'.region (regionOf pa)).life else .none
      if life = .dead then .done s
      else
        (match s'.obtain (dieOf s.cur.core) (lineOf pa) (lv = .w) a with
          | .copy s' => .done (if lv = .l1 ∧ life = .none ∧ l1May ⟨.phys pa, a⟩ ∧ hint ≠ .streaming ∧ (s'.myCore.l1Find (lineOf pa)).isNone then
              s'.l1Install s.cur.core (lineOf pa) (s'.lineAtPoint (dieOf s.cur.core) (lineOf pa)) else s')
          | .bypass _ => .done s
          | .wait s' => .done s')
    | _ => .done s) s

/-! ## Atomics -/

/-- The new value of an AMO on n bytes (R122). -/
def amoNew (op : AmoOp) (n old y : Nat) : Nat :=
  let x : BitVec (8 * n) := BitVec.ofNat _ old
  let z : BitVec (8 * n) := BitVec.ofNat _ y
  (match op with
    | .swap => z
    | .add => x + z
    | .and => x &&& z
    | .or => x ||| z
    | .xor => x ^^^ z
    | .min => minRes false x z
    | .max => maxRes false x z
    | .minu => minRes true x z
    | .maxu => maxRes true x z).toNat

/-- An atomic's operands: how many bytes it has and what it does to the old value; none writes nothing (R122, R123). -/
def atomicOp (t : Strand) (i : Instr) : Option (Nat × (Nat → Option Nat)) :=
  match i with
  | .amo _ _ op w _ _ y =>
    let n := widthBytes w
    some (n, fun old => some (amoNew op n old ((t.rS y).toNat % 2 ^ (8 * n))))
  | .cas _ _ w _ _ x nv =>
    let n := widthBytes w
    some (n, fun old => if old = (t.rS x).toNat % 2 ^ (8 * n) then some ((t.rS nv).toNat % 2 ^ (8 * n)) else none)
  | .cas128 _ _ _ _ x nv =>
    let v (r : SReg) : Nat := (t.rS r).toNat + (t.rS (r + 1)).toNat * 2 ^ 64
    some (16, fun old => if old = v x then some (v nv) else none)
  | _ => none

/-- Whether an AT of a strand is at a slice (R324). -/
def State.atOut (s : State) (who : StrandId) : Bool := (s.slices[0].queue ++ s.slices[1].queue).any fun r => r.strand == some who
/-- Whether a strand's atomic at package or system scope on host non-coherent memory is outstanding (R324, R326). -/
def State.hostOut (s : State) (who : StrandId) : Bool :=
  match (s.strand who).wait with
  | some ⟨.host .., .amo h ..⟩ | some ⟨.host .., .cas h ..⟩ | some ⟨.host .., .cas128 h ..⟩ => wideScope (ordOf h).scope
  | _ => false
/-- A strand's AT leaves its slice unserved (R329). -/
def State.dropAt (s : State) (who : StrandId) : State :=
  { s with slices := s.slices.map fun (x : Slice) => { x with queue := x.queue.filter fun r => r.strand != some who } }

/-- Whether every condition an atomic waits for holds (R119, R295): no overlapping entry of the strand's buffer or of the core's egress. -/
def State.atomicReady (s : State) (t : Target) (n : Nat) : Bool :=
  (s.me.sb.all fun e => !overlaps e.tgt.place e.n t.place n) && !s.myCore.egressOverlaps t n

/-- The core's own L1 copy, and a fill in flight, follow an atomic that wrote (R146: L1 holds nothing that is not at the point; DEDUCED,
assumption 88). -/
def State.l1Follow (s : State) (c : CoreId) (t : Target) (n v : Nat) : State :=
  match t.place with
  | .phys pa => s.modCore c (·.l1Store (lineOf pa) (pa % 128) n v)
  | .loc .. => s

/-- Whether an access of an atomic at a physical address is served at this die or its arrays: not where the Hall performs it, for a
host-coherent line (R122), or at package and system scope for a line that this die's own L2 does not serve alone (R324). -/
def State.atomicHere (s : State) (who : StrandId) (pa : Nat) (attr : Attr) (sc : Scope) : Bool :=
  let line := lineOf pa
  attr.mkind == 2 || attr.ut ||
    (attr.mkind == 0 && (!wideScope sc || (s.homeDie line == some (dieOf who.core) && !s.isOut line)))

/-- Perform an atomic at its point (R121, R305, R324): at this die, or through the slice as an AT. A strand has one AT outstanding. `f` gives
the value written. -/
def performAtomic (s : State) (i : Instr) (a : Word) (t : Target) (n : Nat) (sc : Scope) (f : Nat → Option Nat)
    (k : State → Nat → UnitRes) : UnitRes :=
  let follow (s : State) (old : Nat) : UnitRes :=
    match f old with
    | some v => k (s.l1Follow s.cur.core t n v) old
    | none => k s old
  match t.place with
  | .loc .. => if wideScope sc && s.atOut s.cur then .wait s else withAcc (s.atomicAt s.cur t n f) a follow
  | .phys pa =>
    let line := lineOf pa
    let sent : Bool := match s.me.wait with
      | some ⟨.atomic _, _⟩ => true
      | _ => false
    match s.me.journal with
    | some j =>
      if j.vec || !j.done then .wait s
      else
        let s := (s.modMe fun u => { u with journal := none }).dropAt s.cur
        if j.bad then .trap s (trapInfo 0x0C a) else k s j.oldVal
    | none =>
      if !sent && wideScope sc && s.atOut s.cur then .wait s
      else if !sent && s.atomicHere s.cur pa t.attr sc then withAcc (s.atomicAt s.cur t n f) a follow
      else if !sent && s.atOut s.cur then .wait s
      else if s.stallOver s.cur line then
        .trap ((s.stallEnd s.cur line).dropAt s.cur) (trapInfo 0x0D a)
      else
        .wait ((s.modMe fun u => { u with wait := some ⟨.atomic t, i⟩ }).enqueue
          ⟨line, .at, .die (dieOf s.cur.core), some s.cur, t.attr, false⟩)

/-- AMO, CAS and CAS128 after their operands are read: the checks of R117, the waits of R119 to R123, the operation at its point, and the
acquire half on completion. -/
def atomicUnit (h : Hdr) (hint : Hint) (i : Instr) (b : SReg) (isCas hostOk : Bool) (write : State → Nat → State) (s : State) : UnitRes :=
  let a := s.me.rS b
  let o := ordOf h
  match atomicOp s.me i with
  | none => .done s
  | some (n, f) =>
    withTarget s a n .atomic h hint false fun s t =>
      let complete (s : State) (old : Nat) : UnitRes :=
        .done (write (if acquires o.order then s.acquired s.cur o.scope else s) old)
      let relOk (s : State) : Bool := !releases o.order || s.visible s.cur o.scope s.me.sbAge
      if t.attr.mkind = 2 then
        if !hostOk then .trap s (trapInfo 0x06 a)
        else if !s.atomicReady t n || !relOk s || (wideScope o.scope && !s.hostOut s.cur && s.atOut s.cur) then .wait s
        else hostRequest s i t fun s => withAcc (s.atomicAt s.cur t n f) a complete
      else if !s.atomicReady t n then .wait s
      else if isCas && releases o.order && s.me.journal.isNone && (match s.me.wait with
          | some ⟨.casRel, _⟩ | some ⟨.atomic _, _⟩ => false
          | _ => true) then
        withAcc (s.readAt s.cur t n (if wideScope o.scope || t.attr.mkind == 1 then some (o.scope == .system) else none)) a fun s old =>
          if (f old).isNone then complete s old
          else if relOk s then performAtomic s i a t n o.scope f complete
          else .wait (s.modMe fun u => { u with wait := some ⟨.casRel, i⟩ })
      else if !relOk s && s.me.journal.isNone then .wait s
      else performAtomic s i a t n o.scope f complete

/-- AMO (R122). -/
def execAmo (h : Hdr) (hint : Hint) (op : AmoOp) (w : Width) (d b y : SReg) (s : State) : Out :=
  runUnit h (sSites s [b, y]) (atomicUnit h hint (.amo h hint op w d b y) b false
    ((op = .swap ∨ op = .add) ∧ (w = .w64 ∨ w = .w32)) fun s old => s.wS s.cur d (BitVec.ofNat 64 old)) s

/-- CAS (R123). -/
def execCas (h : Hdr) (hint : Hint) (w : Width) (d b x nv : SReg) (s : State) : Out :=
  runUnit h (sSites s [b, x, nv]) (atomicUnit h hint (.cas h hint w d b x nv) b true (w = .w64 ∨ w = .w32)
    fun s old => s.wS s.cur d (BitVec.ofNat 64 old)) s

/-- CAS128 (R123): each operand is an even register and the one after it. -/
def execCas128 (h : Hdr) (hint : Hint) (d b x nv : SReg) (s : State) : Out :=
  runUnit h (sSites s [b, x, x + 1, nv, nv + 1]) (atomicUnit h hint (.cas128 h hint d b x nv) b true true
    fun s old => (s.wS s.cur d (BitVec.ofNat 64 old)).wS s.cur (d + 1) (BitVec.ofNat 64 (old / 2 ^ 64))) s

/-! ## Steps of scalar memory -/

/-- Whether two buffered stores go to host non-coherent memory through one port, which keeps their order (R267, R378). -/
def State.samePort (s : State) (x e : SbEntry) : Bool :=
  match x.tgt.place, e.tgt.place with
  | .phys p, .phys q => x.tgt.attr.mkind == 2 && e.tgt.attr.mkind == 2 && s.portOf (lineOf p) == s.portOf (lineOf q)
  | _, _ => false

/-- EGRESS_STEP (R119, R295): entry k of a strand's store buffer enters its core's egress. Overlapping entries and host non-coherent ones of
one port leave in order, and a release waits until every older store is visible at its scope. -/
def execEgressStep (id : StrandId) (k : Nat) (s : State) : Out :=
  let sb := (s.strand id).sb
  match sb[k]? with
  | none => .next s
  | some e =>
    let older := sb.take k
    let ordered := older.all fun x => !overlaps x.tgt.place x.n e.tgt.place e.n && !s.samePort x e
    if !ordered || (e.rel && !s.visible id e.scope e.age) then .next s
    else
      .next ((s.modStrand id fun t => { t with sb := t.sb.eraseIdx k }).modCore id.core fun c =>
        { c with egress := c.egress ++ [⟨id.slot, e⟩] })

/-- The line key of an egress list: a physical line, or a line of a local memory. -/
def egressKey (e : EgressEntry) : Nat :=
  match e.entry.tgt.place with
  | .phys pa => lineOf pa
  | .loc _ idx off => 2 ^ 46 + idx * 16384 + off / 128

/-- A store that waits past the stall bound traps its strand at its next unit boundary, with the store's address, and stays (R329, R332;
assumption 65). -/
def State.storeStall (s : State) (id : StrandId) (e : SbEntry) (cause : Nat) : State :=
  s.modStrand id fun t => { t with stalled := false, pend := t.pend ++ [⟨trapInfo cause e.va, .scalar, false⟩] }

/-- PERFORM_STEP (R295): the head of a line's egress list is performed at its point, and the core's L1 copy follows (R119). A register write
takes effect in its window (R350). -/
def execPerformStep (c : CoreId) (line : Nat) (s : State) : Out :=
  let eg := (s.core c).egress
  match eg.find? fun e => egressKey e == line with
  | none => .next s
  | some x =>
    let id : StrandId := ⟨c, x.slot⟩
    let e := x.entry
    let gone (s : State) : State := s.modCore c fun y => { y with egress := removeFirst (fun e => egressKey e == line) y.egress }
    let hostFirst := (eg.takeWhile (· != x)).all fun y => y.slot != x.slot || !s.samePort y.entry e
    if !hostFirst then .next s
    else
      match e.tgt.place with
      | .phys pa =>
        if s.ownControl pa then .next (gone (s.writeReg (ctlOff pa) (BitVec.ofNat 64 e.val)))
        else
          (match s.writeAt id e.tgt e.n e.val with
            | .ok s _ => .next (gone (s.modCore c (·.l1Store (lineOf pa) (pa % 128) e.n e.val)))
            | .wait s => .next s
            | .bad s c => .next (s.storeStall id e c))
      | .loc .. =>
        (match s.writeAt id e.tgt e.n e.val with
          | .ok s _ => .next (gone s)
          | .wait s => .next s
          | .bad s _ => .next s)

/-- FILL_INSTALL (R298): a fill is placed with the core's current generations, unless an event of the rule fell between its two steps. Naming a line
with no fill in flight, it takes the line's copy out of L1, as a replacement may at any moment (DEDUCED, assumption 14). -/
def execFillInstall (c : CoreId) (line : Nat) (s : State) : Out :=
  match (s.core c).fills.find? fun f => f.line == line && !f.killed with
  | none => .next (s.l1Evict c line)
  | some f =>
    .next ((s.l1Install c line f.data).modCore c fun y =>
      { y with fills := y.fills.filterMap fun x => if x == f then y.killFill f else some x })

end Sys2Proof.Machine
end

