-- ==== Sys2Proof/Machine/Fetch.lean ====
section
/-! DEFINITION. Fetching a unit (R11, R20, R30), and what a strand does when it takes a turn. -/
namespace Sys2Proof.Machine

/-- What fetching a unit gives (R20, R30). -/
inductive Fetched where
  | unit (s : State) (r : ScanResult)
  | fault (s : State) (i : TrapInfo) (fromTr : Bool)
  | wait (s : State)

/-- Fetch one word of a strand (R11): an execute access, read at its point. -/
def State.fetchWord (s : State) (id : StrandId) (va : Word) : Acc Word × Bool :=
  match s.resolve id va .fetch none .default false with
  | .wait s => (.wait s, false)
  | .fault s c tr => (.bad s c, tr)
  | .ok s t => ((s.readAt id t 8 none).bind fun s v => .ok s (BitVec.ofNat 64 v), false)

/-- Fetch the words of a unit one by one until one ends its decode (R20). -/
def State.fetchFrom (s : State) (id : StrandId) (p : Pfx) (seen : List PfxKind) (va : Word) : Nat → Fetched
  | 0 => .wait s
  | fuel + 1 =>
    match s.fetchWord id va with
    | (.wait s, _) => .wait s
    | (.bad s c, tr) => .fault s (if tr then faultInfo c va 0 else trapInfo c va) tr
    | (.ok s w, _) =>
      match scanWord p seen w with
      | .more p seen => s.fetchFrom id p seen (va + 8) fuel
      | r => .unit s r

/-- Fetch the unit at an address. A fourth prefix repeats a kind, so four words suffice (R20). -/
def State.fetchUnit (s : State) (id : StrandId) (va : Word) : Fetched := s.fetchFrom id Pfx.empty [] va 4

/-- What a strand's turn comes to: an instruction to execute, or an outcome already. -/
inductive Picked where
  | run (s : State) (i : Instr)
  | over (o : Out)

/-- An error in a timetable entry traps every strand of the core at its next unit (R151), and while it stands at every unit after that, a handler's
too (DESIGN CHOICE, assumption 103). -/
def State.timetableError (s : State) (c : CoreId) : Option (Fin 24) :=
  (List.finRange 24).find? fun n => match s.errAt (.timetable c n) with
    | some .single => false
    | some _ => true
    | none => false

/-! ## Reads taken ahead, as their strand goes on (R294) -/

/-- The scalar registers that a slot of a pair writes (R27). -/
def slotDests (t : Strand) (p : PairSlot) : List SReg :=
  match p.op with
  | .cmpEq | .cmpLt | .cmpLtu | .plogAnd => []
  | _ => if t.rP p.guard then [p.dest] else []

/-- The scalar registers a unit writes. -/
def scalarDests (t : Strand) : Instr → List SReg
  | .add _ _ _ d _ _ | .sub _ _ _ d _ _ | .mul _ _ _ d _ _ | .mulh _ _ _ d _ _ | .div _ _ _ d _ _ | .rem _ _ _ d _ _
  | .shr _ _ _ d _ _ | .rot _ _ _ d _ _ | .min _ _ _ d _ _ | .max _ _ _ d _ _ => [d]
  | .and _ _ d _ _ | .or _ _ d _ _ | .xor _ _ d _ _ | .andn _ _ d _ _ | .shl _ _ d _ _ => [d]
  | .sel _ d _ _ _ | .clz _ _ d _ | .ffs _ _ d _ | .popc _ _ d _ | .li _ d _ | .lea _ _ d _ _ | .ext _ _ d _ _ => [d]
  | .pmov _ (.fromPred d _) | .pmov _ (.save d) => [d]
  | .jal _ d _ | .jalr _ d _ _ => [d]
  | .ld _ _ _ _ d _ _ | .amo _ _ _ _ d _ _ | .cas _ _ _ d _ _ _ => [d]
  | .cas128 _ _ d _ _ _ => [d, d + 1]
  | .fadd _ _ _ d _ _ | .fsub _ _ _ d _ _ | .fmul _ _ _ d _ _ | .ffma _ _ _ _ d _ _ _ | .fdiv _ _ _ d _ _ | .fsqrt _ _ _ d _
  | .fmin _ _ d _ _ | .fmax _ _ d _ _ | .fcvt _ _ _ _ d _ | .fclass _ _ d _ => [d]
  | .ctlr _ d _ | .launch _ d _ _ | .movq _ d => [d]
  | .pair a b => slotDests t a ++ slotDests t b
  | .vclaim _ d _ | .vsetvl _ _ d _ | .mmode _ d _ _ => [d]
  | .cpgo _ _ d | .bellArrive _ d _ | .bellRemote _ d _ _ | .scount _ _ d _ => [d]
  | _ => []

/-- Whether the order of a unit makes it a barrier unit (R294); an acquire IPOP lets no younger access be performed either (R288). -/
def orderBars : Instr → Bool
  | .ld h .. | .amo h .. | .cas h .. | .cas128 h .. | .vappend h .. | .scount h .. | .waitlt h .. | .bellWait h .. | .bellSync h ..
  | .ipopSum h .. | .ipopScale h .. | .ipopAxpy h .. | .ipopFill h .. => acquires (ordOf h).order
  | _ => false

/-- Whether a unit carries sched code 3 (R16). -/
def hasCsync : Instr → Bool
  | .pair a b => a.sched == .csync || b.sched == .csync
  | i => i.hdr?.any fun h => h.sched == .csync

/-- Whether a unit is a barrier unit by what it does (R294). -/
def barsReads : Instr → Bool
  | .fence .. | .fenceo .. | .fencer .. | .renew .. => true
  | i => orderBars i

/-- Whether a unit has an effect: its guard holds and its sched code does not suppress it (R13, R16). -/
def Strand.acts (t : Strand) (i : Instr) : Bool :=
  i.hdr?.all fun h => t.rP h.guard != h.gneg && !suppressed t (t.pc + 8 * BitVec.ofNat 64 (hdrWords h - 1)) h.sched

/-- The place of a scalar access with the registers as they stand. -/
def State.placeOf (s : State) (id : StrandId) (a : Word) (k : AccKind) : Option Place :=
  match s.resolve id a k none .default true with
  | .ok _ t => some t.place
  | _ => none

/-- The scalar access of a unit: its address with the registers as they stand, its width, and whether every later overlapping read has to
come after it: that of a store, an atomic or a strong load (R294). An atomic counts as a store here (DEDUCED, assumption 81). -/
def scalarAccess (t : Strand) : Instr → Option (Word × Nat × Bool)
  | .ld h _ _ w _ b y => some (addrVal h t b y, widthBytes w, (ordOf h).strong)
  | .st h _ w _ b y => some (addrVal h t b y, widthBytes w, true)
  | .amo _ _ _ w _ b _ | .cas _ _ w _ b _ _ => some (t.rS b, widthBytes w, true)
  | .cas128 _ _ _ b _ _ => some (t.rS b, 16, true)
  | _ => none

/-- Whether a place is in a local memory, whose reads keep their order (R238). -/
def Place.isLocal : Place → Bool
  | .loc .. => true
  | .phys _ => false

/-- Whether a read taken ahead is that of the strand's next unit. -/
def Strand.nextRead (t : Strand) (x : Ahead) : Bool := x.pc == t.pc && x.nth == 0

/-- How the scalar access of a unit is translated. -/
def scalarKind : Instr → AccKind
  | .ld .. => .sread
  | .st .. => .swrite
  | _ => .atomic

/-- Whether a read of a place must come after the scalar access of a unit of its strand that is older than it (R238, R294, R300). -/
def State.readAfter (s : State) (id : StrandId) (i : Instr) (p : Place) (n : Nat) (strong : Bool) : Bool :=
  match scalarAccess (s.strand id) i with
  | none => false
  | some (a, m, all) => (all || strong || p.isLocal) && (s.placeOf id a (scalarKind i)).any fun q => overlaps q m p n

/-- Whether a read taken ahead was taken too early, now that the unit before it issues (R294): its address comes from a register that the unit
writes, or it must come after the unit's access, unless that is a load that took its own read first. -/
def State.tooEarly (s : State) (id : StrandId) (i : Instr) (x : Ahead) : Bool :=
  let t := s.strand id
  let first := t.ahead.takeWhile fun y => !(t.nextRead y && (scalarAccess t i).any fun z => z.1 == y.addr)
  (scalarDests t i).any (fun d => d != 0 && x.regs.contains d) ||
  (first.contains x && s.readAfter id i x.place x.n x.strong)

/-- A unit issues: reads taken ahead that had to come after it are discarded, but its own stays (R294). A unit with sched code 3 is a barrier
whatever its guard (R16). -/
def State.pruneAhead (s : State) (id : StrandId) (i : Instr) : State :=
  let t := s.strand id
  let late (x : Ahead) : Bool := !t.nextRead x && (hasCsync i || (t.acts i && (barsReads i || s.tooEarly id i x)))
  if t.ahead.any late then s.modStrand id fun t => { t with ahead := t.ahead.filter fun x => !late x } else s

/-- The scalar registers that a unit reads which may issue while the value of a relaxed SCOUNT is still to return (R289). -/
def passesCount : Instr → Option (List SReg)
  | .settle h b c _ => if h.sched = .csync then none else some [b, c]
  | .ipopSum h _ x y c _ => if h.sched = .csync then none else some [x, y, c]
  | .ipopScale h _ x c a _ | .ipopFill h _ x c a _ => if h.sched = .csync then none else some [x, c, a]
  | .ipopAxpy h _ x y c a _ => if h.sched = .csync then none else some [x, y, c, a]
  | .waitlt h _ n => if h.sched = .csync ∨ acquires (ordOf h).order then none else some (roiRegs n)
  | _ => none

/-- The values of a strand's relaxed SCOUNTs return (R286, R289). -/
def State.returnCounts (s : State) (id : StrandId) : State :=
  (s.strand id).late.foldl (fun s x => s.wS id x.d (s.region x.region).word) (s.modStrand id fun t => { t with late := [] })

/-- A unit issues: relaxed SCOUNTs return first, but for a unit that may pass them and reads none of their registers (R289; DEDUCED,
assumption 67). -/
def State.countsFor (s : State) (id : StrandId) (i : Instr) : State :=
  if (s.strand id).late.isEmpty then s
  else match passesCount i with
    | some rs => if (s.strand id).late.any fun x => rs.contains x.d then s.returnCounts id else s
    | none => s.returnCounts id

/-- A strand takes a turn: held traps first (R67, R70, R252), then the unit it waits in, then the unit at its PC. A strand of a launch that ends,
and one that stops for a recess, come to no further unit (R132, R344, R346). A timetable error that stands traps at each unit (assumption
103). -/
def State.pickUnit (s : State) (id : StrandId) : Picked :=
  let s := { s with cur := id }
  let t := s.strand id
  if (s.die (dieOf id.core)).stopped then .over (.fault (.dieStopped (dieOf id.core)))
  else
    match t.run with
    | .idle => .over (.next s)
    | .halted => .over (.next s)
    | .parked p => .over (.next (match p.answer with
        | some a => s.answer id p a
        | none => s))
    | .running =>
      let ends : Bool := ((s.launch (t.lid.setWidth 32)).map (·.status)) == some 5
      if t.stopped || (ends && !t.midUnit) then .over (.next s)
      else
        match (if t.midUnit || t.hs || t.holdEnded then none else t.mfault), (if t.midUnit then [] else t.pend) with
        | some (pc, i, host), _ =>
          let s := s.modStrand id fun t => { t with mfault := none }
          .over (.next (if host then s.parkPage id .matrix i t.pc pc 0 else s.takeTrap id .matrix i t.pc pc 0))
        | none, p :: rest =>
          .over (.next ((s.modStrand id fun t => { t with pend := rest }).takePend id p))
        | none, [] =>
          match (if t.midUnit then none else s.timetableError id.core) with
          | some n => .over (.next (s.scalarTrap id (trapInfo 0x0C (checkEval 8 n.val))))
          | none =>
            if s.pausedNow id && (match t.wait with
                | some ⟨.fencer .., _⟩ => false
                | _ => true) then .over (.next s)
            else
              match t.wait with
              | some w => .run ((s.countsFor id w.instr).pruneAhead id w.instr) w.instr
              | none =>
                if (s.core id.core).claimQ.contains id.slot then .over (.next s)
                else
                  match s.fetchUnit id t.pc with
                  | .wait s => .over (.next s)
                  | .fault s i tr => .over (.next (if tr then s.scalarFault id i else s.scalarTrap id i))
                  | .unit s (.good i) => .run ((s.countsFor id i).pruneAhead id i) i
                  | .unit s (.bad b) => .run s (.illegalUnit b)
                  | .unit s (.more ..) => .over (.next s)

end Sys2Proof.Machine
end

