-- ==== Sys2Proof/Machine/Queue.lean ====
section
/-! DEFINITION. The vector queue and the scalar-bound queue (R60, R61): issuing into VQ with the checks of R153, reading and writing elements
of vector registers and masks (R139, R154), and the waits of the configuration instructions (R156, R250). -/
namespace Sys2Proof.Machine

/-! ## Shapes -/

/-- The bytes of one vector register of a strand (R139). -/
def State.rb (s : State) (id : StrandId) : Nat := regBytes (s.lanes id) (s.strand id).nv
/-- MAXVL of a strand (R139). -/
def State.maxVl (s : State) (id : StrandId) : Nat := maxVL (s.lanes id) (s.strand id).nv (s.strand id).vtype
/-- The element width of the strand's `vtype`. -/
def Strand.ew (t : Strand) : Nat := vtEW t.vtype

/-- Whether a group of n registers from v obeys the naming rule (R139, R168). -/
def groupOk (t : Strand) (v : VReg) (n : Nat) : Bool := v.toNat % n == 0 && decide (v.toNat + n ≤ t.nv)
/-- Whether a vector operand with the grouping L obeys the naming rule (R139). -/
def vregOk (t : Strand) (v : VReg) : Bool := groupOk t v (vtL t.vtype)
/-- The registers an operand of width w takes when the element width is ew (R168, R198). -/
def packedRegs (vt : Word) (w : Nat) : Nat := max 1 (vtL vt * w / vtEW vt)
/-- Whether two register groups share a register. -/
def groupsMeet (a : VReg) (n : Nat) (b : VReg) (m : Nat) : Bool := decide (a.toNat < b.toNat + m) && decide (b.toNat < a.toNat + n)
/-- Whether the operand y of a vector instruction obeys the naming rule. -/
def vsrcOk (t : Strand) : VSrc → Bool
  | .vec c => vregOk t c
  | .scl _ => true

/-- The scalar registers a broadcast operand reads (R155). -/
def vsrcRegs : VSrc → List SReg
  | .vec _ => []
  | .scl c => [c]
/-- The value a broadcast operand captures (R155). -/
def vsrcVal (t : Strand) : VSrc → Word
  | .vec _ => 0
  | .scl c => t.rS c

/-! ## Issue into VQ -/

/-- Push an instruction into VQ with the state it captures (R59, R60), reserving an SQ slot when it produces a result (R61). The address that
`vcp` and `evcp` give for it is its unit's first word (DESIGN CHOICE, assumption 66: R62 does not say which word of a prefixed unit). -/
def Strand.push (t : Strand) (i : Instr) (x y : Word) (sq bar : Bool) : Strand :=
  { t with
    vq := t.vq ++ [{ seq := t.vseq, pc := t.pc, instr := i,
                     cap := ⟨t.vl, t.mvl, t.vtype, t.rm, t.enables, (t.slip.extractLsb' 0 3).toNat, x, y⟩,
                     nextGrp := 0, skip := 0, tail := none, scanLocal := none, scanCarry := none, sq := sq,
                     barrier := t.barrier || bar, mark := t.sbAge, snap := [], ring := none, words := [] }]
    vseq := t.vseq + 1
    barrier := false
    sq := if sq then t.sq ++ [⟨t.vseq, none⟩] else t.sq }

/-- The control registers that an instruction captures as it issues (R59, R153, R216): `fpctl`, `vtype`, `slip`, `vl`, and for a matrix instruction
`mvl` too. -/
def capSites (s : State) (matrix : Bool) : List ErrSite :=
  [ctlSite s 0, ctlSite s 1, ctlSite s 2, ctlSite s 5] ++ if matrix then [ctlSite s 3] else []

/-- Issue an instruction that enters VQ: the check of ILL (R141), the other issue checks (R153), handler state (R66), the SQ reservation
(R61), the wait for a free entry, then the push. -/
def issueVec (h : Hdr) (i : Instr) (srcs : List SReg) (vt : Bool) (ok : Strand → Bool) (x y : Strand → Word) (sq bar : Bool)
    (s : State) : Out :=
  runUnit h (capSites s (isMatrix i) ++ sSites s srcs) (fun s =>
    let t := s.me
    if vt && t.ill then .trap s (trapInfo 0x07 t.vtype)
    else if !ok t then .trap s (trapInfo 0x01 (unitWord i))
    else if t.hs || (sq && t.sq.length ≥ 16) then .trap s (trapInfo 0x0B 0)
    else if t.vq.length ≥ 64 then .wait s
    else .done (s.modMe fun t => t.push i (x t) (y t) sq bar)) s

/-- No scalar operand. -/
def noVal (_ : Strand) : Word := 0

/-! ## Elements of registers and masks -/

/-- Element e, w bits wide, of a register group from v (R139, R154). -/
def Strand.elem (t : Strand) (rb w : Nat) (v : VReg) (e : Nat) : Nat :=
  let per := 8 * rb / w
  getE w (t.rV (v + BitVec.ofNat 6 (e / per))) (e % per)

/-- Write elements of a group of n registers, with the pre-images of the registers written (R145, R154). -/
def Strand.putElems (t : Strand) (rb w : Nat) (v : VReg) (n : Nat) (els : List (Nat × Nat)) : Strand × List PreImage :=
  let per := 8 * rb / w
  (List.range n).foldl (fun (t, pre) i =>
    let mine := els.filter fun x => x.1 / per == i
    if mine.isEmpty then (t, pre)
    else
      let r := v + BitVec.ofNat 6 i
      let d := mine.foldl (fun d x => setE w d (x.1 % per) x.2) (t.rV r)
      (t.wV r d, pre ++ [.vec r (t.vvalid.getLsbD r.toNat) (t.v[r.toNat]'r.isLt)])) (t, [])

/-- Write bits of a mask, with its pre-image (R55, R145); the errors of the words are the writer's to add. -/
def Strand.putMask (t : Strand) (k : KReg) (els : List (Nat × Bool)) : Strand × List PreImage :=
  if k = 0 ∨ els.isEmpty then (t, [])
  else
    let old := t.k[k.toNat]'k.isLt
    (t.wK k (els.foldl (fun d x => setBit d x.1 x.2) old), [.mask k old []])

/-! ## Waits of the vector side -/

/-- Whether no vector or matrix instruction of the strand is uncommitted, and no XQ entry of it is left (R60, R156). -/
def State.vectorIdle (s : State) (id : StrandId) : Bool :=
  (s.strand id).vq.isEmpty && (s.core id.core).xq.all fun x => x.slot != id.slot

/-- Whether a transfer into the strand's own registers, or an arming of it, is live (R250, R253). -/
def State.liveInto (s : State) (id : StrandId) : Bool :=
  let c := s.core id.core
  (c.xfers.any fun x => x.slot == id.slot && ownRegs x) || (c.armings.any fun a => a.slot == id.slot) ||
  (c.lid.isSome && (List.finRange 128).any fun lc => (s.core lc).lid == c.lid && (s.core lc).xfers.any fun x => match x.kind with
    | .copy j => (match j.dest with
        | .gang ms => ms.any fun m => m.core == c.index && m.arm.slot == id.slot && !m.fin
        | _ => false)
    | _ => false)

/-- The register groups and masks that live deliveries into a strand's registers write (R250): first register, count and mask. -/
def State.liveGroups (s : State) (id : StrandId) : List (VReg × Nat × KReg) :=
  let c := s.core id.core
  (c.xfers.filterMap fun x => match x.kind with
    | .copy j => (match j.dest with
        | .regs vr k l _ => if x.slot = id.slot then some (vr, l, k) else none
        | _ => none)
    | _ => none) ++
  (c.armings.filterMap fun a => if a.slot = id.slot then some (a.vr, a.l, a.k) else none) ++
  ((List.finRange 128).filter fun lc => c.lid.isSome && (s.core lc).lid == c.lid).flatMap fun lc =>
    (s.core lc).xfers.flatMap fun x => match x.kind with
      | .copy j => (match j.dest with
          | .gang ms => ms.filterMap fun m =>
              if m.core = c.index ∧ m.arm.slot = id.slot ∧ ¬ m.fin then some (m.arm.vr, m.arm.l, m.arm.k) else none
          | _ => [])
      | _ => []

/-- A result reaches its slot of SQ (R61, R134). -/
def Strand.deliver (t : Strand) (seq : Nat) (v : Word) : Strand :=
  { t with sq := t.sq.map fun q => if q.seq == seq then { q with val := some v } else q }

end Sys2Proof.Machine
end

