-- ==== Sys2Proof/Machine/VecCore.lean ====
section
/-! DEFINITION. What one commit group of a vector instruction does (R144, R145, R154): its elements, the check bits it reads, the element
results and flags, and the lowest element that faults. -/
namespace Sys2Proof.Machine

/-- One commit group of one VQ entry, with the strand's shape and what its beat has already read. -/
structure Work where
  id : StrandId
  e : VqEntry
  g : Nat
  lanes : Nat
  rb : Nat
  got : List (Nat × Nat)

/-- What a commit group comes to. -/
inductive BeatOut where
  /-- Its writes are made, with their pre-images; its stores and flags are held; `out` is a result for SQ. -/
  | done (s : State) (pre : List PreImage) (stores : List HeldStore) (flags : BitVec 6) (out : Option Word)
  /-- An element faults; nothing is written. -/
  | fault (s : State) (i : TrapInfo) (fromTr : Bool)
  /-- It cannot go on now. -/
  | wait (s : State)

def Work.vt (w : Work) : Word := w.e.cap.vtype
def Work.ew (w : Work) : Nat := vtEW w.e.cap.vtype
def Work.vl (w : Work) : Nat := w.e.cap.vl
/-- The elements of a commit group; all of them for a KLOG whose captured element width is unsupported. -/
def Work.cg (w : Work) : Nat := if commitGroup w.lanes w.ew = 0 then w.vl else commitGroup w.lanes w.ew
/-- The first element of the group that is still to do: those before a recess are done (R347). -/
def Work.lo (w : Work) : Nat := max (w.g * w.cg) w.e.skip
/-- The end of the group below `vl`. -/
def Work.hi (w : Work) : Nat := min ((w.g + 1) * w.cg) w.vl
/-- The elements of the group below `vl`. -/
def Work.all (w : Work) : List Nat := (List.range (w.hi - w.lo)).map (· + w.lo)
/-- The active elements of the group. -/
def Work.active (w : Work) (t : Strand) (k : KReg) : List Nat := w.all.filter (t.rKbit k)
/-- Element n of an operand of a width. -/
def Work.get (w : Work) (t : Strand) (width : Nat) (v : VReg) (n : Nat) : Nat := t.elem w.rb width v n
/-- The word that holds element n of an operand: its register, and its number there (R151). -/
def Work.wordOf (w : Work) (width : Nat) (v : VReg) (n : Nat) : VReg × Nat :=
  let per := 8 * w.rb / width
  (v + BitVec.ofNat 6 (n / per), n % per * width / 64)
/-- Element n of the operand y at width W: a vector element or the captured scalar (R155). -/
def Work.src (w : Work) (t : Strand) (width : Nat) (y : VSrc) (n : Nat) : Nat :=
  match y with
  | .vec c => w.get t width c n
  | .scl _ => w.e.cap.y.toNat % 2 ^ width
/-- The rounding mode of a selection, from the captured RM (R59, R165). -/
def Work.mode (w : Work) (r : Rnd) : Mode := Mode.select r w.e.cap.rm
/-- What a rounding depends on: the mode and the captured SAT and FO (R84, R165). -/
def Work.ctx (w : Work) (r : Rnd) : RndCtx := ⟨w.mode r, vtSAT w.vt, vtFO w.vt⟩

/-- Single-bit errors at places are corrected and counted (R70). -/
def State.corrected (s : State) (d : DieId) (ps : List ErrSite) : State :=
  ps.foldl (fun s p => if s.errAt p = some .single then (s.clearErr p).countCorrected d else s) s

/-- An entry of a queue is read (R70): a single-bit error is corrected, and an uncorrectable one traps its strand. R68 numbers no file for the queues,
so the low bits of `eval` are a free value (DESIGN CHOICE, assumption 80). -/
def State.queueCheck (s : State) (id : StrandId) (q : QueueKind) (seq : Nat) : State × Option TrapInfo :=
  let s := s.corrected (dieOf id.core) [.queue id q seq]
  if (s.errAt (.queue id q seq)).isNone then (s, none)
  else ({ s with fresh := s.fresh + 1 }, some (trapInfo 0x0C (BitVec.ofNat 64 (2 ^ 63 + Config.freeNat s.fresh % 2 ^ 16))))

/-- An operand of a width, whose elements a group reads. -/
structure Opnd where
  v : VReg
  width : Nat

/-- The operands of a vector source. -/
def vsrcOpnd (width : Nat) : VSrc → List Opnd
  | .vec c => [⟨c, width⟩]
  | .scl _ => []

/-- The image that an entry took of a register before its own results: whether the register was valid then, and its bits (R154). -/
def Work.snapOf (w : Work) (r : VReg) : Option (Bool × Nat) := (w.e.snap.find? (·.1 == r)).map (·.2)

/-- The place at which a group reads a word of a vector register: the register, or the image of it that the entry keeps (R154). -/
def Work.site (w : Work) (x : VReg × Nat) : ErrSite :=
  if (w.snapOf x.1).isSome then .image w.id w.e.seq x.1 x.2 else .vreg w.id x.1 x.2

/-- Whether a word that an element reads holds an uncorrectable error: an invalid register is not read (R154). -/
def Work.badAt (w : Work) (s : State) (x : VReg × Nat) : Bool :=
  (match w.snapOf x.1 with
    | some v => v.1
    | none => (s.strand w.id).vvalid.getLsbD x.1.toNat) && (s.errAt (w.site x)).isSome

/-- The machine check of an element's operands (R151, R154): the first of the words it reads that holds an uncorrectable error. -/
def Work.regFault (w : Work) (s : State) (rs : List (VReg × Nat)) : Option TrapInfo :=
  (rs.find? (w.badAt s)).map fun r => trapInfo 0x0C (checkEval 3 r.1.toNat)

/-- The elements whose mask bits a group reads, from a first one to a last: those below it too where it counts them (R204, R210), and all of them
where it reduces or counts for the tail atomic (R204, R208). -/
def Work.maskSpan (w : Work) : Nat × Nat :=
  match w.e.instr with
  | .vred .. => (0, w.vl)
  | .vappend .. => (0, if w.e.tail.isNone then w.vl else w.hi)
  | .vcomp .. | .vexp .. => (0, w.hi)
  | _ => (w.lo, w.hi)

/-- The words of a mask that a group reads (R151). -/
def Work.maskSites (w : Work) (k : KReg) : List ErrSite :=
  let (a, b) := w.maskSpan
  if k = 0 ∨ b ≤ a then [] else (List.range ((b - 1) / 64 + 1 - a / 64)).map fun i => .kreg w.id k (a / 64 + i)

/-- The machine check of the masks a group reads. -/
def Work.maskFault (w : Work) (s : State) (ks : List KReg) : Option TrapInfo :=
  if s.errs.isEmpty then none
  else ((ks.flatMap w.maskSites).find? fun e => (s.errAt e).isSome).map fun e => trapInfo 0x0C (errEval e)

/-- A word of an image whose single-bit error is corrected as the image is read: the register's, where it still stands, is the same error, and
counts once (R151). -/
def Work.sameError (w : Work) (s : State) (x : VReg × Nat) : State :=
  if (w.snapOf x.1).isSome ∧ s.errAt (w.site x) = some .single ∧ s.errAt (.vreg w.id x.1 x.2) = some .single then
    s.clearErr (.vreg w.id x.1 x.2)
  else s

/-- Masks, and words of vector registers, are read: their single-bit errors are corrected and counted (R70, R151). -/
def Work.meet (w : Work) (s : State) (ks : List KReg) (xs : List (VReg × Nat)) : State :=
  if s.errs.isEmpty then s
  else (xs.dedup.foldl w.sameError s).corrected (dieOf w.id.core) (ks.flatMap w.maskSites ++ xs.dedup.map w.site)

/-- The words of its operands that a group may read. -/
def Work.words (w : Work) (ops : List Opnd) : List (VReg × Nat) := ops.flatMap fun o => w.all.map (w.wordOf o.width o.v)

/-- The trap of flags that are enabled (R83, R154). -/
def Work.flagFault (w : Work) (fl : BitVec 6) : Option TrapInfo :=
  if fl.setWidth 5 &&& w.e.cap.en ≠ 0 then some (trapInfo 0x09 ((fl.setWidth 5).setWidth 64 <<< 4)) else none

/-- Flags of a floating operation as a beat holds them. -/
def flags6 (fl : FpFlags) : BitVec 6 := fl.setWidth 6

/-- Where results go. -/
inductive Dest where
  | vec (v : VReg) (width : Nat)
  | mask (k : KReg)

/-- The errors of registers that were written (R145, R151): the pre-image of an open beat keeps those of its words, a word written whole has
none any more, and a register that becomes valid has none at all. -/
def State.keepErrs (s : State) (id : StrandId) (pre : List PreImage) (whole : VReg → Nat → Bool) (open_ : Bool) : State :=
  let image (r : VReg) : Option Bool := pre.findSome? fun p => match p with
    | .vec q valid _ => if q = r then some valid else none
    | .mask .. => none
  if s.errs.isEmpty then s
  else { s with errs := s.errs.flatMap fun x => match x.1 with
    | .vreg i r n => if i = id then (match image r with
        | none => [x]
        | some false => []
        | some true => (if open_ then [(ErrSite.history id r n, x.2)] else []) ++ (if whole r n then [] else [x])) else [x]
    | _ => [x] }

/-- Write elements of a group of n registers, with the pre-images and what becomes of errors. -/
def State.putRegs (s : State) (id : StrandId) (rb width : Nat) (v : VReg) (n : Nat) (rs : List (Nat × Nat)) (open_ : Bool) :
    State × List PreImage :=
  let per := 8 * rb / width
  let (t, pre) := (s.strand id).putElems rb width v n rs
  let els := 64 / width
  let whole (r : VReg) (i : Nat) : Bool :=
    (List.range els).all fun j => rs.any fun x => x.1 == (r - v).toNat * per + i * els + j
  ((s.setStrand id t).keepErrs id pre whole open_, pre)

/-- The errors of a mask's words, by number. -/
def State.maskErrs (s : State) (id : StrandId) (k : KReg) : List (Nat × ErrKind) := s.errs.filterMap fun e => match e.1 with
  | .kreg i r w => if i = id ∧ r = k then some (w, e.2) else none
  | _ => none

/-- Write bits of a mask: the pre-image keeps the errors of its words, and a word that is written whole holds none any more (R145, R151). -/
def State.putBitsOf (s : State) (id : StrandId) (k : KReg) (els : List (Nat × Bool)) : State × List PreImage :=
  let (t, pre) := (s.strand id).putMask k els
  let s' := s.setStrand id t
  if s.errs.isEmpty then (s', pre)
  else
    let whole (w : Nat) : Bool := (List.range 64).all fun i => els.any fun x => x.1 == 64 * w + i
    let image (p : PreImage) : PreImage := match p with
      | .mask r data _ => .mask r data (s.maskErrs id r)
      | p => p
    ({ s' with errs := s'.errs.filter fun e => match e.1 with
        | .kreg i r w => !(i == id && r == k && whole w)
        | _ => true }, pre.map image)

/-- Write the results of a group, with their pre-images. -/
def Work.put (w : Work) (s : State) (d : Dest) (rs : List (Nat × Nat)) : State × List PreImage :=
  match d with
  | .vec v width =>
    let per := 8 * w.rb / width
    let n := (rs.foldl (fun m x => max m x.1) 0) / per + 1
    s.putRegs w.id w.rb width v n rs true
  | .mask k => s.putBitsOf w.id k (rs.map fun x => (x.1, x.2 % 2 = 1))

/-- The strand with the registers an entry captured before its own results (R154). -/
def Strand.withSnap (t : Strand) (l : List (VReg × Bool × Nat)) : Strand :=
  l.foldl (fun t x => if x.2.1 then t.wV x.1 x.2.2 else { t with vvalid := t.vvalid &&& ~~~((1 : BitVec 64) <<< x.1.toNat) }) t

/-- The registers of a group that also lie in another. -/
def sharedRegs (a : VReg) (n : Nat) (b : VReg) (m : Nat) : List VReg :=
  ((List.range n).map fun i => a + BitVec.ofNat 6 i).filter fun r => decide (b.toNat ≤ r.toNat) && decide (r.toNat < b.toNat + m)

/-- An entry's images of registers take the errors of their words with them (R151, R154). -/
def State.imageErrs (s : State) (id : StrandId) (seq : Nat) (rs : List VReg) : State :=
  let same (e : ErrSite × ErrKind) : List (ErrSite × ErrKind) := match e.1 with
    | .image i q _ _ => if i = id ∧ q = seq then [] else [e]
    | .vreg i r n => if i = id ∧ rs.contains r then [e, (.image id seq r n, e.2)] else [e]
    | _ => [e]
  if s.errs.isEmpty then s else { s with errs := s.errs.flatMap same }

/-- Images of registers, kept in the entry before its first result (R154). -/
def Work.keep (w : Work) (s : State) (rs : List VReg) : Work × State :=
  if w.g = 0 ∧ w.e.skip = 0 then
    let t := s.strand w.id
    let l := rs.map fun r => (r, t.vvalid.getLsbD r.toNat, t.v[r.toNat]'r.isLt)
    ({ w with e := { w.e with snap := l } },
     (s.modStrand w.id fun t => { t with vq := t.vq.map fun e => if e.seq = w.e.seq then { e with snap := l } else e }).imageErrs
       w.id w.e.seq rs)
  else (w, s)

/-- The strand as a group's sources are read. -/
def Work.reads (w : Work) (s : State) : Strand := (s.strand w.id).withSnap w.e.snap

/-- Judge the results of elements: the trap of the lowest one that faults, otherwise the results with the OR of their flags. `regs` are
the words an element reads. -/
def Work.judge (w : Work) (s : State) (ks : List KReg) (rs : List (Nat × Nat × BitVec 6)) (regs : Nat → List (VReg × Nat)) :
    Except TrapInfo (List (Nat × Nat) × BitVec 6) :=
  match w.maskFault s ks with
  | some i => .error i
  | none =>
    match rs.findSome? fun x => (w.regFault s (regs x.1)).orElse fun _ => w.flagFault x.2.2 with
    | some i => .error i
    | none => .ok (rs.map fun x => (x.1, x.2.1), rs.foldl (fun a x => a ||| x.2.2) 0)

/-- Read the masks of a group and the words its elements read, then form the results of the elements. -/
def Work.run (w : Work) (s : State) (ks : List KReg) (es : List Nat) (regs : Nat → List (VReg × Nat))
    (f : Strand → Nat → Nat × BitVec 6) : State × Except TrapInfo (List (Nat × Nat) × BitVec 6) :=
  let s := w.meet s ks (es.flatMap regs)
  let t := w.reads s
  (s, w.judge s ks (es.map fun e => (e, f t e)) regs)

/-- The writes of a group that did not fault. -/
def Work.write (w : Work) (r : State × Except TrapInfo (List (Nat × Nat) × BitVec 6)) (d : Dest) : BeatOut :=
  match r with
  | (s, .error i) => .fault s i false
  | (s, .ok (rs, fl)) =>
    let (s, pre) := w.put s d rs
    .done s pre [] fl none

/-- An element-wise group under a mask (R154). -/
def Work.each (w : Work) (s : State) (k : KReg) (ops : List Opnd) (d : Dest) (f : Strand → Nat → Nat × BitVec 6) : BeatOut :=
  w.write (w.run s [k] (w.active (s.strand w.id) k) (fun e => ops.map fun o => w.wordOf o.width o.v e) f) d

end Sys2Proof.Machine
end

