-- ==== Sys2Proof/Machine/VecFp.lean ====
section
/-! DEFINITION. The vector floating-point group (R165 to R169): issue, and what the commit groups do. -/
namespace Sys2Proof.Machine

/-! ## Issue -/

/-- Whether EW is the width of a format (R153, R165). -/
def ewFmt (f : Fmt) (t : Strand) : Bool := t.ew == f.width

/-- Issue an instruction with a vector destination and the operands x and y. -/
def issueFp (h : Hdr) (i : Instr) (f : Fmt) (d x : VReg) (y : VSrc) (s : State) : Out :=
  issueVec h i (vsrcRegs y) true (fun t => ewFmt f t && vregOk t d && vregOk t x && vsrcOk t y) noVal (fun t => vsrcVal t y) false false s

/-- Issue an instruction with one vector operand. -/
def issueFp1 (h : Hdr) (i : Instr) (f : Fmt) (d x : VReg) (s : State) : Out :=
  issueVec h i [] true (fun t => ewFmt f t && vregOk t d && vregOk t x) noVal noVal false false s

/-- VFADD (R166). -/
def execVfadd (h : Hdr) (k : KReg) (f : FFmt) (r : Rnd) (d x : VReg) (y : VSrc) (s : State) : Out :=
  issueFp h (.vfadd h k f r d x y) (ffmt f) d x y s
/-- VFSUB (R166). -/
def execVfsub (h : Hdr) (k : KReg) (f : FFmt) (r : Rnd) (d x : VReg) (y : VSrc) (s : State) : Out :=
  issueFp h (.vfsub h k f r d x y) (ffmt f) d x y s
/-- VFMUL (R166). -/
def execVfmul (h : Hdr) (k : KReg) (f : FFmt) (r : Rnd) (d x : VReg) (y : VSrc) (s : State) : Out :=
  issueFp h (.vfmul h k f r d x y) (ffmt f) d x y s
/-- VFFMA (R166). -/
def execVffma (h : Hdr) (k : KReg) (form : FmaForm) (f : FFmt) (r : Rnd) (d x : VReg) (y : VSrc) (z : VReg) (s : State) : Out :=
  issueVec h (.vffma h k form f r d x y z) (vsrcRegs y) true
    (fun t => ewFmt (ffmt f) t && vregOk t d && vregOk t x && vsrcOk t y && vregOk t z) noVal (fun t => vsrcVal t y) false false s
/-- VFDIV (R166). -/
def execVfdiv (h : Hdr) (k : KReg) (f : SFmt) (r : Rnd) (d x : VReg) (y : VSrc) (s : State) : Out :=
  issueFp h (.vfdiv h k f r d x y) (sfmt f) d x y s
/-- VFSQRT (R166). -/
def execVfsqrt (h : Hdr) (k : KReg) (f : SFmt) (r : Rnd) (d x : VReg) (s : State) : Out :=
  issueFp1 h (.vfsqrt h k f r d x) (sfmt f) d x s
/-- VFMIN (R166). -/
def execVfmin (h : Hdr) (k : KReg) (f : FFmt) (d x : VReg) (y : VSrc) (s : State) : Out :=
  issueFp h (.vfmin h k f d x y) (ffmt f) d x y s
/-- VFMAX (R166). -/
def execVfmax (h : Hdr) (k : KReg) (f : FFmt) (d x : VReg) (y : VSrc) (s : State) : Out :=
  issueFp h (.vfmax h k f d x y) (ffmt f) d x y s
/-- VFCMP (R167). -/
def execVfcmp (h : Hdr) (k : KReg) (c : FCond) (f : FFmt) (d : KReg) (x : VReg) (y : VSrc) (s : State) : Out :=
  issueVec h (.vfcmp h k c f d x y) (vsrcRegs y) true (fun t => ewFmt (ffmt f) t && vregOk t x && vsrcOk t y) noVal
    (fun t => vsrcVal t y) false false s
/-- VFCVT (R168): EW is the wider width, and the narrower operand is packed. -/
def execVfcvt (h : Hdr) (k : KReg) (dst src : CvtFmt) (r : Rnd) (d x : VReg) (s : State) : Out :=
  issueVec h (.vfcvt h k dst src r d x) [] true
    (fun t => t.ew == max (cvtWidth dst) (cvtWidth src) && groupOk t d (packedRegs t.vtype (cvtWidth dst)) &&
      groupOk t x (packedRegs t.vtype (cvtWidth src))) noVal noVal false false s
/-- VFEXP2 (R169). -/
def execVfexp2 (h : Hdr) (k : KReg) (f : SFmt) (d x : VReg) (s : State) : Out := issueFp1 h (.vfexp2 h k f d x) (sfmt f) d x s
/-- VFLOG2 (R169). -/
def execVflog2 (h : Hdr) (k : KReg) (f : SFmt) (d x : VReg) (s : State) : Out := issueFp1 h (.vflog2 h k f d x) (sfmt f) d x s
/-- VFRCP (R169). -/
def execVfrcp (h : Hdr) (k : KReg) (f : SFmt) (d x : VReg) (s : State) : Out := issueFp1 h (.vfrcp h k f d x) (sfmt f) d x s
/-- VFRSQ (R169). -/
def execVfrsq (h : Hdr) (k : KReg) (f : SFmt) (d x : VReg) (s : State) : Out := issueFp1 h (.vfrsq h k f d x) (sfmt f) d x s

/-! ## Commit groups of the arithmetic -/

/-- A floating operand of a group, after flush-inputs (R84). -/
def Work.fval (w : Work) (f : Fmt) (x : Nat) : FVal := f.flushIn (vtFI w.vt) (f.decode x)

/-- A group of an instruction on x and y (R166). -/
def beatFp (w : Work) (s : State) (k : KReg) (f : Fmt) (r : Rnd) (d x : VReg) (y : VSrc)
    (op : Fmt → RndCtx → FVal → FVal → Nat × FpFlags) : BeatOut :=
  w.each s k (⟨x, f.width⟩ :: vsrcOpnd f.width y) (.vec d f.width) fun t e =>
    let (v, fl) := op f (w.ctx r) (w.fval f (w.get t f.width x e)) (w.fval f (w.src t f.width y e))
    (v, flags6 fl)

/-- A group of VFFMA (R166). -/
def beatVffma (w : Work) (s : State) (k : KReg) (form : FmaForm) (f : Fmt) (r : Rnd) (d x : VReg) (y : VSrc) (z : VReg) : BeatOut :=
  w.each s k (⟨x, f.width⟩ :: ⟨z, f.width⟩ :: vsrcOpnd f.width y) (.vec d f.width) fun t e =>
    let (v, fl) := fFma f (w.ctx r) form (w.fval f (w.get t f.width x e)) (w.fval f (w.src t f.width y e)) (w.fval f (w.get t f.width z e))
    (v, flags6 fl)

/-- A group of VFSQRT (R166). -/
def beatVfsqrt (w : Work) (s : State) (k : KReg) (f : Fmt) (r : Rnd) (d x : VReg) : BeatOut :=
  w.each s k [⟨x, f.width⟩] (.vec d f.width) fun t e =>
    let (v, fl) := fSqrt f (w.ctx r) (w.fval f (w.get t f.width x e))
    (v, flags6 fl)

/-- Minimum or maximum of two operands, flushed as the captured `vtype` says (R73, R84). -/
def Work.minMax (w : Work) (f : Fmt) (isMax : Bool) (x y : Nat) : Nat × FpFlags :=
  let (v, fl) := fMinMax f (vtFI w.vt) isMax x y
  let (v, fo) := f.flushOut (vtFO w.vt) v
  (v, fl ||| fo)

/-- A group of VFMIN or VFMAX (R166). -/
def beatMinMax (w : Work) (s : State) (k : KReg) (f : Fmt) (isMax : Bool) (d x : VReg) (y : VSrc) : BeatOut :=
  w.each s k (⟨x, f.width⟩ :: vsrcOpnd f.width y) (.vec d f.width) fun t e =>
    let (v, fl) := w.minMax f isMax (w.get t f.width x e) (w.src t f.width y e)
    (v, flags6 fl)

/-- A group of VFCMP (R167). -/
def beatVfcmp (w : Work) (s : State) (k : KReg) (c : FCond) (f : Fmt) (d : KReg) (x : VReg) (y : VSrc) : BeatOut :=
  w.each s k (⟨x, f.width⟩ :: vsrcOpnd f.width y) (.mask d) fun t e =>
    let (v, fl) := fCond c (w.fval f (w.get t f.width x e)) (w.fval f (w.src t f.width y e))
    (v.toNat, flags6 fl)

/-- A group of VFCVT (R168). -/
def beatVfcvt (w : Work) (s : State) (k : KReg) (dst src : CvtFmt) (r : Rnd) (d x : VReg) : BeatOut :=
  let (w, s) := w.keep s (if cvtWidth dst = cvtWidth src then [] else
    sharedRegs x (packedRegs w.vt (cvtWidth src)) d (packedRegs w.vt (cvtWidth dst)))
  w.each s k [⟨x, cvtWidth src⟩] (.vec d (cvtWidth dst)) fun t e =>
    let (v, fl) := convert dst src (w.ctx r) (vtFI w.vt) (w.get t (cvtWidth src) x e)
    (v, flags6 fl)

/-! ## The four functions of R169 -/

/-- A real result m × 2^e: exactly, or between its neighbours on the grid of 2^e when m is odd and `exact` is false. -/
structure Real2 where
  neg : Bool
  m : Nat
  e : Int
  exact : Bool

/-- The product of the roots 2^(1/2), 2^(1/4) and so on that the bits of F select, from bit n − 1 down, with P bits of fraction. -/
def powFrac (P F : Nat) : Nat → Nat → Nat → Nat
  | 0, _, acc => acc
  | n + 1, root, acc =>
    let r := isqrt (root * 2 ^ P)
    powFrac P F n r (if F.testBit n then acc * r / 2 ^ P else acc)

/-- 2^x for x = ±m × 2^e. Beyond ±2^16 every format has overflowed or underflowed. -/
def exp2Real (neg : Bool) (m : Nat) (e : Int) : Real2 :=
  let top : Int := bitlen m + e
  if m = 0 then ⟨false, 1, 0, true⟩
  else if top > 16 then ⟨false, 1, if neg then -40000 else 40000, true⟩
  else if top < -100 then ⟨false, if neg then 2 ^ 200 - 1 else 2 ^ 200 + 1, -200, false⟩
  else
    let n := (-e).toNat
    let X : Int := if neg then -((m * 2 ^ e.toNat : Nat) : Int) else ((m * 2 ^ e.toNat : Nat) : Int)
    let I := X / 2 ^ n
    let F := (X % 2 ^ n).toNat
    if F = 0 then ⟨false, 1, I, true⟩
    else ⟨false, 2 * (powFrac 320 F n (2 * 2 ^ 320) (2 ^ 320) / 2 ^ 200) + 1, I - 121, false⟩

/-- k bits of the fraction of log2 f, f from 1 up to 2 with P bits of fraction: each squaring gives one bit. -/
def logBits (P : Nat) : Nat → Nat → Nat → Nat
  | 0, _, acc => acc
  | k + 1, f, acc =>
    let g := f * f / 2 ^ P
    if g ≥ 2 ^ (P + 1) then logBits P k (g / 2) (2 * acc + 1) else logBits P k g (2 * acc)

/-- log2 of m × 2^e, m above 0. -/
def log2Real (m : Nat) (e : Int) : Real2 :=
  let b := bitlen m - 1
  let n : Int := e + b
  if m = 2 ^ b then ⟨n < 0, n.natAbs, 0, true⟩
  else
    let N : Int := n * 2 ^ 160 + logBits 400 160 (m * 2 ^ (400 - b)) 0
    ⟨N < 0, (2 * N + 1).natAbs, -161, false⟩

/-- 1 / (m × 2^e) of a sign, m above 0. -/
def rcpReal (neg : Bool) (m : Nat) (e : Int) : Real2 :=
  let K := bitlen m + 120
  let q := 2 ^ K / m
  let exact := q * m = 2 ^ K
  ⟨neg, 2 * q + (if exact then 0 else 1), -e - K - 1, exact⟩

/-- 1 / √(m × 2^e), m above 0. -/
def rsqReal (m : Nat) (e : Int) : Real2 :=
  let (m, e) := if e % 2 = 0 then (m, e) else (2 * m, e - 1)
  let K := bitlen m + 120
  let q := isqrt (2 ^ (2 * K) / m)
  let exact := q * q * m = 2 ^ (2 * K)
  ⟨false, 2 * q + (if exact then 0 else 1), -(e / 2) - K - 1, exact⟩

/-- Whether ±m' × 2^e' lies within `bound` units of the last place of a real result. -/
def Fmt.near (f : Fmt) (v : Real2) (bound : Nat) (n' : Bool) (m' : Nat) (e' : Int) : Bool :=
  let q := max (v.e + bitlen v.m - (f.fb + 1)) f.qmin
  let b := min (min v.e e') q
  n' == v.neg && (scaled n' m' e' b - scaled v.neg v.m v.e b).natAbs < bound * 2 ^ (q - b).toNat

/-- Deliver a real result (R169): correctly rounded for f16 and bf16; for f32 and f64 any value within the bound, an exact one exactly.
The value is Config's free one where it obeys the bound, and the truncated one where it does not (assumption 5). -/
def deliverReal (f : Fmt) (c : RndCtx) (op bound x : Nat) (v : Real2) : Nat × FpFlags :=
  if f.width ≤ 16 then f.round c v.neg v.m v.e
  else
    let (b, fl) := f.round { c with mode := .rtz } v.neg v.m v.e
    if fl = 0 then (b, 0)
    else if fl &&& flOF ≠ 0 then (f.overflow c v.neg, flOF ||| flNX)
    else if fl &&& flUF ≠ 0 ∧ c.fo then (b, fl)
    else
      let cand := Config.transcendental op (f.width = 64) x % 2 ^ f.width
      match f.decode cand with
      | .fin n' m' e' => (if f.near v bound n' m' e' then cand else b, fl)
      | _ => (b, fl)

/-- 2^x (R169). -/
def fExp2 (f : Fmt) (c : RndCtx) (x : Nat) (v : FVal) : Nat × FpFlags :=
  match v with
  | .nan s => f.nanRes s
  | .inf n => if n then (f.zeroBits false, 0) else (f.infBits false, 0)
  | .fin n m e => deliverReal f c 0 (if f.width = 64 then 2 else 1) x (exp2Real n m e)

/-- log2 x (R169). -/
def fLog2 (f : Fmt) (c : RndCtx) (x : Nat) (v : FVal) : Nat × FpFlags :=
  match v with
  | .nan s => f.nanRes s
  | .inf n => if n then f.nanRes true else (f.infBits false, 0)
  | .fin n m e =>
    if m = 0 then (f.infBits true, flDZ)
    else if n then f.nanRes true
    else deliverReal f c 1 (if f.width = 64 then 2 else 1) x (log2Real m e)

/-- 1/x (R169). -/
def fRcp (f : Fmt) (c : RndCtx) (x : Nat) (v : FVal) : Nat × FpFlags :=
  match v with
  | .nan s => f.nanRes s
  | .inf n => (f.zeroBits n, 0)
  | .fin n m e => if m = 0 then (f.infBits n, flDZ) else deliverReal f c 2 1 x (rcpReal n m e)

/-- 1/√x (R169). -/
def fRsq (f : Fmt) (c : RndCtx) (x : Nat) (v : FVal) : Nat × FpFlags :=
  match v with
  | .nan s => f.nanRes s
  | .inf n => if n then f.nanRes true else (f.zeroBits false, 0)
  | .fin n m e =>
    if m = 0 then (f.infBits n, flDZ)
    else if n then f.nanRes true
    else deliverReal f c 3 1 x (rsqReal m e)

/-- A group of one of the four functions, in the captured mode (R169). -/
def beatTrans (w : Work) (s : State) (k : KReg) (f : Fmt) (d x : VReg) (op : Fmt → RndCtx → Nat → FVal → Nat × FpFlags) : BeatOut :=
  w.each s k [⟨x, f.width⟩] (.vec d f.width) fun t e =>
    let b := w.get t f.width x e
    let v := w.fval f b
    let b := match v with
      | .fin n 0 _ => f.zeroBits n
      | _ => b
    let (r, fl) := op f (w.ctx .dyn) b v
    (r, flags6 fl)

end Sys2Proof.Machine
end

