-- ==== Sys2Proof/Machine/Control.lean ====
section
/-! DEFINITION. The predicate and control group (R105 to R108), pair words (R25 to R28) and the words that are no legal unit (R29). -/
namespace Sys2Proof.Machine

/-- The logical operations of PLOG and KLOG, on one bit (R105, R175). -/
def logOp (op : LogOp) (a b : Bool) : Bool :=
  match op with
  | .and => a && b
  | .or => a || b
  | .xor => a != b
  | .andn => a && !b
  | .nand => !(a && b)
  | .nor => !(a || b)
  | .xnor => a == b
  | .orn => a || !b

/-- PLOG (R105). -/
def execPlog (h : Hdr) (op : LogOp) (d a b : PReg) (s : State) : Out :=
  runUnit h (pSites s [a, b]) (fun s => doneP s d (logOp op (s.me.rP a) (s.me.rP b))) s

/-- Predicates 1 to 15, the ones that are stored. -/
def allPreds : List PReg := (List.range 16).map (BitVec.ofNat 4)

/-- PMOV (R106). -/
def execPmov (h : Hdr) (f : PmovForm) (s : State) : Out :=
  match f with
  | .toPred d b => runUnit h (sSites s [b]) (fun s => doneP s d (s.me.rS b != 0)) s
  | .fromPred d b => runUnit h (pSites s [b]) (fun s => doneS s d (if s.me.rP b then 1 else 0)) s
  | .save d => runUnit h (pSites s allPreds) (fun s => doneS s d ((s.me.p ||| 1).setWidth 64)) s
  | .load b => runUnit h (sSites s [b]) (fun s =>
      .done (allPreds.foldl (fun s r => s.wP s.cur r ((s.me.rS b).getLsbD r.toNat)) s)) s

/-- A jump to a target: misaligned targets trap before the PC and the link change (R11, R107). -/
def jumpTo (s : State) (target : Word) (link : State → State) : UnitRes :=
  if target.extractLsb' 0 3 ≠ 0 then .trap s (trapInfo 0x04 target) else .jump (link s) target

/-- A branch displacement in words (R107). -/
def wordOff (i : BitVec 24) : Word := i.signExtend 64 <<< 3

/-- BR (R107). -/
def execBr (h : Hdr) (i : BitVec 24) (s : State) : Out :=
  runUnit h [] (fun s => jumpTo s (s.me.pc + wordOff i) id) s

/-- JAL (R107). -/
def execJal (h : Hdr) (d : SReg) (i : BitVec 24) (s : State) : Out :=
  runUnit h [] (fun s => jumpTo s (s.me.pc + wordOff i) (fun s => s.wS s.cur d (s.me.pc + 8))) s

/-- JALR (R107). -/
def execJalr (h : Hdr) (d b : SReg) (i : BitVec 24) (s : State) : Out :=
  runUnit h (sSites s [b]) (fun s =>
    jumpTo s (s.me.rS b + imm64 h i) (fun s => s.wS s.cur d (s.me.pc + 8 * BitVec.ofNat 64 (hdrWords h)))) s

/-- LOOP (R63, R108); an illegal instruction in handler state (R66). -/
def execLoop (h : Hdr) (b : SReg) (start len : BitVec 12) (s : State) : Out :=
  runUnit h (sSites s [b]) (fun s =>
    let t := s.me
    if t.hs then .trap s (trapInfo 0x01 (unitWord (.loop h b start len)))
    else
      let n := t.rS b
      let st := t.pc + 8 * start.setWidth 64
      let en := st + 8 * len.setWidth 64
      if n = 0 then .jump s (en + 8)
      else if t.loops.length ≥ 6 then .trap s (trapInfo 0x0E 0)
      else
        let s := s.modMe fun t => t.branch st
        .gone (s.modMe fun t => { t with loops := ⟨n, st, en, 1⟩ :: t.loops })) s

/-! ## Pair words -/

/-- The second operand of a slot (R26). -/
def slotY (t : Strand) (p : PairSlot) : Word :=
  if p.imf then
    (match p.op with
    | .shl | .shr | .shrA | .rot => p.src2.setWidth 64
    | _ => p.src2.signExtend 64)
  else t.rS p.src2

/-- What a slot writes when it takes effect (R26, R27). -/
inductive SlotRes where
  | s (d : SReg) (v : Word)
  | p (d : PReg) (v : Bool)
  | none

/-- The result of a slot, from the operands read before any write (R26, R27). -/
def slotRes (t : Strand) (p : PairSlot) : SlotRes :=
  let x := t.rS p.src1
  let y := slotY t p
  let sh := (y.extractLsb' 0 6).setWidth 64
  let pv := t.rP p.guard
  let wr (v : Word) : SlotRes := if pv then .s p.dest v else .none
  let wp (v : Bool) : SlotRes := if pv then .p (p.dest.setWidth 4) v else .none
  match p.op with
  | .add => wr (x + y)
  | .sub => wr (x - y)
  | .and => wr (x &&& y)
  | .or => wr (x ||| y)
  | .xor => wr (x ^^^ y)
  | .andn => wr (x &&& ~~~y)
  | .shl => wr (shlRes x sh)
  | .shr => wr (shrRes false x sh)
  | .shrA => wr (shrRes true x sh)
  | .rot => wr (rotRes false x sh)
  | .min => wr (minRes false x y)
  | .max => wr (maxRes false x y)
  | .minU => wr (minRes true x y)
  | .maxU => wr (maxRes true x y)
  | .cmpEq => wp (condHolds .eq x y)
  | .cmpLt => wp (condHolds .lt x y)
  | .cmpLtu => wp (condHolds .ltu x y)
  | .sel => .s p.dest (if pv then x else y)
  | .li => wr ((p.src1 ++ p.src2).signExtend 64)
  | .mul => wr (x * y)
  | .clz => wr (BitVec.ofNat 64 (clzRes x))
  | .ffs => wr (BitVec.ofNat 64 (ffsRes x))
  | .popc => wr (BitVec.ofNat 64 (popRes x))
  | .plogAnd => wp (t.rP (p.src1.setWidth 4) && t.rP (p.src2.setWidth 4))

/-- Whether a slot's first source field names a scalar register (R27). -/
def slotReads1 (p : PairSlot) : Bool := p.op != .li && p.op != .plogAnd
/-- Whether a slot's second source field names a scalar register (R27). -/
def slotReads2 (p : PairSlot) : Bool :=
  !p.imf && p.op != .li && p.op != .plogAnd && p.op != .clz && p.op != .ffs && p.op != .popc

/-- The places a slot reads. -/
def slotSites (s : State) (p : PairSlot) : List ErrSite :=
  (if slotReads1 p then sSites s [p.src1] else []) ++ (if slotReads2 p then sSites s [p.src2] else []) ++
  pSites s (p.guard :: if p.op = .plogAnd then [p.src1.setWidth 4, p.src2.setWidth 4] else [])

/-- A slot's write; one that sched code 4 or 5 suppresses has none (R16, R26). -/
def slotWrite (t : Strand) (p : PairSlot) (s : State) : State :=
  if suppressed t t.pc p.sched then s
  else match slotRes t p with
    | .s d v => s.wS s.cur d v
    | .p d v => s.wP s.cur d v
    | .none => s

/-- PAIR (R25 to R28): codes 1 to 3 of either slot act on the word as a whole, both slots read before slot 0 and then slot 1 write. -/
def execPair (s0 s1 : PairSlot) (s : State) : Out :=
  let whole : Sched :=
    if s0.sched = .csync ∨ s1.sched = .csync then .csync
    else if s0.sched = .barrier ∨ s1.sched = .barrier then .barrier
    else if s0.sched = .yield ∨ s1.sched = .yield then .yield
    else .none
  let barrier : Bool := s0.sched = .barrier || s1.sched = .barrier
  runUnit ⟨0, false, whole, ⟨none, none, none⟩⟩ (slotSites s s0 ++ slotSites s s1)
    (fun s =>
      let t := s.me
      .done (slotWrite t s1 (slotWrite t s0 (if barrier then s.modMe fun u => { u with barrier := true } else s)))) s

/-! ## Words that are no legal unit -/

/-- The trap of a word or sequence that is no legal unit (R29): `epc` is the unit's first word, or the mismatched prefix. -/
def execIllegalUnit (e : BadUnit) (s : State) : Out :=
  let d := dieOf s.cur.core
  if (s.die d).stopped then .fault (.dieStopped d)
  else
    let cause := match e.cause with
      | .illegal => 0x01
      | .mismatch => 0x02
      | .bank => 0x03
    let t := s.me
    .next (s.takeTrap s.cur .scalar (trapInfo cause e.val) (t.pc + 8 * e.off.setWidth 64) t.vcp t.resumeGroup)

end Sys2Proof.Machine
end

