-- ==== Sys2Proof/Machine/VecInt.lean ====
section
/-! DEFINITION. The vector integer group (R163, R164) and KLOG (R175): their issue, and what their commit groups do. -/
namespace Sys2Proof.Machine

/-! ## Issue -/

/-- Whether EW is 8 to 64. -/
def ewInt (t : Strand) : Bool := 8 ≤ t.ew

/-- Issue an instruction with a vector destination and the operands x and y (R153, R163). -/
def issueInt (h : Hdr) (i : Instr) (d x : VReg) (y : VSrc) (s : State) : Out :=
  issueVec h i (vsrcRegs y) true (fun t => ewInt t && vregOk t d && vregOk t x && vsrcOk t y) noVal (fun t => vsrcVal t y) false false s

/-- Issue an instruction with one vector operand. -/
def issueCount (h : Hdr) (i : Instr) (d x : VReg) (s : State) : Out :=
  issueVec h i [] true (fun t => ewInt t && vregOk t d && vregOk t x) noVal noVal false false s

/-- VADD (R163). -/
def execVadd (h : Hdr) (k : KReg) (v : Bool) (d x : VReg) (y : VSrc) (s : State) : Out := issueInt h (.vadd h k v d x y) d x y s
/-- VSUB (R163). -/
def execVsub (h : Hdr) (k : KReg) (v : Bool) (d x : VReg) (y : VSrc) (s : State) : Out := issueInt h (.vsub h k v d x y) d x y s
/-- VMUL (R163). -/
def execVmul (h : Hdr) (k : KReg) (v : Bool) (d x : VReg) (y : VSrc) (s : State) : Out := issueInt h (.vmul h k v d x y) d x y s
/-- VMULH (R163). -/
def execVmulh (h : Hdr) (k : KReg) (v : Bool) (d x : VReg) (y : VSrc) (s : State) : Out := issueInt h (.vmulh h k v d x y) d x y s
/-- VAND (R163). -/
def execVand (h : Hdr) (k : KReg) (d x : VReg) (y : VSrc) (s : State) : Out := issueInt h (.vand h k d x y) d x y s
/-- VOR (R163). -/
def execVor (h : Hdr) (k : KReg) (d x : VReg) (y : VSrc) (s : State) : Out := issueInt h (.vor h k d x y) d x y s
/-- VXOR (R163). -/
def execVxor (h : Hdr) (k : KReg) (d x : VReg) (y : VSrc) (s : State) : Out := issueInt h (.vxor h k d x y) d x y s
/-- VSHL (R163). -/
def execVshl (h : Hdr) (k : KReg) (d x : VReg) (y : VSrc) (s : State) : Out := issueInt h (.vshl h k d x y) d x y s
/-- VSHR (R163). -/
def execVshr (h : Hdr) (k : KReg) (v : Bool) (d x : VReg) (y : VSrc) (s : State) : Out := issueInt h (.vshr h k v d x y) d x y s
/-- VMIN (R163). -/
def execVmin (h : Hdr) (k : KReg) (v : Bool) (d x : VReg) (y : VSrc) (s : State) : Out := issueInt h (.vmin h k v d x y) d x y s
/-- VMAX (R163). -/
def execVmax (h : Hdr) (k : KReg) (v : Bool) (d x : VReg) (y : VSrc) (s : State) : Out := issueInt h (.vmax h k v d x y) d x y s
/-- VCMP (R164). -/
def execVcmp (h : Hdr) (k : KReg) (c : Cond) (d : KReg) (x : VReg) (y : VSrc) (s : State) : Out :=
  issueVec h (.vcmp h k c d x y) (vsrcRegs y) true (fun t => ewInt t && vregOk t x && vsrcOk t y) noVal (fun t => vsrcVal t y) false
    false s
/-- VSEL (R164). -/
def execVsel (h : Hdr) (m : KReg) (d x : VReg) (y : VSrc) (s : State) : Out := issueInt h (.vsel h m d x y) d x y s
/-- VCLZ (R163). -/
def execVclz (h : Hdr) (k : KReg) (d x : VReg) (s : State) : Out := issueCount h (.vclz h k d x) d x s
/-- VFFS (R163). -/
def execVffs (h : Hdr) (k : KReg) (d x : VReg) (s : State) : Out := issueCount h (.vffs h k d x) d x s
/-- VPOPC (R163). -/
def execVpopc (h : Hdr) (k : KReg) (d x : VReg) (s : State) : Out := issueCount h (.vpopc h k d x) d x s
/-- KLOG (R175): it does not depend on `vtype`. -/
def execKlog (h : Hdr) (op : LogOp) (d a b : KReg) (s : State) : Out :=
  issueVec h (.klog h op d a b) [] false (fun _ => true) noVal noVal false false s

/-! ## Commit groups -/

/-- A group of an integer instruction on x and y (R163). -/
def beatBin (w : Work) (s : State) (k : KReg) (d x : VReg) (y : VSrc) (f : {W : Nat} → BitVec W → BitVec W → BitVec W) : BeatOut :=
  w.each s k (⟨x, w.ew⟩ :: vsrcOpnd w.ew y) (.vec d w.ew) fun t e =>
    ((f (BitVec.ofNat w.ew (w.get t w.ew x e)) (BitVec.ofNat w.ew (w.src t w.ew y e))).toNat, 0)

/-- A group of VCLZ, VFFS or VPOPC. -/
def beatCount (w : Work) (s : State) (k : KReg) (d x : VReg) (f : {W : Nat} → BitVec W → Nat) : BeatOut :=
  w.each s k [⟨x, w.ew⟩] (.vec d w.ew) fun t e => (f (BitVec.ofNat w.ew (w.get t w.ew x e)), 0)

/-- A group of VCMP (R164). -/
def beatVcmp (w : Work) (s : State) (k : KReg) (c : Cond) (d : KReg) (x : VReg) (y : VSrc) : BeatOut :=
  w.each s k (⟨x, w.ew⟩ :: vsrcOpnd w.ew y) (.mask d) fun t e =>
    ((condHolds c (BitVec.ofNat w.ew (w.get t w.ew x e)) (BitVec.ofNat w.ew (w.src t w.ew y e))).toNat, 0)

/-- A group of VSEL (R164): kM selects, and every element below `vl` is written. An element consumes the words of both its operands, whichever it takes
(DESIGN CHOICE, assumption 104). -/
def beatVsel (w : Work) (s : State) (m : KReg) (d x : VReg) (y : VSrc) : BeatOut :=
  let ops := ⟨x, w.ew⟩ :: vsrcOpnd w.ew y
  w.write (w.run s [m] w.all (fun e => ops.map fun o => w.wordOf o.width o.v e) fun t e =>
    (if t.rKbit m e then w.get t w.ew x e else w.src t w.ew y e, 0)) (.vec d w.ew)

/-- A group of KLOG (R175). -/
def beatKlog (w : Work) (s : State) (op : LogOp) (d a b : KReg) : BeatOut :=
  w.write (w.run s [a, b] w.all (fun _ => []) fun t e => ((logOp op (t.rKbit a e) (t.rKbit b e)).toNat, 0)) (.mask d)

end Sys2Proof.Machine
end

