-- ==== Sys2Proof/Machine/Cross.lean ====
section
/-! DEFINITION. The cross-lane group (R206 to R213): issue, and what the commit groups do. -/
namespace Sys2Proof.Machine

/-! ## Issue -/

/-- The width check of VRED and VSCAN (R207). -/
def redOk (t : Strand) : RedOp → Bool
  | .int _ => ewInt t
  | .fadd f _ | .fmin f | .fmax f => ewFmt (ffmt f) t

/-- VRED (R206 to R208). -/
def execVred (h : Hdr) (k : KReg) (grp : Bool) (op : RedOp) (d a : VReg) (s : State) : Out :=
  issueVec h (.vred h k grp op d a) [] true (fun t => redOk t op && vregOk t d && vregOk t a) noVal noVal false true s
/-- VSCAN (R206, R209). -/
def execVscan (h : Hdr) (k : KReg) (ex : Bool) (op : RedOp) (d a : VReg) (s : State) : Out :=
  issueVec h (.vscan h k ex op d a) [] true (fun t => redOk t op && vregOk t d && vregOk t a) noVal noVal false true s

/-- Two operands of the grouping that share no register (R207). -/
def apartOk (t : Strand) (d a : VReg) : Bool :=
  vregOk t d && vregOk t a && !groupsMeet d (vtL t.vtype) a (vtL t.vtype)

/-- VCOMP (R210). -/
def execVcomp (h : Hdr) (k : KReg) (cnt : Bool) (d a : VReg) (s : State) : Out :=
  issueVec h (.vcomp h k cnt d a) [] true (fun t => apartOk t d a) noVal noVal cnt true s
/-- VEXP (R210). -/
def execVexp (h : Hdr) (k : KReg) (d a : VReg) (s : State) : Out :=
  issueVec h (.vexp h k d a) [] true (fun t => apartOk t d a) noVal noVal false true s

/-- The bits of an index width (R197). -/
def idxBits : IdxW → Nat
  | .w64 => 64
  | .w32 => 32
  | .w16 => 16
/-- Li, the registers of an index group (R198). -/
def idxRegs (vt : Word) (iw : IdxW) : Nat := vtL vt * max 1 (idxBits iw / vtEW vt)

/-- VPERM (R211). -/
def execVperm (h : Hdr) (k : KReg) (iw : IdxW) (d a i : VReg) (s : State) : Out :=
  issueVec h (.vperm h k iw d a i) [] true
    (fun t => ewInt t && apartOk t d a && groupOk t i (idxRegs t.vtype iw) &&
      !groupsMeet d (vtL t.vtype) i (idxRegs t.vtype iw)) noVal noVal false true s
/-- VSLIDE (R212). -/
def execVslide (h : Hdr) (k : KReg) (down : Bool) (d a : VReg) (n : Src) (s : State) : Out :=
  issueVec h (.vslide h k down d a n) (srcRegs n) true (fun t => apartOk t d a) noVal (fun t => srcVal h t n) false true s
/-- VBCAST (R212). -/
def execVbcast (h : Hdr) (k : KReg) (d a : VReg) (n : Src) (s : State) : Out :=
  issueVec h (.vbcast h k d a n) (srcRegs n) true (fun t => apartOk t d a) noVal (fun t => srcVal h t n) false true s
/-- VTOS (R213): it reserves an SQ slot and is no lane barrier. -/
def execVtos (h : Hdr) (a : VReg) (n : Src) (s : State) : Out :=
  issueVec h (.vtos h a n) (srcRegs n) true (fun t => vregOk t a) noVal (fun t => srcVal h t n) true false s

/-! ## The operators of reductions and scans -/

/-- An integer operator on W bits (R208). -/
def intRed (op : IntRed) (W x y : Nat) : Nat :=
  let a := BitVec.ofNat W x
  let b := BitVec.ofNat W y
  (match op with
    | .add => a + b
    | .and => a &&& b
    | .or => a ||| b
    | .xor => a ^^^ b
    | .min => minRes false a b
    | .max => maxRes false a b
    | .minu => minRes true a b
    | .maxu => maxRes true a b).toNat

/-- The operator of a reduction, with its flags (R208). -/
def Work.redOp (w : Work) (op : RedOp) (x y : Nat) : Nat × FpFlags :=
  match op with
  | .int o => (intRed o w.ew x y, 0)
  | .fadd f r => fAdd (ffmt f) (w.ctx r) (w.fval (ffmt f) x) (w.fval (ffmt f) y)
  | .fmin f => w.minMax (ffmt f) false x y
  | .fmax f => w.minMax (ffmt f) true x y

/-- An element as it enters a reduction or a scan (R73, R84). -/
def Work.redLeaf (w : Work) (op : RedOp) (x : Nat) : Nat × FpFlags :=
  match op with
  | .int _ => (x, 0)
  | .fadd f _ | .fmin f | .fmax f => (ffmt f).leaf (vtFI w.vt) x

/-- A value as a reduction or a scan delivers it (R84): one that met no node is flushed here. -/
def Work.redOut (w : Work) (op : RedOp) (x : Nat) : Nat × FpFlags :=
  match op with
  | .int _ => (x, 0)
  | .fadd f _ | .fmin f | .fmax f => (ffmt f).flushOut (vtFO w.vt) x

/-- The identity of an operator (R93, R208). -/
def redIdent (op : RedOp) (W : Nat) : Nat :=
  match op with
  | .int .and => 2 ^ W - 1
  | .int .min => 2 ^ (W - 1) - 1
  | .int .max => 2 ^ (W - 1)
  | .int .minu => 2 ^ W - 1
  | .int .add | .int .or | .int .xor | .int .maxu => 0
  | .fadd _ _ => 0
  | .fmin f => if (ffmt f).e4m3 then (ffmt f).maxBits false else (ffmt f).infBits false
  | .fmax f => if (ffmt f).e4m3 then (ffmt f).maxBits true else (ffmt f).infBits true

/-! ## Commit groups -/

/-- VRED, whose one commit is its last beat (R208): the tree of R93 and its flags; a fault or an enabled flag takes the whole. -/
def beatVred (w : Work) (s : State) (k : KReg) (grp : Bool) (op : RedOp) (d a : VReg) : BeatOut :=
  let vl := w.vl
  let es := List.range vl
  let s := w.meet s [k] ((es.filter ((s.strand w.id).rKbit k)).map (w.wordOf w.ew a))
  let t := s.strand w.id
  let leaf (e : Nat) := w.redLeaf op (w.get t w.ew a e)
  let leaves := es.map fun e => if t.rKbit k e then some (leaf e).1 else none
  let f0 : FpFlags := (es.filter (t.rKbit k)).foldl (fun g e => g ||| (leaf e).2) 0
  let depth := treeDepth vl
  let (l6, f6) := treeLevels (w.redOp op) 6 (leaves ++ List.replicate (2 ^ depth - vl) none)
  let (l, f) := treeLevels (w.redOp op) (depth - 6) l6
  let ident := redIdent op w.ew
  let roots := if grp then l6.take ((vl + 63) / 64) else [l.headD none]
  let outs := roots.map fun x => w.redOut op (x.getD ident)
  let rs : List (Nat × Nat) := outs.zipIdx.map fun x => (x.2, x.1.1)
  let fl := flags6 (outs.foldl (fun g x => g ||| x.2) (f0 ||| f6 ||| f))
  match (w.maskFault s [k]).orElse fun _ => (es.filter (t.rKbit k)).findSome? fun e => w.regFault s [w.wordOf w.ew a e] with
  | some i => .fault s i false
  | none =>
    match w.flagFault fl with
    | some i => .fault s i false
    | none =>
      let (s, pre) := w.put s (.vec d w.ew) rs
      .done s pre [] fl none

/-- A scan's state as it walks the elements: the carry of the canonical group and its local partial (R94). -/
structure Scan where
  carry : Option Nat
  part : Option Nat
  out : List (Nat × Nat × BitVec 6)

/-- One element of a scan (R94, R209): `x` gives an element as it enters, `out` a value as it is delivered. The flags are those of local(e)
and result(e), whichever of the two results the element receives; a carry is the result of an element before it, whose flags it has. -/
def Scan.step (op : Nat → Nat → Nat × FpFlags) (out : Nat → Nat × FpFlags) (ident : Nat) (ex : Bool) (on : Nat → Bool)
    (x : Nat → Nat × FpFlags) (c : Scan) (e : Nat) : Scan :=
  let turn := e % 64 == 0
  let carry := if turn then (optOp op c.carry c.part).1 else c.carry
  let part := if turn then none else c.part
  if on e then
    let before := (optOp op carry part).1
    let (part', fl) := optOp op part (some (x e).1)
    let (after, fa) := optOp op carry part'
    let (v, fo) := out ((if ex then before else after).getD ident)
    ⟨carry, part', c.out ++ [(e, v, flags6 ((x e).2 ||| fl ||| fa ||| fo))]⟩
  else ⟨carry, part, c.out⟩

/-- A group of VSCAN (R209): its carry and partial at the group's boundary are kept in the entry, and in its open later beats, which a rollback
starts from. -/
def beatVscan (w : Work) (s : State) (k : KReg) (ex : Bool) (op : RedOp) (d a : VReg) : BeatOut :=
  let s := w.meet s [k] ((w.active (s.strand w.id) k).map (w.wordOf w.ew a))
  let t := s.strand w.id
  let z := w.all.foldl (Scan.step (w.redOp op) (w.redOut op) (redIdent op w.ew) ex (t.rKbit k) fun e => w.redLeaf op (w.get t w.ew a e))
    ⟨w.e.scanCarry, w.e.scanLocal, []⟩
  match w.judge s [k] z.out fun e => [w.wordOf w.ew a e] with
  | .error i => .fault s i false
  | .ok (rs, fl) =>
    let (s, pre) := w.put s (.vec d w.ew) rs
    let inEntry (e : VqEntry) : VqEntry := if e.seq = w.e.seq then { e with scanCarry := z.carry, scanLocal := z.part } else e
    let inBeat (b : Beat) : Beat := if b.seq = w.e.seq ∧ w.g < b.grp then { b with scanCarry := z.carry, scanLocal := z.part } else b
    .done (s.modStrand w.id fun t => { t with vq := t.vq.map inEntry, beats := t.beats.map inBeat }) pre [] fl none

/-- The count of set bits of a mask below the group's first element (R210). -/
def Work.rank (w : Work) (t : Strand) (k : KReg) : Nat := popN w.lo (t.rK k w.lo)

/-- A group of VCOMP (R210): the group's active elements go to the next places; the count is delivered with the last group. -/
def beatVcomp (w : Work) (s : State) (k : KReg) (cnt : Bool) (d a : VReg) : BeatOut :=
  let s := w.meet s [k] ((w.active (s.strand w.id) k).map (w.wordOf w.ew a))
  let t := s.strand w.id
  let r0 := w.rank t k
  let act := w.active t k
  let rs := act.map fun e => (e, w.get t w.ew a e, (0 : BitVec 6))
  match w.judge s [k] rs fun e => [w.wordOf w.ew a e] with
  | .error i => .fault s i false
  | .ok (rs, fl) =>
    let (s, pre) := w.put s (.vec d w.ew) ((rs.zipIdx).map fun x => (r0 + x.2, x.1.2))
    .done s pre [] fl (if cnt ∧ w.hi = w.vl then some (BitVec.ofNat 64 (r0 + act.length)) else none)

/-- Write elements whose values come from chosen elements of va; none gives zero (R210 to R212). -/
def beatMove (w : Work) (s : State) (k : KReg) (regs : Nat → List (VReg × Nat)) (es : List Nat) (d a : VReg)
    (from_ : Strand → Nat → Option Nat) : BeatOut :=
  let t := s.strand w.id
  w.write (w.run s [k] es (fun e => regs e ++ ((from_ t e).map (w.wordOf w.ew a)).toList)
    fun t e => (((from_ t e).map (w.get t w.ew a)).getD 0, 0)) (.vec d w.ew)

/-- A group of VEXP (R210). -/
def beatVexp (w : Work) (s : State) (k : KReg) (d a : VReg) : BeatOut :=
  let t := s.strand w.id
  let act := w.active t k
  let r0 := w.rank t k
  let tab := act.zipIdx
  beatMove w s k (fun _ => []) act d a fun _ e => (tab.lookup e).map (· + r0)

/-- A group of VPERM (R211). -/
def beatVperm (w : Work) (s : State) (k : KReg) (iw : IdxW) (d a i : VReg) : BeatOut :=
  let W := idxBits iw
  beatMove w s k (fun e => [w.wordOf W i e]) (w.active (s.strand w.id) k) d a fun t e =>
    let n := w.get t W i e
    if n < w.vl then some n else none

/-- A group of VSLIDE (R212). -/
def beatVslide (w : Work) (s : State) (k : KReg) (down : Bool) (d a : VReg) : BeatOut :=
  let n := w.e.cap.y.toNat
  let act := w.active (s.strand w.id) k
  if down then beatMove w s k (fun _ => []) act d a fun _ e => if e + n < w.vl then some (e + n) else none
  else beatMove w s k (fun _ => []) (act.filter (n ≤ ·)) d a fun _ e => some (e - n)

/-- A group of VBCAST (R212). -/
def beatVbcast (w : Work) (s : State) (k : KReg) (d a : VReg) : BeatOut :=
  let n := w.e.cap.y.toNat
  beatMove w s k (fun _ => []) (w.active (s.strand w.id) k) d a fun _ _ => if n < w.vl then some n else none

/-- VTOS (R213). -/
def beatVtos (w : Work) (s : State) (a : VReg) : BeatOut :=
  let n := w.e.cap.y.toNat
  if n ≥ w.vl then .done s [] [] 0 (some 0)
  else
    let r := w.wordOf w.ew a n
    let s := w.meet s [] [r]
    match w.regFault s [r] with
    | some i => .fault s i false
    | none => .done s [] [] 0 (some (BitVec.ofNat 64 (w.get (s.strand w.id) w.ew a n)))

end Sys2Proof.Machine
end

