-- ==== Sys2Proof/Machine/VecMem.lean ====
section
/-! DEFINITION. The vector memory group (R197 to R205): issue, element addresses, the checks of each element, loads, held stores, and
VAPPEND. -/
namespace Sys2Proof.Machine

/-! ## Issue -/

/-- Issue a unit-stride or strided access (R197, R198). `any` accepts every EW. -/
def issueMem (h : Hdr) (i : Instr) (any : Bool) (d : VReg) (b : SReg) (off : Src) (s : State) : Out :=
  issueVec h i (b :: srcRegs off) true (fun t => (any || ewInt t) && vregOk t d) (·.rS b) (fun t => srcVal h t off) false false s

/-- Issue an indexed access (R198). -/
def issueIdx (h : Hdr) (i : Instr) (iw : IdxW) (d : VReg) (b : SReg) (x : VReg) (s : State) : Out :=
  issueVec h i [b] true (fun t => ewInt t && vregOk t d && groupOk t x (idxRegs t.vtype iw)) (·.rS b) noVal false false s

/-- VLD (R197). -/
def execVld (h : Hdr) (hint : Hint) (k : KReg) (d : VReg) (b : SReg) (off : Src) (s : State) : Out :=
  issueMem h (.vld h hint k d b off) true d b off s
/-- VLDS (R197). -/
def execVlds (h : Hdr) (hint : Hint) (k : KReg) (d : VReg) (b : SReg) (stride : Src) (s : State) : Out :=
  issueMem h (.vlds h hint k d b stride) false d b stride s
/-- VLDX (R197). -/
def execVldx (h : Hdr) (hint : Hint) (k : KReg) (sg : Bool) (iw : IdxW) (n : BitVec 2) (d : VReg) (b : SReg) (i : VReg) (s : State) : Out :=
  issueIdx h (.vldx h hint k sg iw n d b i) iw d b i s
/-- VST (R197). -/
def execVst (h : Hdr) (hint : Hint) (k : KReg) (v : VReg) (b : SReg) (off : Src) (s : State) : Out :=
  issueMem h (.vst h hint k v b off) true v b off s
/-- VSTS (R197). -/
def execVsts (h : Hdr) (hint : Hint) (k : KReg) (v : VReg) (b : SReg) (stride : Src) (s : State) : Out :=
  issueMem h (.vsts h hint k v b stride) false v b stride s
/-- VSTX (R197). -/
def execVstx (h : Hdr) (hint : Hint) (k : KReg) (sg : Bool) (iw : IdxW) (n : BitVec 2) (v : VReg) (b : SReg) (i : VReg) (s : State) : Out :=
  issueIdx h (.vstx h hint k sg iw n v b i) iw v b i s
/-- VAPPEND (R197, R204): a lane barrier with an SQ result. -/
def execVappend (h : Hdr) (hint : Hint) (k : KReg) (v : VReg) (b : SReg) (s : State) : Out :=
  issueVec h (.vappend h hint k v b) [b] true (fun t => ewInt t && vregOk t v) (·.rS b) noVal true true s

/-! ## Accesses at a point that do not go through the egress (R295, R296) -/

/-- A posted write to host memory that fails is not performed: the Preber counts it and records its address with cause 0x0C, and no strand is
told (R366). -/
def State.failedPost (s : State) (pa : Nat) : State :=
  let s := { s with preber := { s.preber with postedFails := s.preber.postedFails + 1 } }
  s.hqPut ⟨1, BitVec.ofNat 64 pa, (0x0C : Word) <<< 48, 0, 0, none⟩

/-- A store of a vector, a tile row or a copy at its point: overlapping entries of the core's egress are performed first (R295), and the core
drops its L1 copy of the line (R146). -/
def State.storeAt (s : State) (who : StrandId) (t : Target) (n val : Nat) : Acc Unit :=
  if (s.core who.core).egressOverlaps t n then .wait s
  else match t.place with
    | .loc .. => s.writeAt who t n val
    | .phys pa =>
      let h := s.portOf (lineOf pa)
      if t.attr.mkind = 2 ∧ (s.hall h).failNext then .ok ((s.modHall h fun x => { x with failNext := false }).failedPost pa) ()
      else (s.writeAt who t n val).bind fun s _ => .ok (s.l1Drop who.core (lineOf pa)) ()

/-- A read of a vector, a tile row or a copy at its point: overlapping entries of the core's egress are performed first (R296). -/
def State.loadAt (s : State) (who : StrandId) (t : Target) (n : Nat) (serial : Option Bool) : Acc Nat :=
  if (s.core who.core).egressOverlaps t n then .wait s else s.readAt who t n serial

/-! ## Element accesses -/

/-- An element access: the element its fault names, its address and the words it reads. -/
structure Elem where
  e : Nat
  a : Word
  regs : List (VReg × Nat)

/-- The bytes of an element access: a byte pair of elements for W = 4 (R200). -/
def Work.eb (w : Work) : Nat := max 1 (w.ew / 8)

/-- The elements of a group that make an access, in order: for W = 4, one for each byte either of whose elements is active (R200, R201). -/
def Work.accesses (w : Work) (t : Strand) (k : KReg) : List Nat :=
  let act := w.active t k
  if w.ew = 4 then act.filter fun e => e % 2 == 0 || !(t.rKbit k (e - 1)) || decide (e - 1 < w.lo) else act

/-- The address of element e of VLD or VST (R199). -/
def Work.unitAddr (w : Work) (e : Nat) : Word :=
  w.e.cap.x + w.e.cap.y + BitVec.ofNat 64 (if w.ew = 4 then e / 2 else e * (w.ew / 8))
/-- The address of element e of VLDS or VSTS (R199). -/
def Work.strideAddr (w : Work) (e : Nat) : Word := w.e.cap.x + BitVec.ofNat 64 e * w.e.cap.y
/-- The address of element e of VLDX or VSTX (R199). -/
def Work.idxAddr (w : Work) (t : Strand) (sg : Bool) (iw : IdxW) (n : BitVec 2) (i : VReg) (e : Nat) : Word :=
  let x := w.get t (idxBits iw) i e
  w.e.cap.x + ((if sg then sextN (idxBits iw) x else BitVec.ofNat 64 x) <<< n.toNat)

/-- The fault of an element (R201): `eval` is the element, and a translation fault carries what its record says (R274). -/
def elemFault (cause : Nat) (e : Nat) (a : Word) (k : AccKind) : TrapInfo :=
  ⟨BitVec.ofNat 8 cause, BitVec.ofNat 64 e, BitVec.ofNat 3 k.code, a, BitVec.ofNat 32 e, 0⟩

/-- Whether a store of an older group of the strand, which is held or still to be performed, overlaps bytes (R203). -/
def Work.heldOver (w : Work) (s : State) (p : Place) (n : Nat) : Bool :=
  let t := s.strand w.id
  let meets (h : HeldStore) : Bool := overlaps h.tgt.place (h.bits / 8) p n
  t.drain.any meets || t.beats.any fun b => decide (b.seq < w.e.seq ∨ (b.seq = w.e.seq ∧ b.grp < w.g)) && b.stores.any meets

/-- Whether a store to a place cannot be performed because a slice or a link that it needs is down (R329, R332, R371). -/
def State.storeStuck (s : State) (d : DieId) (t : Target) : Bool :=
  match t.place with
  | .loc .. => false
  | .phys pa =>
    let line := lineOf pa
    let owned := match s.findLine d line with
      | some c => (c.st == .m || c.st == .e) && !s.hasPending (.die d) line
      | none => false
    !s.routed line || ((t.attr.mkind == 2 || t.attr.ut) && !s.reached line) || (t.attr.mkind != 2 && !t.attr.ut && !(s.homeDie line == some d && !s.isOut line) && !owned &&
      !(s.sliceUp (sliceOf line) && s.linked line))

/-- The address of row i (R227). -/
def rowAddr (e : VqEntry) (i : Nat) : Word := e.cap.x + BitVec.ofNat 64 i * e.cap.y

/-- The parts of a row, one for each page: address and bytes. -/
def rowParts (a : Word) : List (Word × Nat) :=
  let left := 4096 - a.toNat % 4096
  if left ≥ 1024 then [(a, 1024)] else [(a, left), (a + BitVec.ofNat 64 left, 1024 - left)]

/-- Whether a place of a younger vector access of the strand overlaps an MLDT or MSTT of it that has not completed (R229): the rows of an MSTT that
its checks found, those it has stored among them, otherwise the rows as their pages resolve now, whatever access they permit. A row whose page is not
yet known may overlap. -/
def State.tileMemOver (s : State) (id : StrandId) (p : Place) (n : Nat) : Bool :=
  let rows (e : VqEntry) (h : Hdr) (hint : Hint) (k : AccKind) : Bool := (List.range e.cap.mvl).any fun i =>
    (rowParts (rowAddr e i)).any fun q => [k, .vread, .vwrite, .fetch].any fun k => match s.resolve id q.1 k h.pfx.cls hint false with
      | .ok _ t => overlaps t.place q.2 p n
      | .wait _ => true
      | .fault _ c _ => c == 0x0D
  let hit (e : VqEntry) : Bool := match e.instr with
    | .mldt h hint _ _ _ => rows e h hint .vread
    | .mstt h hint _ _ _ => rows e h hint .vwrite
    | _ => false
  ((s.core id.core).xq.any fun x => x.slot == id.slot &&
    (if x.rows.isEmpty then hit x.entry
     else x.rows.any fun r => r.any fun t => overlaps t.1.place 8 p n)) ||
  (match (s.strand id).mdropped with
    | some e => hit e
    | none => false)

/-- What the checks of an element answer. -/
inductive ElemRes where
  | ok (s : State) (t : Target)
  | fault (s : State) (i : TrapInfo) (fromTr : Bool)
  | wait (s : State)

/-- A store that a slice or a link holds up waits, or faults once the strand's stall bound has passed (R329). -/
def Work.stuck (w : Work) (s : State) (i : TrapInfo) : ElemRes :=
  if (s.strand w.id).stalled then .fault (s.modStrand w.id fun t => { t with stalled := false }) i false else .wait s

/-- The checks of one element, in the order of R201; an error in a register it reads comes before them (DESIGN CHOICE, assumption 72). -/
def Work.check (w : Work) (s : State) (h : Hdr) (hint : Hint) (k : AccKind) (x : Elem) : ElemRes :=
  match w.regFault s x.regs with
  | some i => .fault s i false
  | none =>
    if x.a.toNat % w.eb ≠ 0 then .fault s (elemFault 0x04 x.e x.a k) false
    else
      match s.resolve w.id x.a k h.pfx.cls hint false with
      | .wait s => .wait s
      | .fault s c tr => .fault s (elemFault c x.e x.a k) tr
      | .ok s t =>
        if k.writes && s.storeStuck (dieOf w.id.core) t then w.stuck s (elemFault 0x0D x.e x.a k)
        else if (w.heldOver s t.place w.eb && !k.writes) || s.tileMemOver w.id t.place w.eb then .wait s
        else .ok s t

/-- The read of one element (R200 to R202, R323): its value, or the two values of a pair. -/
def Work.loadElem (w : Work) (s : State) (h : Hdr) (hint : Hint) (x : Elem) : BeatOut ⊕ (State × List (Nat × Nat)) :=
  match w.check s h hint .vread x with
  | .wait s => .inl (.wait s)
  | .fault s i tr => .inl (.fault s i tr)
  | .ok s t =>
    match s.loadAt w.id t w.eb (serialOf (ordOf h)) with
    | .wait s => .inl (.wait s)
    | .bad s c => .inl (.fault s (elemFault c x.e x.a .vread) false)
    | .ok s v => .inr (s, if w.ew = 4 then [(x.e / 2 * 2, v % 16), (x.e / 2 * 2 + 1, v / 16)] else [(x.e, v)])

/-- What the beat of a group has already read for an access (R293). -/
def Work.gotFor (w : Work) (e : Nat) : List (Nat × Nat) := w.got.filter fun y => if w.ew = 4 then y.1 / 2 == e / 2 else y.1 == e

/-- Read the elements of a load in order, but for those already read; `mk` forms an access, which may depend on the values before it. -/
def Work.loadElems (w : Work) (h : Hdr) (hint : Hint) (mk : List (Nat × Nat) → Nat → Elem) : List Nat → List (Nat × Nat) → State →
    BeatOut ⊕ (State × List (Nat × Nat))
  | [], acc, s => .inr (s, acc)
  | e :: es, acc, s =>
    match w.gotFor e with
    | [] => (match w.loadElem s h hint (mk acc e) with
        | .inl o => .inl o
        | .inr (s, got) => w.loadElems h hint mk es (acc ++ got) s)
    | got => w.loadElems h hint mk es (acc ++ got) s

/-- Check the elements of a store in order; they are held until the beat commits (R145, R200). -/
def Work.storeElems (w : Work) (h : Hdr) (hint : Hint) (val : Nat → Nat) : List Elem → List HeldStore → State → BeatOut
  | [], acc, s => .done s [] acc 0 none
  | x :: xs, acc, s =>
    match w.check s h hint .vwrite x with
    | .wait s => .wait s
    | .fault s i tr => .fault s i tr
    | .ok s t => w.storeElems h hint val xs (acc ++ [⟨x.e, x.a, t, 8 * w.eb, val x.e⟩]) s

/-- Whether a load writes its own index group, at another width: its elements are then formed one after another, as the loop of R200 has it,
and each index is read after the results before it are written (DEDUCED, assumption 22). -/
def Work.ownIndex (w : Work) (d : VReg) (idx : List Opnd) : Bool :=
  idx.any fun o => o.width != w.ew && groupsMeet d (vtL w.vt) o.v (packedRegs w.vt o.width)

/-- Whether an older beat of the entry has not run. -/
def Work.behind (w : Work) (t : Strand) : Bool := t.beats.any fun b => b.seq == w.e.seq && decide (b.grp < w.g) && !b.ran

/-- A group of a load. -/
def beatLoad (w : Work) (s : State) (h : Hdr) (hint : Hint) (k : KReg) (d : VReg) (addr : Strand → Nat → Word)
    (idx : List Opnd) : BeatOut :=
  let s := w.meet s [k] (w.words idx)
  let t := s.strand w.id
  let own := w.ownIndex d idx
  let mk (acc : List (Nat × Nat)) (e : Nat) : Elem :=
    ⟨e, addr (if own then (t.putElems w.rb w.ew d (vtL w.vt) acc).1 else t) e, idx.map fun o => w.wordOf o.width o.v e⟩
  match w.maskFault s [k] with
  | some i => .fault s i false
  | none =>
    if own && w.behind t then .wait s
    else match w.loadElems h hint mk (w.accesses t k) [] s with
      | .inl o => o
      | .inr (s, []) => .done s [] [] 0 none
      | .inr (s, rs) => let (s, pre) := w.put s (.vec d w.ew) rs; .done s pre [] 0 none

/-- The bytes of an element access of a store: the element, or the byte of a pair (R200). -/
def Work.storeVal (w : Work) (t : Strand) (v : VReg) (e : Nat) : Nat :=
  if w.ew = 4 then w.get t 8 v (e / 2) else w.get t w.ew v e

/-- A group of a store. -/
def beatStore (w : Work) (s : State) (h : Hdr) (hint : Hint) (k : KReg) (v : VReg) (addr : Strand → Nat → Word) (idx : List Opnd) : BeatOut :=
  let s := w.meet s [k] (w.words (⟨v, w.ew⟩ :: idx))
  let t := s.strand w.id
  match w.maskFault s [k] with
  | some i => .fault s i false
  | none =>
    w.storeElems h hint (w.storeVal t v) ((w.accesses t k).map fun e =>
      ⟨e, addr t e, w.wordOf w.ew v e :: idx.map fun o => w.wordOf o.width o.v e⟩) [] s

/-! ## VAPPEND (R204, R205) -/

/-- D of R204. -/
def appendD : Word := 0x8000000000000000

/-- The fault of a VAPPEND's descriptor: `eval` is D. R204 says so for 0x04, 0x05 and 0x06; it is so for 0x0C and 0x0D as well (DESIGN CHOICE,
assumption 71). -/
def appendFault (cause : Nat) (a : Word) : TrapInfo := ⟨BitVec.ofNat 8 cause, appendD, 3, a, 0, 0⟩

/-- The pages of a descriptor's 24 bytes, each by an address on it. -/
def descPages (d : Word) : List Word :=
  if d.toNat % 4096 + 24 > 4096 then [d, d + BitVec.ofNat 64 (4096 - d.toNat % 4096)] else [d]

/-- The check of a descriptor (R204): every page translates, then every page permits; a page that does neither gives the fault. The answer is
the fault so far; 0x05 of one page comes before 0x06 of another. -/
def Work.checkDesc (w : Work) (h : Hdr) (hint : Hint) : List Word → Option (TrapInfo × Bool) → State → ElemRes ⊕ State
  | [], none, s => .inr s
  | [], some (i, tr), s => .inl (.fault s i tr)
  | a :: as, found, s =>
    match s.resolve w.id a .atomic h.pfx.cls hint false with
    | .wait s => .inl (.wait s)
    | .ok s _ => w.checkDesc h hint as found s
    | .fault s c tr => if c = 0x05 then .inl (.fault s (appendFault c a) tr) else w.checkDesc h hint as (found.orElse fun _ =>
        some (appendFault c a, tr)) s

/-- The target of a doubleword of a descriptor that was checked. -/
def Work.descPart (w : Work) (s : State) (h : Hdr) (hint : Hint) (a : Word) : Option Target :=
  match s.resolve w.id a .atomic h.pfx.cls hint false with
  | .ok _ t => some t
  | _ => none

/-- A VAPPEND's outcome: it is kept in the entry, and its result goes to SQ at once (R204, R205). -/
def Work.appended (w : Work) (s : State) (count old cap base : Nat) : State :=
  let ok : Bool := old + count ≤ cap
  let tail : Option (Word × Word × Bool) := some (BitVec.ofNat 64 old, BitVec.ofNat 64 base, ok)
  let inEntry (e : VqEntry) : VqEntry := if e.seq = w.e.seq then { e with tail := tail } else e
  let inBeat (b : Beat) : Beat := if b.seq = w.e.seq then { b with tail := tail } else b
  s.modStrand w.id fun t =>
    { t.deliver w.e.seq (if ok then BitVec.ofNat 64 old else BitVec.allOnes 64) with vq := t.vq.map inEntry, beats := t.beats.map inBeat }

/-- The new tail of a VAPPEND, when it is accepted (R204). -/
def appendNew (count cap old : Nat) : Option Nat := if old + count ≤ cap then some (old + count) else none

/-- What a VAPPEND's tail atomic waits for (R144, R203, R229, R295, R297, R324): older stores that overlap it, older work of the strand's vector
side, and for a release every older access of the strand. -/
def Work.appendReady (w : Work) (s : State) (o : OrdPayload) (ts : List Target) : Bool :=
  let t := s.strand w.id
  ts.all (fun p => !w.heldOver s p.place 8 && !(s.core w.id.core).egressOverlaps p 8 && !s.tileMemOver w.id p.place 8) &&
  t.beats.all (fun b => decide (w.e.seq ≤ b.seq)) &&
  (!releases o.order || (t.drain.isEmpty && s.visible w.id o.scope w.e.mark &&
    (s.core w.id.core).xq.all fun x => x.slot != w.id.slot || !isTileMem x.entry.instr))

/-- The tail atomic (R204): at this die or its arrays in one step, otherwise as an AT at the slice (R324). -/
def Work.append (w : Work) (s : State) (h : Hdr) (hint : Hint) (count : Nat) : BeatOut ⊕ State :=
  let d := w.e.cap.x
  let o := ordOf h
  let bad (s : State) (c : Nat) : BeatOut ⊕ State := .inl (.fault s (appendFault c d) false)
  if d.toNat % 8 ≠ 0 then .inl (.fault s (appendFault 0x04 d) false)
  else
    match w.checkDesc h hint (descPages d) none s with
    | .inl (.fault s i tr) => .inl (.fault s i tr)
    | .inl (.wait s) => .inl (.wait s)
    | .inl (.ok s _) => .inl (.wait s)
    | .inr s =>
      match w.descPart s h hint d, w.descPart s h hint (d + 8), w.descPart s h hint (d + 16) with
      | some t0, some t1, some t2 =>
        if t0.attr.mkind = 2 then .inl (.fault s (appendFault 0x06 d) false)
        else if !w.appendReady s o [t0, t1, t2] then .inl (.wait s)
        else
          let here : Bool := match t0.place with
            | .loc .. => true
            | .phys pa => s.atomicHere w.id pa t0.attr o.scope
          let read (s : State) (t : Target) : Acc Nat := s.atomicAt w.id t 8 fun _ => none
          (match (s.strand w.id).journal, here with
            | some j, _ =>
              if !j.vec || !j.done then .inl (.wait s)
              else
                let s := (s.modStrand w.id fun t => { t with journal := none }).dropAt w.id
                if j.bad then bad s 0x0C else .inr (w.appended s count j.oldVal j.desc.1 j.desc.2)
            | none, true =>
              if wideScope o.scope && (s.atOut w.id || s.hostOut w.id) then .inl (.wait s)
              else (match (read s t1).bind fun s cap => (read s t2).bind fun s base =>
                  (s.atomicAt w.id t0 8 (appendNew count cap)).bind fun s old => .ok s (cap, base, old) with
                | .wait s => .inl (.wait s)
                | .bad s c => bad s c
                | .ok s (cap, base, old) => .inr (w.appended (match appendNew count cap old with
                    | some v => s.l1Follow w.id.core t0 8 v
                    | none => s) count old cap base))
            | none, false =>
              (match t0.place with
                | .loc .. => .inl (.wait s)
                | .phys pa =>
                  let line := lineOf pa
                  let req : SliceReq := ⟨line, .at, .die (dieOf w.id.core), some w.id, t0.attr, true⟩
                  if s.stallOver w.id line then bad ((s.stallEnd w.id line).dropAt w.id) 0x0D
                  else .inl (.wait (if s.atOut w.id || (wideScope o.scope && s.hostOut w.id) then s else s.enqueue req))))
      | _, _, _ => .inl (.wait s)

/-- A group of VAPPEND: the tail atomic first and once, in its first group, then the data stores of the group (R204, R205). A later group waits for it:
where the first one faulted, nothing of it is done. -/
def beatVappend (w : Work) (s : State) (h : Hdr) (hint : Hint) (k : KReg) (v : VReg) : BeatOut :=
  let s := w.meet s [k] (w.words [⟨v, w.ew⟩])
  match w.maskFault s [k] with
  | some i => .fault s i false
  | none =>
    let t := s.strand w.id
    let stores (s : State) (tail : Option (Word × Word × Bool)) : BeatOut :=
      match tail with
      | some (old, base, true) =>
        let r0 := w.rank t k
        let es := (w.active t k).zipIdx.map fun x =>
          Elem.mk x.1 (base + (old + BitVec.ofNat 64 (r0 + x.2)) * BitVec.ofNat 64 w.eb) [w.wordOf w.ew v x.1]
        w.storeElems { h with pfx := { h.pfx with ord := none } } hint (w.storeVal t v) es [] s
      | _ => .done s [] [] 0 none
    match w.e.tail with
    | some x => stores s (some x)
    | none =>
      if w.g ≠ 0 then .wait s
      else match w.append s h hint (popN w.vl (t.rK k w.vl)) with
      | .inl o => o
      | .inr s => stores s (match (s.strand w.id).vq.find? fun e => e.seq == w.e.seq with
          | some e => e.tail
          | none => none)

end Sys2Proof.Machine
end

