-- ==== Sys2Proof/Machine/Matrix.lean ====
section
/-! DEFINITION. The matrix and slate group (R215 to R231): issue, posting into XQ, the summation tree (R87 to R91), and what an entry does when
the array finishes it. -/
namespace Sys2Proof.Machine

/-! ## Issue -/

/-- The input format of MOPA and MOPAG (R219): its float format, none for integers. -/
def mfmt : MFmt → Option Fmt
  | .f64 => some .f64
  | .f32 => some .f32
  | .f16 => some .f16
  | .bf16 => some .bf16
  | .e5m2 => some .e5m2
  | .e4m3 => some .fp8
  | .s8 | .u8 => none

/-- The width of an input format (R219). -/
def mfmtWidth (f : MFmt) : Nat := ((mfmt f).map Fmt.width).getD 8

/-- Whether a tile operand names a held tile, or a pair (R216). -/
def tileOk (t : Strand) (x : TileNo) (pair : Bool) : Bool :=
  decide (x.toNat < t.tilesHeld.length) && (!pair || (x.toNat % 2 == 0 && decide (x.toNat + 1 < t.tilesHeld.length)))

/-- The checks shared by MOPA, MOPAG, MRD, MWR and MDRAIN (R216): GRP is 00 and EW is the width required. -/
def gridOk (t : Strand) (w : Nat) : Bool := vtL t.vtype == 1 && t.ew == w

/-- Whether the addressed lines lie within the tile (R216). -/
def linesOk (t : Strand) (c : SReg) : Bool := decide ((t.rS c).toNat + (t.vl + 127) / 128 ≤ 128)

/-- Issue a matrix instruction with the checks of R216. -/
def issueMat (h : Hdr) (i : Instr) (srcs : List SReg) (ok : Strand → Bool) (x y : Strand → Word) (s : State) : Out :=
  issueVec h i srcs true (fun t => t.mvl != 0 && ok t) x y false false s

/-- MOPA (R218 to R221). -/
def execMopa (h : Hdr) (form : MopaForm) (t : TileNo) (a b : VReg) (s : State) : Out :=
  issueMat h (.mopa h form t a b) [] (fun u => match form with
    | .plain f => gridOk u (mfmtWidth f) && tileOk u t (f == .f64) && groupOk u a 1 && groupOk u b 1
    | .q4 va vb => gridOk u 4 && tileOk u t false && groupOk u a 1 && groupOk u b 1 && groupOk u va 1 && groupOk u vb 1) noVal noVal s
/-- MOPAG (R218, R222). -/
def execMopag (h : Hdr) (f : MFmt) (t : TileNo) (a b n : VReg) (s : State) : Out :=
  issueMat h (.mopag h f t a b n) [] (fun u => gridOk u (mfmtWidth f) && tileOk u t (f == .f64) && decide (b.toNat + 8 ≤ u.nv) &&
    groupOk u a 1 && groupOk u n 1) noVal noVal s
/-- MZERO (R224). -/
def execMzero (h : Hdr) (z : ZeroSel) (s : State) : Out :=
  issueMat h (.mzero h z) [] (fun u => match z with
    | .one t => tileOk u t false
    | .all => true) noVal noVal s
/-- MRD (R225). -/
def execMrd (h : Hdr) (col : Bool) (d : VReg) (t : TileNo) (c : SReg) (s : State) : Out :=
  issueMat h (.mrd h col d t c) [c] (fun u => gridOk u 64 && tileOk u t false && groupOk u d 1 && linesOk u c) (·.rS c) noVal s
/-- MWR (R225). -/
def execMwr (h : Hdr) (col : Bool) (t : TileNo) (a : VReg) (c : SReg) (s : State) : Out :=
  issueMat h (.mwr h col t a c) [c] (fun u => gridOk u 64 && tileOk u t false && groupOk u a 1 && linesOk u c) (·.rS c) noVal s

/-- The conversion code of an MDRAIN destination (R218). -/
def drainCvt : DrainFmt → CvtFmt
  | .f64 => .f64
  | .f32 => .f32
  | .f16 => .f16
  | .bf16 => .bf16
  | .e5m2 => .e5m2
  | .e4m3 => .e4m3
  | .s64 => .s64
  | .s32 => .s32

/-- MDRAIN (R226). -/
def execMdrain (h : Hdr) (f : DrainFmt) (kind : DrainKind) (col : Bool) (d : VReg) (t : TileNo) (c : SReg) (s : State) : Out :=
  issueMat h (.mdrain h f kind col d t c) [c] (fun u => gridOk u (cvtWidth (drainCvt f)) && tileOk u t (kind == .xa128) && groupOk u d 1 &&
    linesOk u c) (·.rS c) noVal s
/-- MLDT (R227). -/
def execMldt (h : Hdr) (hint : Hint) (t : TileNo) (b c : SReg) (s : State) : Out :=
  issueMat h (.mldt h hint t b c) [b, c] (fun u => tileOk u t false) (·.rS b) (·.rS c) s
/-- MSTT (R227). -/
def execMstt (h : Hdr) (hint : Hint) (t : TileNo) (b c : SReg) (s : State) : Out :=
  issueMat h (.mstt h hint t b c) [b, c] (fun u => tileOk u t false) (·.rS b) (·.rS c) s

/-! ## The summation tree (R87 to R91) -/

/-- The rounding of cells and tree nodes: round to odd, never flushed (R84, R89). -/
def oddCtx : RndCtx := ⟨.rto, false, false⟩

/-- CX and CV from the flags of a rounding (R89). -/
def sticky (fl : FpFlags) : Bool × Bool := (fl &&& flNX != 0, fl &&& flNV != 0)

/-- The root of the tree over leaves (R89): slots after the last leaf are absent. -/
def rootOf (acc : Fmt) (leaves : List Nat) : Option Nat × FpFlags :=
  let op (x y : Nat) : Nat × FpFlags := fAdd acc oddCtx (acc.decode x) (acc.decode y)
  let (l, f) := treeLevels op 9 (leaves.map some ++ List.replicate (512 - leaves.length) none)
  (l.headD none, f)

/-- A cell after its leaves are added (R90): its bits, and whether CX and CV are set. -/
def accumulate (acc : Fmt) (cell : Nat) (leaves : List (Nat × FpFlags)) : Nat × Bool × Bool :=
  let f0 := leaves.foldl (fun a x => a ||| x.2) 0
  let (root, f1) := rootOf acc (leaves.map (·.1))
  match root with
  | none => (cell, sticky (f0 ||| f1))
  | some r =>
    let (v, f2) := fAdd acc oddCtx (acc.decode cell) (acc.decode r)
    (v, sticky (f0 ||| f1 ||| f2))

/-- Element k of row i of a register, w bits wide (R143, R220). -/
def rowElem (t : Strand) (v : VReg) (w i k : Nat) : Nat := getE w (t.rV v >>> (8 * 384 * i)) k

/-- The product leaves of rows i of A and j of B (R88). -/
def productLeaves (t : Strand) (f acc : Fmt) (fi : Bool) (a b : VReg) (i j : Nat) : List (Nat × FpFlags) :=
  (List.range (384 * 8 / f.width)).map fun k =>
    fMul acc oddCtx (f.flushIn fi (f.decode (rowElem t a f.width i k))) (f.flushIn fi (f.decode (rowElem t b f.width j k)))

/-- The block leaves of `.q4` (R88, R221). -/
def blockLeaves (t : Strand) (B : Nat) (a b va vb : VReg) (i j : Nat) : List (Nat × FpFlags) :=
  (List.range (768 / B)).map fun n =>
    let sa := rowElem t va 8 i n
    let sb := rowElem t vb 8 j n
    let term (k : Nat) : Int :=
      match codeValue (scaleType sa) (rowElem t a 4 i (n * B + k)), codeValue (scaleType sb) (rowElem t b 4 j (n * B + k)) with
      | .fin n1 m1 _, .fin n2 m2 _ => scaled (n1 != n2) (m1 * m2) 0 0
      | _, _ => 0
    let sum := (List.range B).foldl (fun x k => x + term k) (0 : Int)
    Fmt.f64.round oddCtx (sum < 0) sum.natAbs (((sa % 64 + sb % 64 : Nat) : Int) - 64 - 6)

/-- The integer sum of rows i of A and j of B (R87, R90). -/
def intDot (t : Strand) (signed : Bool) (a b : VReg) (i j : Nat) : Int :=
  let v (x : Nat) : Int := if signed then sintN 8 x else x
  (List.range 384).foldl (fun s k => s + v (rowElem t a 8 i k) * v (rowElem t b 8 j k)) 0

/-! ## Tiles -/

/-- Cell (i, j) of a tile. -/
def Tile.cell (x : Tile) (i j : Nat) : Nat := getE 64 x.cells (128 * i + j)
/-- The sticky bits of a cell. -/
def Tile.marks (x : Tile) (i j : Nat) : Bool × Bool := (x.cx.testBit (128 * i + j), x.cv.testBit (128 * i + j))
/-- Write a cell with its sticky bits. -/
def Tile.setCell (x : Tile) (i j v : Nat) (cx cv : Bool) : Tile :=
  let n := 128 * i + j
  ⟨setE 64 x.cells n v, setBit x.cx n cx, setBit x.cv n cv⟩
/-- Set sticky bits of a cell. -/
def Tile.mark (x : Tile) (i j : Nat) (cx cv : Bool) : Tile :=
  let n := 128 * i + j
  ⟨x.cells, if cx then setBit x.cx n true else x.cx, if cv then setBit x.cv n true else x.cv⟩

/-- The physical tile of a strand tile (R142). -/
def Strand.phys (t : Strand) (n : Nat) : Fin 16 := t.tilesHeld.getD n 0
/-- A strand's tile. -/
def State.tile (s : State) (id : StrandId) (n : Nat) : Tile :=
  let p := (s.strand id).phys n
  (s.core id.core).tiles[p.val]
/-- Replace a strand's tile. -/
def State.setTile (s : State) (id : StrandId) (n : Nat) (x : Tile) : State :=
  let p := (s.strand id).phys n
  s.modCore id.core fun c => { c with tiles := c.tiles.set p.val x p.isLt }

/-- The new value of cell (i, j) of tile x for a product of the rows i of A and j of B (R220, R90). With `.f64` a value spans the tile and the
one above (R87). -/
def mopaCell (t : Strand) (f : MFmt) (fi : Bool) (lo hi : Tile) (a b : VReg) (i j : Nat) : Tile × Tile :=
  match mfmt f with
  | none =>
    let v : Int := (lo.cell i j : Int) + intDot t (f == .s8) a b i j
    (lo.setCell i j (ofInt 64 v) (lo.marks i j).1 (lo.marks i j).2, hi)
  | some m =>
    if f = .f64 then
      let (v, cx, cv) := accumulate .xa128 (lo.cell i j + 2 ^ 64 * hi.cell i j) (productLeaves t m .xa128 fi a b i j)
      let put (x : Tile) (v : Nat) : Tile := x.setCell i j v (cx || (x.marks i j).1) (cv || (x.marks i j).2)
      (put lo v, put hi (v / 2 ^ 64))
    else
      let (v, cx, cv) := accumulate .f64 (lo.cell i j) (productLeaves t m .f64 fi a b i j)
      (lo.setCell i j v (cx || (lo.marks i j).1) (cv || (lo.marks i j).2), hi)

/-- The same for `.q4` (R221). -/
def q4Cell (t : Strand) (B : Nat) (lo : Tile) (a b va vb : VReg) (i j : Nat) : Tile :=
  let (v, cx, cv) := accumulate .f64 (lo.cell i j) (blockLeaves t B a b va vb i j)
  lo.setCell i j v (cx || (lo.marks i j).1) (cv || (lo.marks i j).2)

/-! ## What an entry does -/

/-- What serving an XQ entry comes to. -/
inductive XqOut where
  | done (s : State)
  /-- Some rows of an MSTT are stored; the entry stays, with the targets of its rows. -/
  | more (s : State) (rows : List (List (Target × Word)))
  /-- A row of an MSTT waits; the entry stays, with the targets of its rows. -/
  | held (s : State) (rows : List (List (Target × Word)))
  | trap (s : State) (i : TrapInfo) (fromTr : Bool)
  | wait (s : State)

/-- The machine check of registers a matrix instruction reads (R151, R230). -/
def State.matRegs (s : State) (id : StrandId) (rs : List (VReg × Nat)) : State × Option TrapInfo :=
  if s.errs.isEmpty then (s, none)
  else
    let rs := rs.filter fun x => (s.strand id).vvalid.getLsbD x.1.toNat
    let s := s.corrected (dieOf id.core) (rs.map fun x => .vreg id x.1 x.2)
    (s, (rs.find? fun x => (s.errAt (.vreg id x.1 x.2)).isSome).map fun x => trapInfo 0x0C (checkEval 3 x.1.toNat))

/-- The words of rows of a register, when each holds a count of words from its start. -/
def rowWords (v : VReg) (rows : List Nat) (words : Nat) : List (VReg × Nat) :=
  rows.flatMap fun i => (List.range words).map fun j => (v, 48 * i + j)

/-- The machine check of cells of a strand's tile (R151). -/
def State.matTile (s : State) (id : StrandId) (n : Nat) (cells : List (Nat × Nat)) : State × Option TrapInfo :=
  if s.errs.isEmpty then (s, none)
  else
    let sites := cells.map fun c => ErrSite.cell id.core ((s.strand id).phys n) (128 * c.1 + c.2)
    let s := s.corrected (dieOf id.core) sites
    (s, if sites.any fun x => (s.errAt x).isSome then some (trapInfo 0x0C (checkEval 5 n)) else none)

/-- Cells of a strand's tile are written and hold no error any more (R151). -/
def State.cleanCells (s : State) (id : StrandId) (n : Nat) (hit : Nat × Nat → Bool) : State :=
  if s.errs.isEmpty then s
  else
    let p := (s.strand id).phys n
    { s with errs := s.errs.filter fun e => match e.1 with
        | .cell c t k => !(c == id.core && t == p && hit (k / 128, k % 128))
        | _ => true }

/-- Check words of registers and cells of tiles, then go on. Of several bad words the registers come before the cells, each in the order in which they
are named, and the lower tile of a pair before the one above it (DESIGN CHOICE, assumption 83). -/
def matChecked (s : State) (id : StrandId) (rs : List (VReg × Nat)) (ts : List Nat) (cells : List (Nat × Nat)) (k : State → XqOut) : XqOut :=
  match s.matRegs id rs with
  | (s, some i) => .trap s i false
  | (s, none) =>
    let r := ts.foldl (fun (a : State × Option TrapInfo) n => match a with
      | (s, none) => s.matTile id n cells
      | a => a) (s, none)
    match r with
    | (s, some i) => .trap s i false
    | (s, none) => k s

/-- Rewrite the pair of tiles of an outer product, cell by cell. -/
def State.eachCell (s : State) (id : StrandId) (n : Nat) (pair : Bool) (cells : List (Nat × Nat)) (f : Tile → Tile → Nat → Nat → Tile × Tile) :
    State :=
  let lo := s.tile id n
  let hi := if pair then s.tile id (n + 1) else lo
  let r := cells.foldl (fun x c => f x.1 x.2 c.1 c.2) (lo, hi)
  let s := s.setTile id n r.1
  if pair then s.setTile id (n + 1) r.2 else s

/-- The cells of rows i and columns below n. -/
def gridCells (rows : List Nat) (n : Nat) : List (Nat × Nat) := rows.flatMap fun i => (List.range n).map fun j => (i, j)

/-- MOPA when the array finishes it (R220, R221). -/
def doMopa (s : State) (id : StrandId) (e : VqEntry) (form : MopaForm) (x : TileNo) (a b : VReg) : XqOut :=
  let n := e.cap.mvl
  match form with
  | .plain f =>
    let pair := f == .f64
    matChecked s id (rowWords a (List.range n) 48 ++ rowWords b (List.range n) 48)
        (if pair then [x.toNat, x.toNat + 1] else [x.toNat]) (gridCells (List.range n) n) fun s =>
      let t := s.strand id
      .done (s.eachCell id x.toNat pair (gridCells (List.range n) n) fun lo hi i j => mopaCell t f (vtFI e.cap.vtype) lo hi a b i j)
  | .q4 va vb =>
    let sw := (768 / vtBS e.cap.vtype + 7) / 8
    matChecked s id (rowWords a (List.range n) 48 ++ rowWords b (List.range n) 48 ++ rowWords va (List.range n) sw ++
        rowWords vb (List.range n) sw) [x.toNat] (gridCells (List.range n) n) fun s =>
      let t := s.strand id
      .done (s.eachCell id x.toNat false (gridCells (List.range n) n) fun lo hi i j =>
        (q4Cell t (vtBS e.cap.vtype) lo a b va vb i j, hi))

/-- The groups of MOPAG (R222): for each row of A, the register of B it meets. -/
def mopagRows (cnt : List Nat) (b : VReg) : List (Nat × VReg) :=
  let regs := (cnt.zipIdx).flatMap fun x => List.replicate x.1 (b + BitVec.ofNat 6 x.2)
  (regs.zipIdx).map fun x => (x.2, x.1)

/-- MOPAG when the array finishes it (R222). -/
def doMopag (s : State) (id : StrandId) (e : VqEntry) (f : MFmt) (x : TileNo) (a b vn : VReg) : XqOut :=
  let n := e.cap.mvl
  match s.matRegs id [(vn, 0)] with
  | (s, some i) => .trap s i false
  | (s, none) =>
    let cnt := (List.range 8).map fun g => getE 8 ((s.strand id).rV vn) g
    let sum := cnt.foldl (· + ·) 0
    if sum > n then .trap s (trapInfo 0x08 (BitVec.ofNat 64 sum)) false
    else
      let rows := mopagRows cnt b
      let pair := f == .f64
      matChecked s id (rowWords a (List.range sum) 48 ++ ((rows.map (·.2)).dedup.flatMap fun r => rowWords r (List.range n) 48))
        (if pair then [x.toNat, x.toNat + 1] else [x.toNat]) (gridCells (List.range sum) n) fun s =>
        let t := s.strand id
        .done (rows.foldl (fun s r => s.eachCell id x.toNat pair (gridCells [r.1] n) fun lo hi i j =>
          mopaCell t f (vtFI e.cap.vtype) lo hi a r.2 i j) s)

/-- MZERO (R224). -/
def doMzero (s : State) (id : StrandId) (z : ZeroSel) : XqOut :=
  match z with
  | .one x => .done ((s.setTile id x.toNat ⟨0, 0, 0⟩).cleanCells id x.toNat fun _ => true)
  | .all => .done ((List.range (s.strand id).tilesHeld.length).foldl
      (fun s n => (s.setTile id n ⟨0, 0, 0⟩).cleanCells id n fun _ => true) s)

/-- The cell that element n addresses (R225). -/
def cellAt (l0 : Nat) (col : Bool) (n : Nat) : Nat × Nat :=
  if col then (n % 128, l0 + n / 128) else (l0 + n / 128, n % 128)

/-- MRD (R225). -/
def doMrd (s : State) (id : StrandId) (e : VqEntry) (rb : Nat) (col : Bool) (d : VReg) (x : TileNo) : XqOut :=
  if e.cap.vl = 0 then .done s
  else
    let l0 := e.cap.x.toNat
    matChecked s id [] [x.toNat] ((List.range e.cap.vl).map (cellAt l0 col)) fun s =>
      let tile := s.tile id x.toNat
      let els := (List.range e.cap.vl).map fun n => let c := cellAt l0 col n; (n, tile.cell c.1 c.2)
      .done (s.putRegs id rb 64 d 1 els false).1

/-- MWR (R225). -/
def doMwr (s : State) (id : StrandId) (e : VqEntry) (rb : Nat) (col : Bool) (x : TileNo) (a : VReg) : XqOut :=
  if e.cap.vl = 0 then .done s
  else
    matChecked s id ((List.range e.cap.vl).map fun n => (a, n)) [] [] fun s =>
      let t := s.strand id
      let l0 := e.cap.x.toNat
      let cells := (List.range e.cap.vl).map (cellAt l0 col)
      .done ((s.setTile id x.toNat ((List.range e.cap.vl).foldl (fun (y : Tile) n =>
        let c := cellAt l0 col n
        y.setCell c.1 c.2 (t.elem rb 64 a n) false false) (s.tile id x.toNat))).cleanCells id x.toNat cells.contains)

/-- One drained cell (R226): its converted bits and flags. -/
def drainCell (kind : DrainKind) (f : DrainFmt) (c : RndCtx) (v : Nat) (cx cv : Bool) : Nat × FpFlags :=
  let extra : FpFlags := (if cx then flNX else 0) ||| (if cv then flNV else 0)
  let w := cvtWidth (drainCvt f)
  let (r, fl) : Nat × FpFlags :=
    match kind with
    | .int =>
      (match cvtFmt (drainCvt f) with
        | some m => fOfInt m c (sintN 64 v)
        | none => (ofInt w (clampS w (sintN 64 v)), 0))
    | _ =>
      let x := (if kind = DrainKind.xa128 then Fmt.xa128 else Fmt.f64).decode v
      (match cvtFmt (drainCvt f) with
        | some m => fConvert m c x
        | none => let (i, fl) := fToInt true w c.mode x; (ofInt w i, fl))
  (r, fl ||| extra)

/-- MDRAIN (R226): flags fold at completion, an enabled one traps with nothing written. -/
def doMdrain (s : State) (id : StrandId) (e : VqEntry) (rb : Nat) (f : DrainFmt) (kind : DrainKind) (col : Bool) (d : VReg) (x : TileNo) :
    XqOut :=
  let n := x.toNat
  if e.cap.vl = 0 then .done s
  else
    matChecked s id [] (if kind = DrainKind.xa128 then [n, n + 1] else [n])
        ((List.range e.cap.vl).map (cellAt e.cap.x.toNat col)) fun s =>
      let lo := s.tile id n
      let hi := if kind = DrainKind.xa128 then s.tile id (n + 1) else lo
      let ctx : RndCtx := ⟨Mode.ofRM e.cap.rm, vtSAT e.cap.vtype, vtFO e.cap.vtype⟩
      let rs := (List.range e.cap.vl).map fun m =>
        let (i, j) := cellAt e.cap.x.toNat col m
        let v := if kind = DrainKind.xa128 then lo.cell i j + 2 ^ 64 * hi.cell i j else lo.cell i j
        let (cx, cv) := lo.marks i j
        let (cx', cv') := if kind = DrainKind.xa128 then hi.marks i j else (false, false)
        (m, drainCell kind f ctx v (cx || cx') (cv || cv'))
      let fl := rs.foldl (fun a r => a ||| r.2.2) 0
      if fl &&& e.cap.en ≠ 0 then .trap s (trapInfo 0x09 (fl.setWidth 64 <<< 4)) false
      else .done ((s.putRegs id rb (cvtWidth (drainCvt f)) d 1 (rs.map fun r => (r.1, r.2.1)) false).1.modStrand id (·.raise fl))

/-! ## MLDT and MSTT (R227 to R229) -/

/-- A fault of a row. -/
def rowFault (cause : Nat) (a : Word) (k : AccKind) (tr : Bool) : TrapInfo := if tr then faultInfo cause a k.code else trapInfo cause a

/-- Resolve the parts of a row: a page fault of any page comes before a permission fault (R228). -/
def State.resolveRow (s : State) (id : StrandId) (h : Hdr) (hint : Hint) (k : AccKind) :
    List (Word × Nat) → List (Target × Word × Nat) → Option (TrapInfo × Bool) → XqOut ⊕ (State × List (Target × Word × Nat))
  | [], acc, none => .inr (s, acc)
  | [], _, some (i, tr) => .inl (.trap s i tr)
  | (a, n) :: ps, acc, bad =>
    match s.resolve id a k h.pfx.cls hint false with
    | .wait s => .inl (.wait s)
    | .fault s c tr =>
      let i := (rowFault c a k tr, tr)
      if c = 0x06 then s.resolveRow id h hint k ps acc (some (bad.getD i)) else .inl (.trap s i.1 i.2)
    | .ok s t => s.resolveRow id h hint k ps (acc ++ [(t, a, n)]) bad

/-- The target of a doubleword within a resolved part. -/
def Target.plus (t : Target) (n : Nat) : Target :=
  match t.place with
  | .loc l c o => { t with place := .loc l c (o + n) }
  | .phys pa => { t with place := .phys (pa + n) }

/-- The check and the targets of row i: each doubleword with its address. -/
def State.rowTargets (s : State) (id : StrandId) (e : VqEntry) (h : Hdr) (hint : Hint) (k : AccKind) (i : Nat) :
    XqOut ⊕ (State × List (Target × Word)) :=
  let a := rowAddr e i
  if a.toNat % 8 ≠ 0 then .inl (.trap s (trapInfo 0x04 a) false)
  else
    match s.resolveRow id h hint k (rowParts a) [] none with
    | .inl o => .inl o
    | .inr (s, ps) => .inr (s, ps.flatMap fun p => (List.range (p.2.2 / 8)).map fun c =>
        (p.1.plus (8 * c), p.2.1 + BitVec.ofNat 64 (8 * c)))

/-- Read the doublewords of row i from number c on, but for those already read: the answer is the values, or the fault of the row. A line that does not
answer comes before a bad word (R228). -/
def State.readRow (s : State) (id : StrandId) (got : List (Nat × Nat)) (i : Nat) : List (Target × Word) → Nat → List Nat → Option TrapInfo →
    XqOut ⊕ (State × List Nat)
  | [], _, acc, none => .inr (s, acc)
  | [], _, _, some f => .inl (.trap s f false)
  | (t, a) :: ts, c, acc, bad =>
    match got.lookup (128 * i + c) with
    | some v => s.readRow id got i ts (c + 1) (acc ++ [v]) bad
    | none =>
      match s.loadAt id t 8 none with
      | .wait s => .inl (.wait s)
      | .bad s x =>
        if x = 0x0D then .inl (.trap s (trapInfo x a) false) else s.readRow id got i ts (c + 1) (acc ++ [0]) (bad.orElse fun _ => some (trapInfo x a))
      | .ok s v => s.readRow id got i ts (c + 1) (acc ++ [v]) bad

/-- Read rows i and on of an MLDT. -/
def State.readRows (s : State) (id : StrandId) (x : XqEntry) (h : Hdr) (hint : Hint) (i : Nat) : Nat → List (List Nat) →
    XqOut ⊕ (State × List (List Nat))
  | 0, acc => .inr (s, acc)
  | n + 1, acc =>
    match s.rowTargets id x.entry h hint .vread i with
    | .inl o => .inl o
    | .inr (s, ts) =>
      match s.readRow id x.got i ts 0 [] none with
      | .inl o => .inl o
      | .inr (s, vs) => s.readRows id x h hint (i + 1) n (acc ++ [vs])

/-- Doubleword k of the rows of the MLDT that the array serves is read before the others (R227, R293); a fault is left to the whole. -/
def State.readCell (s : State) (id : StrandId) (x : XqEntry) (k : Nat) : State :=
  match x.entry.instr with
  | .mldt h hint _ _ _ =>
    if k / 128 ≥ x.entry.cap.mvl ∨ (x.got.lookup k).isSome then s
    else
      (match s.rowTargets id x.entry h hint .vread (k / 128) with
        | .inl (.wait s') => s'
        | .inl _ => s
        | .inr (s', ts) =>
          (match ts[k % 128]? with
            | none => s
            | some t => (match s'.loadAt id t.1 8 none with
                | .ok s' v => s'.modCore id.core fun y => { y with xq := replaceFirst (· == x) (fun z => { z with got := (k, v) :: z.got }) y.xq }
                | .wait s' => s'
                | .bad .. => s)))
  | _ => s

/-- MLDT (R227): every row is read before any cell is written, which is one step. -/
def doMldt (s : State) (id : StrandId) (z : XqEntry) (h : Hdr) (hint : Hint) (x : TileNo) : XqOut :=
  let e := z.entry
  match s.readRows id z h hint 0 e.cap.mvl [] with
  | .inl o => o
  | .inr (s, rows) =>
    .done ((s.setTile id x.toNat ((rows.zipIdx).foldl (fun (y : Tile) r =>
      (r.1.zipIdx).foldl (fun (y : Tile) c => y.setCell r.2 c.2 c.1 false false) y) (s.tile id x.toNat))).cleanCells id x.toNat
        fun c => decide (c.1 < e.cap.mvl))

/-- The translation checks of rows i and on of an MSTT, and where its rows go (R228). -/
def State.checkRows (s : State) (id : StrandId) (e : VqEntry) (h : Hdr) (hint : Hint) (i : Nat) :
    Nat → List (List (Target × Word)) → XqOut ⊕ (State × List (List (Target × Word)))
  | 0, acc => .inr (s, acc)
  | n + 1, acc =>
    match s.rowTargets id e h hint .vwrite i with
    | .inl o => .inl o
    | .inr (s, ts) => s.checkRows id e h hint (i + 1) n (acc ++ [ts])

/-- Store the doublewords of one row; where one has to wait, none is stored. -/
def State.writeRow (s : State) (id : StrandId) : List ((Target × Word) × Nat) → State → XqOut
  | [], s' => .done s'
  | ((t, a), v) :: ts, s' =>
    match s'.storeAt id t 8 v with
    | .ok s' _ => s.writeRow id ts s'
    | .wait _ => .wait (match s.storeAt id t 8 v with
        | .wait s => s
        | _ => s)
    | .bad _ c => .trap (s.modStrand id fun t => { t with stalled := false }) (trapInfo c a) false

/-- MSTT (R227, R228): one row at a time, in ascending order, each visible as a whole; all translations are checked before the first, and the
rows go where they were found then. A row's lines are checked before its cells. -/
def doMstt (s : State) (id : StrandId) (x : XqEntry) (h : Hdr) (hint : Hint) (n : TileNo) : XqOut :=
  let e := x.entry
  let i := e.nextGrp
  match (if x.rows.isEmpty then s.checkRows id e h hint 0 e.cap.mvl [] else .inr (s, x.rows)) with
  | .inl o => o
  | .inr (s, rows) =>
    match (rows.getD i []).find? fun t => s.storeStuck (dieOf id.core) t.1 with
    | some t =>
      if (s.strand id).stalled then .trap (s.modStrand id fun t => { t with stalled := false }) (trapInfo 0x0D t.2) false
      else .held s rows
    | none =>
      match s.matTile id n.toNat ((List.range 128).map fun c => (i, c)) with
      | (s, some f) => .trap s f false
      | (s, none) =>
        let tile := s.tile id n.toNat
        match s.writeRow id (((rows.getD i []).zipIdx).map fun t => (t.1, tile.cell i t.2)) s with
        | .done s => if i + 1 ≥ e.cap.mvl then .done s else .more s rows
        | .wait s => .held s rows
        | o => o

/-- Serve an XQ entry. -/
def serveXq (s : State) (id : StrandId) (x : XqEntry) : XqOut :=
  let rb := s.rb id
  let e := x.entry
  match e.instr with
  | .mopa _ form t a b => doMopa s id e form t a b
  | .mopag _ f t a b n => doMopag s id e f t a b n
  | .mzero _ z => doMzero s id z
  | .mrd _ col d t _ => doMrd s id e rb col d t
  | .mwr _ col t a _ => doMwr s id e rb col t a
  | .mdrain _ f kind col d t _ => doMdrain s id e rb f kind col d t
  | .mldt h hint t _ _ => doMldt s id x h hint t
  | .mstt h hint t _ _ => doMstt s id x h hint t
  | _ => .done s

/-- Whether an XQ entry of a slot is held behind a trapped one (R231). -/
def Core.held? (c : Core) (k : SlotId) : Bool := (c.strands[k.val]).mdropped.isSome

/-! ## Chaining (R223) -/

/-- The register a VLD loads and the one a MOPA or MOPAG takes its A rows from. -/
def chainRegs : Instr → Instr → Option (VReg × VReg)
  | .vld _ _ _ d _ _, .mopa _ _ _ a _ => some (d, a)
  | .vld _ _ _ d _ _, .mopag _ _ _ a _ _ => some (d, a)
  | _, _ => none

/-- Whether an instruction is chained to the VQ entry directly older than it (R223). -/
def isChained (x y : Instr) : Bool := (chainRegs x y).any fun p => p.1 == p.2

/-- The groups of an entry at the VQ head that have committed. -/
def Strand.committed (t : Strand) (e : VqEntry) : Nat :=
  match t.beats.find? fun b => b.seq == e.seq with
  | some b => b.grp
  | none => e.nextGrp

/-- The registers that an outer product reads. -/
def mopaReads : Instr → List VReg
  | .mopa _ form _ a b => a :: b :: (match form with
      | .q4 va vb => [va, vb]
      | .plain _ => [])
  | .mopag _ _ _ a b n => a :: n :: (List.range 8).map fun i => b + BitVec.ofNat 6 i
  | _ => []

/-- The elements of a VLD into the group of `l` registers at d that an outer product chained to it reads, as the count from element 0 on (R143, R223):
in each register of the group that it reads, the rows below `mvl`. -/
def chainNeed (d : VReg) (l rb w mvl : Nat) (i : Instr) : Nat :=
  (mopaReads i).foldl (fun m r =>
    let k := r.toNat - d.toNat
    if d.toNat ≤ r.toNat ∧ k < l then max m (k * (8 * rb / w) + (384 * mvl * 8 + w - 1) / w) else m) 0

/-- Whether the VLD that a posted entry is chained to has committed every group with an element that the entry reads (R223). -/
def State.chainReady (s : State) (x : XqEntry) (id : StrandId) : Bool :=
  let t := s.strand id
  if t.vq.any fun e => e.seq == x.entry.seq then
    (match t.vq with
      | v :: m :: _ =>
        (match chainRegs v.instr m.instr with
          | some (d, _) =>
            let w := vtEW v.cap.vtype
            !(isChained v.instr m.instr && m.seq == x.entry.seq) ||
              decide (min v.cap.vl (chainNeed d (vtL v.cap.vtype) (s.rb id) w x.entry.cap.mvl m.instr) ≤
                max v.skip (t.committed v * commitGroup (s.lanes id) w))
          | none => true)
      | _ => true)
  else true

/-- The VLD at the VQ head traps: an entry chained to it is withdrawn from XQ, with no cell changed, and waits in VQ (R223). -/
def State.unchain (s : State) (id : StrandId) : State :=
  match (s.strand id).vq with
  | v :: m :: _ =>
    if isChained v.instr m.instr ∧ (s.core id.core).xq.any (fun x => x.slot == id.slot && x.entry.seq == m.seq) then
      (s.modCore id.core fun c => { c with xq := c.xq.filter fun x => !(x.slot == id.slot && x.entry.seq == m.seq) }).modStrand id fun t =>
        { t with vq := t.vq.map fun e => if e.seq = m.seq then { e with nextGrp := 0 } else e }
    else s
  | _ => s

/-- A trap takes a matrix instruction out of XQ, and whether a translation fault is the host's is decided as it arises (R231, R274, R353). -/
def State.matrixTrap (s : State) (id : StrandId) (x : XqEntry) (i : TrapInfo) (tr : Bool) : State :=
  (s.modCore id.core fun y => { y with xq := removeFirst (· == x) y.xq }).modStrand id fun t =>
    { t with mdropped := some { x.entry with nextGrp := 0 }, mfault := some (x.entry.pc, i, tr && s.preber.duty.getLsbD 1) }

/-- MATRIX_COMPLETE (R215, R231): the array finishes its entry, the oldest that is not held; a trap takes it out of XQ and is taken at the
strand's next unit boundary, or after the ERET in handler state (R67). With a number it reads that doubleword of an MLDT alone. -/
def execMatrixComplete (c : MatrixTurn) (s : State) : Out :=
  match (s.core c.core).xq.find? fun x => !(s.core c.core).held? x.slot with
  | none => .next s
  | some x =>
    let id : StrandId := ⟨c.core, x.slot⟩
    let bump (k : Nat) (rows : List (List (Target × Word))) (y : XqEntry) : XqEntry :=
      { y with entry := { y.entry with nextGrp := y.entry.nextGrp + k }, rows := rows }
    let put (s : State) (k : Nat) (rows : List (List (Target × Word))) : State :=
      s.modCore c.core fun y => { y with xq := replaceFirst (· == x) (bump k rows) y.xq }
    if !s.chainReady x id then .next s
    else match c.one, s.queueCheck id .xq x.entry.seq with
    | _, (s, some i) => .next (s.matrixTrap id x i false)
    | some k, (s, none) => .next (s.readCell id x k)
    | none, (s, none) =>
      match serveXq s id x with
      | .done s => .next (s.modCore c.core fun y => { y with xq := removeFirst (· == x) y.xq })
      | .more s rows => .next (put s 1 rows)
      | .held s rows => .next (put s 0 rows)
      | .wait s => .next s
      | .trap s i tr => .next (s.matrixTrap id x i tr)

end Sys2Proof.Machine
end

