-- ==== Sys2Proof/Machine/Narrow.lean ====
section
/-! DEFINITION. The narrow formats (R171 to R174): VQPACK, VQUNPACK and VSCACC, their issue and what their commit groups do. -/
namespace Sys2Proof.Machine

/-- The format of a VQPACK source or a VQUNPACK destination (R171). -/
def qfmt : QFmt → Fmt
  | .f32 => .f32
  | .f16 => .f16
  | .bf16 => .bf16

/-- VQPACK (R171): codes and scales must not share a group. -/
def execVqpack (h : Hdr) (k : KReg) (t : QType) (f : QFmt) (r : Rnd) (d sc a : VReg) (s : State) : Out :=
  issueVec h (.vqpack h k t f r d sc a) [] true
    (fun t => ewFmt (qfmt f) t && vregOk t d && vregOk t sc && vregOk t a && d != sc) noVal noVal false false s
/-- VQUNPACK (R171). -/
def execVqunpack (h : Hdr) (k : KReg) (f : QFmt) (r : Rnd) (d a sc : VReg) (s : State) : Out :=
  issueVec h (.vqunpack h k f r d a sc) [] true
    (fun t => ewFmt (qfmt f) t && vregOk t d && vregOk t a && vregOk t sc && d != sc) noVal noVal false false s
/-- VSCACC (R171). -/
def execVscacc (h : Hdr) (k : KReg) (src : ScaccSrc) (r : Rnd) (d a sc : VReg) (s : State) : Out :=
  issueVec h (.vscacc h k src r d a sc) [] true (fun t => t.ew == 32 && vregOk t d && vregOk t a && vregOk t sc) noVal noVal false false s

/-- The range of a type's codes: the largest magnitude of a negative and of a positive value (R172). -/
def qRange : QType → Nat × Nat
  | .int => (8, 7)
  | .e2m1 => (6, 6)
  | .pow2 => (8, 8)
  | .hyb => (12, 12)

/-- Whether x / 2^(ex − 32) lies in a type's range; NaN and infinities do not enter the choice (R172). -/
def qFits (t : QType) (ex : Nat) : FVal → Bool
  | .fin n m e => let (lo, hi) := qRange t; !magGt m e (if n then lo else hi) ((ex : Int) - 32)
  | _ => true

/-- The exponent a block takes: the smallest that holds every finite value, 63 when none does (R172). -/
def qScale (t : QType) (xs : List FVal) : Nat := ((List.range 64).find? fun ex => xs.all (qFits t ex)).getD 63

/-- A group of VQPACK (R172): every block's scale byte is written, and the codes of its active elements. -/
def beatVqpack (w : Work) (s : State) (k : KReg) (ty : QType) (f : Fmt) (r : Rnd) (d sc a : VReg) : BeatOut :=
  let l := vtL w.vt
  let (w, s) := w.keep s (sharedRegs a l d l ++ sharedRegs a l sc l)
  let s := w.meet s [k] ((w.active (s.strand w.id) k).map (w.wordOf f.width a))
  let t := w.reads s
  let B := vtBS w.vt
  let act := w.active t k
  let val (e : Nat) : FVal := w.fval f (w.get t f.width a e)
  let blocks := (w.all.map (· / B)).dedup
  let scales := blocks.map fun j => (j, qScale ty ((act.filter fun e => e / B == j).map val))
  let rs := act.map fun e =>
    let (c, fl) := blockCode ty (w.mode r) (val e) ((scales.lookup (e / B)).getD 0)
    (e, c, flags6 fl)
  match w.judge s [k] rs fun e => [w.wordOf f.width a e] with
  | .error i => .fault s i false
  | .ok (rs, fl) =>
    let (s, pre) := w.put s (.vec d 4) rs
    let code : Nat := match ty with
      | .int => 0
      | .e2m1 => 1
      | .pow2 => 2
      | .hyb => 3
    let (s, pre') := w.put s (.vec sc 8) (scales.map fun x => (x.1, 64 * code + x.2))
    .done s (pre ++ pre') [] fl none

/-- A group of VQUNPACK (R173). -/
def beatVqunpack (w : Work) (s : State) (k : KReg) (f : Fmt) (r : Rnd) (d a sc : VReg) : BeatOut :=
  let l := vtL w.vt
  let (w, s) := w.keep s (sharedRegs a l d l ++ sharedRegs sc l d l)
  let B := vtBS w.vt
  w.write (w.run s [k] (w.active (s.strand w.id) k) (fun e => [w.wordOf 4 a e, w.wordOf 8 sc (e / B)]) fun t e =>
    let b := w.get t 8 sc (e / B)
    match codeValue (scaleType b) (w.get t 4 a e) with
    | .fin n m x =>
      let (v, fl) := f.round (w.ctx r) n m (x + ((b % 64 : Nat) : Int) - 32)
      (v, flags6 fl)
    | _ => (0, 0)) (.vec d f.width)

/-- A group of VSCACC (R174). -/
def beatVscacc (w : Work) (s : State) (k : KReg) (src : ScaccSrc) (r : Rnd) (d a sc : VReg) : BeatOut :=
  let l := vtL w.vt
  let (w, s) := w.keep s (sharedRegs a l d l ++ sharedRegs sc l d l)
  let B := vtBS w.vt
  let aw := match src with
    | .q4 => 4
    | _ => 8
  w.write (w.run s [k] (w.active (s.strand w.id) k)
    (fun e => [w.wordOf 32 d e, w.wordOf aw a e, w.wordOf 8 sc (e / B)]) fun t e =>
    let b := w.get t 8 sc (e / B)
    let x := w.get t aw a e
    let av : FVal := match src with
      | .e5m2 => w.fval .e5m2 x
      | .e4m3 => w.fval .fp8 x
      | .q4 => codeValue (scaleType b) x
    let (v, fl) := fFma .f32 (w.ctx r) .plain av (.fin false 1 (((b % 64 : Nat) : Int) - 32)) (w.fval .f32 (w.get t 32 d e))
    (v, flags6 fl)) (.vec d 32)

end Sys2Proof.Machine
end

