-- ==== Sys2Proof/Machine/RingSets.lean ====
section
/-! DEFINITION. Ring sets (R177 to R195): position sets and their formats, the exact images of the seven arithmetic instructions, tests and
conversions, and RSLOAD. -/
namespace Sys2Proof.Machine

/-! ## Rings and positions (R177, R178) -/

/-- A magnitude, as a fraction with a positive denominator. -/
abbrev Frac := Nat × Nat

/-- The magnitude of a finite value of a format. -/
def fracOf (m : Nat) (e : Int) : Frac := (m * 2 ^ e.toNat, 2 ^ (-e).toNat)

/-- v_1, v_2 and so on: the positive finite values of a ring, rising (R177). -/
def Ring.pos (r : Ring) : List Frac := r.vals.map fun w => match Fmt.f64.decode w.toNat with
  | .fin _ m e => fracOf m e
  | _ => (0, 1)

/-- A position set: bit p for position p (R178). -/
abbrev PosSet := Nat

/-- All positions of a ring of size n. -/
def allPos (n : Nat) : PosSet := 2 ^ (2 * n) - 1

/-! ## Set formats (R184 to R186) -/

/-- The width of a set format (R184). -/
def rsWidth : RsFmt → Nat
  | .rs8 => 8
  | .rs16c => 16
  | .rs32c => 32

/-- The largest N of a set format (R180); RS8 takes N = 4 alone. -/
def rsLimit : RsFmt → Nat
  | .rs8 => 4
  | .rs16c => 64
  | .rs32c => 16384

/-- The positions from s up to t, clockwise (R184). -/
def arcSet (n s t : Nat) : PosSet :=
  if s ≤ t then (2 ^ (t - s + 1) - 1) * 2 ^ s else allPos n - (2 ^ (s - t - 1) - 1) * 2 ^ (t + 1)

/-- Read an operand (R185). -/
def rsRead (f : RsFmt) (n x : Nat) : PosSet :=
  match f with
  | .rs8 => x % 256
  | _ =>
    let w := rsWidth f
    let half := w / 2 - 1
    let kind := x / 2 ^ (w - 2) % 4
    let s := x / 2 ^ half % 2 ^ half
    let t := x % 2 ^ half
    if kind = 1 then 0
    else if kind ≠ 0 ∨ s ≥ 2 * n ∨ t ≥ 2 * n ∨ t = (s + 2 * n - 1) % (2 * n) then allPos n
    else arcSet n s t

/-- The maximal cyclic runs of a set, neither empty nor whole: each with its first position and its length. -/
def cyclicRuns (n : Nat) (p : PosSet) : List (Nat × Nat) :=
  let M := 2 * n
  ((List.range M).filter fun s => p.testBit s && !p.testBit ((s + M - 1) % M)).map fun s =>
    (s, ((List.range M).find? fun d => !p.testBit ((s + d) % M)).getD M)

/-- The better of two gaps: the longer, and of equals the one whose hull has the lower start (R186). -/
def betterGap (n : Nat) (a b : Nat × Nat) : Nat × Nat :=
  if a.2 > b.2 ∨ (a.2 = b.2 ∧ (a.1 + a.2) % (2 * n) < (b.1 + b.2) % (2 * n)) then a else b

/-- The run that covers a set, neither empty nor whole: its start, its end, and whether it is a hull (R186). -/
def hullOf (n : Nat) (p : PosSet) : Nat × Nat × Bool :=
  let M := 2 * n
  match cyclicRuns n p with
  | [(s, len)] => (s, (s + len - 1) % M, false)
  | _ =>
    match cyclicRuns n (allPos n - p) with
    | [] => (0, 0, true)
    | g :: gs =>
      let b := gs.foldl (betterGap n) g
      ((b.1 + b.2) % M, (b.1 + M - 1) % M, true)

/-- Write a result, with RSH (R186). -/
def rsWrite (f : RsFmt) (n : Nat) (p : PosSet) : Nat × Bool :=
  match f with
  | .rs8 => (p, false)
  | _ =>
    let w := rsWidth f
    if p = 0 then (2 ^ (w - 2), false)
    else if p = allPos n then (2 ^ (w - 1), false)
    else
      let (s, t, h) := hullOf n p
      (s * 2 ^ (w / 2 - 1) + t, h)

/-! ## Points of a set, by sign (R189) -/

/-- An interval of magnitudes: its ends and whether each belongs to it; no upper end stands for ∞. -/
structure Mag where
  lo : Frac
  lc : Bool
  hi : Option Frac
  hc : Bool
  deriving DecidableEq, Repr

/-- The points of a set: whether 0 and ∞ are among them, and the intervals of positive and of negative ones, by magnitude. -/
structure Points where
  zero : Bool
  inf : Bool
  pos : List Mag
  neg : List Mag
  deriving DecidableEq, Repr

/-- Magnitude position q of a ring, 1 to N − 1, is position q on the positive side and 2N − q on the negative one. The maximal runs of
those that satisfy a test. -/
def magRuns (test : Nat → Bool) (q : Nat) : Nat → Option Nat → List (Nat × Nat)
  | 0, none => []
  | 0, some s => [(s, q - 1)]
  | n + 1, none => magRuns test (q + 1) n (if test q then some q else none)
  | n + 1, some s => if test q then magRuns test (q + 1) n (some s) else (s, q - 1) :: magRuns test (q + 1) n none

/-- The interval of a run of magnitude positions. -/
def magOf (v : List Frac) (a b : Nat) : Mag where
  lo := if a % 2 = 0 then v.getD (a / 2 - 1) (0, 1) else if a = 1 then (0, 1) else v.getD (a / 2 - 1) (0, 1)
  lc := a % 2 = 0
  hi := if b % 2 = 0 then some (v.getD (b / 2 - 1) (0, 1)) else v[b / 2]?
  hc := b % 2 = 0

/-- The points of a position set. -/
def pointsOf (n : Nat) (v : List Frac) (p : PosSet) : Points where
  zero := p.testBit 0
  inf := p.testBit n
  pos := (magRuns (fun q => p.testBit q) 1 (n - 1) none).map fun x => magOf v x.1 x.2
  neg := (magRuns (fun q => p.testBit (2 * n - q)) 1 (n - 1) none).map fun x => magOf v x.1 x.2

/-- Compare a magnitude, or its root, with a ring value (R189). -/
def cmpFrac (root : Bool) (x r : Frac) : Ordering :=
  if root then compare (x.1 * (r.2 * r.2)) (r.1 * r.1 * x.2) else compare (x.1 * r.2) (r.1 * x.2)

/-- The count of ring values below a magnitude, and whether it equals the next one. -/
def countBelow (root : Bool) (v : List Frac) (x : Frac) : Nat × Bool :=
  let c := (v.takeWhile fun r => cmpFrac root x r == .gt).length
  (c, match v[c]? with
    | some r => cmpFrac root x r == .eq
    | none => false)

/-- The magnitude positions that meet an interval: the first and the last. -/
def meetMag (n : Nat) (v : List Frac) (root : Bool) (m : Mag) : Nat × Nat :=
  let a := let (c, eq) := countBelow root v m.lo
           if eq then (if m.lc then 2 * c + 2 else 2 * c + 3) else 2 * c + 1
  let b := match m.hi with
    | none => n - 1
    | some h => let (c, eq) := countBelow root v h
                if eq && m.hc then 2 * c + 2 else 2 * c + 1
  (a, b)

/-- The positions that meet a set of points (R178, R189). -/
def posOf (n : Nat) (v : List Frac) (root : Bool) (x : Points) : PosSet :=
  let side (neg : Bool) (s : PosSet) (m : Mag) : PosSet :=
    let (a, b) := meetMag n v root m
    if a > b then s else s ||| (if neg then arcSet n (2 * n - b) (2 * n - a) else arcSet n a b)
  let s0 : PosSet := (if x.zero then 1 else 0) ||| (if x.inf then 2 ^ n else 0)
  x.neg.foldl (side true) (x.pos.foldl (side false) s0)

/-! ## The arithmetic (R188, R189) -/

def Frac.mul (a b : Frac) : Frac := (a.1 * b.1, a.2 * b.2)
def Frac.inv (a : Frac) : Frac := (a.2, a.1)

/-- Whether a set holds a finite point. -/
def Points.hasFin (x : Points) : Bool := x.zero || !x.pos.isEmpty || !x.neg.isEmpty
/-- Whether a set holds a finite point other than 0. -/
def Points.hasSigned (x : Points) : Bool := !x.pos.isEmpty || !x.neg.isEmpty

/-- The products of two intervals of magnitudes. -/
def Mag.mul (a b : Mag) : Mag :=
  ⟨Frac.mul a.lo b.lo, a.lc && b.lc, match a.hi, b.hi with
    | some x, some y => some (Frac.mul x y)
    | _, _ => none, a.hc && b.hc⟩
/-- The reciprocals of an interval of magnitudes. -/
def Mag.inv (a : Mag) : Mag :=
  ⟨match a.hi with
    | some h => Frac.inv h
    | none => (0, 1), a.hc, if a.lo.1 = 0 then none else some (Frac.inv a.lo), a.lc⟩

/-- The reciprocals of the points other than 0 and ∞. -/
def Points.invs (x : Points) : Points := ⟨false, false, x.pos.map Mag.inv, x.neg.map Mag.inv⟩

/-- The products of the points other than 0 and ∞ of two sets. -/
def Points.prods (x y : Points) : Points :=
  let all (a b : List Mag) : List Mag := a.flatMap fun u => b.map (Mag.mul u)
  ⟨false, false, all x.pos y.pos ++ all x.neg y.neg, all x.pos y.neg ++ all x.neg y.pos⟩

/-- A signed end. -/
abbrev SFrac := Int × Nat
/-- A real interval: no end stands for an infinite one. -/
structure RealIv where
  lo : Option SFrac
  lc : Bool
  hi : Option SFrac
  hc : Bool

def SFrac.add (a b : SFrac) : SFrac := (a.1 * b.2 + b.1 * a.2, a.2 * b.2)

/-- The finite points of a set, as real intervals. -/
def Points.reals (x : Points) : List RealIv :=
  (if x.zero then [⟨some (0, 1), true, some (0, 1), true⟩] else []) ++
  x.pos.map (fun m => ⟨some ((m.lo.1 : Int), m.lo.2), m.lc, m.hi.map fun h => ((h.1 : Int), h.2), m.hc⟩) ++
  x.neg.map (fun m => ⟨m.hi.map fun h => (-(h.1 : Int), h.2), m.hc, some (-(m.lo.1 : Int), m.lo.2), m.lc⟩)

/-- The sums of two real intervals. -/
def RealIv.add (a b : RealIv) : RealIv :=
  let plus (p q : Option SFrac) : Option SFrac := match p, q with
    | some x, some y => some (SFrac.add x y)
    | _, _ => none
  ⟨plus a.lo b.lo, a.lc && b.lc, plus a.hi b.hi, a.hc && b.hc⟩

/-- The points of a real interval. -/
def RealIv.points (i : RealIv) : Points :=
  let below (o : Option SFrac) : Bool := match o with
    | none => true
    | some x => x.1 < 0
  let above (o : Option SFrac) : Bool := match o with
    | none => true
    | some x => x.1 > 0
  let zeroAt (o : Option SFrac) (c : Bool) : Bool := match o with
    | none => false
    | some x => x.1 == 0 && c
  let zero := (below i.lo || zeroAt i.lo i.lc) && (above i.hi || zeroAt i.hi i.hc)
  let mag (o : Option SFrac) : Option Frac := o.map fun x => (x.1.natAbs, x.2)
  let pos : List Mag := if above i.hi then
      [if below i.lo then ⟨(0, 1), false, mag i.hi, i.hc⟩
       else ⟨(mag i.lo).getD (0, 1), i.lc && !zeroAt i.lo i.lc, mag i.hi, i.hc⟩] else []
  let neg : List Mag := if below i.lo then
      [if above i.hi then ⟨(0, 1), false, mag i.lo, i.lc⟩
       else ⟨(mag i.hi).getD (0, 1), i.hc && !zeroAt i.hi i.hc, mag i.lo, i.lc⟩] else []
  ⟨zero, false, pos, neg⟩

/-- The union of two sets of points. -/
def Points.join (x y : Points) : Points := ⟨x.zero || y.zero, x.inf || y.inf, x.pos ++ y.pos, x.neg ++ y.neg⟩

/-- The seven functions (R188). -/
inductive RsFn where | add | sub | mul | div | rcp | sqr | sqrt
  deriving DecidableEq, Repr

/-- Whether a function takes two operands. -/
def RsFn.binary : RsFn → Bool
  | .add | .sub | .mul | .div => true
  | _ => false

/-- F of R189, or none where the function is undefined at some point. -/
def RsFn.image (f : RsFn) (x y : Points) : Option Points :=
  let y := match f with
    | .sub => ⟨y.zero, y.inf, y.neg, y.pos⟩
    | _ => y
  match f with
  | .add | .sub =>
    if x.inf && y.inf then none
    else
      let fin := (x.reals.flatMap fun a => y.reals.map fun b => (a.add b).points).foldl Points.join ⟨false, false, [], []⟩
      some { fin with inf := (x.inf && y.hasFin) || (y.inf && x.hasFin) }
  | .mul =>
    if (x.zero && y.inf) || (x.inf && y.zero) then none
    else some { x.prods y with
      zero := (x.zero && y.hasFin) || (y.zero && x.hasFin)
      inf := (x.inf && (y.inf || y.hasSigned)) || (y.inf && (x.inf || x.hasSigned)) }
  | .div =>
    if (x.zero && y.zero) || (x.inf && y.inf) then none
    else some { x.prods y.invs with
      zero := (x.zero && y.hasSigned) || (y.inf && x.hasFin)
      inf := (y.zero && (x.inf || x.hasSigned)) || (x.inf && y.hasFin) }
  | .rcp => some { x.invs with zero := x.inf, inf := x.zero }
  | .sqr => some ⟨x.zero, x.inf, (x.pos ++ x.neg).map fun m => m.mul m, []⟩
  | .sqrt => some ⟨x.zero, x.inf, x.pos, []⟩

/-- P of R189. -/
def RsFn.apply (f : RsFn) (n : Nat) (v : List Frac) (p q : PosSet) : PosSet :=
  if p = 0 ∨ (f.binary ∧ q = 0) then 0
  else match f.image (pointsOf n v p) (pointsOf n v q) with
    | none => allPos n
    | some x => posOf n v (f == .sqrt) x

/-! ## Tests and conversions (R192 to R195) -/

/-- RSTEST's conditions (R192). -/
def rsCond (c : RsCond) (n : Nat) (p q : PosSet) : Bool :=
  match c with
  | .empty => p == 0
  | .whole => p == allPos n
  | .zero => p.testBit 0
  | .inf => p.testBit n
  | .exact => (List.range n).any fun i => p == 2 ^ (2 * i)
  | .sub => p &&& q == p
  | .meet => p &&& q != 0

/-- An end of a closed arc (R193): a real of a sign, or an infinity. -/
inductive ArcEnd where
  | inf (neg : Bool)
  | num (x : SFrac)

/-- The end a float gives; none for a NaN. -/
def ArcEnd.ofVal : FVal → Option ArcEnd
  | .nan _ => none
  | .inf n => some (.inf n)
  | .fin n m e => let f := fracOf m e; some (.num (if n then -(f.1 : Int) else f.1, f.2))

/-- a ≤ b for ends. -/
def ArcEnd.le : ArcEnd → ArcEnd → Bool
  | .inf true, _ => true
  | _, .inf false => true
  | .inf false, _ => false
  | _, .inf true => false
  | .num a, .num b => a.1 * b.2 ≤ b.1 * a.2

/-- The points of the closed arc [a, b] (R193). -/
def arcPoints (a b : ArcEnd) : Points :=
  let isInf : ArcEnd → Bool
    | .inf _ => true
    | .num _ => false
  let fin : ArcEnd → Option SFrac
    | .inf _ => none
    | .num x => some x
  let empty : Points := ⟨false, false, [], []⟩
  if a.le b then
    let finite : Points := match a, b with
      | .inf false, _ => empty
      | _, .inf true => empty
      | _, _ => RealIv.points ⟨fin a, !isInf a, fin b, !isInf b⟩
    { finite with inf := isInf a || isInf b }
  else
    let up : Points := match a with
      | .inf _ => empty
      | .num x => RealIv.points ⟨some x, true, none, false⟩
    let down : Points := match b with
      | .inf _ => empty
      | .num x => RealIv.points ⟨none, false, some x, true⟩
    { up.join down with inf := true }

/-- The value of a ring index as an end: the finite ones signed, ∞ as the infinity of the side asked for (R195). -/
def ringEnd (n : Nat) (v : List Frac) (i : Nat) (lower : Bool) : ArcEnd :=
  let i := i % n
  if i = 0 then .num (0, 1)
  else if i = n / 2 then .inf lower
  else if i < n / 2 then let f := v.getD (i - 1) (0, 1); .num ((f.1 : Int), f.2)
  else let f := v.getD (n - i - 1) (0, 1); .num (-(f.1 : Int), f.2)

/-- Whether [a, b] contains every point of one position (R195). -/
def arcHolds (n : Nat) (v : List Frac) (a b : ArcEnd) (p : Nat) : Bool :=
  if p = n then (match a, b with
    | .num _, .num _ => !a.le b
    | _, _ => true)
  else
    let l := ringEnd n v (p / 2) true
    let r := if p % 2 = 0 then ringEnd n v (p / 2) false else ringEnd n v (p / 2 + 1) false
    if a.le b then a.le l && r.le b else a.le l || r.le b

/-- Round an end to a format in a mode; zero is +0 (R195). -/
def ArcEnd.round (f : Fmt) (mode : Mode) : ArcEnd → Nat
  | .inf n => f.infBits n
  | .num x =>
    if x.1 = 0 then f.zeroBits false
    else
      let b := (f.round ⟨mode, false, false⟩ (x.1 < 0) (x.1.natAbs * 2 ^ 1200 / x.2) (-1200)).1
      if b % 2 ^ (f.eb + f.fb) = 0 then f.zeroBits false else b

/-- RSBND (R195): the lower and the upper bound. -/
def rsBounds (f : Fmt) (n : Nat) (v : List Frac) (p : PosSet) : Nat × Nat :=
  let wide := (f.infBits true, f.infBits false)
  if p = 0 then (f.cnan, f.cnan)
  else if p = allPos n then wide
  else if p = 2 ^ n then (f.infBits false, f.infBits false)
  else
    let (s, t, _) := hullOf n p
    let lo := (ringEnd n v (s / 2) true).round f .rdn
    let hi := (ringEnd n v (if t % 2 = 0 then t / 2 else t / 2 + 1) false).round f .rup
    match ArcEnd.ofVal (f.decode lo), ArcEnd.ofVal (f.decode hi) with
    | some a, some b => if (List.range (2 * n)).all fun q => !p.testBit q || arcHolds n v a b q then (lo, hi) else wide
    | _, _ => wide

/-! ## Issue -/

/-- Whether EW is the width of a set format (R187). -/
def ewSet (t : Strand) (f : RsFmt) : Bool := t.ew == rsWidth f

/-- Issue a binary ring-set instruction. -/
def issueRs2 (h : Hdr) (i : Instr) (f : RsFmt) (d a b : VReg) (s : State) : Out :=
  issueVec h i [] true (fun t => ewSet t f && vregOk t d && vregOk t a && vregOk t b) noVal noVal false false s
/-- Issue a unary ring-set instruction. -/
def issueRs1 (h : Hdr) (i : Instr) (f : RsFmt) (d a : VReg) (s : State) : Out :=
  issueVec h i [] true (fun t => ewSet t f && vregOk t d && vregOk t a) noVal noVal false false s

/-- RSLOAD (R181). -/
def execRsload (h : Hdr) (hint : Hint) (q : BitVec 2) (b : SReg) (s : State) : Out :=
  issueVec h (.rsload h hint q b) [b] true (fun _ => true) (·.rS b) noVal false false s
/-- RSADD (R187). -/
def execRsadd (h : Hdr) (k : KReg) (t : RsFmt) (q : BitVec 2) (d a b : VReg) (s : State) : Out :=
  issueRs2 h (.rsadd h k t q d a b) t d a b s
/-- RSSUB (R187). -/
def execRssub (h : Hdr) (k : KReg) (t : RsFmt) (q : BitVec 2) (d a b : VReg) (s : State) : Out :=
  issueRs2 h (.rssub h k t q d a b) t d a b s
/-- RSMUL (R187). -/
def execRsmul (h : Hdr) (k : KReg) (t : RsFmt) (q : BitVec 2) (d a b : VReg) (s : State) : Out :=
  issueRs2 h (.rsmul h k t q d a b) t d a b s
/-- RSDIV (R187). -/
def execRsdiv (h : Hdr) (k : KReg) (t : RsFmt) (q : BitVec 2) (d a b : VReg) (s : State) : Out :=
  issueRs2 h (.rsdiv h k t q d a b) t d a b s
/-- RSRCP (R187). -/
def execRsrcp (h : Hdr) (k : KReg) (t : RsFmt) (q : BitVec 2) (d a : VReg) (s : State) : Out :=
  issueRs1 h (.rsrcp h k t q d a) t d a s
/-- RSSQR (R187). -/
def execRssqr (h : Hdr) (k : KReg) (t : RsFmt) (q : BitVec 2) (d a : VReg) (s : State) : Out :=
  issueRs1 h (.rssqr h k t q d a) t d a s
/-- RSSQRT (R187). -/
def execRssqrt (h : Hdr) (k : KReg) (t : RsFmt) (q : BitVec 2) (d a : VReg) (s : State) : Out :=
  issueRs1 h (.rssqrt h k t q d a) t d a s
/-- RSUNION (R191). -/
def execRsunion (h : Hdr) (k : KReg) (t : RsFmt) (q : BitVec 2) (d a b : VReg) (s : State) : Out :=
  issueRs2 h (.rsunion h k t q d a b) t d a b s
/-- RSISECT (R191). -/
def execRsisect (h : Hdr) (k : KReg) (t : RsFmt) (q : BitVec 2) (d a b : VReg) (s : State) : Out :=
  issueRs2 h (.rsisect h k t q d a b) t d a b s

/-- The issue checks of RSFROM and RSBND (R187): EW is the wider width, the narrower operands are packed. -/
def mixOk (t : Strand) (dw sw : Nat) (d : VReg) (srcs : List VReg) : Bool :=
  t.ew == max dw sw && groupOk t d (packedRegs t.vtype dw) && srcs.all fun a => groupOk t a (packedRegs t.vtype sw)

/-- RSFROM (R194). -/
def execRsfrom (h : Hdr) (k : KReg) (t : RsFmt) (f : SFmt) (q : BitVec 2) (d a b : VReg) (s : State) : Out :=
  issueVec h (.rsfrom h k t f q d a b) [] true (fun u => mixOk u (rsWidth t) (sfmt f).width d [a, b]) noVal noVal false false s
/-- RSBND (R195). -/
def execRsbnd (h : Hdr) (k : KReg) (hi : Bool) (t : RsFmt) (f : SFmt) (q : BitVec 2) (d a : VReg) (s : State) : Out :=
  issueVec h (.rsbnd h k hi t f q d a) [] true (fun u => mixOk u (sfmt f).width (rsWidth t) d [a]) noVal noVal false false s
/-- Whether a test reads vb (R192). -/
def rsTestB : RsCond → Bool
  | .sub | .meet => true
  | _ => false
/-- RSTEST (R192). -/
def execRstest (h : Hdr) (k : KReg) (c : RsCond) (t : RsFmt) (q : BitVec 2) (d : KReg) (a b : VReg) (s : State) : Out :=
  issueVec h (.rstest h k c t q d a b) [] true (fun u => ewSet u t && vregOk u a && (!rsTestB c || vregOk u b)) noVal noVal false false s

/-! ## Commit groups -/

/-- The ring of a group's instruction: read from the slot when its first beat starts, with the checks of R180, and the entry's own for
every later one (R183). -/
def Work.ring (w : Work) (s : State) (f : RsFmt) (q : BitVec 2) : State × Except TrapInfo Ring :=
  match w.e.ring with
  | some r => (s, .ok r)
  | none =>
    let site : ErrSite := .ring w.id.core q.toFin
    let s := s.corrected (dieOf w.id.core) [site]
    if (s.errAt site).isSome then (s, .error (trapInfo 0x0C (checkEval 6 q.toNat)))
    else
      match (s.core w.id.core).rings[q.toNat]'q.isLt with
      | none => (s, .error (trapInfo 0x01 0))
      | some r =>
        if r.n > rsLimit f then (s, .error (trapInfo 0x01 0))
        else
          let put (e : VqEntry) : VqEntry := if e.seq = w.e.seq then { e with ring := some r } else e
          (s.modStrand w.id fun t => { t with vq := t.vq.map put }, .ok r)

/-- A group of a ring-set instruction: the slot, then its elements. -/
def Work.withRing (w : Work) (s : State) (f : RsFmt) (q : BitVec 2) (k : State → Ring → BeatOut) : BeatOut :=
  match w.ring s f q with
  | (s, .error i) => .fault s i false
  | (s, .ok r) => k s r

/-- A set result with RSH in the place of its flag (R186, R187). -/
def rsOut (f : RsFmt) (n : Nat) (p : PosSet) : Nat × BitVec 6 :=
  let (x, h) := rsWrite f n p
  (x, if h then 0b100000 else 0)

/-- A group of a ring-set instruction with set operands. -/
def beatRs (w : Work) (s : State) (k : KReg) (f : RsFmt) (q : BitVec 2) (d : VReg) (srcs : List VReg)
    (op : Nat → List Frac → PosSet → PosSet → PosSet) : BeatOut :=
  w.withRing s f q fun s r =>
    let v := r.pos
    let W := rsWidth f
    w.each s k (srcs.map fun a => ⟨a, W⟩) (.vec d W) fun t e =>
      let get (i : Nat) : PosSet := match srcs[i]? with
        | some a => rsRead f r.n (w.get t W a e)
        | none => 0
      rsOut f r.n (op r.n v (get 0) (get 1))

/-- A group of RSTEST (R192). -/
def beatRstest (w : Work) (s : State) (k : KReg) (c : RsCond) (f : RsFmt) (q : BitVec 2) (d : KReg) (a b : VReg) : BeatOut :=
  w.withRing s f q fun s r =>
    let W := rsWidth f
    w.each s k (⟨a, W⟩ :: if rsTestB c then [⟨b, W⟩] else []) (.mask d) fun t e =>
      ((rsCond c r.n (rsRead f r.n (w.get t W a e)) (rsRead f r.n (w.get t W b e))).toNat, 0)

/-- A group of RSFROM (R194). -/
def beatRsfrom (w : Work) (s : State) (k : KReg) (f : RsFmt) (m : Fmt) (q : BitVec 2) (d a b : VReg) : BeatOut :=
  w.withRing s f q fun s r =>
    let v := r.pos
    let dn := packedRegs w.vt (rsWidth f)
    let sn := packedRegs w.vt m.width
    let (w, s) := w.keep s (if m.width = rsWidth f then [] else sharedRegs a sn d dn ++ sharedRegs b sn d dn)
    w.each s k [⟨a, m.width⟩, ⟨b, m.width⟩] (.vec d (rsWidth f)) fun t e =>
      match ArcEnd.ofVal (m.decode (w.get t m.width a e)), ArcEnd.ofVal (m.decode (w.get t m.width b e)) with
      | some x, some y => rsOut f r.n (posOf r.n v false (arcPoints x y))
      | _, _ => rsOut f r.n (allPos r.n)

/-- A group of RSBND (R195). -/
def beatRsbnd (w : Work) (s : State) (k : KReg) (hi : Bool) (f : RsFmt) (m : Fmt) (q : BitVec 2) (d a : VReg) : BeatOut :=
  w.withRing s f q fun s r =>
    let v := r.pos
    let (w, s) := w.keep s (if m.width = rsWidth f then [] else
      sharedRegs a (packedRegs w.vt (rsWidth f)) d (packedRegs w.vt m.width))
    w.each s k [⟨a, rsWidth f⟩] (.vec d m.width) fun t e =>
      let b := rsBounds m r.n v (rsRead f r.n (w.get t (rsWidth f) a e))
      (if hi then b.2 else b.1, 0)

/-! ## RSLOAD (R181 to R183) -/

/-- The address of a word of a ring image (R181). -/
def Work.imageAddr (w : Work) (i : Nat) : Word := w.e.cap.x + BitVec.ofNat 64 (8 * i)

/-- Read words of a ring image in order, but for those already read, and check each (R181). -/
def Work.image (w : Work) (h : Hdr) (hint : Hint) (ok : List Nat → Nat → Bool) : Nat → List Nat → State →
    BeatOut ⊕ (State × List Nat)
  | 0, acc, s => .inr (s, acc)
  | n + 1, acc, s =>
    let i := acc.length
    let a := w.imageAddr i
    let next (s : State) (x : Nat) : BeatOut ⊕ (State × List Nat) :=
      if ok acc x then w.image h hint ok n (acc ++ [x]) s else .inl (.fault s (trapInfo 0x01 (BitVec.ofNat 64 i)) false)
    match w.e.words.lookup i with
    | some x => next s x
    | none =>
      match s.resolve w.id a .vread h.pfx.cls hint false with
      | .wait s => .inl (.wait s)
      | .fault s c tr => .inl (.fault s (elemFault c i a .vread) tr)
      | .ok s t =>
        if s.tileMemOver w.id t.place 8 || w.heldOver s t.place 8 then .inl (.wait s)
        else match s.loadAt w.id t 8 none with
        | .wait s => .inl (.wait s)
        | .bad s c => .inl (.fault s (elemFault c i a .vread) false)
        | .ok s x => next s x

/-- Whether a word of an image may follow the words before it (R181). -/
def imageOk (acc : List Nat) (x : Nat) : Bool :=
  match acc with
  | [] => (List.range 13).any fun i => x == 2 ^ (i + 2)
  | _ :: vs =>
    match Fmt.f64.decode x with
    | .fin false m _ => m != 0 && (match vs.getLast? with
        | some y => decide (y < x)
        | none => true)
    | _ => false

/-- The beat of an RSLOAD: the ring it installs (R181). -/
def beatRsload (w : Work) (s : State) (h : Hdr) (hint : Hint) : BeatOut ⊕ (State × Ring) :=
  if w.e.cap.x.toNat % 64 ≠ 0 then .inl (.fault s (trapInfo 0x04 0) false)
  else
    match w.image h hint imageOk 1 [] s with
    | .inl o => .inl o
    | .inr (s, ws) =>
      let n := ws.headD 4
      match w.image h hint imageOk (n / 2 - 1) ws s with
      | .inl o => .inl o
      | .inr (s, ws) => .inr (s, ⟨n, (ws.drop 1).map (BitVec.ofNat 64)⟩)

/-- The slot an instruction names. -/
def ringSlot : Instr → Option (BitVec 2)
  | .rsadd _ _ _ q _ _ _ | .rssub _ _ _ q _ _ _ | .rsmul _ _ _ q _ _ _ | .rsdiv _ _ _ q _ _ _ => some q
  | .rsrcp _ _ _ q _ _ | .rssqr _ _ _ q _ _ | .rssqrt _ _ _ q _ _ => some q
  | .rsunion _ _ _ q _ _ _ | .rsisect _ _ _ q _ _ _ => some q
  | .rsfrom _ _ _ _ q _ _ _ | .rsbnd _ _ _ _ _ q _ _ | .rstest _ _ _ _ q _ _ _ => some q
  | _ => none

/-- Whether a beat of an instruction that names a slot is in progress on a core (R183). -/
def Core.slotBusy (c : Core) (q : BitVec 2) : Bool :=
  c.strands.toList.any fun t => t.beats.any fun b => t.vq.any fun e => e.seq == b.seq && ringSlot e.instr == some q

end Sys2Proof.Machine
end

