-- ==== Sys2Proof/Machine/RegUse.lean ====
section
/-! DEFINITION. Which vector registers and masks an instruction of VQ reads and writes (R217, R250), and how many commit groups it has. -/
namespace Sys2Proof.Machine

/-- The vector registers an instruction reads and writes, as groups, and the masks it writes. -/
structure RegUse where
  reads : List (VReg × Nat)
  writes : List (VReg × Nat)
  masks : List KReg

/-- The group of a vector source. -/
def srcUse (l : Nat) : VSrc → List (VReg × Nat)
  | .vec c => [(c, l)]
  | .scl _ => []

/-- The registers of an instruction under a `vtype`. -/
def regUse (vt : Word) (i : Instr) : RegUse :=
  let l := vtL vt
  let bin (d x : VReg) (y : VSrc) : RegUse := ⟨(x, l) :: srcUse l y, [(d, l)], []⟩
  let un (d x : VReg) : RegUse := ⟨[(x, l)], [(d, l)], []⟩
  match i with
  | .vadd _ _ _ d x y | .vsub _ _ _ d x y | .vmul _ _ _ d x y | .vmulh _ _ _ d x y => bin d x y
  | .vand _ _ d x y | .vor _ _ d x y | .vxor _ _ d x y | .vshl _ _ d x y | .vsel _ _ d x y => bin d x y
  | .vshr _ _ _ d x y | .vmin _ _ _ d x y | .vmax _ _ _ d x y => bin d x y
  | .vcmp _ _ _ d x y => ⟨(x, l) :: srcUse l y, [], [d]⟩
  | .vclz _ _ d x | .vffs _ _ d x | .vpopc _ _ d x => un d x
  | .vfadd _ _ _ _ d x y | .vfsub _ _ _ _ d x y | .vfmul _ _ _ _ d x y | .vfdiv _ _ _ _ d x y => bin d x y
  | .vfmin _ _ _ d x y | .vfmax _ _ _ d x y => bin d x y
  | .vffma _ _ _ _ _ d x y z => ⟨(x, l) :: (z, l) :: srcUse l y, [(d, l)], []⟩
  | .vfsqrt _ _ _ _ d x | .vfcvt _ _ _ _ _ d x => un d x
  | .vfcmp _ _ _ _ d x y => ⟨(x, l) :: srcUse l y, [], [d]⟩
  | .vfexp2 _ _ _ d x | .vflog2 _ _ _ d x | .vfrcp _ _ _ d x | .vfrsq _ _ _ d x => un d x
  | .vqpack _ _ _ _ _ d sc a => ⟨[(a, l)], [(d, l), (sc, l)], []⟩
  | .vqunpack _ _ _ _ d a sc => ⟨[(a, l), (sc, l)], [(d, l)], []⟩
  | .vscacc _ _ _ _ d a sc => ⟨[(a, l), (sc, l)], [(d, l)], []⟩
  | .klog _ _ d _ _ => ⟨[], [], [d]⟩
  | .vred _ _ _ _ d a | .vscan _ _ _ _ d a | .vcomp _ _ _ d a | .vexp _ _ d a => un d a
  | .vperm _ _ iw d a x => ⟨[(a, l), (x, idxRegs vt iw)], [(d, l)], []⟩
  | .vslide _ _ _ d a _ | .vbcast _ _ d a _ => un d a
  | .vtos _ a _ => ⟨[(a, l)], [], []⟩
  | .vld _ _ _ d _ _ | .vlds _ _ _ d _ _ => ⟨[], [(d, l)], []⟩
  | .vldx _ _ _ _ iw _ d _ x => ⟨[(x, idxRegs vt iw)], [(d, l)], []⟩
  | .vst _ _ _ v _ _ | .vsts _ _ _ v _ _ | .vappend _ _ _ v _ => ⟨[(v, l)], [], []⟩
  | .vstx _ _ _ _ iw _ v _ x => ⟨[(v, l), (x, idxRegs vt iw)], [], []⟩
  | .rsadd _ _ _ _ d a b | .rssub _ _ _ _ d a b | .rsmul _ _ _ _ d a b | .rsdiv _ _ _ _ d a b => ⟨[(a, l), (b, l)], [(d, l)], []⟩
  | .rsunion _ _ _ _ d a b | .rsisect _ _ _ _ d a b | .rsfrom _ _ _ _ _ d a b => ⟨[(a, l), (b, l)], [(d, l)], []⟩
  | .rsrcp _ _ _ _ d a | .rssqr _ _ _ _ d a | .rssqrt _ _ _ _ d a | .rsbnd _ _ _ _ _ _ d a => un d a
  | .rstest _ _ c _ _ d a b => ⟨(a, l) :: if rsTestB c then [(b, l)] else [], [], [d]⟩
  | .mopa _ form _ a b => ⟨(a, 1) :: (b, 1) :: (match form with
      | .q4 va vb => [(va, 1), (vb, 1)]
      | .plain _ => []), [], []⟩
  | .mopag _ _ _ a b n => ⟨[(a, 1), (b, 8), (n, 1)], [], []⟩
  | .mrd _ _ d _ _ | .mdrain _ _ _ _ d _ _ => ⟨[], [(d, 1)], []⟩
  | .mwr _ _ _ a _ => ⟨[(a, 1)], [], []⟩
  | _ => ⟨[], [], []⟩

/-- Whether two lists of groups share a register. -/
def groupsTouch (a b : List (VReg × Nat)) : Bool := a.any fun x => b.any fun y => groupsMeet x.1 x.2 y.1 y.2

/-- Whether a live delivery into the strand's registers holds back an instruction (R250). -/
def State.heldByCopy (s : State) (id : StrandId) (e : VqEntry) : Bool :=
  let u := regUse e.cap.vtype e.instr
  (s.liveGroups id).any fun x => groupsTouch u.writes [(x.1, x.2.1)] || (x.2.2 != 0 && u.masks.contains x.2.2)

/-- Whether an older matrix instruction that has not completed holds back an instruction (R217): one in XQ, one that trapped, or one that is still
in VQ (R223). -/
def State.heldByMatrix (s : State) (id : StrandId) (e : VqEntry) : Bool :=
  let u := regUse e.cap.vtype e.instr
  let holds (x : VqEntry) : Bool :=
    let m := regUse x.cap.vtype x.instr
    decide (x.seq < e.seq) && groupsTouch (u.reads ++ u.writes) (m.reads ++ m.writes)
  ((s.strand id).vq.any fun x => isMatrix x.instr && x.nextGrp == 0 && holds x) ||
  ((s.core id.core).xq.any fun x => x.slot == id.slot && holds x.entry) || (s.strand id).mdropped.any holds

/-- Whether an instruction has a single commit group whatever `vl` (R208, R213). -/
def oneGroup : Instr → Bool
  | .vred .. | .vtos .. => true
  | _ => false

/-- Whether an instruction is an RSLOAD. -/
def isRsload : Instr → Bool
  | .rsload .. => true
  | _ => false

/-- Whether an instruction is a VAPPEND. -/
def isAppend : Instr → Bool
  | .vappend .. => true
  | _ => false

/-- The commit groups of an entry; none when `vl` is 0 (R144, R153). -/
def State.groups (s : State) (id : StrandId) (e : VqEntry) : Nat :=
  if e.cap.vl = 0 then 0
  else if oneGroup e.instr then 1
  else
    let cg := commitGroup (s.lanes id) (vtEW e.cap.vtype)
    if cg = 0 then 1 else (e.cap.vl + cg - 1) / cg

end Sys2Proof.Machine
end

