-- ==== Sys2Proof/Machine/Beats.lean ====
section
/-! DEFINITION. The steps of the vector side (R144, R145): a lane group's share of a beat, the commit of the oldest beat, the trap of a beat,
and the commit of an RSLOAD (R182). -/
namespace Sys2Proof.Machine

/-- What one commit group of an entry does. -/
def runGroup (w : Work) (s : State) : BeatOut :=
  match w.e.instr with
  | .vadd _ k v d x y => beatBin w s k d x y (addRes v)
  | .vsub _ k v d x y => beatBin w s k d x y (subRes v)
  | .vmul _ k v d x y => beatBin w s k d x y (mulRes v)
  | .vmulh _ k v d x y => beatBin w s k d x y (mulhRes v)
  | .vand _ k d x y => beatBin w s k d x y fun a b => a &&& b
  | .vor _ k d x y => beatBin w s k d x y fun a b => a ||| b
  | .vxor _ k d x y => beatBin w s k d x y fun a b => a ^^^ b
  | .vshl _ k d x y => beatBin w s k d x y shlRes
  | .vshr _ k v d x y => beatBin w s k d x y (shrRes v)
  | .vmin _ k v d x y => beatBin w s k d x y (minRes v)
  | .vmax _ k v d x y => beatBin w s k d x y (maxRes v)
  | .vcmp _ k c d x y => beatVcmp w s k c d x y
  | .vsel _ m d x y => beatVsel w s m d x y
  | .vclz _ k d x => beatCount w s k d x clzRes
  | .vffs _ k d x => beatCount w s k d x ffsRes
  | .vpopc _ k d x => beatCount w s k d x popRes
  | .vfadd _ k f r d x y => beatFp w s k (ffmt f) r d x y fAdd
  | .vfsub _ k f r d x y => beatFp w s k (ffmt f) r d x y fSub
  | .vfmul _ k f r d x y => beatFp w s k (ffmt f) r d x y fMul
  | .vffma _ k form f r d x y z => beatVffma w s k form (ffmt f) r d x y z
  | .vfdiv _ k f r d x y => beatFp w s k (sfmt f) r d x y fDiv
  | .vfsqrt _ k f r d x => beatVfsqrt w s k (sfmt f) r d x
  | .vfmin _ k f d x y => beatMinMax w s k (ffmt f) false d x y
  | .vfmax _ k f d x y => beatMinMax w s k (ffmt f) true d x y
  | .vfcmp _ k c f d x y => beatVfcmp w s k c (ffmt f) d x y
  | .vfcvt _ k dst src r d x => beatVfcvt w s k dst src r d x
  | .vfexp2 _ k f d x => beatTrans w s k (sfmt f) d x fExp2
  | .vflog2 _ k f d x => beatTrans w s k (sfmt f) d x fLog2
  | .vfrcp _ k f d x => beatTrans w s k (sfmt f) d x fRcp
  | .vfrsq _ k f d x => beatTrans w s k (sfmt f) d x fRsq
  | .vqpack _ k t f r d sc a => beatVqpack w s k t (qfmt f) r d sc a
  | .vqunpack _ k f r d a sc => beatVqunpack w s k (qfmt f) r d a sc
  | .vscacc _ k src r d a sc => beatVscacc w s k src r d a sc
  | .klog _ op d a b => beatKlog w s op d a b
  | .vred _ k grp op d a => beatVred w s k grp op d a
  | .vscan _ k ex op d a => beatVscan w s k ex op d a
  | .vcomp _ k cnt d a => beatVcomp w s k cnt d a
  | .vexp _ k d a => beatVexp w s k d a
  | .vperm _ k iw d a i => beatVperm w s k iw d a i
  | .vslide _ k down d a _ => beatVslide w s k down d a
  | .vbcast _ k d a _ => beatVbcast w s k d a
  | .vtos _ a _ => beatVtos w s a
  | .vld h hint k d _ _ => beatLoad w s h hint k d (fun _ => w.unitAddr) []
  | .vlds h hint k d _ _ => beatLoad w s h hint k d (fun _ => w.strideAddr) []
  | .vldx h hint k sg iw n d _ i => beatLoad w s h hint k d (fun t => w.idxAddr t sg iw n i) [⟨i, idxBits iw⟩]
  | .vst h hint k v _ _ => beatStore w s h hint k v (fun _ => w.unitAddr) []
  | .vsts h hint k v _ _ => beatStore w s h hint k v (fun _ => w.strideAddr) []
  | .vstx h hint k sg iw n v _ i => beatStore w s h hint k v (fun t => w.idxAddr t sg iw n i) [⟨i, idxBits iw⟩]
  | .vappend h hint k v _ => beatVappend w s h hint k v
  | .rsadd _ k f q d a b => beatRs w s k f q d [a, b] RsFn.add.apply
  | .rssub _ k f q d a b => beatRs w s k f q d [a, b] RsFn.sub.apply
  | .rsmul _ k f q d a b => beatRs w s k f q d [a, b] RsFn.mul.apply
  | .rsdiv _ k f q d a b => beatRs w s k f q d [a, b] RsFn.div.apply
  | .rsrcp _ k f q d a => beatRs w s k f q d [a] RsFn.rcp.apply
  | .rssqr _ k f q d a => beatRs w s k f q d [a] RsFn.sqr.apply
  | .rssqrt _ k f q d a => beatRs w s k f q d [a] RsFn.sqrt.apply
  | .rsunion _ k f q d a b => beatRs w s k f q d [a, b] fun _ _ x y => x ||| y
  | .rsisect _ k f q d a b => beatRs w s k f q d [a, b] fun _ _ x y => x &&& y
  | .rsfrom _ k f m q d a b => beatRsfrom w s k f (sfmt m) q d a b
  | .rsbnd _ k hi f m q d a => beatRsbnd w s k hi f (sfmt m) q d a
  | .rstest _ k c f q d a b => beatRstest w s k c f q d a b
  | _ => .done s [] [] 0 none

/-- The work of a beat. -/
def State.work (s : State) (id : StrandId) (e : VqEntry) (g : Nat) : Work := ⟨id, e, g, s.lanes id, s.rb id,
  (((s.strand id).beats.find? fun b => b.seq == e.seq && b.grp == g).map (·.got)).getD []⟩

/-- Run a beat whose shares are all done: its outcome stands in the beat. None when it cannot go on now. -/
def State.runBeat (s : State) (id : StrandId) (e : VqEntry) (b : Beat) : State × Bool :=
  let put (s : State) (f : Beat → Beat) : State :=
    s.modStrand id fun t => { t with beats := t.beats.map fun x => if x.seq = b.seq ∧ x.grp = b.grp then f x else x }
  match s.queueCheck id .vq e.seq with
  | (s, some i) => (put s fun x => { x with ran := true, fault := some i }, true)
  | (s, none) =>
    match runGroup (s.work id e b.grp) s with
    | .wait s' => (s', false)
    | .fault s' i tr => (put s' fun x => { x with ran := true, fault := some i, fromTr := tr && s'.preber.duty.getLsbD 1 }, true)
    | .done s' pre stores fl out =>
      (put s' fun x => { x with ran := true, pre := pre, stores := stores, flags := fl, out := out }, true)

/-- A new beat for a group of an entry, with what its rollback restores. -/
def newBeat (e : VqEntry) (done : BitVec 8) : Beat where
  seq := e.seq
  grp := e.nextGrp
  done := done
  ran := false
  got := []
  pre := []
  stores := []
  flags := 0
  fault := none
  fromTr := false
  out := none
  tail := e.tail
  scanLocal := e.scanLocal
  scanCarry := e.scanCarry

/-- The entry whose next group may start a beat, or the RSLOAD whose words may be read: the first with a group left, with nothing but entries whose
groups have all started before it (R60, R144, R182). A chained matrix instruction holds no beat (R223). -/
def State.nextEntry (s : State) (id : StrandId) (prev : Option Instr) : List VqEntry → Option VqEntry
  | [] => none
  | e :: es =>
    if isMatrix e.instr then (if prev.any fun i => isChained i e.instr then s.nextEntry id (some e.instr) es else none)
    else if isRsload e.instr then some e
    else if e.nextGrp < s.groups id e then some e
    else s.nextEntry id (some e.instr) es

/-- The mask of a strand's lane groups. -/
def State.laneMask (s : State) (id : StrandId) : BitVec 8 :=
  ((s.core id.core).groupsOf id.slot).foldl (fun m g => m ||| ((1 : BitVec 8) <<< g.val)) 0

/-- Whether a lane group may start beat number i of the open ones (R144): the slip of the beat's instruction, and the lane barrier. -/
def Strand.mayStart (t : Strand) (e : VqEntry) (b : Beat) (i : Nat) : Bool :=
  let older := t.beats.take i
  (older.take (i - e.cap.slip)).all (·.ran) && (!e.barrier || b.grp != 0 || older.all (·.ran))

/-- A lane group finishes its share of a beat; the last of them runs it. -/
def State.share (s : State) (id : StrandId) (g : Fin 8) (e : VqEntry) (b : Beat) : State :=
  let done := b.done ||| ((1 : BitVec 8) <<< g.val)
  let mark (s : State) : State := s.modStrand id fun t =>
    { t with beats := t.beats.map fun x => if x.seq = b.seq ∧ x.grp = b.grp then { x with done := done } else x }
  if done &&& s.laneMask id = s.laneMask id then
    match s.runBeat id e b with
    | (s', true) => mark s'
    | (s', false) => s'
  else mark s

/-- The order and scope of an access of VQ that acquires or releases. -/
def vqOrd : Instr → Option OrdPayload
  | .vld h .. | .vlds h .. | .vldx h .. | .vst h .. | .vsts h .. | .vstx h .. | .vappend h .. => some (ordOf h)
  | _ => none

/-- Whether an older acquire vector load with elements still to perform holds back a vector memory access (R203 item 3). -/
def State.heldByAcquire (s : State) (id : StrandId) (e : VqEntry) : Bool :=
  ((vqOrd e.instr).isSome || isRsload e.instr) && ((s.strand id).vq.takeWhile (·.seq != e.seq)).any fun x =>
    (match vqOrd x.instr with
      | some o => acquires o.order
      | none => false) &&
    (decide (x.nextGrp < s.groups id x) || (s.strand id).beats.any fun b => b.seq == x.seq && !b.ran)

/-! ## Reads of single elements (R203, R293) -/

/-- The elements of a beat's unit-stride or strided access, with their addresses: those that stand before its registers are read. -/
def Work.plain (w : Work) (t : Strand) : Option (Hdr × Hint × List (Nat × Word)) :=
  let els (k : KReg) (f : Nat → Word) : List (Nat × Word) := (w.accesses t k).map fun e => (e, f e)
  match w.e.instr with
  | .vld h hint k _ _ _ | .vst h hint k _ _ _ => some (h, hint, els k w.unitAddr)
  | .vlds h hint k _ _ _ | .vsts h hint k _ _ _ => some (h, hint, els k w.strideAddr)
  | _ => none

/-- A load's access of one of its elements, when it may be made before the others: not where it writes its own index (R200). -/
def Work.single (w : Work) (t : Strand) : Option (Hdr × Hint × List (Nat × Word) × (Nat → List (VReg × Nat))) :=
  match w.e.instr with
  | .vld .. | .vlds .. => (w.plain t).map fun x => (x.1, x.2.1, x.2.2, fun _ => [])
  | .vldx h hint k sg iw n d _ i =>
    if w.ownIndex d [⟨i, idxBits iw⟩] then none
    else some (h, hint, (w.accesses t k).map fun e => (e, w.idxAddr t sg iw n i e), fun e => [w.wordOf (idxBits iw) i e])
  | _ => none

/-- Whether one of some accesses overlaps bytes. -/
def Work.anyOver (w : Work) (s : State) (h : Hdr) (hint : Hint) (els : List (Nat × Word)) (p : Place) (n : Nat) : Bool :=
  els.any fun x => match s.resolve w.id x.2 .vread h.pfx.cls hint false with
    | .ok _ t => overlaps t.place w.eb p n
    | _ => false

/-- Whether an older open beat that has not run lets a later load read a place (R203): it is a unit-stride or strided access, writes no register
that the load reads, does not acquire, and overlaps no byte. -/
def State.passesBeat (s : State) (id : StrandId) (e : VqEntry) (p : Place) (n : Nat) (b : Beat) : Bool :=
  b.ran || (match (s.strand id).vq.find? fun x => x.seq == b.seq with
    | none => true
    | some x =>
      let w := s.work id x b.grp
      let u := regUse x.cap.vtype x.instr
      (match w.plain (s.strand id) with
        | none => false
        | some (h, hint, els) => !acquires (ordOf h).order && !groupsTouch u.writes (regUse e.cap.vtype e.instr).reads &&
            !w.anyOver s h hint els p n))

/-- One element of a load's beat is read before the rest of its group (R203, R293): lower ones that overlap it come first, and so do older
beats that are bound to it. A fault is left to the beat itself. -/
def State.readEarly (s : State) (id : StrandId) (e : VqEntry) (b : Beat) (older : List Beat) (n : Nat) : State :=
  let t := s.strand id
  let w := s.work id e b.grp
  match w.single t with
  | none => s
  | some (h, hint, els, regs) =>
    match els.find? (·.1 == n) with
    | none => s
    | some x =>
      let lower := els.filter fun y => decide (y.1 < n) && (w.gotFor y.1).isEmpty
      let free := match s.resolve id x.2 .vread h.pfx.cls hint false with
        | .ok _ g => !w.anyOver s h hint lower g.place w.eb && older.all (s.passesBeat id e g.place w.eb)
        | _ => false
      if b.ran || !free || !(w.gotFor n).isEmpty then s
      else match w.loadElem s h hint ⟨n, x.2, regs n⟩ with
        | .inr (s', got) => s'.modStrand id fun t =>
            { t with beats := t.beats.map fun y => if y.seq = b.seq ∧ y.grp = b.grp then { y with got := y.got ++ got } else y }
        | .inl (.wait s') => s'
        | .inl _ => s

/-- Word i of the image of an RSLOAD is read before the rest, as the relaxed vector load that it is (R181, R203), once the words that say that it is
one of the image are there. A fault is left to the commit. -/
def State.readImage (s : State) (id : StrandId) (e : VqEntry) (h : Hdr) (hint : Hint) (i : Nat) : State :=
  let w := s.work id e 0
  let known : Bool := decide (i ≤ 1) || (e.words.lookup 0).any fun n => imageOk [] n && decide (i < n / 2)
  if e.cap.x.toNat % 64 ≠ 0 ∨ known = false ∨ (e.words.lookup i).isSome ∨ s.heldByAcquire id e then s
  else
    match s.resolve id (w.imageAddr i) .vread h.pfx.cls hint false with
    | .ok s' g =>
      if s'.tileMemOver id g.place 8 || w.heldOver s' g.place 8 || !(s.strand id).beats.all (s'.passesBeat id e g.place 8) then s
      else match s'.loadAt id g 8 none with
        | .ok s' x =>
          let keep (y : VqEntry) : VqEntry := if y.seq = e.seq then { y with words := (i, x) :: y.words } else y
          s'.modStrand id fun t => { t with vq := t.vq.map keep }
        | .wait s' => s'
        | .bad .. => s
    | .wait s' => s'
    | .fault .. => s

/-- VECTOR_BEAT (R144, R203): a lane group of a strand does its share of its oldest open beat, or opens the next one; with a number it reads that
element alone, or that word of the RSLOAD that comes next. -/
def execVectorBeat (id : StrandId) (v : LaneBeat) (s : State) : Out :=
  let t := s.strand id
  let g := v.lane
  let act (s : State) (e : VqEntry) (b : Beat) (older : List Beat) : State :=
    match v.one with
    | none => s.share id g e b
    | some n => s.readEarly id e b older n
  if t.run ≠ .running ∨ t.hs ∨ t.stopped ∨ (s.core id.core).laneOwn[g.val] ≠ some id.slot then .next s
  else
    match t.beats.zipIdx.find? fun x => !x.1.done.getLsbD g.val with
    | some (b, i) =>
      (match t.vq.find? fun e => e.seq == b.seq with
        | some e => if t.mayStart e b i then .next (act s e b (t.beats.take i)) else .next s
        | none => .next s)
    | none =>
      if t.beats.length ≥ 8 then .next s
      else
        match s.nextEntry id none t.vq with
        | none => .next s
        | some e =>
          let b := newBeat e 0
          match e.instr, v.one with
          | .rsload h hint _ _, some i => .next (s.readImage id e h hint i)
          | .rsload .., none => .next s
          | _, _ =>
          if s.heldByCopy id e || s.heldByMatrix id e || s.heldByAcquire id e || !t.mayStart e b t.beats.length then .next s
          else
            let start (x : VqEntry) : VqEntry := if x.seq = e.seq then { x with nextGrp := x.nextGrp + 1 } else x
            let s := s.modStrand id fun t => { t with beats := t.beats ++ [b], vq := t.vq.map start }
            .next (act s e b t.beats)

/-! ## Commit -/

/-- Whether a release lets a group's stores become visible (R203 item 4): older stores are visible at its scope, and older tile accesses have
completed. -/
def State.releaseOk (s : State) (id : StrandId) (e : VqEntry) : Bool :=
  match e.instr with
  | .vst h .. | .vsts h .. | .vstx h .. =>
    let o := ordOf h
    !releases o.order || (s.visible id o.scope e.mark && (s.core id.core).xq.all fun x => x.slot != id.slot || !isTileMem x.entry.instr)
  | _ => true

/-- Store number k of the group that committed last is performed at its point (R62, R145, R146, R202), when none before it overlaps it (R200). A stall
past its bound traps the strand at its next unit boundary, and the store stays (R329; assumption 65). -/
def State.drainOne (s : State) (id : StrandId) (k : Nat) : State :=
  let l := (s.strand id).drain
  match l[k]? with
  | none => s
  | some h =>
    if (l.take k).any fun x => overlaps x.tgt.place (x.bits / 8) h.tgt.place (h.bits / 8) then s
    else match s.storeAt id h.tgt (h.bits / 8) h.val with
      | .ok s _ => s.modStrand id fun t => { t with drain := t.drain.eraseIdx k }
      | .wait s => s
      | .bad s c => s.modStrand id fun t => { t with pend := t.pend ++ [⟨trapInfo c h.va, .scalar, false⟩] }

/-- The stores of the group that committed last are performed in element order, as far as they can be now. -/
def State.drainAll (s : State) (id : StrandId) : Nat → State
  | 0 => s
  | n + 1 =>
    let s' := s.drainOne id 0
    if (s'.strand id).drain.length < (s.strand id).drain.length then s'.drainAll id n else s'

/-- One of them, or all. -/
def State.drainBy (s : State) (id : StrandId) : Option Nat → State
  | some k => s.drainOne id k
  | none => s.drainAll id (s.strand id).drain.length

/-- The errors of pre-images go with them as a beat commits, but for registers that a younger open beat holds pre-images of (R151). -/
def State.commitErrs (s : State) (id : StrandId) (pre : List PreImage) : State :=
  let has (l : List PreImage) (r : VReg) : Bool := l.any fun p => match p with
    | .vec q _ _ => q == r
    | .mask .. => false
  let others := (s.strand id).beats.flatMap (·.pre)
  if s.errs.isEmpty then s
  else { s with errs := s.errs.filter fun e => match e.1 with
    | .history i r _ => !(i == id && has pre r && !has others r)
    | _ => true }

/-- Roll back a strand's open beats (R145): a register or a mask takes its words back from the history buffer, with their errors (R151). -/
def State.rollback (s : State) (id : StrandId) : State :=
  let pre := (s.strand id).beats.flatMap (·.pre)
  let back (r : VReg) : Bool := pre.any fun p => match p with
    | .vec q _ _ => q == r
    | .mask .. => false
  let image (k : KReg) : Option (List (Nat × ErrKind)) := pre.findSome? fun p => match p with
    | .mask q _ errs => if q = k then some errs else none
    | .vec .. => none
  let masks : List (ErrSite × ErrKind) := (List.range 16).flatMap fun k =>
    ((image (BitVec.ofNat 4 k)).getD []).map fun x => (ErrSite.kreg id (BitVec.ofNat 4 k) x.1, x.2)
  let turn (e : ErrSite × ErrKind) : Option (ErrSite × ErrKind) := match e.1 with
    | .vreg i r _ => if i = id ∧ back r then none else some e
    | .history i r n => if i = id ∧ back r then some (.vreg i r n, e.2) else some e
    | .kreg i k _ => if i = id ∧ (image k).isSome then none else some e
    | _ => some e
  State.modStrand { s with errs := s.errs.filterMap turn ++ masks } id (·.rollback)

/-- An entry leaves the VQ head, its work done, which is when the acquire half of a load or of a VAPPEND completes (R203; of a VAPPEND a
DESIGN CHOICE, assumption 71). -/
def State.retireHead (s : State) (id : StrandId) (e : VqEntry) : State :=
  let s := (s.modStrand id fun t => { t with vq := t.vq.filter fun x => x.seq != e.seq }).imageErrs id e.seq []
  match e.instr, vqOrd e.instr with
  | .vst .., _ => s
  | .vsts .., _ => s
  | .vstx .., _ => s
  | _, some o => if acquires o.order then s.acquired id o.scope else s
  | _, none => s

/-- The fault of an entry at the VQ head that has no open beat stands in a beat of its own, as its trap finds it. -/
def State.headFault (s : State) (id : StrandId) (e : VqEntry) (i : TrapInfo) (host : Bool) : State :=
  s.modStrand id fun t =>
    { t with beats := { newBeat e (BitVec.allOnes 8) with ran := true, fault := some i, fromTr := host } :: t.beats }

/-- The oldest beat commits (R62): its flags and its result are delivered, its registers stand, and its stores become visible from now on, in element
order or, where they do not overlap, in any order (R200, R202; DEDUCED, assumption 23). -/
def State.commitBeat (s : State) (id : StrandId) (e : VqEntry) (b : Beat) (rest : List Beat) : State :=
  let s := s.modStrand id fun t =>
    let t := { (t.raise (b.flags.setWidth 5)).raiseRsh (b.flags.getLsbD 5) with beats := rest, drain := b.stores }
    match b.out with
    | some v => t.deliver e.seq v
    | none => t
  let s := s.commitErrs id b.pre
  if b.grp + 1 ≥ s.groups id e then s.retireHead id e else s

/-- BEAT_COMMIT (R62, R144, R153, R202): the oldest beat commits, or the head instruction with `vl` = 0 does. Its stores are then performed, all of
them or, with a number, that one; the next group commits once they are. A store that a slice or a link holds up past the bound faults its element
before the group commits (R329). -/
def execBeatCommit (c : CommitTurn) (s : State) : Out :=
  let id := c.id
  let t := s.strand id
  if t.run = .idle then .next s
  else if ¬ t.drain.isEmpty then .next (s.drainBy id c.one)
  else if t.run ≠ .running ∨ t.hs then .next s
  else
    match t.vq, t.beats with
    | e :: _, [] =>
      if isMatrix e.instr || isRsload e.instr then .next s
      else if e.cap.vl ≠ 0 then
        (if e.nextGrp < s.groups id e then .next s else .next (s.retireHead id e))
      else if isAppend e.instr ∧ e.tail.isNone then
        let b := newBeat e (BitVec.allOnes 8)
        let s' := s.modStrand id fun t => { t with beats := [b] }
        (match s'.runBeat id e b with
          | (s', true) => .next s'
          | (s', false) => .next (s'.modStrand id fun t => { t with beats := [] }))
      else match s.queueCheck id .vq e.seq with
        | (s, some i) => .next (s.headFault id e i false)
        | (s, none) => .next ((if e.sq ∧ ¬ isAppend e.instr then s.modStrand id (·.deliver e.seq 0) else s).retireHead id e)
    | e :: _, b :: rest =>
      if !b.ran || b.fault.isSome || b.seq != e.seq || !s.releaseOk id e then .next s
      else match b.stores.find? fun h => s.storeStuck (dieOf id.core) h.tgt with
        | some h =>
          if t.stalled then
            let bad (x : Beat) : Beat := if x.seq = b.seq ∧ x.grp = b.grp then { x with fault := some (elemFault 0x0D h.e h.va .vwrite) } else x
            .next (s.modStrand id fun t => { t with beats := t.beats.map bad, stalled := false })
          else .next s
        | none => .next ((s.commitBeat id e b rest).drainBy id c.one)
    | [], _ => .next s

/-- VECTOR_TRAP (R67, R145): the fault of the oldest uncommitted beat is taken at a unit boundary, with every open beat rolled back. The trap of a
region that a recess ended comes before it (R347). -/
def execVectorTrap (id : StrandId) (s : State) : Out :=
  let t := s.strand id
  if t.run ≠ .running ∨ t.hs ∨ t.midUnit ∨ t.holdEnded then .next s
  else
    match t.vq, t.beats with
    | e :: _, b :: _ =>
      (match b.fault with
        | none => .next s
        | some i =>
          if b.seq ≠ e.seq then .next s
          else
            let s := (s.rollback id).unchain id
            .next (if b.fromTr then s.parkPage id .vector i t.pc e.pc b.grp else s.takeTrap id .vector i t.pc e.pc b.grp))
    | _, _ => .next s

/-- Whether a matrix instruction may be posted: XQ has room, one that writes registers of a live delivery waits for it (R250), and one that moves a
tile from or to memory for the strand's stores that still become visible (R229). -/
def State.postOk (s : State) (id : StrandId) (e : VqEntry) : Bool :=
  decide ((s.core id.core).xq.length < 128) && !s.heldByCopy id e && (!isTileMem e.instr || (s.strand id).drain.isEmpty)

/-- XQ_POST (R60, R215, R223): the matrix instruction at the VQ head commits and is posted; one that was posted while it was chained commits
alone; and one that is chained to the VLD at the head is posted once the first group of that has committed. -/
def execXqPost (id : StrandId) (s : State) : Out :=
  let t := s.strand id
  let post (e : VqEntry) (s : State) : State := s.modCore id.core fun c => { c with xq := c.xq ++ [⟨id.slot, e, [], []⟩] }
  if t.run ≠ .running ∨ t.hs then .next s
  else match t.vq with
  | [] => .next s
  | e :: rest =>
    if isMatrix e.instr then
      (if e.nextGrp ≠ 0 then .next (s.modStrand id fun t => { t with vq := rest })
       else if t.beats.any (·.seq == e.seq) then .next s
       else match s.queueCheck id .vq e.seq with
         | (s, some i) => .next (s.headFault id e i false)
         | (s, none) => .next (if s.postOk id e then post e (s.modStrand id fun t => { t with vq := rest }) else s))
    else match rest with
      | [] => .next s
      | m :: more =>
        if isChained e.instr m.instr ∧ m.nextGrp = 0 ∧ t.committed e ≠ 0 ∧ s.postOk id m then
          (match s.queueCheck id .vq m.seq with
            | (_, some _) => .next s
            | (s, none) => .next (post m (s.modStrand id fun t => { t with vq := e :: { m with nextGrp := 1 } :: more })))
        else .next s

/-- RSLOAD_COMMIT (R181 to R183): the RSLOAD at the VQ head reads what it has not yet read of its image and installs its ring, whatever `vl` is (DESIGN
CHOICE, assumption 70); its fault stands in its beat. -/
def execRsloadCommit (id : StrandId) (s : State) : Out :=
  let t := s.strand id
  match t.vq, t.beats with
  | e :: _, [] =>
    (match e.instr with
      | .rsload h hint q _ =>
        if t.run ≠ .running ∨ t.hs ∨ t.stopped ∨ (s.core id.core).slotBusy q then .next s
        else
          (match s.queueCheck id .vq e.seq with
            | (s, some i) => .next (s.headFault id e i false)
            | (s, none) =>
              (match beatRsload (s.work id e 0) s h hint with
                | .inr (s, r) =>
                  let s := s.modCore id.core fun c => { c with rings := c.rings.set q.toNat (some r) q.isLt }
                  .next ((s.clearErr (.ring id.core q.toFin)).retireHead id e)
                | .inl (.fault s i tr) => .next (s.headFault id e i (tr && s.preber.duty.getLsbD 1))
                | .inl (.wait s) => .next s
                | .inl (.done s ..) => .next s))
      | _ => .next s)
  | _, _ => .next s

end Sys2Proof.Machine
end

