-- ==== Sys2Proof/Machine/System.lean ====
section
/-! DEFINITION. The system group (R126 to R135): traps and returns, control registers, the end of a strand, non-preemptible regions, the append
to a launch list, and the results of the scalar-bound queue. -/
namespace Sys2Proof.Machine

/-- TRAP (R127). -/
def execTrap (h : Hdr) (code : BitVec 16) (s : State) : Out :=
  runUnit h [] (fun s => .trap s (trapInfo 0x20 (code.setWidth 64))) s

/-- ERET and ERET.V (R69, R128): outside handler state it is an illegal instruction, and a misaligned `epc` parks. A dropped matrix
instruction is posted again with .V and gone without it. -/
def eretUnit (i : Instr) (dotV : Bool) (s : State) : UnitRes :=
  let t := s.me
  if !t.hs then .trap s (trapInfo 0x01 (unitWord i))
  else if t.epc.extractLsb' 0 3 ≠ 0 then .trap s (trapInfo 0x04 t.epc)
  else
    let lanes := s.lanes s.cur
    let s' := (s.modMe fun t => { t.eret lanes dotV with wait := none }).clearErr (ctlSite s 1)
    if t.estatus.getLsbD 9 then
      (if dotV then .gone (s'.repost s.cur) else .gone (s'.modMe fun t => { t with mdropped := none }))
    else .gone s'

/-- The control registers that a return reads (R69): `evcp` where the vector side goes on, and `eval` where it is the result of an instruction that
is not executed further. -/
def eretSites (s : State) (dotV : Bool) : List ErrSite :=
  let t := s.me
  let given : Bool := t.estatus.getLsbD 10 && !dotV && t.vq.head?.any fun e => t.sq.any fun q => q.seq == e.seq && q.val.isNone
  [ctlSite s 0x20, ctlSite s 0x21, ctlSite s 0x24] ++ (if given then [ctlSite s 0x23] else []) ++
    vlSites s (t.writeVtype (s.lanes s.cur) (t.estatus.extractLsb' 32 10)).ill

/-- ERET (R69, R128). -/
def execEret (h : Hdr) (s : State) : Out :=
  runUnit h (eretSites s false) (eretUnit (.eret h) false) s

/-- ERET.V (R69, R128). -/
def execEretV (h : Hdr) (s : State) : Out :=
  runUnit h (eretSites s true) (eretUnit (.eretV h) true) s

/-- CTLR (R129). -/
def execCtlr (h : Hdr) (d : SReg) (n : BitVec 12) (s : State) : Out :=
  runUnit h [.ctl s.cur n] (fun s =>
    if ctlAssigned n then doneS s d (s.ctlRead s.cur n) else .trap s (trapInfo 0x01 (unitWord (.ctlr h d n)))) s

/-- CTLW (R129, R56): a misaligned `tvec` traps as R11 states. -/
def execCtlw (h : Hdr) (n : BitVec 12) (b : SReg) (s : State) : Out :=
  let shape := if n = 1 then vlSites s (s.me.writeVtype (s.lanes s.cur) ((s.me.rS b).extractLsb' 0 10)).ill else []
  runUnit h (sSites s [b] ++ shape) (fun s =>
    let v := s.me.rS b
    if !ctlAssigned n then .trap s (trapInfo 0x01 (unitWord (.ctlw h n b)))
    else if n = 0x25 ∧ v.extractLsb' 0 3 ≠ 0 then .trap s (trapInfo 0x04 v)
    else
      let lanes := s.lanes s.cur
      .done (s.ctlPut s.cur lanes n v)) s

/-- The waits of HALT (R130): the vector side and the strand's XQ entries, the counters, and the stores at system scope. -/
def State.haltReady (s : State) : Bool :=
  s.vectorIdle s.cur && s.me.drain.isEmpty && s.me.ctr.all (· == 0) && s.me.sb.isEmpty && s.visible s.cur .system s.me.sbAge

/-- The strand ends: untaken SQ results are discarded, its lane groups and tiles are released, and its region ends (R130). -/
def State.endStrand (s : State) (id : StrandId) : State :=
  let s := s.relane id.core fun c => (c.releaseLanes id.slot).releaseTiles id.slot
  s.modStrand id fun t =>
    { t with run := .halted, sq := [], region := none, recessAsked := false, wait := none, ahead := [], matrixMode := false, mdropped := none }

/-- HALT (R130). -/
def execHalt (h : Hdr) (s : State) : Out :=
  runUnit h ((List.finRange 16).map fun n => ctrSite s (BitVec.ofFin n)) (fun s => if s.haltReady then .gone (s.endStrand s.cur) else .wait s) s

/-- YIELD (R131): it changes no state; which strand issues next is the schedule's. -/
def execYield (h : Hdr) (s : State) : Out := runUnit h [] (fun s => .done s) s

/-- NOPRE (R132): outside a region it opens one with the budget of `hold`. -/
def execNopre (h : Hdr) (s : State) : Out :=
  runUnit h (if s.me.region.isNone then [ctlSite s 0x30] else []) (fun s =>
    .done (s.modMe fun t => { t with region := some (t.region.getD (t.hold.extractLsb' 0 32)) })) s

/-- PREOK (R132). -/
def execPreok (h : Hdr) (s : State) : Out := runUnit h [] (fun s => .done (s.modMe fun t => { t with region := none })) s

/-- The number of the record that an append would make (R335): none in a list that is not enabled or has no free slot; it stops while the list's lines
cannot be reached or another producer's append is in progress. -/
def State.appendSpace (s : State) (n : Fin 64) : Eng (State × Option Word) := do
  let q := s.lists[n.val]
  if !q.en then return (s, none)
  let (s, tail) ← s.engRead q.addr
  let (s, rsv) ← s.engRead (q.addr + 8)
  let (s, head) ← s.engRead (q.addr + 136)
  if rsv ≠ tail then .error none
  return (s, if tail.toNat - head.toNat ≥ q.slots then none else some tail)

/-- The append of a record to a launch list as one step (R133, R335). The answer is the launch id, or all ones when nothing is appended. -/
def State.appendRecord (s : State) (n : Fin 64) (rec : Nat) (src : Word) : Eng (State × Word) := do
  let q := s.lists[n.val]
  let (s, room) ← s.appendSpace n
  let some tail := room | return (s, BitVec.allOnes 64)
  let body := rec % 2 ^ 896 + (src ||| (0x8000000000000000 : Word)).toNat * 2 ^ 896
  let s ← s.engWrite (q.slot tail.toNat) 128 body
  let s ← s.engWrite q.addr 16 ((tail + 1).toNat + (tail + 1).toNat * 2 ^ 64)
  return (s, (launchId n tail.toNat).setWidth 64)

/-- Why an append waits (R335): a word of the list's lines that holds an uncorrectable error traps, and so does a line that is not served past the
stall bound (R70, R329); what the append lacks is asked for. -/
def State.appendStop (s : State) (who : StrandId) (q : LaunchList) (e : EngStop) : Acc Unit :=
  let read (s : State) (pa : Nat) : Acc Nat :=
    let line := lineOf pa
    if s.homeNeed line true then
      match (s.homeAns line true .proxy <|> s.homeAns line false .engine) with
      | some (_, _, _, x) => s.give x (pa % 128) 8
      | none => (s.engWait (some (line, false))).stallOr who line .home
    else match s.sysRead (dieOfAddr pa) pa 8 (localAttr .default) with
      | .wait s => s.stallOr who line .data
      | x => x
  let stop : Acc Unit := (read s q.addr).bind fun s _ => (read s (q.addr + 8)).bind fun s _ => (read s (q.addr + 136)).bind fun s _ =>
    match e with
    | some (line, _) => (s.engWait e).stallOr who line
    | none => .wait s
  match stop with
  | .bad s c => .bad s.endEng c
  | x => x
/-- A LAUNCH whose append stops waits, or traps: a fault on the list's own lines, which have no virtual address, leaves `eval` a free value (DESIGN
CHOICE, assumption 80). -/
def State.appendEnd (s : State) (q : LaunchList) (e : EngStop) : UnitRes :=
  match s.appendStop s.cur q e with
  | .bad s c => .trap { s with fresh := s.fresh + 1 } (trapInfo c (BitVec.ofNat 64 (Config.freeNat s.fresh)))
  | .ok s _ => .wait s
  | .wait s => .wait s

/-- LAUNCH (R133, R335): the record is read once there is a slot for it. -/
def execLaunch (h : Hdr) (d b l : SReg) (s : State) : Out :=
  runUnit h (sSites s [b, l]) (fun s =>
    let a := s.me.rS b
    if a.extractLsb' 0 7 ≠ 0 then .trap s (trapInfo 0x04 a)
    else
      match s.resolve s.cur a .sread none .default false with
      | .wait s => .wait s
      | .fault s c tr => memFault s a .sread c tr
      | .ok s t =>
        if !s.visible s.cur .system s.me.sbAge || s.myCore.egressOverlaps t 128 then .wait s
        else
          let n := ((s.me.rS l).extractLsb' 0 6).toFin
          match s.appendSpace n with
          | .error e => s.appendEnd (s.lists[n.val]) e
          | .ok (s, none) => doneS s.endEng d (BitVec.allOnes 64)
          | .ok (_, some _) => withAcc (s.readAt s.cur t 128 none) a fun s rec =>
            match s.appendRecord n rec a with
            | .ok (s, id) => doneS s.endEng d id
            | .error e => s.appendEnd (s.lists[n.val]) e) s

/-- MOVQ (R61, R66, R134): it takes the oldest result and frees its slot. -/
def execMovq (h : Hdr) (d : SReg) (s : State) : Out :=
  runUnit h [] (fun s =>
    let t := s.me
    if t.hs then .trap s (trapInfo 0x0B 0)
    else match t.sq with
      | [] => .trap s (trapInfo 0x0B 0)
      | q :: rest =>
        match q.val with
        | none => .wait (s.modMe fun t => { t with wait := some ⟨.sq, .movq h d⟩ })
        | some v => (match s.queueCheck s.cur .sq q.seq with
            | (s, some i) => .trap s i
            | (s, none) => doneS (s.modMe fun t => { t with sq := rest }) d v)) s

/-- SQ_WAIT_END (R61): the result a MOVQ waits for has been delivered, and the MOVQ completes. -/
def execSqWaitEnd (id : StrandId) (s : State) : Out :=
  match (s.strand id).run, (s.strand id).wait, (s.strand id).sq with
  | .running, some ⟨.sq, .movq h d⟩, q :: _ => if q.val.isSome then onWaiting id (execMovq h d) s else .next s
  | _, _, _ => .next s

end Sys2Proof.Machine
end

