-- ==== Sys2Proof/Machine/Copy.lean ====
section
/-! DEFINITION. The copy engine (R240 to R255): the shadow registers, the start of a transfer, gangs and their armings, and the steps of a
transfer. -/
namespace Sys2Proof.Machine

/-- CPSET (R244). -/
def execCpset (h : Hdr) (n : BitVec 3) (y : Src) (s : State) : Out :=
  runUnit h (sSites s (srcRegs y)) (fun s =>
    .done (s.modMe fun t => { t with shadow := if n = 7 then t.shadow else t.shadow.set! n.toNat (srcVal h t y) })) s

/-! ## Descriptors (R242, R245, R249) -/

/-- The shadow set as a descriptor (R241, R242). -/
structure CopyDesc where
  src : Word
  dst : Word
  sstr : Word
  dstr : Word
  rows : Nat
  rb : Nat
  cc : CtrNo
  k : KReg
  vr : VReg
  dv : Bool
  chk : Nat
  ge : Bool
  g : BitVec 4
  cores : BitVec 8
  /-- The first shadow register with a nonzero reserved field. -/
  bad : Option Nat
  deriving DecidableEq, Repr

/-- The descriptor that a strand's shadow set holds. Of several bad fields the lowest-numbered register's is named (DESIGN CHOICE, assumption
74). -/
def Strand.copyDesc (t : Strand) : CopyDesc :=
  let size := t.shadow[4]
  let ctl := t.shadow[5]
  let gang := t.shadow[6]
  let dv := ctl.getLsbD 16
  let ge := gang.getLsbD 12
  let k : KReg := ctl.extractLsb' 4 4
  { src := t.shadow[0], dst := t.shadow[1], sstr := t.shadow[2], dstr := t.shadow[3]
    rows := (size.extractLsb' 32 20).toNat
    rb := (size.extractLsb' 0 32).toNat
    cc := ctl.extractLsb' 0 4
    k := k
    vr := ctl.extractLsb' 10 6
    dv := dv
    chk := (ctl.extractLsb' 17 3).toNat
    ge := ge
    g := gang.extractLsb' 8 4
    cores := gang.extractLsb' 0 8
    bad :=
      if size.extractLsb' 52 12 ≠ 0 then some 4
      else if ctl.extractLsb' 20 44 ≠ 0 ∨ ctl.extractLsb' 8 2 ≠ 0 ∨ (!dv && !ge && k != 0) then some 5
      else if gang.extractLsb' 13 51 ≠ 0 then some 6
      else none }

/-- The `eval` of a copy fault (R252). -/
def copyEval (sub : Nat) (cc : CtrNo) (dst : Bool) (low : Nat) : Word :=
  BitVec.ofNat 64 (sub * 2 ^ 56 + cc.toNat * 2 ^ 52 + (if dst then 2 ^ 51 else 0) + low % 2 ^ 48)
/-- A copy fault that a CPGO or CPGANG finds. -/
def copyFault (sub : Nat) (cc : CtrNo) (dst : Bool) (low : Nat) : TrapInfo := trapInfo 0x0F (copyEval sub cc dst low)

/-- Whether the core in a window is placed on the launch of a core (R237). -/
def State.windowPlaced (s : State) (c : CoreId) (w : Nat) : Bool :=
  match (s.core c).lid with
  | none => false
  | some lid => (s.coreImage lid ((s.core c).window w)).isSome

/-- The windows a CORES field names. -/
def windowsOf (m : BitVec 8) : List Nat := (List.range 8).filter fun w => m.getLsbD w

/-- Whether a delivery fits a register group (R249): `rb` is the bytes of one register and `nv` their count. -/
def deliveryFits (rb nv : Nat) (vr : VReg) (l w : Nat) (cdst : Word) (size : Nat) : Bool :=
  let a := max 1 (w / 8)
  vr.toNat % l == 0 && decide (vr.toNat < nv) && decide (cdst.toNat + size ≤ l * rb) && cdst.toNat % a == 0 && size % a == 0

/-- The first byte of strided rows that lies in the local window of a core that is not placed on the launch (R237, R245). Of several the first in row
order is the one that `eval` names, the source's before the destination's (DESIGN CHOICE, assumption 102). -/
def State.localBad (s : State) (c : CoreId) (base stride : Word) (rows rb : Nat) : Option Nat :=
  (List.range rows).findSome? fun r =>
    let a := (base + BitVec.ofNat 64 r * stride).toNat
    (List.range 8).findSome? fun w =>
      let lo := max a (0x7F0000000000 + w * 2 ^ 21)
      let hi := min (a + rb) (0x7F0000000000 + (w + 1) * 2 ^ 21)
      if lo < hi ∧ ¬ s.windowPlaced c w then some lo else none

/-- The checks of R245 that come before the counter's, in their order. Bit 51 of `eval` is 0 for sub-cause 0x01, whichever register or field it names
(DESIGN CHOICE, assumption 85). -/
def State.copyCheck (s : State) (id : StrandId) (d : CopyDesc) : Option TrapInfo :=
  let t := s.strand id
  let mem := !d.dv && !d.ge
  match d.bad with
  | some r => some (copyFault 1 d.cc false r)
  | none =>
    if (d.ge && d.cores == 0) || (windowsOf d.cores).any (fun w => !s.windowPlaced id.core w) then some (copyFault 1 d.cc false 6)
    else if !d.ge && d.dv && !deliveryFits (s.rb id) t.nv d.vr (vtL t.vtype) (vtEW t.vtype) d.dst (d.rows * d.rb) then
      some (copyFault 1 d.cc false 5)
    else
      match s.localBad id.core d.src d.sstr d.rows d.rb with
      | some a => some (copyFault 6 d.cc false a)
      | none =>
        match (if mem then s.localBad id.core d.dst d.dstr d.rows d.rb else none) with
        | some a => some (copyFault 6 d.cc true a)
        | none => if t.rC d.cc = 0xFFFF then some (copyFault 2 d.cc false 0) else none

/-! ## Gangs (R253, R254) -/

/-- The armings of a gang on the cores that windows name, with each core's logical index; none while one is missing. -/
def State.gangArmings (s : State) (c : CoreId) (g : BitVec 4) (ws : List Nat) : Option (List (Nat × Arming)) :=
  match (s.core c).lid with
  | none => none
  | some lid => ws.mapM fun w =>
    let idx := (s.core c).window w
    (s.coreImage lid idx).bind fun x => (x.armings.find? (·.g == g)).map fun a => (idx, a)

/-- Whether an arming takes a transfer (R254): a recessed member's registers are those of its saved lane count. -/
def State.armingFits (s : State) (lid : BitVec 32) (idx : Nat) (a : Arming) (cdst : Word) (size : Nat) : Bool :=
  match s.coreAt lid idx, s.savedAt lid idx with
  | some c, _ => deliveryFits (s.rb ⟨c, a.slot⟩) (s.strand ⟨c, a.slot⟩).nv a.vr a.l a.w cdst size
  | none, some v =>
    let t := v.core.strands[a.slot.val]
    deliveryFits (regBytes t.savedLanes t.nv) t.nv a.vr a.l a.w cdst size
  | none, none => false

/-- The armings are consumed in one step: a running member joins the delivery, and a recessed one takes it in full as a residual transfer
(R254, R255). -/
def State.consumeArmings (s : State) (lid : BitVec 32) (j : CopyJob) (ms : List (Nat × Arming)) :
    State × List GangMember :=
  ms.foldl (fun (s, out) (idx, a) =>
    let s := s.modImage lid idx fun c => { c with armings := c.armings.filter (· != a) }
    match s.coreAt lid idx with
    | some _ => (s, out ++ [⟨idx, a, [], false⟩])
    | none =>
      (s.modImage lid idx fun c => c.setStrand a.slot (c.strands[a.slot.val].leaveResidual j a.vr a.k a.ctr a.l a.w [] c.workKey), out)) (s, [])

/-- A mask is cleared, with the errors it may have held (R70); k0 stays as it is. -/
def State.clearMask (s : State) (id : StrandId) (k : KReg) : State :=
  if k = 0 then s else 
    { s.modStrand id (·.wK k 0) with errs := s.errs.filter fun e => match e.1 with
        | .kreg i r _ => !(i == id && r == k)
        | _ => true }

/-- The next transfer id: it wraps and skips 0 (R245). -/
def nextXferId (x : BitVec 32) : BitVec 32 := if x + 1 = 0 then 1 else x + 1

/-- CPGO after its checks: the transfer starts (R245). -/
def State.startCopy (s : State) (h : Hdr) (hint : Hint) (dst : SReg) (d : CopyDesc) (ms : List (Nat × Arming)) : State :=
  let c := s.cur.core
  let x := s.myCore.nextXfer
  let t := s.me
  let j : CopyJob :=
    { csrc := d.src, cdst := d.dst, csstr := d.sstr, cdstr := d.dstr, rows := d.rows, rb := d.rb, chk := d.chk,
      dest := if d.ge then .gang [] else if d.dv then .regs d.vr d.k (vtL t.vtype) (vtEW t.vtype) else .mem,
      read := [], landed := [], snap := none, cls := h.pfx.cls, hint := hint, mark := t.sbAge, spare := [], leader := none }
  let (s, j) :=
    if d.ge then
      (match s.myCore.lid with
        | some lid => (let (s, out) := s.consumeArmings lid (j.ledBy s.myCore.index s.cur.slot) ms; (s, { j with dest := .gang out }))
        | none => (s, j))
    else (s, j)
  let s := if d.dv && !d.ge then s.clearMask s.cur d.k else s
  let s := s.modMe (·.incC d.cc)
  let s := s.modCore c fun y => { y with nextXfer := nextXferId x, xfers := y.xfers ++ [⟨x, s.cur.slot, d.cc, .copy j⟩] }
  s.wS s.cur dst (x.setWidth 64)

/-- CPGO (R245, R254). -/
def execCpgo (h : Hdr) (hint : Hint) (d : SReg) (s : State) : Out :=
  let needsType (t : Strand) : Bool := t.copyDesc.dv || t.copyDesc.ge
  runUnit h (ctrSite s s.me.copyDesc.cc :: if needsType s.me then [ctlSite s 1] else []) (fun s =>
    let t := s.me
    let q := t.copyDesc
    if needsType t && t.ill then .trap s (trapInfo 0x07 t.vtype)
    else match s.copyCheck s.cur q with
      | some i => .trap s i
      | none =>
        let go (ms : List (Nat × Arming)) : UnitRes :=
          if s.myCore.xfers.length ≥ 32 then .wait s
          else if q.dv && !q.ge && !s.vectorIdle s.cur then .wait s
          else .done (s.startCopy h hint d q ms)
        if q.ge then
          match s.gangArmings s.cur.core q.g (windowsOf q.cores) with
          | none => .wait (s.modMe fun t => { t with wait := some ⟨.gang, .cpgo h hint d⟩ })
          | some ms =>
            if ms.all fun m => s.armingFits (s.myCore.lid.getD 0) m.1 m.2 q.dst (q.rows * q.rb) then go ms
            else .trap s (copyFault 1 q.cc false 0x11)
        else go []) s

/-- CPGANG (R253): the checks of the descriptor and of an armed gang come in this order and before the wait for the vector side (DESIGN CHOICE,
assumption 75); the counter's comes with its addition. -/
def execCpgang (h : Hdr) (g : BitVec 4) (b : SReg) (s : State) : Out :=
  runUnit h (ctlSite s 1 :: sSites s [b] ++ [ctrSite s ((s.me.rS b).extractLsb' 12 4)]) (fun s =>
    let t := s.me
    let v := t.rS b
    let cc : CtrNo := v.extractLsb' 12 4
    let k : KReg := v.extractLsb' 8 4
    if t.ill then .trap s (trapInfo 0x07 t.vtype)
    else if v &&& ~~~(0xFF3F : Word) ≠ 0 then .trap s (copyFault 1 cc false 0x10)
    else if s.myCore.armings.any (·.g == g) then .trap s (copyFault 3 cc false g.toNat)
    else if !s.vectorIdle s.cur then .wait s
    else if t.rC cc = 0xFFFF then .trap s (copyFault 2 cc false 0)
    else
      let a : Arming := ⟨g, s.cur.slot, v.extractLsb' 0 6, k, cc, vtL t.vtype, vtEW t.vtype⟩
      .done (((s.clearMask s.cur k).modMe (·.incC cc)).modCore s.cur.core fun c => { c with armings := c.armings ++ [a] })) s

/-- Whether a delivery of a gang into a strand's registers is under way (R253). One that goes on as a residual transfer after a resume is no delivery
of a gang any more, and CPGANG.OFF does not wait for it (DESIGN CHOICE, assumption 84). -/
def State.delivering (s : State) (id : StrandId) (g : BitVec 4) : Bool :=
  let c := s.core id.core
  c.lid.isSome && (List.finRange 128).any fun lc => (s.core lc).lid == c.lid && (s.core lc).xfers.any fun x => match x.kind with
    | .copy j => (match j.dest with
        | .gang ms => ms.any fun m => m.core == c.index && m.arm.slot == id.slot && m.arm.g == g && !m.fin
        | _ => false)
    | _ => false

/-- `cpgang.off` (R253). -/
def execCpgangOff (h : Hdr) (g : BitVec 4) (s : State) : Out :=
  runUnit h [] (fun s =>
    if s.delivering s.cur g then .wait s
    else match s.myCore.armings.find? fun a => a.g == g && a.slot == s.cur.slot with
      | none => .done s
      | some a => .done ((s.modMe (·.decC a.ctr)).modCore s.cur.core fun c => { c with armings := c.armings.filter (· != a) })) s

/-- GANG_CONSUME (R254): a gang CPGO that waits goes on once every arming is present. -/
def execGangConsume (id : StrandId) (s : State) : Out :=
  match (s.strand id).run, (s.strand id).wait with
  | .running, some ⟨.gang, .cpgo h hint d⟩ =>
    let q := (s.strand id).copyDesc
    if (s.gangArmings id.core q.g (windowsOf q.cores)).isSome then onWaiting id (execCpgo h hint d) s else .next s
  | _, _ => .next s

/-! ## The steps of a transfer (R246 to R249) -/

/-- The bytes a transfer moves. -/
def CopyJob.size (j : CopyJob) : Nat := j.rows * j.rb
/-- The bytes of a chunk. -/
def CopyJob.chunk (j : CopyJob) : Nat := 128 * 2 ^ j.chk
/-- The count of chunks. -/
def CopyJob.chunks (j : CopyJob) : Nat := (j.size + j.chunk - 1) / j.chunk
/-- The bytes of stream that chunk n holds, from the first to one past the last. -/
def CopyJob.range (j : CopyJob) (n : Nat) : Nat × Nat := (j.chunk * n, min j.size (j.chunk * (n + 1)))

/-- Stream bytes [k, hi) as runs within one row and one line: stream index, address and bytes (R246). -/
def segs (base stride : Word) (rb : Nat) : Nat → Nat → Nat → List (Nat × Word × Nat)
  | 0, _, _ => []
  | fuel + 1, k, hi =>
    if hi ≤ k then []
    else
      let a := base + BitVec.ofNat 64 (k / rb) * stride + BitVec.ofNat 64 (k % rb)
      let n := min (hi - k) (min (rb - k % rb) (128 - a.toNat % 128))
      (k, a, n) :: segs base stride rb fuel (k + n) hi

/-- The source runs of chunk n. -/
def CopyJob.srcSegs (j : CopyJob) (n : Nat) : List (Nat × Word × Nat) :=
  segs j.csrc j.csstr j.rb ((j.range n).2 - (j.range n).1) (j.range n).1 (j.range n).2
/-- The destination runs of chunk n. -/
def CopyJob.dstSegs (j : CopyJob) (n : Nat) : List (Nat × Word × Nat) :=
  match j.dest with
  | .mem => segs j.cdst j.cdstr j.rb ((j.range n).2 - (j.range n).1) (j.range n).1 (j.range n).2
  | _ => []

/-- Whether the source and the memory destination both lie in the local window region and share a byte (R248). -/
def CopyJob.localOverlap (j : CopyJob) : Bool :=
  let row (b st : Word) (r : Nat) : Nat := (b + BitVec.ofNat 64 r * st).toNat
  let inL (a : Nat) : Bool := decide (0x7F0000000000 ≤ a) && decide (a + j.rb ≤ 0x7F0001000000)
  j.dest == .mem && j.rb != 0 &&
  ((List.range j.rows).all fun r => inL (row j.csrc j.csstr r) && inL (row j.cdst j.cdstr r)) &&
  ((List.range j.rows).any fun r => (List.range j.rows).any fun q =>
    decide (row j.csrc j.csstr r < row j.cdst j.cdstr q + j.rb) && decide (row j.cdst j.cdstr q < row j.csrc j.csstr r + j.rb))

/-- The bytes of a local copy's source as they stand (R248). -/
def State.localSource (s : State) (c : CoreId) (j : CopyJob) : List Byte :=
  (List.range j.size).map fun k =>
    let a := j.csrc + BitVec.ofNat 64 (k / j.rb) * j.csstr + BitVec.ofNat 64 (k % j.rb)
    match s.localPlace c a with
    | some (.loc lid idx off) => ((s.coreImage lid idx).map fun x => Memory.get x.loc off).getD 0
    | _ => 0

/-- The strand whose CPGO a transfer of a strand is; none while that strand is recessed, which has no store left (R255, R346). -/
def State.copyLeader (s : State) (id : StrandId) (j : CopyJob) : Option StrandId :=
  match j.leader with
  | none => some id
  | some (idx, k) => (s.core id.core).lid.bind fun lid => (s.coreAt lid idx).map fun c => ⟨c, k⟩

/-- Whether the reads of a transfer may begin (R247): the local-memory stores of the strand whose CPGO it is, older than that CPGO, are
performed. -/
def State.copyOrdered (s : State) (id : StrandId) (j : CopyJob) : Bool :=
  let older (e : SbEntry) : Bool := decide (e.age < j.mark) && (match e.tgt.place with
    | .loc .. => true
    | .phys _ => false)
  (s.copyLeader id j).all fun o =>
    ((s.strand o).sb.all fun e => !older e) && (s.core o.core).egress.all fun e => e.slot != o.slot || !older e.entry

/-- Whether a transfer has stopped on a fault that its strand has yet to take, or that waits for the host (R252, R274). -/
def State.copyStopped (s : State) (id : StrandId) (x : BitVec 32) : Bool :=
  ((s.strand id).pend.any fun p => p.info.xfer == x) ||
  (match (s.strand id).run with
    | .parked p => p.page && p.origin == .copy && p.info.xfer == x
    | _ => false)

/-- What moving the runs of a chunk answers. -/
inductive SegRes where
  | ok (s : State) (v : Nat)
  | wait (s : State)
  | bad (s : State) (cause : Nat) (a : Word) (fromTr : Bool)

/-- The byte of a run at which its read faults (R117, R252). -/
def State.faultByte (s : State) (id : StrandId) (t : Target) (n : Nat) : Nat :=
  ((List.range n).find? fun i => match s.readAt id (t.plus i) 1 none with
    | .bad _ _ => true
    | _ => false).getD 0

/-- Where a transfer's source address lies (R237, R246): a local window is one of the core whose CPGO it is, of a member's delivery that goes on by
itself too (R255). -/
def State.copySource (s : State) (id : StrandId) (j : CopyJob) (a : Word) : Resolved :=
  match inLocal a, j.leader, (s.core id.core).lid with
  | true, some (idx, _), some lid =>
    let w := ({ s.core id.core with lx := idx % 16, ly := idx / 16 } : Core).window (a.toNat / 2 ^ 21 % 8)
    if (s.coreImage lid w).isSome then .ok s ⟨.loc lid w (a.toNat % 2 ^ 21), localAttr j.hint⟩ else .fault s 0x06 false
  | _, _, _ => s.resolve id a .cread j.cls j.hint false

/-- Read source runs at their points; `lo` is the stream index of the chunk's first byte. -/
def State.readSegs (s : State) (id : StrandId) (j : CopyJob) (lo : Nat) : List (Nat × Word × Nat) → SegRes
  | [] => .ok s 0
  | (k, a, n) :: rest =>
    match s.copySource id j a with
    | .wait s => .wait s
    | .fault s c tr => .bad s c a tr
    | .ok s t =>
      match s.loadAt id t n none with
      | .wait s => .wait s
      | .bad s' c => .bad s' c
          (if c = 0x0C then a + BitVec.ofNat 64 (s.faultByte id t n) else a) false
      | .ok s v =>
        match State.readSegs s id j lo rest with
        | .ok s x => .ok s (v * 2 ^ (8 * (k - lo)) + x)
        | r => r

/-- Check runs without reading or writing them. -/
def State.checkSegs (s : State) (id : StrandId) (j : CopyJob) (kind : AccKind) : List (Nat × Word × Nat) → SegRes
  | [] => .ok s 0
  | (_, a, _) :: rest =>
    match s.resolve id a kind j.cls j.hint false with
    | .wait s => .wait s
    | .fault s c tr => .bad s c a tr
    | .ok s _ => State.checkSegs s id j kind rest

/-- Write destination runs at their points, dropping the core's L1 copies (R146, R246). -/
def State.writeSegs (s : State) (id : StrandId) (x : Xfer) (j : CopyJob) (lo v : Nat) : List (Nat × Word × Nat) → SegRes
  | [] => .ok s 0
  | (k, a, n) :: rest =>
    match s.resolve id a .cwrite j.cls j.hint false with
    | .wait s => .wait s
    | .fault s c tr => .bad s c a tr
    | .ok s t =>
      match s.storeAt id t n (v / 2 ^ (8 * (k - lo)) % 2 ^ (8 * n)) with
      | .wait s => .wait s
      | .bad s c => .bad s c a false
      | .ok s _ => State.writeSegs (s.overtake id (some x.id) x.ctr t.place n) id x j lo v rest

/-- Own every line of the destination runs, so that one step can write them all. -/
def State.ownSegs (s : State) (id : StrandId) (j : CopyJob) : List (Nat × Word × Nat) → State
  | [] => s
  | (_, a, _) :: rest =>
    match s.resolve id a .cwrite j.cls j.hint false with
    | .ok s ⟨.phys pa, at'⟩ =>
      if at'.mkind = 2 ∨ at'.ut then State.ownSegs s id j rest
      else (match s.obtain (dieOf id.core) (lineOf pa) true at' with
        | .wait s => s
        | .copy s => State.ownSegs s id j rest
        | .bypass s => State.ownSegs s id j rest)
    | _ => State.ownSegs s id j rest

/-- Packed data with n bits from bit lo replaced. -/
def putBits (d lo n x : Nat) : Nat := d % 2 ^ lo + (x % 2 ^ n) * 2 ^ lo + (d / 2 ^ (lo + n)) * 2 ^ (lo + n)

/-- Bytes land in a register group at an offset of its view, and the mask takes the elements that lie wholly in them (R249). -/
def Strand.land (t : Strand) (rb : Nat) (vr : VReg) (k : KReg) (l w off n v : Nat) : Strand :=
  let t := (List.range l).foldl (fun t i =>
    let a := max off (i * rb)
    let b := min (off + n) ((i + 1) * rb)
    if a < b then
      let r := vr + BitVec.ofNat 6 i
      t.wV r (putBits (t.rV r) (8 * (a - i * rb)) (8 * (b - a)) (v / 2 ^ (8 * (a - off))))
    else t) t
  let e0 := (8 * off + w - 1) / w
  let e1 := 8 * (off + n) / w
  t.wK k ((t.k[k.toNat]'k.isLt) ||| ((2 ^ (e1 - e0) - 1) * 2 ^ e0))

/-- Bytes land in a strand's register group; words that they replace whole hold no error any more (R151). -/
def State.landAt (s : State) (id : StrandId) (vr : VReg) (k : KReg) (l w off n v : Nat) : State :=
  let rb := s.rb id
  let t := s.strand id
  let s := s.modStrand id (·.land rb vr k l w off n v)
  if s.errs.isEmpty then s
  else { s with errs := s.errs.filter fun e => match e.1 with
    | .vreg i r x =>
      let a := (r - vr).toNat * rb + 8 * x
      !(i == id && decide ((r - vr).toNat < l) &&
        ((decide (off ≤ a) && decide (a + 8 ≤ off + n)) || (!t.vvalid.getLsbD r.toNat && (s.strand id).vvalid.getLsbD r.toNat)))
    | _ => true }

/-- Change a transfer of a core. -/
def State.modXfer (s : State) (c : CoreId) (x : Xfer) (f : Xfer → Xfer) : State :=
  s.modCore c fun y => { y with xfers := y.xfers.map fun z => if z.id == x.id ∧ z.slot = x.slot then f z else z }

/-- A chunk has landed: it is noted in the transfer, and its bytes are needed no more. -/
def CopyJob.note (j : CopyJob) (n : Nat) : CopyJob :=
  { j with landed := n :: j.landed, read := j.read.filter (·.1 != n), spare := j.spare.filter (·.1 != n) }

/-- Whether a chunk is complete: with a gang, on every member whose delivery goes on. -/
def CopyJob.doneChunk (j : CopyJob) (n : Nat) : Bool :=
  j.landed.contains n && (match j.dest with
    | .gang ms => ms.all fun m => m.fin || m.landed.contains n
    | _ => true)

/-- Whether every chunk is complete. -/
def CopyJob.allDone (j : CopyJob) : Bool := (List.range j.chunks).all j.doneChunk

/-- A chunk lands at one member of a gang; a member with every chunk has its counter lowered (R254). -/
def State.landMember (s : State) (c : CoreId) (j : CopyJob) (n v : Nat) (m : GangMember) : State × GangMember :=
  let (lo, hi) := j.range n
  let id : StrandId := ⟨c, m.arm.slot⟩
  let s := s.landAt id m.arm.vr m.arm.k m.arm.l m.arm.w (j.cdst.toNat + lo) (hi - lo) v
  let m := { m with landed := n :: m.landed }
  if m.landed.length ≥ j.chunks then (s.modStrand id (·.decC m.arm.ctr), { m with fin := true }) else (s, m)

/-- The mask bits of chunks that landed above a faulting one go (R252). -/
def State.unmaskAbove (s : State) (id : StrandId) (j : CopyJob) (n : Nat) : State :=
  let clear (t : Strand) (k : KReg) (w : Nat) : Strand :=
    let e0 := 8 * (j.cdst.toNat + (j.range n).1) / w
    let e1 := 8 * (j.cdst.toNat + j.size) / w
    t.wK k (putBits (t.k[k.toNat]'k.isLt) e0 (e1 - e0) 0)
  match j.dest with
  | .mem => s
  | .regs _ k _ w => s.modStrand id fun t => clear t k w
  | .gang ms => (ms.filter fun m => !m.fin).foldl (fun s m => match (s.core id.core).lid with
      | some lid => s.modImage lid m.core fun c => c.setStrand m.arm.slot (clear c.strands[m.arm.slot.val] m.arm.k m.arm.w)
      | none => s) s

/-- The stream byte k of a transfer: as it was read, or as it can be read now. -/
def State.sourceByte (s : State) (id : StrandId) (j : CopyJob) (k : Nat) : Option (State × Nat) :=
  match j.read.find? (·.1 == k / j.chunk), j.snap with
  | some (_, v), _ => some (s, v / 256 ^ (k % j.chunk) % 256)
  | none, some bs => some (s, (bs.getD k 0).toNat)
  | none, none => match s.readSegs id j k (segs j.csrc j.csstr j.rb 1 k (k + 1)) with
    | .ok s v => some (s, v)
    | _ => none

/-- Stream byte k of a transfer is copied, where it can be read and written; no mask bit counts it as landed. -/
def State.strayByte (s : State) (id : StrandId) (x : Xfer) (j : CopyJob) (k : Nat) : State :=
  match s.sourceByte id j k with
  | none => s
  | some (s, v) =>
    match j.dest with
    | .mem => (match s.writeSegs id x j k v (segs j.cdst j.cdstr j.rb 1 k (k + 1)) with
      | .ok s _ => s
      | _ => s)
    | .regs vr k' l w => s.landAt id vr k' l w (j.cdst.toNat + k) 1 v
    | .gang ms => (ms.filter fun m => !m.fin && !m.landed.contains (k / j.chunk)).foldl (fun s m =>
      match (s.core id.core).lid.bind (s.coreAt · m.core) with
        | some c => s.landAt ⟨c, m.arm.slot⟩ m.arm.vr m.arm.k m.arm.l m.arm.w (j.cdst.toNat + k) 1 v
        | none => s) s

/-- Every byte of a stopped transfer at or above its faulting chunk holds its old value or its copied one (R252): which is free
(assumption 6). -/
def State.strayBytes (s : State) (id : StrandId) (x : Xfer) (j : CopyJob) (n : Nat) : State :=
  let f := Config.freeNat s.fresh
  let lo := (j.range n).1
  ((List.range (j.size - lo)).map (lo + ·)).foldl
    (fun s k => if f.testBit (k - lo) ∧ ¬ j.doneChunk (k / j.chunk) then s.strayByte id x j k else s) { s with fresh := s.fresh + 1 }

/-- A transfer whose mask bits above a chunk are gone: chunks it landed there in registers are to be read and to land again, should it go on
(R274). -/
def CopyJob.trim (j : CopyJob) (n : Nat) : CopyJob :=
  let below (l : List Nat) : List Nat := l.filter (· < n)
  match j.dest with
  | .mem => j
  | .regs .. => { j with landed := below j.landed, read := j.read.filter (·.1 < n), spare := j.spare.filter (·.1 < n) }
  | .gang ms => { j with landed := below j.landed, read := j.read.filter (·.1 < n),
                         dest := .gang (ms.map fun m => if m.fin then m else { m with landed := below m.landed }) }

/-- The fault of a chunk (R252): once every chunk below it is complete the transfer stops and the fault is held for the strand. -/
def State.copyBad (s : State) (id : StrandId) (x : Xfer) (j : CopyJob) (n : Nat) (cause : Nat) (a : Word) (dst fromTr : Bool) : State :=
  if (List.range n).all j.doneChunk then
    let hosted := fromTr && s.preber.duty.getLsbD 1
    let s := (if hosted then s else s.strayBytes id x j n).unmaskAbove id j n
    let s := s.modXfer id.core x fun z => { z with kind := .copy (j.trim n) }
    let v := copyEval cause x.ctr dst a.toNat
    let i : TrapInfo := if fromTr then ⟨BitVec.ofNat 8 cause, v, if dst then 7 else 6, a, 0, x.id⟩
      else ⟨BitVec.ofNat 8 cause, v, 0, 0, 0, x.id⟩
    s.modStrand id fun t => { t with pend := t.pend ++ [⟨i, .copy, hosted⟩] }
  else s

/-- The chunks below one of which no bytes have been read. -/
def CopyJob.unread (j : CopyJob) (n : Nat) : List Nat :=
  (List.range n).filter fun m => !j.landed.contains m && (j.read ++ j.spare).all (·.1 != m)

/-- Chunks are read as they stand, for the case that they cannot be read later (R252); none when one of them cannot be read now. -/
def State.readSpare (s : State) (id : StrandId) (j : CopyJob) : List Nat → Option (State × List (Nat × Nat))
  | [] => some (s, [])
  | m :: ms => match s.readSegs id j (j.range m).1 (j.srcSegs m) with
    | .ok s v => (State.readSpare s id j ms).map fun x => (x.1, (m, v) :: x.2)
    | _ => none

/-- Chunk n of a transfer is read (R246, R248): a local copy that overlaps itself reads the whole source as it stands at its first chunk. One
that cannot be read any more, and of which bytes were read before a chunk above it landed, lands with those: it was read then (R252). -/
def State.readChunk (s : State) (id : StrandId) (f : Xfer) (j : CopyJob) (n : Nat) : State :=
  let j := if j.snap.isNone && j.landed.isEmpty && j.read.isEmpty && j.localOverlap then { j with snap := some (s.localSource id.core j) } else j
  let (lo, hi) := j.range n
  match s.readSegs id j lo (j.srcSegs n) with
  | .wait s => s
  | .bad s cause a tr => (match j.spare.find? (·.1 == n) with
    | some x => s.modXfer id.core f fun z => { z with kind := .copy { j with read := j.read ++ [x] } }
    | none => s.copyBad id f j n cause a false tr)
  | .ok s v =>
    let v := match j.snap with
      | none => v
      | some bs => (List.range (hi - lo)).foldl (fun v i => v + (bs.getD (lo + i) 0).toNat * 256 ^ i) 0
    let gang : Bool := match j.dest with
      | .gang _ => true
      | _ => false
    s.modXfer id.core f fun z => { z with kind := .copy { j with read := j.read ++ [(n, v)]
                                                                 landed := if gang then n :: j.landed else j.landed } }

/-- Chunk n of a transfer, with the bytes read for it, lands: in memory, in the strand's registers, or at one member of the gang (R246, R249,
R254, R293). In registers it lands once no chunk below it can stop the transfer any more, so that its mask bits stay (R252): each of them was
read, or is read now for the case that it cannot be later. A gang reads each chunk once (R254). -/
def State.landChunk (s : State) (id : StrandId) (f : Xfer) (j : CopyJob) (n v : Nat) : State :=
  let (lo, hi) := j.range n
  match j.dest with
  | .mem =>
    let out := j.dstSegs n
    (match s.checkSegs id j .cwrite out with
      | .wait s => s
      | .bad s cause a tr => s.copyBad id f j n cause a true tr
      | .ok s' _ =>
        (match s'.writeSegs id f j lo v out with
          | .ok s _ => s.modXfer id.core f fun z => { z with kind := .copy (j.note n) }
          | .wait _ => s'.ownSegs id j out
          | .bad s'' cause a tr => s''.copyBad id f j n cause a true tr))
  | .regs vr k l w =>
    (match s.readSpare id j (j.unread n) with
      | some (s, sp) => (s.landAt id vr k l w (j.cdst.toNat + lo) (hi - lo) v).modXfer id.core f fun z =>
          { z with kind := .copy ({ j with spare := j.spare ++ sp }.note n) }
      | none => s)
  | .gang ms =>
    let lid := (s.core id.core).lid.getD 0
    if j.unread n ≠ [] then s
    else match s.anyOf (ms.filterMap fun m => if m.fin || m.landed.contains n then none else (s.coreAt lid m.core).map fun c => (c, m)) with
      | none => s
      | some (s, c, m) =>
        let (s, m') := s.landMember c j n v m
        s.modXfer id.core f fun z => { z with kind := .copy { j with dest := .gang (replaceFirst (· == m) (fun _ => m') ms) } }

/-- TRANSFER_CHUNK (R246 to R249, R252, R292): chunk n of a transfer is read, and in a later step it lands. -/
def execTransferChunk (c : CoreId) (x : BitVec 32) (n : Nat) (s : State) : Out :=
  match (s.core c).xfers.find? (·.id == x) with
  | some f =>
    (match f.kind with
      | .copy j =>
        let id : StrandId := ⟨c, f.slot⟩
        if n ≥ j.chunks ∨ s.copyStopped id x ∨ ¬ s.copyOrdered id j then .next s
        else match j.read.find? (·.1 == n) with
          | some (_, v) => .next (s.landChunk id f j n v)
          | none => if j.landed.contains n then .next s else .next (s.readChunk id f j n)
      | _ => .next s)
  | none => .next s

/-- TRANSFER_COMPLETE (R247, R254): every chunk is complete, and the counter falls; members of an empty gang transfer complete with it. A
SETTLE that has no line at all ends in the same way (R284). -/
def execTransferComplete (c : CoreId) (x : BitVec 32) (s : State) : Out :=
  match (s.core c).xfers.find? (·.id == x) with
  | some f =>
    (match f.kind with
      | .copy j => if j.allDone then .next (s.dropXfer ⟨c, f.slot⟩ x) else .next s
      | .settle [] _ _ => .next (s.dropXfer ⟨c, f.slot⟩ x)
      | _ => .next s)
  | none => .next s

/-- COPY_FAULT (R252): the oldest held copy fault of a strand is taken at a unit boundary. -/
def execCopyFault (id : StrandId) (s : State) : Out :=
  let t := s.strand id
  match t.pend with
  | p :: rest =>
    if t.run = .running ∧ ¬ t.midUnit ∧ p.origin = .copy then
      .next ((s.modStrand id fun t => { t with pend := rest }).takePend id p)
    else .next s
  | [] => .next s

end Sys2Proof.Machine
end

