-- ==== Sys2Proof/Machine/Sync.lean ====
section
/-! DEFINITION. Synchronisation: bells (R148, R149, R256, R257), waits on completion counters (R251), and the fences (R301 to R304). -/
namespace Sys2Proof.Machine

/-! ## Bells -/

/-- A bell of a core. -/
def Core.bell (c : Core) (n : BitVec 8) : Bell := c.bells[n.toNat]'n.isLt
/-- A bell of a core is written. -/
def Core.setBell (c : Core) (n : BitVec 8) (b : Bell) : Core := { c with bells := c.bells.set n.toNat b n.isLt }
/-- One arrival: the last of a phase flips it and starts the next (R149). -/
def Bell.arrive (b : Bell) : Bell := if b.c = 1 then { b with p := !b.p, c := b.e } else { b with c := b.c - 1 }
/-- The trap of a bell: `eval` is the bell and 256 times the window (R256). -/
def bellTrap (n : BitVec 8) (w : Nat) : TrapInfo := trapInfo 0x0A (BitVec.ofNat 64 (n.toNat + 256 * w))

/-- Whether a release lets an operation be performed (R203, R257, R284): older stores are visible at the scope, and older vector accesses are done. -/
def State.releaseReady (s : State) (o : OrdPayload) : Bool :=
  !releases o.order ||
  (s.visible s.cur o.scope s.me.sbAge && s.me.drain.isEmpty && (s.me.vq.all fun e => (vqOrd e.instr).isNone && !isRsload e.instr && !isTileMem e.instr) &&
    s.myCore.xq.all fun x => x.slot != s.cur.slot || !isTileMem x.entry.instr)

/-- The check bits of a bell (R151): an uncorrectable error traps the operation that reads it. -/
def withBell (s : State) (n : BitVec 8) (f : State → Bell → UnitRes) : UnitRes :=
  match s.consume (dieOf s.cur.core) [.bell s.cur.core n] with
  | (s, some e) => .trap s (trapInfo 0x0C (errEval e))
  | (s, none) => f s (s.myCore.bell n)

/-- `bell.init` (R149). -/
def execBellInit (h : Hdr) (n : BitVec 8) (e : RegOrImm 16) (s : State) : Out :=
  runUnit h (sSites s (roiRegs e)) (fun s =>
    let e : BitVec 16 := (roiVal s.me e).extractLsb' 0 16
    withBell s n fun s b =>
      if e = 0 ∨ (b.v ∧ b.c ≠ b.e) then .trap s (bellTrap n 0)
      else .done (s.modCore s.cur.core (·.setBell n ⟨true, false, e, e⟩))) s

/-- `bell.arrive` (R149, R257). -/
def execBellArrive (h : Hdr) (d : SReg) (n : BitVec 8) (s : State) : Out :=
  runUnit h [] (fun s =>
    withBell s n fun s b =>
      if !b.v then .trap s (bellTrap n 0)
      else if !s.releaseReady (ordOf h) then .wait s
      else doneS (s.modCore s.cur.core (·.setBell n b.arrive)) d (if b.p then 1 else 0)) s

/-- The end of a wait: an acquire advances the generation of its scope (R257). -/
def endWait (h : Hdr) (s : State) : UnitRes :=
  .done (if acquires (ordOf h).order then s.acquired s.cur (ordOf h).scope else s)

/-- `bell.wait` (R149): it ends when the phase differs from the given one. -/
def execBellWait (h : Hdr) (n : BitVec 8) (t : RegOrImm 1) (s : State) : Out :=
  runUnit h (sSites s (roiRegs t)) (fun s =>
    let ph := match s.me.wait with
      | some ⟨.bell _ p, _⟩ => p
      | _ => (roiVal s.me t).getLsbD 0
    withBell s n fun s b =>
      if !b.v then .trap s (bellTrap n 0)
      else if b.p = ph then .wait (s.modMe fun u => { u with wait := some ⟨.bell n ph, .bellWait h n t⟩ })
      else endWait h s) s

/-- `bell.sync` (R149, R257): an arrival, then a wait for the phase that the arrival returned; the arrival happens once. -/
def execBellSync (h : Hdr) (n : BitVec 8) (s : State) : Out :=
  runUnit h [] (fun s =>
    withBell s n fun s b =>
      match s.me.wait with
      | some ⟨.bell _ p, _⟩ => if b.p = p then .wait s else endWait h s
      | _ =>
        if !b.v then .trap s (bellTrap n 0)
        else if !s.releaseReady (ordOf h) then .wait s
        else
          let s := s.modCore s.cur.core (·.setBell n b.arrive)
          if b.arrive.p = b.p then .wait (s.modMe fun u => { u with wait := some ⟨.bell n b.p, .bellSync h n⟩ })
          else endWait h s) s

/-- The window of a remote bell operation (R256). -/
def remoteWindow (t : Strand) (w : RegOrImm 3) : Nat := ((roiVal t w).extractLsb' 0 3).toNat

/-- `bell.remote` (R149, R256, R257): the arrival leaves for the bell's core; the reply completes the unit. -/
def execBellRemote (h : Hdr) (d : SReg) (n : BitVec 8) (w : RegOrImm 3) (s : State) : Out :=
  runUnit h (sSites s (roiRegs w)) (fun s =>
    let win := remoteWindow s.me w
    match s.me.wait with
    | some ⟨.remote .., _⟩ => .wait s
    | _ =>
      if !s.windowPlaced s.cur.core win then .trap s (bellTrap n win)
      else if !s.releaseReady (ordOf h) then .wait s
      else .wait (s.modMe fun u => { u with wait := some ⟨.remote (s.myCore.window win) n, .bellRemote h d n w⟩ })) s

/-- A remote arrival at the bell of a core, running or saved (R239, R257), and its reply. -/
def remoteReply (d : SReg) (n : BitVec 8) (w : RegOrImm 3) (core : Nat) (s : State) : UnitRes :=
  let win := remoteWindow s.me w
  let lid := s.myCore.lid.getD 0
  let checked : State × Bool := match s.coreAt lid core with
    | some c => (match s.consume (dieOf c) [.bell c n] with
        | (s, some _) => (s, false)
        | (s, none) => (s, true))
    | none => (s, true)
  match checked with
  | (s, false) => .trap s (trapInfo 0x0C (checkEval 7 n.toNat + BitVec.ofNat 64 (win * 65536)))
  | (s, true) =>
    match s.coreImage lid core with
    | none => .trap s (bellTrap n win)
    | some x =>
      let b := x.bell n
      if !b.v then .trap s (bellTrap n win)
      else doneS (s.modImage lid core (·.setBell n b.arrive)) d (if b.p then 1 else 0)

/-- REMOTE_ARRIVAL (R257): the arrival of a strand's `bell.remote` reaches its bell. -/
def execRemoteArrival (id : StrandId) (s : State) : Out :=
  match (s.strand id).run, (s.strand id).wait with
  | .running, some ⟨.remote core _, .bellRemote h d n w⟩ =>
    onWaiting id (fun s => finish (hdrWords h) (remoteReply d n w core s)) s
  | _, _ => .next s

/-- BELL_WAIT_RELEASE (R149): a strand that waits at a bell goes on once its phase has changed. -/
def execBellWaitRelease (id : StrandId) (s : State) : Out :=
  match (s.strand id).run, (s.strand id).wait with
  | .running, some ⟨.bell b p, .bellWait h n t⟩ =>
    if ((s.core id.core).bell b).p = p then .next s else onWaiting id (execBellWait h n t) s
  | .running, some ⟨.bell b p, .bellSync h n⟩ =>
    if ((s.core id.core).bell b).p = p then .next s else onWaiting id (execBellSync h n) s
  | _, _ => .next s

/-! ## Completion counters -/

/-- WAITLT (R243, R251): the bound is captured at issue. -/
def execWaitlt (h : Hdr) (c : CtrNo) (n : RegOrImm 17) (s : State) : Out :=
  runUnit h (ctlSite s (0x40 + c.toNat) :: sSites s (roiRegs n)) (fun s =>
    let bound := match s.me.wait with
      | some ⟨.counter b, _⟩ => b
      | _ => min (roiVal s.me n).toNat 65536
    if bound = 0 then .trap s (trapInfo 0x01 (unitWord (.waitlt h c n)))
    else if (s.me.rC c).toNat < bound then endWait h (s.seenDone s.cur c)
    else .wait (s.modMe fun u => { u with wait := some ⟨.counter bound, .waitlt h c n⟩ })) s

/-- WAITLT_RELEASE (R251): a waiting WAITLT ends once its counter is below the bound. -/
def execWaitltRelease (id : StrandId) (s : State) : Out :=
  match (s.strand id).run, (s.strand id).wait with
  | .running, some ⟨.counter b, .waitlt h c n⟩ =>
    if ((s.strand id).rC c).toNat < b then onWaiting id (execWaitlt h c n) s else .next s
  | _, _ => .next s

/-! ## Fences -/

/-- The release half of a fence at a scope, with the waits that every fence makes first (R302). -/
def State.fenceReady (s : State) (rel : Bool) (sc : Scope) : Bool :=
  csyncReady s && (!rel || s.visible s.cur sc s.me.sbAge)

/-- FENCE (R302). -/
def execFence (h : Hdr) (o : FenceOrd) (sc : Scope) (s : State) : Out :=
  runUnit h [] (fun s =>
    if !s.fenceReady (o = .rel ∨ o = .ar) sc then .wait s
    else .done (if o = .acq ∨ o = .ar then s.acquired s.cur sc else s)) s

/-- FENCEO (R303). -/
def execFenceo (h : Hdr) (s : State) : Out := runUnit h [] (fun s => .done s) s

/-- The cores of a launch within a scope of one of them (R304). The launch's cores of its cluster are those in its windows (R236). -/
def State.scopeCores (s : State) (c : CoreId) (sc : Scope) : List CoreId :=
  let mine := (List.finRange 128).filter fun x => (s.core x).lid.isSome && (s.core x).lid == (s.core c).lid
  match sc with
  | .core => [c]
  | .cluster => mine.filter fun x => (List.range 8).any fun w => (s.core c).window w == (s.core x).index
  | .die => mine.filter fun x => dieOf x == dieOf c
  | .package | .system => mine

/-- The resident strands of a core. -/
def State.residents (s : State) (c : CoreId) : List StrandId :=
  ((List.finRange 8).filter fun k => match (s.core c).strands[k.val].run with
    | .running | .parked _ => true
    | _ => false).map fun k => ⟨c, k⟩

/-- The targets of a FENCER (R304): never the issuer, and only strands of its launch. -/
def State.fencerTargets (s : State) (id : StrandId) (sc : Scope) (t : FencerTgt) : List StrandId :=
  let u := s.strand id
  let all := match t with
    | .sids b => (s.residents id.core).filter fun x => (u.rS b).getLsbD (s.strand x).sid.toNat && decide ((s.strand x).sid.toNat < 8)
    | .win b =>
      match (s.core id.core).lid with
      | none => []
      | some lid => (match s.coreAt lid ((s.core id.core).window ((u.rS b).extractLsb' 0 3).toNat) with
          | some c => s.residents c
          | none => [])
    | .all => (s.scopeCores id.core sc).flatMap s.residents
  all.filter (· != id)

/-- The registers a FENCER's target reads. -/
def fencerRegs : FencerTgt → List SReg
  | .sids b | .win b => [b]
  | .all => []

/-- Whether a target is paused for the issuer. -/
def State.holdsPaused (s : State) (id : StrandId) (lid : BitVec 32) (t : Nat × SlotId) : Bool :=
  match s.coreAt lid t.1 with
  | none => false
  | some c => (s.strand ⟨c, t.2⟩).pausedBy.contains id

/-- Whether a target is done: it is paused, and what it did before its boundary has taken effect and is visible at the scope; or it left its
core (R304). -/
def State.fencerDone (s : State) (id : StrandId) (lid : BitVec 32) (sc : Scope) (t : Nat × SlotId) : Bool :=
  match s.coreAt lid t.1 with
  | none => true
  | some c =>
    let x : StrandId := ⟨c, t.2⟩
    (s.strand x).pausedBy.contains id && (s.strand x).late.isEmpty && (s.strand x).drain.isEmpty && s.visible x sc (s.strand x).sbAge

/-- One target is done: its core's generation advances and it resumes issue (R304). -/
def State.fencerRelease (s : State) (id : StrandId) (lid : BitVec 32) (sc : Scope) (t : Nat × SlotId) : State :=
  match s.coreAt lid t.1 with
  | none => s
  | some c => (s.modCore c (·.advanceGen sc)).modStrand ⟨c, t.2⟩ fun u => { u with pausedBy := u.pausedBy.filter (· != id) }

/-- The next target is paused at its unit boundary: any of those that are not yet paused (R304). -/
def State.fencerPause (s : State) (id : StrandId) (lid : BitVec 32) (todo : List (Nat × SlotId)) : State :=
  let pause (s : State) (t : Nat × SlotId) : State :=
    match s.coreAt lid t.1 with
    | none => s
    | some c => s.modStrand ⟨c, t.2⟩ fun u => { u with pausedBy := id :: u.pausedBy }
  match s.anyOf (todo.filter fun t => !s.holdsPaused id lid t) with
  | none => s
  | some (s, t) => pause s t

/-- One turn of a FENCER with the targets it has left: those that are done are released, with none left its acquire half ends it, and
otherwise the next one is paused. The release half comes before all of it. -/
def fencerGo (sc : Scope) (i : Instr) (todo : List (Nat × SlotId)) (s : State) : UnitRes :=
  let lid := s.myCore.lid.getD 0
  if !s.fenceReady true sc then .wait (s.modMe fun u => { u with wait := some ⟨.fencer false todo, i⟩ })
  else
    let ready := todo.filter (s.fencerDone s.cur lid sc)
    let left := todo.filter fun t => !ready.contains t
    let s := ready.foldl (fun s t => s.fencerRelease s.cur lid sc t) s
    if left.isEmpty then .done (s.acquired s.cur sc)
    else .wait ((s.fencerPause s.cur lid left).modMe fun u => { u with wait := some ⟨.fencer true left, i⟩ })

/-- FENCER (R304): its targets are taken at issue; after the release half each is paused at a unit boundary and drained. -/
def execFencer (h : Hdr) (sc : Scope) (t : FencerTgt) (s : State) : Out :=
  runUnit h (sSites s (fencerRegs t)) (fun s =>
    let i := Instr.fencer h sc t
    match s.me.wait with
    | some ⟨.fencer _ todo, _⟩ => fencerGo sc i todo s
    | _ =>
      let ts := s.fencerTargets s.cur sc t
      let clear (c : CoreId) (s : State) : State := s.modCore c fun y =>
        { y with strands := y.strands.map fun u => { u with pausedBy := u.pausedBy.filter (· != s.cur) } }
      let s := (List.finRange 128).foldl (fun s c => if (s.core c).lid = s.myCore.lid then clear c s else s) s
      fencerGo sc i (ts.map fun x => ((s.core x.core).index, x.slot)) s) s

end Sys2Proof.Machine
end

