-- ==== Sys2Proof/Machine/Settle.lean ====
section
/-! DEFINITION. The settle group (R281 to R286): ranges and their checks, SETTLE with the steps of its lines, RENEW and SCOUNT. -/
namespace Sys2Proof.Machine

/-! ## Ranges (R283) -/

/-- What the checks of a range answer. -/
inductive RangeRes where
  | ok (s : State) (m : PageMap)
  | fault (s : State) (cause : Nat) (a : Word) (fromTr : Bool)
  | wait (s : State)

/-- The address of the first byte of a range on its page number i. -/
def pageStart (a : Word) (i : Nat) : Word := if i = 0 then a else a - BitVec.ofNat 64 (a.toNat % 4096) + BitVec.ofNat 64 (4096 * i)

/-- The count of pages that hold a byte of a range. -/
def pageCount (a : Word) (len : Nat) : Nat := if len = 0 then 0 else (a.toNat % 4096 + len + 4095) / 4096

/-- What the memory a page maps comes to: it is taken, or it faults with cause 0x06, and under host-assisted handling the fault goes to the
host or not (R274, R283, R288). -/
inductive MapRule where
  | ok
  | bad (toHost : Bool)
  deriving DecidableEq

/-- Check pages in ascending order from number i on (R283): each must translate, permit the access and map memory that `ok` takes. -/
def State.checkPages (s : State) (id : StrandId) (a : Word) (k : AccKind) (ok : State → Nat → Attr → MapRule) :
    Nat → Nat → List Target → RangeRes
  | 0, _, out => .ok s ⟨a, a.toNat % 4096, out⟩
  | n + 1, i, out =>
    let va := pageStart a i
    if inLocal va then .fault s 0x06 va false
    else
      match s.translate id.core va k with
      | .wait s line need => if s.stallOver id line need then .fault (s.stallEnd id line) 0x0D va false else .wait s
      | .fault s x => .fault s x va (x == 0x05 || x == 0x06)
      | .ok s pa leaf =>
        let attr := leafAttr leaf none .default
        match ok s pa attr with
        | .ok => s.checkPages id a k ok n (i + 1) (out ++ [⟨.phys (pa / 4096 * 4096), attr⟩])
        | .bad h => .fault s 0x06 va h

/-- Whether an address is device memory of this package, on a page with MK = 00 (R283). -/
def isOwnMem (s : State) (pa : Nat) (attr : Attr) : Bool := s.ownDevice pa && s.present s.pkg (lineOf pa) && attr.mkind == 0
/-- The rule of SETTLE, RENEW and SCOUNT (R283): the fault of another memory goes to the host, but for that of a control window (R350). -/
def ownMem (s : State) (pa : Nat) (attr : Attr) : MapRule :=
  if isOwnMem s pa attr then .ok else .bad (match paKind pa with
    | .control _ => false
    | _ => true)
/-- The rule of IPOP and COLL (R288, R373): only translation and permission faults go to the host. -/
def engMem (s : State) (pa : Nat) (attr : Attr) : MapRule := if isOwnMem s pa attr then .ok else .bad false

/-- The checks of a whole range. -/
def State.checkRange (s : State) (id : StrandId) (a : Word) (len : Nat) (k : AccKind) (ok : State → Nat → Attr → MapRule) : RangeRes :=
  s.checkPages id a k ok (pageCount a len) 0 []

/-- Go on with a range that passed its checks; a fault traps the unit, or goes to the host (R274, R283). -/
def withRange (r : RangeRes) (k : AccKind) (f : State → PageMap → UnitRes) : UnitRes :=
  match r with
  | .ok s m => f s m
  | .fault s c a tr => memFault s a k c tr
  | .wait s => .wait s

/-- The physical address of byte k of a mapped range. -/
def PageMap.pa (m : PageMap) (k : Nat) : Nat :=
  match m.pages[(m.off + k) / 4096]? with
  | some ⟨.phys p, _⟩ => p + (m.off + k) % 4096
  | _ => 0
/-- The attributes of byte k of a mapped range. -/
def PageMap.attr (m : PageMap) (k : Nat) : Attr :=
  match m.pages[(m.off + k) / 4096]? with
  | some t => t.attr
  | none => localAttr .default

/-- The lines that hold a byte of a mapped range of a length, each with the virtual address of its first byte. -/
def PageMap.lines (m : PageMap) (len : Nat) : List (Nat × Word) :=
  if len = 0 then [] else
  (List.range ((m.off + len - 1) / 128 - m.off / 128 + 1)).map fun i =>
    let k := 128 * (m.off / 128 + i)
    (lineOf (m.pa (k - m.off)), m.va - BitVec.ofNat 64 m.off + BitVec.ofNat 64 k)

/-- The regions that hold a byte of a mapped range (R281). -/
def PageMap.regions (m : PageMap) : List Nat :=
  (m.pages.map fun t => match t.place with
    | .phys p => regionOf p
    | .loc .. => 0).dedup

/-! ## The step of a line (R284, R285) -/

/-- Whether a line's step can be made at its serialisation point now. -/
def State.lineReady (s : State) (line : Nat) : Bool := !s.busy line && (!s.isOut line || s.canServe line)

/-- Whether every store of a strand older than a mark that overlaps a line is performed. -/
def State.lineStored (s : State) (id : StrandId) (mark line : Nat) : Bool :=
  let meets (e : SbEntry) : Bool := decide (e.age < mark) && overlaps e.tgt.place e.n (.phys (128 * line)) 128
  ((s.strand id).sb.all fun e => !meets e) && (s.core id.core).egress.all fun e => e.slot != id.slot || !meets e.entry

/-- Whether those stores are visible at the line's point too (R284, R297): no invalidation of the line that one waits for is on its way. -/
def State.lineVisible (s : State) (id : StrandId) (mark line : Nat) : Bool :=
  s.lineStored id mark line && s.pending.all fun p => p.line != line || !p.strands.contains id

/-- Write every dirty byte of a line into the arrays: those of the home L2's copy, but for what the entry's owner has newer, and those of the owner,
which the home's copy takes over (R277, R284). A copy there whose invalidation is on its way still has the dirty bytes that its grant did not
hand on, and stays readable as it is (R322). -/
def State.writeDirty (s : State) (line : Nat) : State :=
  let (s, x, m) := match s.entry line with
    | none => (s, 0, 0)
    | some e => s.entryData e
  let s := match s.homeDie line with
    | none => s
    | some d =>
      let s := s.foldErrs d line
      match s.findLine d line with
      | none => s
      | some c => if c.dirty = 0 then s else s.arrayWrite line c.data (c.dirty &&& ((2 ^ 128 - 1) ^^^ m))
  if m = 0 then s
  else
    let s := s.arrayWrite line x m
    match s.homeDie line with
    | none => s
    | some d => s.modLine d line fun c => if c.st = .home then { c with data := mergeLine m x c.data } else c

/-- Every copy of a line stays, clean (R284). -/
def State.cleanCopies (s : State) (line : Nat) : State :=
  let clean (c : CacheLine) : CacheLine :=
    { c with dirty := 0, st := match c.st with
        | .m => .e
        | .o => .s
        | .sd => .s
        | x => x }
  let s := (List.finRange 4).foldl (fun s d => s.modLine d line clean) s
  s.modSlice (sliceOf line) fun x => { x with entries := x.entries.map fun e =>
    if e.line == line then
      { e with lsDirty := 0, st := match e.st with
          | .m => .e
          | .o => .s
          | x => x }
    else e }

/-- The step of a SETTLE at a line (R284). -/
def State.settleLine (s : State) (line : Nat) : State := (s.writeDirty line).cleanCopies line

/-- The step of a RENEW at a line (R285): its dirty bytes are written and every copy of it is removed. -/
def State.renewLine (s : State) (line : Nat) : State :=
  let s := s.writeDirty line
  let s := (List.finRange 4).foldl (fun s d => s.dropLine d line) s
  let s := { s with pending := s.pending.filter fun p => p.line != line }
  let s := match s.tailList line with
    | some n => { s with lists := s.lists.set n.val { s.lists[n.val] with tail := none } n.isLt }
    | none => s
  (s.dropEntry line).setOut line false

/-! ## SETTLE -/

/-- Start work on a counter: the counter rises and the transfer joins the core's (R240, R245, R284). -/
def State.startXfer (s : State) (n : CtrNo) (k : XferKind) : State :=
  (s.modMe (·.incC n)).modCore s.cur.core fun y => { y with xfers := y.xfers ++ [⟨y.workKey, s.cur.slot, n, k⟩] }

/-- The counter's check, the limit of transfers in flight and the wait of a release (R284). -/
def countedStart (s : State) (h : Hdr) (n : CtrNo) (f : State → UnitRes) : UnitRes :=
  if s.me.rC n = 0xFFFF then .trap s (copyFault 2 n false 0)
  else if s.myCore.xfers.length ≥ 32 then .wait s
  else if !s.releaseReady (ordOf h) then .wait s
  else f s

/-- SETTLE (R283, R284). -/
def execSettle (h : Hdr) (b c : SReg) (n : CtrNo) (s : State) : Out :=
  runUnit h (ctrSite s n :: sSites s [b, c]) (fun s =>
    let a := s.me.rS b
    let len := (s.me.rS c).toNat
    if len > 2 ^ 30 then .trap s (trapInfo 0x01 (unitWord (.settle h b c n)))
    else withRange (s.checkRange s.cur a len .sread ownMem) .sread fun s m =>
      countedStart s h n fun s => .done (s.startXfer n (.settle (m.lines len) m.regions s.me.sbAge))) s

/-- A region's count rises by 1 (R281). -/
def State.countRegion (s : State) (r : Nat) : State := s.putRegion { s.region r with count := (s.region r).count + 1 }

/-- A failure of work in flight is held for the strand's next unit boundary (R291). -/
def State.holdFault (s : State) (id : StrandId) (x : BitVec 32) (cause : Nat) (val : Word) : State :=
  s.modStrand id fun t => { t with pend := t.pend ++ [⟨⟨BitVec.ofNat 8 cause, val, 0, 0, 0, x⟩, .scalar, false⟩] }

/-- SETTLE_LINE_STEP (R284, R291): one line of a SETTLE; a region whose lines are all done is counted, and the counter falls with the
last. -/
def execSettleLineStep (c : CoreId) (x : BitVec 32) (line : Nat) (s : State) : Out :=
  match (s.core c).xfers.find? (·.id == x) with
  | some f =>
    (match f.kind with
      | .settle lines regions mark =>
        let id : StrandId := ⟨c, f.slot⟩
        match lines.find? (·.1 == line) with
        | none => .next s
        | some y =>
        if s.copyStopped id x || !s.lineVisible id mark line then .next s
        else if !s.lineReady line then
          (if s.stallOver id line then
            .next ((s.stallEnd id line).holdFault id x 0x0D y.2)
           else .next s)
        else
          let s := s.settleLine line
          let left := lines.filter (·.1 != line)
          let r := line / 32
          let last : Bool := regions.contains r && left.all fun y => y.1 / 32 != r
          let s := if last then s.countRegion r else s
          let s := s.modXfer c f fun z => { z with kind := .settle left (if last then regions.filter (· != r) else regions) mark }
          .next (if left.isEmpty then s.dropXfer id x else s)
      | _ => .next s)
  | none => .next s

/-! ## RENEW -/

/-- One step of a RENEW with the lines it has left (R285): the next line's step, the last one ending it. A line whose slice or package is not
served holds it, up to the stall bound (R291). -/
def renewGo (h : Hdr) (i : Instr) (s : State) : List (Nat × Word) → UnitRes
  | [] => endWait h s
  | (line, va) :: rest =>
    let goOn (s : State) (todo : List (Nat × Word)) : UnitRes :=
      .wait (s.modMe fun t => { t with wait := some ⟨.renew todo, i⟩ })
    if !s.lineVisible s.cur s.me.sbAge line || !s.lineReady line then
      if s.stallOver s.cur line then .trap (s.stallEnd s.cur line) (trapInfo 0x0D va)
      else goOn s ((line, va) :: rest)
    else
      let s := (s.renewLine line).l1Drop s.cur.core line
      if rest.isEmpty then endWait h s else goOn s rest

/-- RENEW (R283, R285). -/
def execRenew (h : Hdr) (b c : SReg) (s : State) : Out :=
  runUnit h (sSites s [b, c]) (fun s =>
    let i := Instr.renew h b c
    match s.me.wait with
    | some ⟨.renew todo, _⟩ => renewGo h i s todo
    | _ =>
      let a := s.me.rS b
      let len := (s.me.rS c).toNat
      if len > 2 ^ 30 then .trap s (trapInfo 0x01 (unitWord i))
      else withRange (s.checkRange s.cur a len .sread ownMem) .sread fun s m => renewGo h i s (m.lines len)) s

/-! ## SCOUNT -/

/-- SCOUNT (R281, R286). -/
def execScount (h : Hdr) (clr : Bool) (d b : SReg) (s : State) : Out :=
  runUnit h (sSites s [b]) (fun s =>
    withRange (s.checkRange s.cur (s.me.rS b) 1 .sread ownMem) .sread fun s m =>
      let x := s.region (regionOf (m.pa 0))
      let s := if clr then s.putRegion { x with exp := false } else s
      let s := if acquires (ordOf h).order then s.acquired s.cur (ordOf h).scope else s
      doneS s d x.word) s

end Sys2Proof.Machine
end

