-- ==== Sys2Proof/Machine/InPlace.lean ====
section
/-! DEFINITION. Work done at the base dies: IPOP in the settled image (R287 to R291), and COLL with its landing (R372 to R376). -/
namespace Sys2Proof.Machine

/-! ## Formats -/

/-- The width of a format of IPOP and COLL (R287). -/
def ipWidth : IpFmt → Nat
  | .f64 | .s64 => 64
  | .f32 | .s32 => 32
/-- The bytes of an element. -/
def ipBytes (f : IpFmt) : Nat := ipWidth f / 8
/-- The floating format, for the floating ones. -/
def ipFmt : IpFmt → Option Fmt
  | .f64 => some .f64
  | .f32 => some .f32
  | .s64 | .s32 => none

/-- An addition (R287, R374). -/
def ipAdd (f : IpFmt) (m : Mode) (x y : Nat) : Nat × FpFlags :=
  match ipFmt f with
  | some g => fAdd g ⟨m, false, false⟩ (g.decode x) (g.decode y)
  | none => ((x + y) % 2 ^ ipWidth f, 0)
/-- a × x (R287). -/
def ipMul (f : IpFmt) (m : Mode) (a x : Nat) : Nat × FpFlags :=
  match ipFmt f with
  | some g => fMul g ⟨m, false, false⟩ (g.decode a) (g.decode x)
  | none => (a * x % 2 ^ ipWidth f, 0)
/-- a × x + y with one rounding (R287). -/
def ipFma (f : IpFmt) (m : Mode) (a x y : Nat) : Nat × FpFlags :=
  match ipFmt f with
  | some g => fFma g ⟨m, false, false⟩ .plain (g.decode a) (g.decode x) (g.decode y)
  | none => ((a * x + y) % 2 ^ ipWidth f, 0)
/-- Min and max (R374): R73 for the floating formats, signed for the integer ones. -/
def ipMinMax (f : IpFmt) (isMax : Bool) (x y : Nat) : Nat :=
  match ipFmt f with
  | some g => (fMinMax g false isMax x y).1
  | none => if (decide (sintN (ipWidth f) x < sintN (ipWidth f) y)) != isMax then x else y

/-! ## Sectors -/

/-- The sectors that hold a byte of a mapped range of n elements. -/
def PageMap.sectors (m : PageMap) (wb n : Nat) : Nat := if n = 0 then 0 else (m.off % 32 + n * wb + 31) / 32
/-- The elements in sector k of a mapped range: the first and one past the last. -/
def PageMap.sectorElems (m : PageMap) (wb n k : Nat) : Nat × Nat :=
  ((32 * k - m.off % 32) / wb, min n ((32 * (k + 1) - m.off % 32) / wb))

/-- What reading a run of elements answers: their values, or the address of a word with an uncorrectable error. -/
inductive RunRes where
  | ok (s : State) (vs : List Nat)
  | bad (s : State) (a : Word)

/-- Read k elements from number i on, which lie in one sector, from the arrays in one step, as an untracked access meets its region (R269,
R288). Single errors are corrected and counted (R276). -/
def State.readRun (s : State) (m : PageMap) (wb i k : Nat) : RunRes :=
  let pa := m.pa (i * wb)
  let attr := m.attr (i * wb)
  if k = 0 then .ok s []
  else if s.deadRead pa attr then .ok (s.meetRegion pa attr false) (List.replicate k 0)
  else
    match (s.meetRegion pa attr false).consume (dieOfAddr pa)
        ((List.range ((pa + k * wb - 1) / 8 - pa / 8 + 1)).map fun j => .word (8 * (pa / 8 + j))) with
    | (s, some (.word w)) => .bad s ((m.va + BitVec.ofNat 64 (i * wb) &&& ~~~(7 : Word)) + BitVec.ofNat 64 (w - pa / 8 * 8))
    | (s, _) => .ok s ((List.range k).map fun j => Memory.read s.arrays (pa + j * wb) wb)

/-- Write elements from number i on, which lie in one sector, into the arrays: one array write of every byte of them (R278). A word that they
replace whole holds no error any more. -/
def State.writeRun (s : State) (m : PageMap) (wb i : Nat) (vs : List Nat) : State :=
  let pa := m.pa (i * wb)
  let n := vs.length * wb
  if n = 0 then s
  else
    let s := s.meetRegion pa (m.attr (i * wb)) true
    (State.cleanWords { s with arrays := Memory.write s.arrays pa n (vs.foldr (fun v x => v % 2 ^ (8 * wb) + 2 ^ (8 * wb) * x) 0) } pa n)

/-! ## IPOP: the start (R288) -/

/-- The checks of an IPOP's ranges, in the order of R288; a range that is read and written has the access code 3. -/
def ipopRanges (s : State) (i : Instr) (kind : IpopKind) (f : IpFmt) (x y : Word) (n : Nat)
    (k : State → PageMap → PageMap → Option Target → UnitRes) : UnitRes :=
  let wb := ipBytes f
  let len := n * wb
  let none' : PageMap := ⟨0, 0, []⟩
  let check (s : State) (a : Word) (len : Nat) (kind code : AccKind) (f : State → PageMap → UnitRes) : UnitRes :=
    withRange (s.checkRange s.cur a len kind engMem) code f
  if n > 2 ^ 30 then .trap s (trapInfo 0x01 (unitWord i))
  else if x.toNat % wb ≠ 0 then .trap s (trapInfo 0x04 x)
  else if (kind = .sum ∨ kind = .axpy) ∧ y.toNat % wb ≠ 0 then .trap s (trapInfo 0x04 y)
  else match kind with
    | .scale | .fill =>
      check s x len .sread .atomic fun s _ => check s x len .swrite .atomic fun s xm => k s xm none' none
    | .axpy =>
      check s x len .sread .sread fun s xm => check s y len .sread .atomic fun s _ => check s y len .swrite .atomic fun s ym =>
        if x ≠ y ∧ x.toNat < y.toNat + len ∧ y.toNat < x.toNat + len then .trap s (trapInfo 0x01 (unitWord i))
        else k s xm ym none
    | .sum =>
      check s x len .sread .sread fun s xm =>
        if inLocal y then
          match s.localPlace s.cur.core y with
          | some p => k s xm ⟨y, 0, []⟩ (some ⟨p, localAttr .default⟩)
          | none => .trap s (trapInfo 0x06 y)
        else check s y wb .swrite .swrite fun s ym => k s xm ym (some ⟨.phys (ym.pa 0), ym.attr 0⟩)

/-- The sectors of a sum that its strand read before it issued, each with its number (R289). -/
def Strand.earlySectors (t : Strand) (m : PageMap) (wb n : Nat) : List (Nat × Nat) :=
  t.ahead.filterMap fun x =>
    if t.nextRead x then x.part.bind fun k =>
      let (i0, i1) := m.sectorElems wb n k
      if x.addr = m.va + BitVec.ofNat 64 (i0 * wb) ∧ x.n = (i1 - i0) * wb then some (k, x.val) else none
    else none

/-- An IPOP starts, and an acquire one holds its strand until its counter has fallen (R288). -/
def ipopUnit (h : Hdr) (i : Instr) (kind : IpopKind) (f : IpFmt) (xr yr cr ar : SReg) (n : CtrNo) (s : State) : UnitRes :=
  match s.me.wait with
  | some ⟨.ipop _, _⟩ => .wait s
  | _ =>
    let t := s.me
    let cnt := (t.rS cr).toNat
    ipopRanges s i kind f (t.rS xr) (t.rS yr) cnt fun s xm ym res =>
      countedStart s h n fun s =>
        let wb := ipBytes f
        let nx := xm.sectors wb cnt
        let apart : Bool := kind == .axpy && t.rS xr != t.rS yr
        let j : IpopJob :=
          { kind := kind, fmt := f, x := xm, y := ym, res := res, n := cnt, a := (t.rS ar).toNat % 2 ^ ipWidth f, rm := t.rm
            todo := List.range (nx + if apart then ym.sectors wb cnt else 0)
            early := if kind = .sum then t.earlySectors xm wb cnt else [], vals := [], flags := 0 }
        let x := s.myCore.workKey
        let s := s.startXfer n (.ipop j)
        if acquires (ordOf h).order then .wait (s.modMe fun t => { t with wait := some ⟨.ipop x, i⟩ }) else .done s

/-- IPOP.SUM (R287, R288). -/
def execIpopSum (h : Hdr) (f : IpFmt) (x y c : SReg) (n : CtrNo) (s : State) : Out :=
  runUnit h (ctrSite s n :: ctlSite s 0 :: sSites s [x, y, c]) (ipopUnit h (.ipopSum h f x y c n) .sum f x y c 0 n) s
/-- IPOP.SCALE (R287, R288). -/
def execIpopScale (h : Hdr) (f : IpFmt) (x c a : SReg) (n : CtrNo) (s : State) : Out :=
  runUnit h (ctrSite s n :: ctlSite s 0 :: sSites s [x, c, a]) (ipopUnit h (.ipopScale h f x c a n) .scale f x 0 c a n) s
/-- IPOP.AXPY (R287, R288). -/
def execIpopAxpy (h : Hdr) (f : IpFmt) (x y c a : SReg) (n : CtrNo) (s : State) : Out :=
  runUnit h (ctrSite s n :: ctlSite s 0 :: sSites s [x, y, c, a]) (ipopUnit h (.ipopAxpy h f x y c a n) .axpy f x y c a n) s
/-- IPOP.FILL (R287, R288). -/
def execIpopFill (h : Hdr) (f : IpFmt) (x c a : SReg) (n : CtrNo) (s : State) : Out :=
  runUnit h (sSites s [x, c, a]) (ipopUnit h (.ipopFill h f x c a n) .fill f x 0 c a n) s

/-! ## IPOP: its sectors and its end -/

/-- Whether a strand waits for an acquire IPOP before which a FENCER holds it (R304): the IPOP does not end yet. -/
def State.ipopPaused (s : State) (id : StrandId) (x : BitVec 32) : Bool :=
  s.pausedNow id && (match (s.strand id).wait with
    | some ⟨.ipop y, _⟩ => y == x
    | _ => false)

/-- A strand that waits for an acquire IPOP goes on (R288). -/
def State.endIpopWait (s : State) (id : StrandId) (x : BitVec 32) : State :=
  let go (h : Hdr) : State :=
    match onStrand id (fun s => finish (hdrWords h) (endWait h s)) s with
    | .next s => s
    | _ => s
  match (s.strand id).wait with
  | some ⟨.ipop y, i⟩ =>
    if y ≠ x then s
    else match i with
      | .ipopSum h .. | .ipopScale h .. | .ipopAxpy h .. | .ipopFill h .. => go h
      | _ => s
  | _ => s

/-- What a sector comes to: the job with its values, a word with an uncorrectable error, or a wait for the x values it needs. -/
inductive SectorRes where
  | ok (s : State) (j : IpopJob)
  | bad (s : State) (a : Word)
  | early

/-- New elements of a sector with the flags of each. -/
def newElems (rs : List (Nat × FpFlags)) : List Nat × FpFlags := (rs.map (·.1), rs.foldl (fun f r => f ||| r.2) 0)

/-- A sector of X, its elements from i0 to i1 (R288): a sum and the x side of axpy keep its values, scale, fill and axpy over one range write
it in the step that reads it. -/
def State.xSector (s : State) (j : IpopJob) (same : Bool) (i0 i1 : Nat) : SectorRes :=
  let wb := ipBytes j.fmt
  let m := Mode.ofRM j.rm
  let put (s : State) (rs : List (Nat × FpFlags)) : SectorRes :=
    let (vs, fl) := newElems rs
    .ok (s.writeRun j.x wb i0 vs) { j with flags := j.flags ||| fl }
  if j.kind = .fill then .ok (s.writeRun j.x wb i0 (List.replicate (i1 - i0) j.a)) j
  else
    match s.readRun j.x wb i0 (i1 - i0) with
    | .bad s a => .bad s a
    | .ok s xs =>
      let keep : SectorRes := .ok s { j with vals := xs.mapIdx (fun k x => (i0 + k, x)) ++ j.vals }
      match j.kind with
      | .scale => put s (xs.map (ipMul j.fmt m j.a))
      | .axpy => if same then put s (xs.map fun x => ipFma j.fmt m j.a x x) else keep
      | _ => keep

/-- A sector of Y of an axpy (R288): it needs the x values of its elements. -/
def State.ySector (s : State) (j : IpopJob) (i0 i1 : Nat) : SectorRes :=
  let wb := ipBytes j.fmt
  let have' := (List.range (i1 - i0)).map fun k => (j.vals.find? (·.1 == i0 + k)).map (·.2)
  if have'.any (·.isNone) then .early
  else
    match s.readRun j.y wb i0 (i1 - i0) with
    | .bad s a => .bad s a
    | .ok s ys =>
      let (vs, fl) := newElems ((have'.zip ys).map fun (x, y) => ipFma j.fmt (Mode.ofRM j.rm) j.a (x.getD 0) y)
      .ok (s.writeRun j.y wb i0 vs) { j with flags := j.flags ||| fl }

/-- A sector of a sum that was read before the sum issued gives its elements from i0 to i1 (R289). -/
def IpopJob.earlySector (j : IpopJob) (v i0 i1 : Nat) : IpopJob :=
  let w := ipWidth j.fmt
  { j with vals := (List.range (i1 - i0)).map (fun k => (i0 + k, v / 2 ^ (w * k) % 2 ^ w)) ++ j.vals }

/-- IPOP_SECTOR (R288, R289, R291): one sector, by its number among X's and then Y's, is read and written in one step. At a word with an
uncorrectable error the IPOP ends: its sectors already written keep their values, and their flags are folded (assumption 78). -/
def execIpopSector (c : CoreId) (x : BitVec 32) (k : Nat) (s : State) : Out :=
  match (s.core c).xfers.find? (·.id == x) with
  | some f =>
    (match f.kind with
      | .ipop j =>
        let id : StrandId := ⟨c, f.slot⟩
        let wb := ipBytes j.fmt
        let nx := j.x.sectors wb j.n
        if !j.todo.contains k || s.copyStopped id x || s.ipopPaused id x then .next s
        else
          let r := if k < nx then
              let (i0, i1) := j.x.sectorElems wb j.n k
              match j.early.find? (·.1 == k) with
              | some (_, v) => .ok s (j.earlySector v i0 i1)
              | none => s.xSector j (j.x.va == j.y.va) i0 i1
            else
              let (i0, i1) := j.y.sectorElems wb j.n (k - nx)
              s.ySector j i0 i1
          (match r with
            | .early => .next s
            | .bad s a => .next (((s.modStrand id (·.raise j.flags)).holdFault id x 0x0C a).endIpopWait id x)
            | .ok s j => .next (s.modXfer c f fun z => { z with kind := .ipop { j with todo := j.todo.filter (· != k) } }))
      | _ => .next s)
  | none => .next s

/-- The leaves of a sum, in element order, as they enter its tree (R73, R93), and their flags. -/
def IpopJob.leaves (j : IpopJob) : List (Option Nat) × FpFlags :=
  let leaf (x : Nat) : Nat × FpFlags := match ipFmt j.fmt with
    | some g => g.leaf false x
    | none => (x, 0)
  let ls := (List.range j.n).map fun i => (j.vals.find? (·.1 == i)).map fun p => leaf p.2
  (ls.map (·.map (·.1)), ls.foldl (fun f l => f ||| (l.map (·.2)).getD 0) 0)

/-- The sum and its flags (R287). -/
def IpopJob.root (j : IpopJob) : Nat × FpFlags :=
  let (ls, f0) := j.leaves
  let (r, f1) := treeRoot (ipAdd j.fmt (Mode.ofRM j.rm)) j.n ls
  (r.getD 0, f0 ||| f1)

/-- IPOP_COMPLETE (R287, R288): with every sector done a sum is stored at its point, the flags are folded, and the counter falls. -/
def execIpopComplete (c : CoreId) (x : BitVec 32) (s : State) : Out :=
  match (s.core c).xfers.find? (·.id == x) with
  | some f =>
    (match f.kind with
      | .ipop j =>
        let id : StrandId := ⟨c, f.slot⟩
        let ends (s : State) (fl : FpFlags) : Out :=
          .next (((s.modStrand id (·.raise fl)).dropXfer id x).endIpopWait id x)
        if !j.todo.isEmpty || s.copyStopped id x || s.ipopPaused id x then .next s
        else
          (match j.res with
            | none => ends s j.flags
            | some t =>
              (match s.storeAt id t (ipBytes j.fmt) j.root.1 with
                | .wait s => .next s
                | .bad s cause =>
                  .next ((s.holdFault id x cause j.y.va).endIpopWait id x)
                | .ok s _ => ends (s.overtake id (some x) f.ctr t.place (ipBytes j.fmt)) (j.flags ||| j.root.2)))
      | _ => .next s)
  | none => .next s

/-! ## COLL -/

/-- Device memory of a present package on an untracked page (R373). -/
def collDest (s : State) (pa : Nat) (attr : Attr) : MapRule :=
  let here : Bool := match paKind pa with
    | .device p => s.present p (lineOf pa)
    | _ => false
  if attr.mkind == 0 && attr.ut && here then .ok else .bad false

/-- COLL (R372 to R374). -/
def execColl (h : Hdr) (op : CollOp) (f : IpFmt) (x y c : SReg) (det : Option SReg) (n : CtrNo) (s : State) : Out :=
  runUnit h (ctrSite s n :: sSites s ([x, y, c] ++ det.toList)) (fun s =>
    let t := s.me
    let wb := ipBytes f
    let cnt := (t.rS c).toNat
    let len := cnt * wb
    let a := t.rS x
    let b := t.rS y
    let group : Option (Nat × Nat × BitVec 32) := det.map fun r =>
      let v := t.rS r
      ((v.extractLsb' 0 16).toNat, (v.extractLsb' 16 16).toNat + 1, v.extractLsb' 32 32)
    let groupBad : Bool := match group with
      | some (r, cap, _) => decide (cap ≤ r) || decide (32 * 2 ^ 20 < cap * len)
      | none => false
    if cnt > 2 ^ 30 ∨ groupBad then .trap s (trapInfo 0x01 (unitWord (.coll h op f x y c det n)))
    else if a.toNat % wb ≠ 0 then .trap s (trapInfo 0x04 a)
    else if b.toNat % wb ≠ 0 then .trap s (trapInfo 0x04 b)
    else withRange (s.checkRange s.cur a len .sread engMem) .sread fun s xm =>
      withRange (s.checkRange s.cur b len .swrite collDest) .swrite fun s ym =>
        if a.toNat < b.toNat + len ∧ b.toNat < a.toNat + len then .trap s (trapInfo 0x01 (unitWord (.coll h op f x y c det n)))
        else countedStart s h n fun s =>
          .done (s.startXfer n (.coll { op := op, fmt := f, x := xm, y := ym, n := cnt, det := group, xs := none
                                        mark := s.me.sbAge, todo := List.range (xm.sectors wb cnt), got := [], fills := false, sent := false, arr := 0 }))) s

/-- What reading a sector of a COLL's source answers: its elements, a wait, or a fault with its address. -/
inductive SourceRes where
  | ok (s : State) (xs : List (Nat × Nat))
  | wait (s : State)
  | bad (s : State) (cause : Nat) (a : Word)

/-- Read one sector of the source from the live image at the die point (R374). -/
def State.collRead (s : State) (id : StrandId) (j : CollJob) (k : Nat) : SourceRes :=
  let wb := ipBytes j.fmt
  let (i0, i1) := j.x.sectorElems wb j.n k
  let attr := j.x.attr (i0 * wb)
  match s.loadAt id ⟨.phys (j.x.pa (i0 * wb)), attr⟩ ((i1 - i0) * wb) none with
  | .wait s => .wait s
  | .bad s' c =>
    let a := (j.x.va + BitVec.ofNat 64 (i0 * wb) +
      BitVec.ofNat 64 (if c = 0x0C then s.faultByte id ⟨.phys (j.x.pa (i0 * wb)), attr⟩ ((i1 - i0) * wb) else 0)) &&& ~~~(7 : Word)
    .bad s' c (if c = 0x0D then j.y.va else a)
  | .ok s v => .ok s ((List.range (i1 - i0)).map fun k => (i0 + k, v / 2 ^ (8 * wb * k) % 2 ^ (8 * wb)))

/-- The result of ⊕ (R374): floating additions round in RNE, and no flag is kept. -/
def collOp (op : CollOp) (f : IpFmt) (x y : Nat) : Nat :=
  match op with
  | .add => (ipAdd f .rne x y).1
  | .min => ipMinMax f false x y
  | .max => ipMinMax f true x y

/-- The sector of the arrays in which sector k of a mapped range lies. -/
def PageMap.sectorAt (m : PageMap) (wb n k : Nat) : Nat := m.pa ((m.sectorElems wb n k).1 * wb) / 32
/-- Y of a contribution that another package sends. -/
def peerMap (p : PeerColl) : PageMap := ⟨0, p.off, p.pages.map fun b => ⟨.phys b, ⟨0, true, false, false, 0, .general, .default⟩⟩⟩

/-- The fast contributions that have arrived and are not applied yet (R374): when each arrived, and its sectors of the arrays that are still to do. -/
def State.fastArrived (s : State) : List (Nat × List Nat) :=
  (s.cores.toList.flatMap fun c => c.xfers.filterMap fun x => match x.kind with
    | .coll j => if j.sent && j.det.isNone then some (j.arr, j.todo.map (j.y.sectorAt (ipBytes j.fmt) j.n)) else none
    | _ => none) ++
  (s.halls.toList.flatMap fun h => h.inbox.filterMap fun a => match a.p.coll, a.left with
    | some p, some todo => if p.det.isNone then some (a.arr, todo.map ((peerMap p).sectorAt (ipBytes p.fmt) p.xs.length)) else none
    | _, _ => none)
/-- When a fast contribution arrives that arrives now: after all that are not applied yet. -/
def State.nextArrival (s : State) : Nat := s.fastArrived.foldl (fun m x => max m (x.1 + 1)) 0

/-- Whether contributions may be applied to sector k of Y now: a fast one, with when it arrived, after those that arrived before it (R374), and each
once the stores of its own core to those bytes are performed (R295). -/
def State.landReady (s : State) (y : PageMap) (wb n k : Nat) (by' : List Contribution) (arr : Option Nat) : Bool :=
  let (i0, i1) := y.sectorElems wb n k
  let t : Target := ⟨.phys (y.pa (i0 * wb)), y.attr (i0 * wb)⟩
  (arr.all fun a => s.fastArrived.all fun x => decide (a ≤ x.1) || !x.2.contains (y.sectorAt wb n k)) &&
  by'.all fun m => match m.who with
    | some (lid, core, _, _) => (s.coreAt lid core).all fun c => !(s.core c).egressOverlaps t ((i1 - i0) * wb)
    | none => true

/-- A member of a landing has its contribution in bytes of Y: reads of them that its strand took ahead are older than its completion (R251,
R376). -/
def State.overtakeBy (s : State) (p : Place) (n : Nat) (m : Contribution) : State :=
  match m.who with
  | none => s
  | some (lid, core, slot, ctr) => match s.coreAt lid core with
    | some c => s.overtake ⟨c, slot⟩ none ctr p n
    | none => s

/-- Apply contributions, in their order, to sector k of Y in one step (R374). A word that holds an uncorrectable error keeps it, since what is
written is formed from it (R279). -/
def State.collSector (s : State) (op : CollOp) (f : IpFmt) (y : PageMap) (n k : Nat) (by' : List Contribution) : State :=
  let wb := ipBytes f
  let (i0, i1) := y.sectorElems wb n k
  let pa := y.pa (i0 * wb)
  let m := (i1 - i0) * wb
  let (s, _) := s.consume (dieOfAddr pa) ((List.range ((pa + m - 1) / 8 - pa / 8 + 1)).map fun j => .word (8 * (pa / 8 + j)))
  let s := s.meetRegion pa (y.attr (i0 * wb)) true
  let vs := (List.range (i1 - i0)).map fun d =>
    by'.foldl (fun v x => collOp op f v (x.xs.getD (i0 + d) 0)) (Memory.read s.arrays (pa + d * wb) wb)
  by'.foldl (fun s x => s.overtakeBy (.phys pa) m x)
    { s with arrays := Memory.write s.arrays pa m (vs.foldr (fun v x => v % 2 ^ (8 * wb) + 2 ^ (8 * wb) * x) 0) }

/-- The key of a contribution's group (R374). -/
structure DetKey where
  y : PageMap
  n : Nat
  fmt : IpFmt
  op : CollOp
  r : Nat
  tag : BitVec 32

/-- Whether a group has a key: the same elements of Y, wherever they are mapped. -/
def DetGroup.keyed (g : DetGroup) (k : DetKey) : Bool :=
  g.y.off == k.y.off && g.y.pages.map (·.place) == k.y.pages.map (·.place) && g.n == k.n && g.fmt == k.fmt && g.op == k.op &&
  g.r == k.r && g.tag == k.tag

/-- The bytes a group reserves (R375). -/
def DetGroup.bytes (g : DetGroup) : Nat := g.r * g.n * ipBytes g.fmt

/-- Whether a group's Y is another package's, whose die holds it: what that die holds stands here as it is known, it takes no space here, and that
die's admission is not this package's (assumption 79). -/
def DetGroup.far (g : DetGroup) (s : State) : Bool := !s.ownDevice (g.y.pa 0)

/-- Admit groups in the order of their first arrival, while their space is free (R375). -/
def admitGroups (free : Nat) : List DetGroup → List DetGroup
  | [] => []
  | g :: gs =>
    if g.admitted then g :: admitGroups free gs
    else if g.bytes ≤ free then { g with admitted := true } :: admitGroups (free - g.bytes) gs
    else g :: gs

/-- A die's groups after admission. -/
def State.letIn (s : State) (gs : List DetGroup) : List DetGroup :=
  let far := (gs.filter (·.far s)).map fun g => { g with admitted := true }
  let own := gs.filter fun g => !g.far s
  admitGroups (32 * 2 ^ 20 - ((own.filter (·.admitted)).map (·.bytes)).sum) own ++ far

/-- The counter of a member of a group falls, wherever its strand is (R374, R376); another package's is its own. -/
def State.memberDone (s : State) (m : Contribution) : State :=
  match m.who with
  | none => s
  | some (lid, core, slot, ctr) => s.modImage lid core fun c => c.setStrand slot (c.strands[slot.val].decC ctr)

/-- The die that holds a group: the home base die of Y (R374). -/
def DetKey.die (k : DetKey) : DieId := dieOfAddr (k.y.pa 0)

/-- A group of a key as it stands at its die. -/
def State.detGroup (s : State) (k : DetKey) : Option DetGroup := (s.die k.die).groups.find? (·.keyed k)

/-- A contribution arrives at its die (R375): it opens its group when there is none, and groups are admitted; its rank is recorded when its
group is admitted and does not hold that rank yet. Otherwise (false) it waits. -/
def State.arriveDet (s : State) (k : DetKey) (m : Contribution) : State × Bool :=
  let x := (s.die k.die).groups
  let x := s.letIn (if x.any (·.keyed k) then x else x ++ [⟨k.y, k.n, k.fmt, k.op, k.r, k.tag, [], false⟩])
  let ok := (x.find? (·.keyed k)).any fun g => g.admitted && !g.members.any (·.rank == m.rank)
  let x := if ok then replaceFirst (·.keyed k) (fun g => { g with members := g.members ++ [m] }) x else x
  (s.modDie k.die fun d => { d with groups := x }, ok)

/-- Whether every rank of a group is held. -/
def DetGroup.full (g : DetGroup) : Bool := decide (g.r ≤ g.members.length)

/-- The contributions of a group in rank order. -/
def DetGroup.ranked (g : DetGroup) : List Contribution := (List.range g.r).filterMap fun k => g.members.find? (·.rank == k)

/-- A group whose last sector was applied goes: the counters of its members fall, but for those of `mine`, and its space is free (R374,
R375). -/
def State.endGroup (s : State) (k : DetKey) (mine : Contribution → Bool) : State :=
  match s.detGroup k with
  | none => s
  | some g =>
    let s := (g.members.filter fun m => !mine m).foldl State.memberDone s
    s.modDie k.die fun d => { d with groups := s.letIn (removeFirst (·.keyed k) d.groups) }

/-- A deterministic contribution of a core lands (R374, R375): it is held in its admitted group, and the one that fills the group applies it
sector by sector. -/
def State.landDet (s : State) (c : CoreId) (f : Xfer) (j : CollJob) (m : Contribution) (r : Nat) (tag : BitVec 32) : State :=
  let k : DetKey := ⟨j.y, j.n, j.fmt, j.op, r, tag⟩
  let rank := m.rank
  let upd (s : State) (j : CollJob) : State := s.modXfer c f fun z => { z with kind := .coll j }
  if !j.fills then
    match s.arriveDet k m with
    | (s, false) => upd s j
    | (s, true) =>
      if (s.detGroup k).any (·.full) then upd s { j with fills := true }
      else s.modCore c fun y => { y with xfers := y.xfers.filter fun z => !(z.id == f.id && z.slot == f.slot) }
  else
    let by' := ((s.detGroup k).map (·.ranked)).getD []
    match s.anyOf (j.todo.filter fun q => s.landReady j.y (ipBytes j.fmt) j.n q by' none) with
    | none => if j.todo.isEmpty then (s.endGroup k (·.rank == rank)).dropXfer ⟨c, f.slot⟩ f.id else s
    | some (s, q) =>
      let s := s.collSector j.op j.fmt j.y j.n q by'
      let todo := j.todo.filter (· != q)
      if todo.isEmpty then (s.endGroup k (·.rank == rank)).dropXfer ⟨c, f.slot⟩ f.id else upd s { j with todo := todo }

/-- A step of a contribution of another package (R374, R375): one that arrives is held in its group, once that is admitted and has no
contribution of its rank, and a fast one, or the one that fills its group, is applied sector by sector. `left` are the sectors still to do, none
before it is taken, and `arr` is when it was; the answer has none when nothing more is to be done for it. -/
def State.landPeer (s : State) (p : PeerColl) (left : Option (List Nat)) (arr : Nat) : State × Option (Option (List Nat)) :=
  let y := peerMap p
  let n := p.xs.length
  let all := List.range (y.sectors (ipBytes p.fmt) n)
  let key (r : Nat) (tag : BitVec 32) : DetKey := ⟨y, n, p.fmt, p.op, r, tag⟩
  let ends (s : State) : State := match p.det with
    | some (_, r, tag) => s.endGroup (key r tag) fun _ => false
    | none => s
  match left, p.det with
  | none, some (rank, r, tag) =>
    (match s.arriveDet (key r tag) ⟨rank, p.xs, none⟩ with
      | (s, false) => (s, some none)
      | (s, true) => (s, if (s.detGroup (key r tag)).any (·.full) then some (some all) else none))
  | none, none => (s, some (some all))
  | some todo, det =>
    let xs : List Contribution := match det with
      | some (_, r, tag) => ((s.detGroup (key r tag)).map (·.ranked)).getD []
      | none => [⟨0, p.xs, none⟩]
    match s.anyOf (todo.filter fun q => s.landReady y (ipBytes p.fmt) n q xs (if det.isNone then some arr else none)) with
    | none => if todo.isEmpty then (ends s, none) else (s, some (some todo))
    | some (s, q) =>
      let s := s.collSector p.op p.fmt y n q xs
      let todo := todo.filter (· != q)
      if todo.isEmpty then (ends s, none) else (s, some (some todo))

/-- COLL_LANDING (R374 to R376): a sector of the source is read at its die point; with all of them the contribution goes to Y's die, up to the
stall bound. A fast one arrives there, and then each step applies one sector of it; a deterministic one is held in its group. -/
def execCollLanding (c : CoreId) (x : BitVec 32) (s0 : State) : Out :=
  let s := s0
  match (s.core c).xfers.find? (·.id == x) with
  | some f =>
    (match f.kind with
      | .coll j =>
        let id : StrandId := ⟨c, f.slot⟩
        let wb := ipBytes j.fmt
        let upd (s : State) (j : CollJob) : Out := .next (s.modXfer c f fun z => { z with kind := .coll j })
        if s.copyStopped id x then .next s
        else
          (match j.xs with
            | none =>
              if (j.x.lines (j.n * wb)).any fun l => !s.lineStored id j.mark l.1 then .next s
              else (match s.anyOf j.todo with
                | none => upd s { j with xs := some ((List.range j.n).map fun i => ((j.got.find? (·.1 == i)).map (·.2)).getD 0)
                                         todo := List.range (j.y.sectors wb j.n) }
                | some (s, k) => (match s.collRead id j k with
                  | .wait s' => .next { s' with fresh := s0.fresh }
                  | .bad s cause a => .next (s.holdFault id x cause a)
                  | .ok s vs => upd s { j with got := j.got ++ vs, todo := j.todo.filter (· != k) }))
            | some xs =>
              (match (j.y.lines (j.n * wb)).find? fun l => !j.sent && !s.reached l.1 with
                | some l => .next (if s.stallOver id l.1 .home then (s.stallEnd id l.1).holdFault id x 0x0D j.y.va else s)
                | none =>
                  let m (rank : Nat) : Contribution := ⟨rank, xs, some ((s.core c).lid.getD 0, (s.core c).index, f.slot, f.ctr)⟩
                  (match j.det with
                    | some (rank, r, tag) => .next (s.landDet c f { j with sent := true } (m rank) r tag)
                    | none =>
                      if !j.sent then upd s { j with sent := true, arr := s.nextArrival }
                      else (match s.anyOf (j.todo.filter fun k => s.landReady j.y wb j.n k [m 0] (some j.arr)) with
                        | none => .next (if j.todo.isEmpty then s.dropXfer id x else s)
                        | some (s, k) =>
                          let s := s.collSector j.op j.fmt j.y j.n k [m 0]
                          let todo := j.todo.filter (· != k)
                          if todo.isEmpty then .next (s.dropXfer id x) else upd s { j with todo := todo }))))
      | _ => .next s)
  | none => .next s

end Sys2Proof.Machine
end

