-- ==== Sys2Proof/Machine/RollEvents.lean ====
section
/-! DEFINITION. The steps of the Roll (R315 to R325): the service of requests, atomics at a slice, invalidations, recalls and retires; and the
steps of roll call (R327 to R331). -/
namespace Sys2Proof.Machine

/-! ## Requests -/

/-- The oldest request for a line at its slice (R316). -/
def State.firstReq (s : State) (line : Nat) : Option SliceReq := (s.slice (sliceOf line)).queue.find? (·.line == line)

/-- A request leaves its slice's queue. -/
def State.dequeue (s : State) (r : SliceReq) : State :=
  s.modSlice (sliceOf r.line) fun x => { x with queue := removeFirst (· == r) x.queue }

/-- Whether the host port of a line's Hall runs the CXL protocols (R362, R363). -/
def State.cxlUp (s : State) (line : Nat) : Bool := (s.hall (s.portOf line)).up && (s.hall (s.portOf line)).cxl

/-- A grant to the host or a peer of a line homed here: an access without SL, which meets the region as it is granted (R269). -/
def State.outerGrant (s : State) (h : Holder) (line : Nat) (excl : Bool) : State :=
  let s := if (s.grant h line excl (localAttr .default)).2 then s.meetRegion (128 * line) (localAttr .default) false else s
  (s.grant h line excl (localAttr .default)).1

/-- The service of an RS or RX (R315, R316): a die's waits in the slice's queue, the host's and a peer's arrive with the step, for lines homed
here, and a Hall reads the tail line of a list it serves (R336). -/
def serveReq (h : Holder) (line : Nat) (excl : Bool) (s : State) : Out :=
  let need : Reach := if excl then .all else .data
  if !s.lineFree line need then .next s
  else match h with
    | .die d =>
      (match s.firstReq line with
        | some r =>
          if r.holder = h ∧ r.kind = (if excl then ReqKind.rx else ReqKind.rs) then
            if s.noRoom d line r.attr then .next (s.dequeue r)
            else (match s.grant h line excl r.attr with
              | (s', true) => .next (s'.dequeue r)
              | (s', false) => .next s')
          else .next s
        | none => .next s)
    | .hall k =>
      (match (List.finRange 64).find? fun n => (s.lists[n.val]).en && s.listHall n == k && lineOf (s.lists[n.val]).addr == line with
        | some n => .next (if excl then s else (s.hallRead n).1)
        | none => .next s)
    | .host =>
      if (s.homeDie line).isNone ∨ ¬ s.canServe line need ∨ ¬ s.cxlUp line then .next s
      else .next (s.outerGrant h line excl)
    | .peer p =>
      if (s.homeDie line).isNone ∨ ¬ s.canServe line need ∨ s.lostPeers.contains p then .next s
      else .next (s.outerGrant h line excl)

/-- RS (R316). -/
def execRs (h : Holder) (line : Nat) (s : State) : Out := serveReq h line false s

/-- RX (R316). -/
def execRx (h : Holder) (line : Nat) (s : State) : Out := serveReq h line true s

/-- A holder gives up its copy (R316, R317): a die empties its way, the host's or a peer's data comes with the step (assumption 13): a WB of a line
in E is as a DR, and the owner of a line in M or O sends no DR. A Hall's tail line goes only with its entry. -/
def evictReq (h : Holder) (line : Nat) (dirty : Bool) (s : State) : Out :=
  if !s.canServe line .home then .next s
  else match h with
    | .hall _ => .next s
    | .die d =>
      (match s.findLine d line with
        | some c =>
          if c.st = .home ∨ ((c.st == .m || c.st == .o || c.dirty != 0) != dirty) then .next s
          else .next ((if s.homeDie line = some d then s.evictHome d c else s.evictRdc d c).getD s)
        | none => .next s)
    | .host | .peer _ =>
      (match s.entry line with
        | some e =>
          let owns : Bool := e.own == ownerOf h
          let holds : Bool := owns && (e.st == .m || e.st == .o)
          let taken : Bool := if dirty then holds || (owns && e.st == .e) else !holds
          if !e.has h || s.hasPending h line || !taken then .next s
          else
            let (s, x, m) := if holds then s.entryData e else (s, 0, 0)
            .next (s.leaveRoll h line x m fun s x m => s.homeWrite line x m)
        | none => .next s)

/-- WB (R316, R317). -/
def execWb (h : Holder) (line : Nat) (s : State) : Out := evictReq h line true s

/-- DR (R316). -/
def execDr (h : Holder) (line : Nat) (s : State) : Out := evictReq h line false s

/-! ## Atomics -/

/-- What an AT does when it is served: the physical address of its bytes, their count, the new value, and for a VAPPEND its capacity and data
base, or that one of them holds an uncorrectable error. -/
structure AtOp where
  pa : Nat
  n : Nat
  err : Bool
  desc : Nat × Nat
  f : Nat → Option Nat

/-- A doubleword of a VAPPEND's descriptor as its tail atomic reads it at the slice (R204): from the line that the Hall collects, or where its own
line is served. A word with an uncorrectable error is answered with true. -/
def State.descRead (s : State) (id : StrandId) (r : SliceReq) (p : Target) : Acc (Bool × Nat) :=
  let of (x : Acc Nat) : Acc (Bool × Nat) := match x with
    | .ok s v => .ok s (false, v)
    | .bad s _ => .ok s (true, 0)
    | .wait s => .wait s
  match p.place with
  | .loc .. => of (s.readAt id p 8 none)
  | .phys pa =>
    if lineOf pa = r.line then
      let (_, x, _) := (s.meetRegion pa r.attr true).collect (.die (dieOf id.core)) [id] r.line true
      .ok s (badBytes x (pa % 128) 8, lineBytes x (pa % 128) 8)
    else if p.attr.mkind = 2 ∨ p.attr.ut then of (s.arrayRead pa 8 p.attr)
    else of (s.sysRead (dieOf id.core) pa 8 p.attr)

/-- The operation of a strand's AT (R122, R123): that of the unit it waits in, or the tail atomic of the VAPPEND at its VQ head, which reads
the capacity and the base in the same step (R204). It waits while they cannot be read. -/
def State.atOp (s : State) (id : StrandId) (r : SliceReq) : Acc AtOp :=
  let t := s.strand id
  if !r.vec then
    match t.wait with
    | some ⟨.atomic ⟨.phys pa, _⟩, i⟩ => (match atomicOp t i with
        | some (n, f) => .ok s ⟨pa, n, false, (0, 0), f⟩
        | none => .wait s)
    | _ => .wait s
  else
    match t.vq with
    | e :: _ => (match e.instr with
        | .vappend h hint k _ _ =>
          let w := s.work id e 0
          let d := e.cap.x
          (match w.descPart s h hint (d + 8), w.descPart s h hint (d + 16) with
            | some t1, some t2 =>
              (s.descRead id r t1).bind fun s (e1, cap) => (s.descRead id r t2).bind fun s (e2, base) =>
                .ok s ⟨128 * r.line + d.toNat % 128, 8, e1 || e2, (cap, base), appendNew (popN w.vl (t.rK k w.vl)) cap⟩
            | _, _ => .wait s)
        | _ => .wait s)
    | [] => .wait s

/-- AT (R324, R325): the oldest request of a line is an atomic. Its intent, the write of the new line, and its done record are a step each. An
atomic on a line of another package first has that line's home grant it (R370). -/
def execAt (id : StrandId) (s : State) : Out :=
  let mine (r : SliceReq) : Bool := r.kind == .at && r.strand == some id
  match (s.slices[0].queue ++ s.slices[1].queue).find? mine with
  | none => .next s
  | some r =>
    if s.firstReq r.line ≠ some r ∨ ¬ s.sliceUp (sliceOf r.line) then .next s
    else match (s.strand id).journal with
      | none =>
        if !s.lineFree r.line then .next s
        else match s.mayCollect r.line with
          | (s, false) => .next s
          | (s, true) => (match s.atOp id r with
          | .wait s => .next s
          | .bad s _ => .next s
          | .ok s a =>
            if (s.core id.core).egressOverlaps ⟨.phys a.pa, r.attr⟩ a.n then .next s
            else .next (s.atomicIntent id a.pa a.n r.attr r.vec a.err a.desc a.f))
      | some j =>
        if j.done then .next (s.dequeue r)
        else if j.wrote then .next ((s.atomicDone id j).dequeue r)
        else .next (s.atomicWrite id j)

/-! ## Invalidations, recalls and retires -/

/-- APPLY_STEP (R322). -/
def execApplyStep (h : Holder) (line : Nat) (s : State) : Out := .next (s.applyPending h line)

/-- RECALL (R319): RC is set; while an atomic is in progress on the line, its slice waits or a holder is not reached, the recall goes on after
that. -/
def execRecall (line : Nat) (s : State) : Out := .next (s.askRecall line)

/-- RETIRE (R319, R320): a recall that had to wait goes on, and a recalled entry whose invalidations are all applied is freed, and the recall
is counted. -/
def execRetire (line : Nat) (s : State) : Out :=
  match s.entry line with
  | some e =>
    let held : Bool := (s.tailList line).isSome
    let onWay : Bool := s.pending.any fun p => p.line == line
    if !e.rc || e.atom || s.busy line || !s.sliceUp (sliceOf line) then .next s
    else if !e.recalled || (held && !onWay) then .next (if s.linked line then s.recallEntry e else s)
    else if onWay then .next s
    else
      let s := s.retire { e with rc := false } fun s x m => s.homeWrite line x m
      .next (s.modHall (s.portOf line) fun x => { x with recalls := x.recalls + 1 })
  | none => .next s

/-- A Roll entry of a line of the host or of another package leaves by an outer ownership (R363, R370, R377): dirty data goes to that memory,
and every holder is sent an invalidation, which a later store here to the line also waits for (R379). -/
def State.outerTake (s : State) (e : RollEntry) (owner : Holder) : State :=
  let (s, x, m) := s.entryData e
  let s := if (e.st = .m ∨ e.st = .o) ∧ m ≠ 0 then s.arrayWrite e.line x m else s
  let s := { s with pending := e.holders.map (inval e.line owner []) ++ s.tellHall e.line owner [] ++ s.pending }
  s.dropEntry e.line

/-- Bytes that the host or another package writes in its own memory. -/
def State.outerWrite (s : State) (line : Nat) (w : Option LineWrite) : State :=
  match w with
  | some w => s.arrayWrite line w.data.toNat w.mask.toNat
  | none => s

/-- HOST_SNOOP (R363, R377): the host takes a line of its memory, which leaves the package, and may write bytes of it. A line that the package does not
hold, and non-coherent memory, the host writes with no snoop. -/
def execHostSnoop (x : HostTake) (s : State) : Out :=
  let line := x.line
  let w := x.w
  if paKind (128 * line) ≠ .host ∨ s.busy line then .next s
  else match s.entry line with
    | none => .next (s.outerWrite line w)
    | some e => if s.lineFree line then .next ((s.outerTake e .host).outerWrite line w) else .next s

/-- CXL_MEM_REQUEST (R364): the host reads a line, with or without keeping a copy, or writes bytes of it. -/
def execCxlMemRequest (line : Nat) (k : CxlKind) (s : State) : Out :=
  let need : Reach := match k with
    | .write _ => .all
    | _ => .data
  if (s.homeDie line).isNone ∨ ¬ s.present s.pkg line ∨ ¬ s.canServe line need ∨ ¬ s.cxlUp line then .next s
  else
    let meet (s : State) : State := s.meetRegion (128 * line) (localAttr .default) false
    match k with
    | .read =>
      let s := meet s
      .next (match s.entry line with
        | some e => (let (s, x, _) := s.entryData e; (s.shareEntry e x).1)
        | none => s)
    | .readKeep => .next ((meet s).grant .host line false (localAttr .default)).1
    | .write w => match s.sysWriteMask (dieOfAddr (128 * line)) line w.mask.toNat w.data.toNat (localAttr .default) with
      | .ok s _ => .next s
      | .wait s => .next s
      | .bad s _ => .next s

/-! ## The loss of a Hall die -/

/-- HALL_DIE_LOST (R327). -/
def execHallDieLost (h : HallId) (s : State) : Out :=
  if (s.hall h).present ∧ ¬ (s.hall h).lost then .next (s.loseHall h) else .next s

/-- ROLL_CALL_STEP (R328): in hardware mode the survivor runs the steps in turn. -/
def execRollCallStep (s : State) : Out :=
  if s.rollCall.rca ∧ ¬ s.rollCall.host then .next s.rollCallRun else .next s

/-- ROLL_STALL_TIMEOUT (R329, R332, R371): the bound passes for a strand's access that waits on a slice or a link that is down; the access traps
where it waits. -/
def execRollStallTimeout (id : StrandId) (s : State) : Out :=
  if (s.strand id).run = .idle then .next s else .next (s.modStrand id fun t => { t with stalled := true })

/-- HROLL_ADV (R331): in host-assisted mode each write of ADV runs one step. -/
def execHrollAdv (s : State) : Out := .next s.advRoll

end Sys2Proof.Machine
end

