-- ==== Sys2Proof/Machine/HostEvents.lean ====
section
/-! DEFINITION. The steps at the host ports and the peer ports (R326, R362 to R371). -/
namespace Sys2Proof.Machine

/-! ## Host requests -/

/-- The virtual address of the access a strand's unit makes, for the unit of a host request (R117). -/
def hostUnitAddr (t : Strand) : Instr → Word
  | .ld h _ _ _ _ b y => addrVal h t b y
  | .amo _ _ _ _ _ b _ => t.rS b
  | .cas _ _ _ _ b _ _ => t.rS b
  | .cas128 _ _ _ b _ _ => t.rS b
  | _ => 0

/-- A strand's host request ends in a trap at its unit (R326, R366). -/
def hostTrap (s : State) (id : StrandId) (i : Instr) (cause : Nat) : State :=
  let a := hostUnitAddr (s.strand id) i
  (s.modStrand id fun t => { t with wait := none }).scalarTrap id (trapInfo cause a)

/-- A completion that fails, for a strand whose unit waits for none: the next request of its vector, matrix or copy side, or its next
fetch, is the one that gets it (R326, R366). -/
def hostFail (s : State) (id : StrandId) (cause : Nat) : State :=
  if (s.strand id).run = .idle then s else s.modStrand id fun t => { t with hostBad := some (BitVec.ofNat 8 cause) }

/-- PCIE_COMPLETION (R326): success lets the unit go on; any other completion traps it, with nothing written. -/
def execPcieCompletion (id : StrandId) (st : PcieStatus) (s : State) : Out :=
  match (s.strand id).run, (s.strand id).wait with
  | .running, some ⟨.host pa false, i⟩ =>
    (match st with
      | .success => .next (s.modStrand id fun t => { t with wait := some ⟨.host pa true, i⟩ })
      | .unsupported => .next (hostTrap s id i 0x06)
      | .abort => .next (hostTrap s id i 0x0C)
      | .poisoned => .next (hostTrap s id i 0x0C))
  | _, _ =>
    match st with
    | .success => .next s
    | .unsupported => .next (hostFail s id 0x06)
    | .abort => .next (hostFail s id 0x0C)
    | .poisoned => .next (hostFail s id 0x0C)

/-- COMPLETION_TIMEOUT (R366). -/
def execCompletionTimeout (id : StrandId) (s : State) : Out :=
  match (s.strand id).run, (s.strand id).wait with
  | .running, some ⟨.host _ false, i⟩ => .next (hostTrap s id i 0x0C)
  | _, _ => .next (hostFail s id 0x0C)

/-- Whether an egress entry is a posted write that goes through a host port (R267, R363). -/
def State.postedOn (s : State) (h : HallId) (e : EgressEntry) : Bool :=
  match e.entry.tgt.place with
  | .phys pa => e.entry.tgt.attr.mkind == 2 && s.portOf (lineOf pa) == h
  | .loc .. => false

/-- POSTED_WRITE_FAILURE (R366): a posted write through a port is not performed; the Preber counts it and records its address with cause
0x0C, and no strand is told. With none in an egress, the next one that a vector, a tile or a copy sends through the port fails. -/
def execPostedWriteFailure (h : HallId) (s : State) : Out :=
  match (List.finRange 128).findSome? fun c => ((s.core c).egress.find? (s.postedOn h)).map fun e => (c, e) with
  | none => .next (s.modHall h fun x => { x with failNext := true })
  | some (c, e) =>
    let pa := match e.entry.tgt.place with
      | .phys pa => pa
      | .loc .. => 0
    .next ((s.modCore c fun x => { x with egress := removeFirst (· == e) x.egress }).failedPost pa)

/-- HOST_LINK_UP (R362, R369): the port comes up at a speed and a width that PCIe has, with CXL or without. -/
def execHostLinkUp (h : HallId) (spd : BitVec 3) (wid : BitVec 5) (cxl : Bool) (s : State) : Out :=
  let x := s.hall h
  if !x.present || x.lost || spd.toNat > 5 || !(wid == 4 || wid == 8 || wid == 16) then .next s
  else .next (s.modHall h fun x => { x with up := true, spd := spd, wid := wid, cxl := cxl })

/-! ## Peer packages -/

/-- A request or write of a peer package for a line homed here, as its slice serves it (R315, R370). False while it waits. -/
def State.peerToHome (s : State) (p : PeerPacket) : State × Bool :=
  if ¬ s.canServe p.line (if p.excl ∨ p.w.isSome then .all else .data) ∨ s.lostPeers.contains p.src then (s, false)
  else match p.w with
    | none => (s.outerGrant (.peer p.src) p.line p.excl, (s.grant (.peer p.src) p.line p.excl (localAttr .default)).2)
    | some w => match s.sysWriteMask (dieOfAddr (128 * p.line)) p.line w.mask.toNat w.data.toNat (localAttr .default) with
      | .ok s _ => (s, true)
      | .wait s => (s, false)
      | .bad s _ => (s, false)

/-- Answers of a line's home that have come and are not yet used, when the home takes the line again (R370): dirty bytes go with it, and what is
left of a grant is a shared copy, or nothing. -/
def State.voidAns (s : State) (line : Nat) (all : Bool) : State :=
  let s := (s.asksOf line).foldl (fun s a => match a.who, a.ans with
    | .proxy, some (_, true, _, x) => s.arrayWrite line x (2 ^ 128 - 1)
    | _, _ => s) s
  let void (a : HomeAsk) : Option HomeAsk :=
    if a.line = line ∧ a.who = .proxy ∧ a.ans.isSome then
      (if all then none else some { a with ans := a.ans.map fun x => (false, false, x.2.2) })
    else some a
  s.modSlice (sliceOf line) fun x => { x with asks := x.asks.filterMap void }

/-- Whether every invalidation of a line that this package's own entry sent is applied (R377). -/
def State.innerDone (s : State) (line : Nat) : Bool := s.pending.all fun q => q.line != line || isPeer q.holder

/-- What the home of a remote line sends this package's proxy entry (R370, R377): an invalidation takes the line from every holder here, a read
leaves the entry shared, and what was written there is seen at the home. It is answered with what is left of it: an invalidation is there until all
those that the entry sent are applied. -/
def State.homeToProxy (s : State) (a : Arrived) : State × Option Arrived :=
  let p := a.p
  let takes : Bool := p.excl || p.w.isSome
  let left (s : State) : State × Option Arrived := (s, if s.innerDone p.line then none else some { a with left := some [] })
  if a.left.isSome then left s
  else match s.entry p.line with
  | none => if s.busy p.line then (s, some a) else
      let s := (s.voidAns p.line takes).outerWrite p.line p.w
      if takes then left s else (s, none)
  | some e =>
    if !s.lineFree p.line (if takes then .all else .data) then (s, some a)
    else if takes then left (((s.voidAns p.line true).outerTake e (.peer p.src)).outerWrite p.line p.w)
    else
      let (s, x, _) := s.entryData e
      let (s, e) := s.shareEntry e x
      ((s.putEntry { e with mine := false }).voidAns p.line false, none)

/-- What the home of a line tells this package (R370, R377): a grant answers the oldest request there, and the invalidations of its grants have
all been applied. -/
def State.homeSays (s : State) (line : Nat) (src : BitVec 6) : HomeAnswer → State
  | .grant own dirty pend data =>
    let open' (a : HomeAsk) : Bool := a.line == line && a.ans.isNone && a.who != .sent
    let told (a : HomeAsk) : HomeAsk := { a with ans := some (own, dirty, pend, data.toNat), dropped := false }
    s.modSlice (sliceOf line) fun x => { x with asks := (replaceFirst open' told x.asks).filter fun a => !(a.who == .gone && a.ans.isSome) }
  | .applied =>
    let s := s.modSlice (sliceOf line) fun x => { x with asks := x.asks.map fun a =>
      if a.line = line then { a with ans := a.ans.map fun y => (y.1, y.2.1, false, y.2.2.2) } else a }
    { s with pending := s.pending.filter fun q => !(q.line == line && q.holder == Holder.peer src) }

/-- A packet for this package is acted on, or acted on further. None is left of it when all is done. -/
def State.actOn (s : State) (a : Arrived) : State × Option Arrived :=
  let p := a.p
  let done (x : State × Bool) : State × Option Arrived := (x.1, if x.2 then none else some a)
  match p.coll with
  | some c =>
    if c.pages.all fun b => match paKind b with
        | .device q => s.present q (lineOf b)
        | _ => false then
      (match s.landPeer c a.left a.arr with
        | (t, left) => (t, left.map fun l => ⟨p, l, if a.left.isNone then s.nextArrival else a.arr⟩))
    else (s, none)
  | none =>
    match paKind (128 * p.line) with
    | .device q =>
      if q = s.pkg then done (if p.ans.isSome then (s, true) else s.peerToHome p)
      else if q ≠ p.src.toNat then (s, none)
      else match p.ans with
        | some x => (s.homeSays p.line p.src x, none)
        | none => s.homeToProxy a
    | _ => (s, none)

/-- Whether two packets are of one line and one pair of Hall dies, whose packets are delivered in the order sent (R368). -/
def sameWay (p q : PeerPacket) : Bool := p.src == q.src && p.srcHall == q.srcHall && p.line == q.line

/-- Whether a packet that waits holds those behind it: not a deterministic contribution, which is held by itself (R375). -/
def Arrived.holds (a : Arrived) : Bool := !(a.p.coll.any fun c => c.det.isSome)

/-- Whether a packet is the copy of one that was accepted, or older than one accepted of its line and Hall dies: it is discarded (R367, R368). -/
def Hall.stale (x : Hall) (p : PeerPacket) : Bool :=
  (x.accepted.any fun (s, h, _, q) => s == p.src && h == p.srcHall && q == p.seq) ||
  (match x.accepted.find? fun (s, h, l, _) => s == p.src && h == p.srcHall && l == p.line with
    | some (_, _, _, q) => decide ((p.seq - q).toInt ≤ 0)
    | none => false)

/-- A packet that has arrived is acted on, once those of its line and Hall dies before it have been. -/
def State.actArrived (s : State) (h : HallId) (p : PeerPacket) : State :=
  let q := (s.hall h).inbox
  let me (a : Arrived) : Bool := a.p == p
  match q.find? me with
  | none => s
  | some a =>
    if (q.takeWhile (!me ·)).any fun b => sameWay b.p p && b.holds then s
    else match s.actOn a with
      | (s, left) => s.modHall h fun x => { x with inbox := match left with
          | some b => replaceFirst me (fun _ => b) x.inbox
          | none => removeFirst me x.inbox }

/-- A packet of this package is dropped for its hop count (R368): the requests of its line at the line's home, or where there is none the access or
contribution that needs no grant, find that home unreachable. -/
def State.dropped (s : State) (p : PeerPacket) : State :=
  let lines : List Nat := match p.coll with
    | some c => ((peerMap c).lines (c.xs.length * ipBytes c.fmt)).map (·.1)
    | none => [p.line]
  lines.foldl (fun s line =>
    let waits : Bool := p.coll.isNone && (s.asksOf line).any fun a => a.ans.isNone && a.who != .gone
    let lost (asks : List HomeAsk) : List HomeAsk :=
      if waits then asks.map fun a => if a.line = line then { a with dropped := a.ans.isNone } else a
      else asks ++ [⟨line, false, .sent, none, true⟩]
    s.modSlice (sliceOf line) fun y => { y with asks := lost y.asks }) s

/-- PACKET_FORWARD (R367, R368): a packet for this package goes to its Hall die, or to the one that serves for it, which accepts it once, by
its source package, source Hall die and sequence number, and acts on those of one line and pair of Hall dies in their order; one that waits
there is acted on further as it is named again. One for another package leaves by its route, unless it would need a seventh hop: then it is
dropped, and a request of this package finds its line's home unreachable. -/
def execPacketForward (h : HallId) (p : PeerPacket) (s : State) : Out :=
  let x := s.hall h
  if !x.present || x.lost then .next s
  else if p.dst = s.almanac.package then
    let to' := (s.serving p.dstHall).getD h
    if (s.hall to').inbox.any (·.p == p) then .next (s.actArrived to' p)
    else if (s.hall to').stale p then .next s
    else .next ((s.modHall to' fun x =>
      { x with accepted := (p.src, p.srcHall, p.line, p.seq) :: x.accepted, inbox := x.inbox ++ [⟨p, none, 0⟩] }).actArrived to' p)
  else if p.hops ≥ 6 then
    .next (if p.src = s.almanac.package ∧ p.ans.isNone then s.dropped p else s)
  else match s.route h p.dst.toNat p.line with
    | some (g, port) => .next (s.modHall g fun x => { x with outPackets := x.outPackets ++ [(port, { p with hops := p.hops + 1 })] })
    | none => .next s

/-- A peer port's state changes, on a Hall die that serves. -/
def modPort (h : HallId) (k : Fin 18) (f : Port → Port) (s : State) : Out :=
  if (s.hall h).present ∧ ¬ (s.hall h).lost then
    .next (s.modHall h fun x => { x with ports := x.ports.set k.val (f x.ports[k.val]) k.isLt })
  else .next s

/-- FLIT_REPLAY (R367, R369). -/
def execFlitReplay (h : HallId) (k : Fin 18) (s : State) : Out :=
  modPort h k (fun p => if p.up then { p with retry := p.retry + 1 } else p) s

/-- PEER_LINK_DOWN (R369). -/
def execPeerLinkDown (h : HallId) (k : Fin 18) (s : State) : Out :=
  modPort h k (fun p => if p.up then { p with up := false, downs := p.downs + 1 } else p) s

/-- PEER_LINK_UP (R369): a port that is present comes up, with the package at its far end. -/
def execPeerLinkUp (h : HallId) (k : Fin 18) (peer : BitVec 6) (s : State) : Out :=
  modPort h k (fun p => if p.pres then { p with up := true, peer := peer } else p) s

/-- A line homed here loses a package's copy (R371): one that the package held in M or O reverts to the value at its home, and is recorded. -/
def State.loseCopy (s : State) (p : BitVec 6) (e : RollEntry) : State :=
  let dirty : Bool := e.own == .peer p && (e.st == .m || e.st == .o)
  let s := { s with pending := s.pending.filter fun q => !(q.line == e.line && q.holder == Holder.peer p) }
  let r := e.del (.peer p)
  if dirty then
    let s := { s with pending := r.holders.map (fun h => inval e.line h [] h) ++ s.tellHall e.line (.hall 0) [] ++ s.pending }
    let s := (s.dropEntry e.line).setOut e.line false
    let s := match s.homeDie e.line with
      | some d => (s.applyPending (.die d) e.line).modLine d e.line fun c => { c with st := .home }
      | none => s
    s.hqPut ⟨1, BitVec.ofNat 64 (128 * e.line), (0x0C : Word) <<< 48, 0, 0, none⟩
  else
    s.leaveRoll (.peer p) e.line 0 0 fun s x m => s.homeWrite e.line x m

/-- PEER_PACKAGE_LOST (R371): every home slice removes the package, and what was asked at it is answered no more. -/
def execPeerPackageLost (p : BitVec 6) (s : State) : Out :=
  if s.lostPeers.contains p ∨ p = s.almanac.package then .next s
  else
    let held := (s.slices[0].entries ++ s.slices[1].entries).filter fun e => e.has (.peer p) && (s.homeDie e.line).isSome
    let there (a : HomeAsk) : Bool := paKind (128 * a.line) == .device p.toNat
    .next (held.foldl (fun s e => s.loseCopy p e)
      { s with lostPeers := p :: s.lostPeers
               slices := s.slices.map fun (x : Slice) => { x with asks := x.asks.filter fun a => !there a } })

end Sys2Proof.Machine
end

