-- ==== Sys2Proof/Machine/DieEvents.lean ====
section
/-! DEFINITION. The steps of the dies: the tick of short-lived regions (R269, R270), scrubs (R151, R276), vertical-bond repair (R275), way quotas
(R263), TLB invalidation (R272), the answers to page-fault records (R274), and the monitors (R348, R356, R357). -/
namespace Sys2Proof.Machine

/-! ## The tick -/

/-- The lines of regions that became DEAD have no copy any more, in a Hall that reads a tail line there and in L1 either, and what an atomic in
progress was to write there is gone with them (R270). -/
def State.dropRegions (s : State) (rs : List Nat) : State :=
  let dead (line : Nat) : Bool := rs.contains (line / 32)
  let void (j : Journal) : Journal := if dead j.line then { j with mask := 0, op := 0 } else j
  { s with
    dies := s.dies.map fun d =>
      { d with lines := d.lines.filter fun c => !dead c.line, outBits := d.outBits.filter fun l => !dead l }
    errs := s.errs.filter fun e => match e.1 with
      | .copyWord _ pa | .storeWord pa => !dead (lineOf pa)
      | .l1Line _ line => !dead line
      | _ => true
    cores := s.cores.map fun c => { c with
      strands := c.strands.map fun t => { t with journal := t.journal.map void }
      l1 := c.l1.filter fun x => !dead x.line
      fills := c.fills.filterMap fun f => if dead f.line then c.killFill f else some f }
    lists := s.lists.map fun l => if dead (lineOf l.addr) then { l with tail := none } else l
    slices := s.slices.map fun x => { x with entries := x.entries.filter fun e => !dead e.line }
    pending := s.pending.filter fun p => !dead p.line }

/-- TICK (R269, R270): one microsecond passes, and the regions whose deadline is reached become DEAD. -/
def execTick (s : State) : Out :=
  let t := s.tick + 1
  let due (x : Region) : Bool := match x.life with
    | .live d => decide (d ≤ t)
    | _ => false
  let rs := (s.regions.filter due).map (·.r)
  let s := { s with tick := t, regions := s.regions.map fun x => if due x then { x with life := .dead } else x }
  .next (s.dropRegions rs)

/-! ## Scrubs -/

/-- A corrected error on a vertical bus is counted; past the threshold a repair of its stack is pending, in the
mode of that moment (R275, R353). -/
def State.busError (s : State) (stack bus : Nat) : State :=
  let d : DieId := ⟨stack / 2 % 4, by omega⟩
  let b := 32 * (stack % 2) + bus % 32
  let x := s.die d
  let n := x.busErrors b + 1
  let hot : Bool := decide (x.vbThr.toNat < n)
  let was : Bool := x.vbPend[stack % 2]'(Nat.mod_lt _ (by decide))
  let s := s.setDie d { x with
    busCount := (b, n) :: x.busCount.filter (fun (c : Nat × Nat) => c.1 != b)
    ceCount := x.ceCount + 1
    vbPend := if hot then x.vbPend.set (stack % 2) true (Nat.mod_lt _ (by decide)) else x.vbPend
    vbBuses := if hot && !x.vbBuses.contains b then b :: x.vbBuses else x.vbBuses
    vbHost := if hot && !was then x.vbHost.set (stack % 2) (s.preber.duty.getLsbD 5) (Nat.mod_lt _ (by decide)) else x.vbHost }
  if hot && !was && s.preber.duty.getLsbD 5 then s.hqPut ⟨4, BitVec.ofNat 64 d.val, 0, 0, 0, none⟩ else s

/-- The die whose count takes a corrected error at a place. -/
def siteDie : ErrSite → DieId
  | .sreg i _ | .preg i _ | .kreg i _ _ | .vreg i _ _ | .ctl i _ | .queue i _ _ | .history i _ _ | .image i _ _ _ => dieOf i.core
  | .cell c _ _ | .ring c _ | .bell c _ | .timetable c _ | .localWord c _ | .l1Line c _ => dieOf c
  | .word pa | .storeWord pa => dieOfAddr pa
  | .tag d | .tlb d | .copyWord d _ => d
  | .region r => dieOfAddr (4096 * r)
  | .rollTag _ => 0
  | .bus stack _ => ⟨stack / 2 % 4, by omega⟩

/-- SCRUB (R151, R276): a scrub, or the reader that meets it first, visits a place. What can be corrected is; the rest has the effect its row
gives. An uncorrectable word stays as it is until it is consumed. -/
def execScrub (e : ErrSite) (s : State) : Out :=
  match s.errAt e with
  | none => .next s
  | some k =>
    let fixed (s : State) : State := (s.clearErr e).countCorrected (siteDie e)
    match e, k with
    | .bus stack bus, _ => .next ((s.clearErr e).busError stack bus)
    | .l1Line c line, _ => .next (if k = .single then fixed s else (fixed s).modCore c fun x => { x with l1 := x.l1.filter (·.line != line) })
    | .tlb d, _ => .next ((s.modDie d fun x => { x with tlb := [] }).clearErr e)
    | .region _, .single => .next (fixed s)
    | .region r, _ => .next (s.putRegion { s.region r with life := .dead })
    | .tag d, .triple =>
      .next ((s.modDie d fun x => { x with stopped := true }).hqPut ⟨1, BitVec.ofNat 64 d.val, (0x0C : Word) <<< 48, 0, 0, none⟩)
    | .tag _, _ => .next (fixed s)
    | .rollTag h, .triple => .next (if (s.hall h).present ∧ ¬ (s.hall h).lost then (s.clearErr e).loseHall h else s)
    | .rollTag _, _ => .next (fixed s)
    | _, .single => .next (fixed s)
    | _, _ => .next s

/-! ## Vertical bonds -/

/-- Whether the launch engine is about to place a launch on a die (R275). -/
def State.placingOn (s : State) (d : DieId) : Bool :=
  s.launches.any fun l => l.waits && (match s.chooseClusters l l.missing [] with
    | some plan => plan.any fun p => (clusterDies p.2).contains d
    | none => false)

/-- VBOND_REPAIR (R275): in hardware mode a pending repair runs at the die's next placement, before anything is placed there. -/
def execVbondRepair (d : DieId) (s : State) : Out :=
  if s.placingOn d then .next (s.vbRepair d false) else .next s

/-- VBCTL_GO (R275): the host writes GO, THR staying as it is. -/
def execVbctlGo (d : DieId) (s : State) : Out :=
  .next (s.writeReg (0x100140 + 0x10000 * d.val) (((1 : Word) <<< 62) ||| (s.die d).vbThr.setWidth 64))

/-! ## Registers of a die -/

/-- L2WQ_WRITE (R263). -/
def execL2wqWrite (d : DieId) (v : Word) (s : State) : Out := .next (s.writeReg (0x100100 + 0x10000 * d.val) v)

/-- TLBIC_GO (R272). -/
def execTlbicGo (d : DieId) (v : Word) (s : State) : Out :=
  .next (s.writeReg (0x100118 + 0x10000 * d.val) (v ||| ((1 : Word) <<< 62)))

/-- Whether a strand has an access that was translated and is still to be performed: a buffered, held or draining store, a relaxed SCOUNT, an atomic
or a request on its way, or the lines of a RENEW (R272). -/
def Strand.holdsTranslated (t : Strand) : Bool :=
  !t.sb.isEmpty || !t.drain.isEmpty || !t.late.isEmpty || t.journal.isSome || (t.beats.any fun b => !b.stores.isEmpty) || (match t.wait with
    | some ⟨.atomic _, _⟩ | some ⟨.host .., _⟩ | some ⟨.renew _, _⟩ | some ⟨.fill _, _⟩ => true
    | _ => false)

/-- Whether work in flight keeps the pages it was translated to: a copy translates each chunk anew (R272). -/
def Xfer.holdsTranslated (x : Xfer) : Bool :=
  match x.kind with
  | .copy _ => false
  | .settle .. | .ipop _ | .coll _ => true

/-- Whether accesses of an address space that a die translated earlier are still to be performed (R272): those of its cores, and contributions
held for a landing, which came with their translated addresses. -/
def State.asidBusy (s : State) (d : DieId) (asid : BitVec 16) : Bool :=
  ((List.finRange 128).any fun c =>
    dieOf c == d && (s.core c).asid == asid && (s.core c).lid.isSome &&
    (!(s.core c).egress.isEmpty || (s.core c).xfers.any (·.holdsTranslated) || ((s.core c).xq.any fun x => !x.rows.isEmpty) ||
      (List.finRange 8).any fun k => (s.core c).strands[k.val].holdsTranslated ||
        (s.slices[0].queue ++ s.slices[1].queue).any fun r => r.strand == some ⟨c, k⟩)) ||
  s.dies.any fun x => x.groups.any fun g => g.members.any fun m => match m.who with
    | some (lid, _) => ((s.launch lid).map (·.asid)) == some asid
    | none => false

/-- TLBI_DONE (R272): BUSY falls once every access translated earlier has been performed; what a walker of the die read for one before is not
used any more. -/
def execTlbiDone (d : DieId) (s : State) : Out :=
  if (s.die d).tlbcBusy && !s.asidBusy d (s.die d).tlbcRun then
    .next ((s.unaskBy (· == .party d)).modDie d fun x => { x with tlbcBusy := false })
  else .next s

/-- The value of FRES with a tag and an action (R274). -/
def fresVal (tag : BitVec 16) (act : Nat) : Word := BitVec.ofNat 64 (tag.toNat * 65536 + act)

/-- FRES_RETRY (R274). -/
def execFresRetry (d : DieId) (tag : BitVec 16) (s : State) : Out := .next (s.writeReg (0x100150 + 0x10000 * d.val) (fresVal tag 0))
/-- FRES_DELIVER (R274). -/
def execFresDeliver (d : DieId) (tag : BitVec 16) (s : State) : Out := .next (s.writeReg (0x100150 + 0x10000 * d.val) (fresVal tag 1))
/-- FRES_END (R274). -/
def execFresEnd (d : DieId) (tag : BitVec 16) (s : State) : Out := .next (s.writeReg (0x100150 + 0x10000 * d.val) (fresVal tag 2))

/-! ## Monitors -/

/-- A monitor reads a temperature; the clock of the die follows its own monitor (R356). -/
def State.setTemp (s : State) (d : DieId) (c : Fin 5) (temp : BitVec 16) : State :=
  s.modDie d fun x => { x with mon := x.mon.set c.val { x.mon[c.val] with temp := temp } c.isLt }.clocked

/-- Whether a monitor has passed its threshold (R356): TEMP is signed, THR is a temperature in the same units. -/
def Mon.hot (m : Mon) : Bool := m.thr.sle m.temp

/-- The package's number of a die's cluster (R351). -/
def clusterOfDie (d : DieId) (c : Fin 4) : Fin 16 :=
  ⟨(d.val % 2 * 2 + c.val % 2 + 4 * (d.val / 2 * 2 + c.val / 2)) % 16, Nat.mod_lt _ (by decide)⟩

/-- The cores of a cluster, in the order of their positions. -/
def clusterCores (cl : Fin 16) : List CoreId := (List.range 8).map (coreOfCluster cl)

/-- The monitor of a cluster. -/
def State.clusterMon (s : State) (cl : Fin 16) : Mon :=
  match (List.finRange 4).findSome? fun d => ((List.finRange 4).find? fun c => clusterOfDie d c == cl).map fun c => (d, c) with
  | some (d, c) => (s.die d).mon[c.val]
  | none => ⟨0, 0, 0, 0⟩

/-- The clock of a cluster's cores is lowered or returned (R132, R348). -/
def State.setClk (s : State) (cl : Fin 16) (low : Bool) : State :=
  (clusterCores cl).foldl (fun s c => s.modCore c fun x => { x with clkLow := low }) s

/-- The launch with a block placed on a cluster. -/
def State.blockOn (s : State) (cl : Fin 16) : Option (Launch × Nat) :=
  s.launches.findSome? fun l => if finalStatus l.status then none else
    ((List.range l.blocks.length).find? fun b => l.blocks.getD b .waiting == .placed cl).map fun b => (l, b)

/-- The strands of a block on a cluster. -/
def Launch.blockStrands (l : Launch) (block : Nat) (cl : Fin 16) : List StrandId :=
  ((l.blockCores block cl).map (·.1)).flatMap fun c => (List.finRange 8).map fun k => ⟨c, k⟩

/-- The coolest place to move a block to (R348): the lowest-numbered cluster that takes it and is cooler than its own. -/
def State.coolerCluster (s : State) (l : Launch) (block : Nat) (cl : Fin 16) : Option (Fin 16) :=
  (List.finRange 16).find? fun x => x != cl && s.clusterTakes l block x && !(s.clusterMon x).hot &&
    (s.clusterMon x).temp.slt (s.clusterMon cl).temp

/-- The thermal scheduler moves a block off a hot cluster, or lowers its clock when it may not or cannot be moved (R348); a block that
cannot be saved at once is asked to, and its later resume takes it to a cooler cluster. -/
def State.migrate (s : State) (cl : Fin 16) : State :=
  match s.blockOn cl with
  | none => s
  | some (l, b) =>
    let ids := l.blockStrands b cl
    if !l.pre || (ids.any fun id => (s.strand id).region.isSome) then s.setClk cl true
    else match s.coolerCluster l b cl with
      | none => s.setClk cl true
      | some dst =>
        let s := s.modLaunch l.lid fun l => { l with moving := (b, cl) :: l.moving.filter fun (m : Nat × Fin 16) => m.1 != b }
        let s := s.recessBlock l b cl
        match s.launch l.lid with
        | some l' => if l'.blocks.getD b .waiting = .saved then s.resumeBlock l' b dst else s
        | none => s

/-- THERMAL_THRESHOLD (R348, R356): a cluster's monitor reads a temperature at or above its threshold. -/
def execThermalThreshold (d : DieId) (c : Fin 4) (temp : BitVec 16) (s : State) : Out :=
  let s := s.setTemp d ⟨c.val, by omega⟩ temp
  let cl := clusterOfDie d c
  if !((s.die d).mon[c.val]).hot then .next s
  else if s.preber.duty.getLsbD 3 then .next ((s.setClk cl true).hqPut ⟨3, BitVec.ofNat 64 cl.val, 0, 0, 0, none⟩)
  else .next (s.migrate cl)

/-- TEMP_BELOW_THR (R356): a monitor reads below its threshold, which ends what its heat caused. -/
def execTempBelowThr (d : DieId) (c : Fin 5) (temp : BitVec 16) (s : State) : Out :=
  let s := s.setTemp d c temp
  if ((s.die d).mon[c.val]).hot then .next s
  else if h : c.val < 4 then .next (s.setClk (clusterOfDie d ⟨c.val, h⟩) false)
  else .next s

/-- DIE_OVERTEMP (R356): at 110 degrees or above the die's clock is halved. -/
def execDieOvertemp (d : DieId) (temp : BitVec 16) (s : State) : Out := .next (s.setTemp d 4 temp)

/-- POWER_WINDOW (R357): after a window above the limit the clocks of all dies go down a step, and after one below it up again. -/
def execPowerWindow (watts : Nat) (s : State) : Out :=
  let p := s.preber
  .next { s with preber := { p with clkSteps := if p.pwrlim.toNat < watts then p.clkSteps + 1 else p.clkSteps - 1 } }

end Sys2Proof.Machine
end

