-- ==== Sys2Proof/Machine/LaunchEvents.lean ====
section
/-! DEFINITION. The steps of the launch engine (R333 to R348): lists, consumption, placement by the engine or the host, completion and ends,
recess and resume, and the end of a non-preemptible budget (R132). -/
namespace Sys2Proof.Machine

/-- LLCTL_WRITE (R333): a module whose firmware failed its check takes none (R358). -/
def execLlctlWrite (n : Fin 64) (v : Word) (s : State) : Out :=
  if s.preber.badImage.isSome then .next s else .next (s.writeList n 2 v)

/-- RECORD_CONSUME (R336): the engine that serves a list reads its tail line when an invalidation took its copy, and otherwise consumes its next
record; lists of higher priority, and of lower number within one,
come first. -/
def execRecordConsume (n : Fin 64) (s : State) : Out :=
  let ahead (m : Fin 64) : Bool :=
    s.listHall m == s.listHall n &&
    ((s.lists[n.val]).prio.ult (s.lists[m.val]).prio || ((s.lists[m.val]).prio == (s.lists[n.val]).prio && decide (m < n))) &&
    (s.lists[m.val]).en && (s.consumeRecord m).toBool
  if !s.listServed n || (List.finRange 64).any ahead then .next s
  else match (s.lists[n.val]).tail with
    | none => .next (if (s.lists[n.val]).en then (s.hallRead n).1 else s)
    | some _ => .next (s.engDone (s.consumeRecord n))

/-- The launch that the engine recesses to make room for another (R342): the youngest preemptible one of strictly lower priority that is
placed. -/
def State.victim (s : State) (l : Launch) : Option Launch :=
  s.launches.reverse.find? fun x => x.status == 2 && x.pre && x.prio.ult l.prio && x.blocks.any fun b => match b with
    | .placed _ => true
    | _ => false

/-- Every placed block of a launch is recessed, or asked to be (R342, R346). -/
def State.recessLaunch (s : State) (l : Launch) : State :=
  (List.range l.blocks.length).foldl (fun s b => match l.blocks.getD b .waiting with
    | .placed cl => s.recessBlock l b cl
    | _ => s) s

/-- LAUNCH_PLACEMENT (R341, R342): a ready launch whose turn it is starts on the clusters chosen for its blocks; when the first of those that
wait does not fit, be it new or recessed, a launch of lower priority is recessed for it. -/
def execLaunchPlacement (lid : BitVec 32) (s : State) : Out :=
  match s.launch lid with
  | none => .next s
  | some l =>
    if s.preber.duty.getLsbD 0 || !l.waits || !s.listServed l.list || !s.mayPlace l then .next s
    else match s.chooseClusters l l.missing [] with
      | some plan => if l.status = 1 then .next (s.engDone (s.startLaunch l plan)) else .next s
      | none => match (if s.firstWaiting l then s.victim l else none) with
        | some v => .next (s.recessLaunch v)
        | none => .next s

/-- PLACEMENT_REQUEST (R343): in host-assisted mode the host is asked where a ready launch goes; the record holds its id and its block
count. -/
def execPlacementRequest (lid : BitVec 32) (s : State) : Out :=
  match s.launch lid with
  | none => .next s
  | some l =>
    if !s.preber.duty.getLsbD 0 || !l.waits || l.asked || !s.listServed l.list then .next s
    else
      let s := s.modLaunch lid fun l => { l with asked := true }
      .next (s.hqPut ⟨2, l.lid.setWidth 64, BitVec.ofNat 64 l.blocks.length, 0, 0, none⟩)

/-- PLRES (R343). -/
def execPlres (h : HallId) (v : Word) (s : State) : Out := .next (s.writeReg (0x10300 + 0x10000 * h.val) v)

/-- LAUNCH_COMPLETE (R340): every strand has halted; the cores are released, STATUS 3 is written, and dependent launches become ready. -/
def execLaunchComplete (lid : BitVec 32) (s : State) : Out :=
  match s.launch lid with
  | none => .next s
  | some l =>
    if l.status ≠ 2 ∨ ¬ s.allHalted l ∨ ¬ s.listServed l.list then .next s
    else .next (s.engDone (((s.coresOf lid).foldl State.releaseCore s).finishLaunch l 3))

/-- Whether an ended launch has nothing left to finish (R344): its strands have come to a unit boundary, stores are performed, atomics that left
are done, and transfers to memory have completed or stopped on a fault. A wait at a bell or in a FENCER is abandoned. -/
def State.endDrained (s : State) (lid : BitVec 32) : Bool :=
  (s.coresOf lid).all fun c =>
    (s.core c).egress.isEmpty && ((s.core c).xfers.all fun x => ownRegs x || s.copyStopped ⟨c, x.slot⟩ x.id) &&
    (List.finRange 8).all fun k =>
      let t := (s.core c).strands[k.val]
      t.sb.isEmpty && t.drain.isEmpty && (t.run != .running || (match t.wait with
        | some ⟨.fencer .., _⟩ | some ⟨.bell .., _⟩ => true
        | _ => !t.midUnit)) && (match t.journal with
        | some j => j.done
        | none => true) &&
      ((s.slices[0].queue ++ s.slices[1].queue).all fun r => r.strand != some ⟨c, k⟩)

/-- LAUNCH_END (R344): an ended launch's work in flight has finished; its cores are released and STATUS 4 is written. -/
def execLaunchEnd (lid : BitVec 32) (s : State) : Out :=
  match s.launch lid with
  | none => .next s
  | some l =>
    if l.status ≠ 5 ∨ ¬ s.endDrained lid ∨ ¬ s.listServed l.list then .next s
    else
      .next (s.engDone ((s.finishLaunch l 4).map fun s' =>
        let s' := (s'.coresOf lid).foldl State.releaseCore s'
        { s' with recessStore := s'.recessStore.filter (·.lid != lid)
                  preber := { s'.preber with errTags := s'.preber.errTags.filter (·.lid != lid) } }))

/-- RECESS (R346): a placed block of a preemptible launch is saved, or asked to be. -/
def execRecess (lid : BitVec 32) (block : Nat) (s : State) : Out :=
  match s.launch lid with
  | none => .next s
  | some l =>
    if l.status ≠ 2 ∨ ¬ l.pre then .next s
    else match l.blocks.getD block .waiting with
      | .placed cl => .next (s.recessBlock l block cl)
      | _ => .next s

/-- RESUME (R341, R342, R347): a saved block goes on, on the cluster that falls to it when every block of its launch that is not placed is
placed in order; while they do not all fit, none goes on. A block that left a hot cluster goes to a cooler one (R348). -/
def execResume (lid : BitVec 32) (block : Nat) (s : State) : Out :=
  match s.launch lid with
  | none => .next s
  | some l =>
    let cooler : Option (Fin 16) := (l.moving.find? (·.1 == block)).bind fun m => s.coolerCluster l block m.2
    if l.status ≠ 2 ∨ l.blocks.getD block .waiting ≠ .saved then .next s
    else if let some cl := cooler then .next (s.resumeBlock l block cl)
    else if s.preber.duty.getLsbD 0 || !s.listServed l.list || !s.mayPlace l then .next s
    else match (s.chooseClusters l l.missing []).bind fun plan => plan.find? (·.1 == block) with
      | some (_, cl) => .next (s.resumeBlock l block cl)
      | none => .next s

/-- HOLD_EXPIRY (R132): the budget of an open region reaches zero. -/
def execHoldExpiry (id : StrandId) (s : State) : Out :=
  if (s.strand id).region.isSome ∧ (s.strand id).run ≠ .idle then .next (s.modStrand id fun t => { t with region := some 0 }) else .next s

end Sys2Proof.Machine
end

