-- ==== Sys2Proof/Machine/Manage.lean ====
section
/-! DEFINITION. The steps of the Preber controller and the host's writes to it (R352 to R361), and module reset (R358). -/
namespace Sys2Proof.Machine

/-- The bytes of a host-queue record (R354): its kind stands in [19:16] of offset 24. -/
def HqRecord.bytes (r : HqRecord) : Nat :=
  r.w0.toNat + r.w1.toNat * 2 ^ 64 + r.w2.toNat * 2 ^ 128 + (r.w3 ||| (r.kind.setWidth 64 <<< 16)).toNat * 2 ^ 192

/-- HOST_QUEUE_APPEND (R354): the oldest waiting record is written at its slot and PROD advances; a full queue makes it wait, and the
record of a strand whose launch the Preber ends waits until it has ended (R355). -/
def execHostQueueAppend (s : State) : Out :=
  let p := s.preber
  let n := 2 ^ (p.hqsz.toNat + 4)
  match p.waitRecs with
  | [] => .next s
  | r :: rest =>
    let ending : Bool := s.launches.any fun l => r.ends == some l.uid && l.status == 5
    if ((p.prod - p.cons).toNat ≥ n) || ending then .next s
    else
      .next (s.engDone ((s.engWrite (p.hqbase.toNat * 4096 + 32 * (p.prod.toNat % n)) 32 r.bytes).map fun s =>
        { s with preber := { s.preber with waitRecs := rest, prod := p.prod + 1 } }))

/-- DUTY_WRITE (R352, R353). -/
def execDutyWrite (v : Word) (s : State) : Out := .next (s.writeReg 0x00 v)

/-- The value of ERES with a tag and an action (R352). -/
def eresVal (tag : BitVec 16) (act : Nat) : Word := BitVec.ofNat 64 (tag.toNat * 65536 + act)

/-- ERES_RESUME (R355). -/
def execEresResume (tag : BitVec 16) (s : State) : Out := .next (s.writeReg 0x20 (eresVal tag 0))
/-- ERES_END (R355). -/
def execEresEnd (tag : BitVec 16) (s : State) : Out := .next (s.writeReg 0x20 (eresVal tag 2))

/-- TRAP_REGISTER_WRITE (R350): the host writes a trap register of a parked strand through the core's window. -/
def execTrapRegisterWrite (id : StrandId) (n : BitVec 12) (v : Word) (s : State) : Out :=
  if n.toNat < 0x20 ∨ 0x25 < n.toNat then .next s
  else .next (s.writeReg (0x1000000 + 0x1000 * id.core.val + 0x800 + 0x100 * id.slot.val + 8 * (n.toNat - 0x20)) v)

/-- ATTCTL_GO (R359): GO with the buffer that the written value names. -/
def execAttctlGo (v : Word) (s : State) : Out := .next (s.writeReg 0x60 (v ||| ((1 : Word) <<< 62)))

/-- The 368 bytes of a report that are signed (R359). -/
def State.reportHead (s : State) : Nat :=
  let p := s.preber
  let nonce := (List.range 4).foldl (fun x i => x + (p.attNonce.toList.getD i 0).toNat * 2 ^ (64 * i)) 0
  let digests := (List.range 4).foldl (fun x i => x + Config.imageDigest i % 2 ^ 512 * 2 ^ (512 * i)) 0
  Config.reportVersion % 2 ^ 64 + nonce * 2 ^ 64 + digests * 2 ^ 320 + p.duty.toNat * 2 ^ 2368 +
    Config.shake256 s.almanacBytes % 2 ^ 512 * 2 ^ 2432

/-- A report: its head and the identity signature over the digest of the head, 1,280 bytes (R359). -/
def State.report (s : State) : Nat :=
  let head := s.reportHead
  head % 2 ^ 2944 + Config.identitySign (Config.shake256 (bytesOf 368 head)) % 2 ^ 10240 * 2 ^ 2944

/-- Write n times 16 bytes of a value line by line at system scope; it stops while a line cannot be reached. -/
def State.sysWriteMany (s : State) (pa v : Nat) : Nat → Eng State
  | 0 => .ok s
  | n + 1 => do
    let s ← s.engWrite pa 16 (v % 2 ^ 128)
    State.sysWriteMany s (pa + 16) (v / 2 ^ 128) n

/-- ATTESTATION_DONE (R359): the report is written into its buffer and BUSY falls. -/
def execAttestationDone (s : State) : Out :=
  if !s.preber.attBusy then .next s
  else .next (s.engDone ((s.sysWriteMany (s.preber.attBuf.toNat * 4096) s.report 103).map fun s =>
    { s with preber := { s.preber with attBusy := false } }))

/-- PWRLIM_WRITE (R352). -/
def execPwrlimWrite (v : Word) (s : State) : Out := .next (s.writeReg 0x70 v)

/-- Device memory after a module reset: unspecified (R278, assumption 3). What other parties' memory holds stays. -/
def State.resetArrays (s : State) : Memory :=
  (Config.resetCells s.fresh).foldl (fun m c => if s.ownDevice c.1 then Memory.set m c.1 c.2 else m) (s.arrays.filter fun c => !s.ownDevice c.1)

/-- The first firmware image whose signature fails at this reset (R358). -/
def State.failedImage (s : State) : Option (Fin 4) := (List.finRange 4).find? fun i => !Config.imageValid i.val s.fresh

/-- MODULE_RESET (R358, R278, R361): every register and queue is as after reset; the almanac's facts of the part, its monitors' codes and the
schedule stay. -/
def execModuleReset (s : State) : Out :=
  let r := State.reset
  let hall (h : Fin 2) : Hall := { Hall.reset with present := s.almanac.hallMask.getLsbD h.val
                                                   ports := Vector.ofFn fun k => ⟨false, s.almanac.ports.getLsbD (18 * h.val + k.val), 0, 0, 0⟩ }
  let die (d : Fin 4) : Die :=
    let kept (m : Mon) : Mon := { m with thr := 760 }
    Die.clocked { Die.reset with mon := (s.dies[d.val]).mon.map kept }
  let core (c : Fin 128) : Core := { Core.reset with laneAbs := ~~~(s.almanac.lanes[c.val]) }
  .next { r with cores := Vector.ofFn core, absentPend := s.absentPend, halls := Vector.ofFn hall, dies := Vector.ofFn die
                 arrays := s.resetArrays, almanac := s.almanac, agenda := s.agenda
                 preber := { r.preber with badImage := s.failedImage }, fresh := s.fresh + 1 }

/-- A unit is marked absent in the almanac (R361). -/
def Almanac.mark (a : Almanac) (u : AbsentUnit) : Almanac :=
  let a := { a with gen := a.gen + 1 }
  match u with
  | .laneGroup c g => { a with lanes := a.lanes.set c.val (a.lanes[c.val] &&& ~~~((1 : BitVec 8) <<< g.val)) c.isLt }
  | .core c => { a with cores := a.cores &&& ~~~((1 : BitVec 128) <<< c.val) }
  | .hall h => { a with hallMask := a.hallMask &&& ~~~((1 : BitVec 2) <<< h.val) }
  | .stack x => { a with stackMask := a.stackMask &&& ~~~((1 : BitVec 8) <<< x.val) }
  | .busNoSpare d b => { a with buses := a.buses.set d.val (a.buses[d.val] ||| ((1 : BitVec 64) <<< b.val)) d.isLt }
  | .peerPort h k => { a with ports := a.ports &&& ~~~((1 : BitVec 36) <<< (18 * h.val + k.val)) }

/-- Whether no launch is resident on the cores that a unit serves (R361): a lane group or a core serves itself, anything else every core. -/
def State.unitIdle (s : State) : AbsentUnit → Bool
  | .laneGroup c _ | .core c => (s.core c).lid.isNone
  | _ => (List.finRange 128).all fun c => (s.core c).lid.isNone

/-- ALMANAC_UPDATE (R361): a unit is marked absent, its record and GEN changing in one step. While a launch is resident on the cores it serves
the mark waits, and placement on them waits for it. -/
def execAlmanacUpdate (u : AbsentUnit) (s : State) : Out :=
  if !s.unitIdle u then .next (if s.absentPend.contains u then s else { s with absentPend := s.absentPend ++ [u] })
  else
    let s := { s with almanac := s.almanac.mark u, absentPend := s.absentPend.filter (· != u) }
    .next (match u with
      | .laneGroup c _ => s.modCore c fun x => { x with laneAbs := ~~~(s.almanac.lanes[c.val]) }
      | .hall h => s.modHall h fun x => { x with present := false }
      | .peerPort h k => s.modHall h fun x =>
          { x with ports := x.ports.set k.val { x.ports[k.val] with pres := false, up := false } k.isLt }
      | _ => s)

/-- REGISTER_WRITE (R5, R350): the host writes an aligned doubleword of the control windows. -/
def execRegisterWrite (off : Nat) (v : Word) (s : State) : Out := if off % 8 = 0 then .next (s.writeReg off v) else .next s

end Sys2Proof.Machine
end

