-- ==== Sys2Proof/Machine/ReadAhead.lean ====
section
/-! DEFINITION. The steps that act for a unit before it issues or after it (R289, R294, R298): READ_AHEAD and FILL_REQUEST. -/
namespace Sys2Proof.Machine

/-! ## Reads taken ahead (R294) -/

/-- Whether a strand's units come to no step now: it is stopped, or held by a trap (R346). -/
def State.heldStrand (s : State) (id : StrandId) : Bool :=
  let t := s.strand id
  t.run != .running || t.stopped || !t.pend.isEmpty || t.mfault.isSome

/-- Whether the unit that a strand waits in lets no younger read of a place be taken, whose address comes from registers (R288, R294, R300). -/
def State.waitBars (s : State) (id : StrandId) (p : Place) (n : Nat) (strong : Bool) (regs : List SReg) : Bool :=
  (s.strand id).wait.any fun w => barsReads w.instr || hasCsync w.instr || s.readAfter id w.instr p n strong ||
    (scalarDests (s.strand id) w.instr).any fun d => d != 0 && regs.contains d

/-- Whether the read of the strand's next unit is not to be taken: the guard does not hold, a sched code suppresses the unit (R13, R16), or the
load waits on a fill of the line (R298). -/
def State.nextHeld (s : State) (id : StrandId) (x : ReadTurn) (i : Instr) (p : Place) : Bool :=
  let t := s.strand id
  x.pc == t.pc && x.nth == 0 && (!t.acts i || t.wait.any fun w => match w.kind, p with
    | .fill _, .phys pa => (s.core id.core).waitsFill (lineOf pa) id.slot
    | _, _ => false)

/-- A read that a unit takes ahead keeps its value (R294). It replaces an earlier one for the same coming to the unit. -/
def Strand.keepAhead (t : Strand) (x : Ahead) : Strand :=
  { t with ahead := (t.ahead.filter fun y => !(y.pc == x.pc && y.nth == x.nth && y.part == x.part)) ++ [x] }

/-- The value a load reads, as it would be given now: the reading brings the line and meets its region at once, or it leaves nothing behind and
the unit does both as it issues (R294, R296; DESIGN CHOICE, assumption 77). -/
def State.takeLoad (s : State) (id : StrandId) (g : Target) (n : Nat) (o : OrdPayload) (hint : Hint) (brings : Bool) : Option (State × Nat) :=
  let wait := (s.strand id).wait
  match (s.modStrand id fun t => { t with wait := none }).loadValue id g n o (if brings then hint else .streaming) with
  | .ok s' v => some (if brings then s'.modStrand id (fun t => { t with wait := wait }) else s, v)
  | _ => none

/-- The load at an address takes its read (R294); a host non-coherent load takes none (R267). Its address registers are those that stand: a
unit that changes one discards the read as it issues, and so does every other unit that the read may not pass. -/
def State.readLoad (s : State) (id : StrandId) (x : ReadTurn) (h : Hdr) (hint : Hint) (i : Instr) (n : Nat) (regs : List SReg) (a : Word) :
    State :=
  if a.toNat % n ≠ 0 ∨ h.sched = .csync ∨ (s.strand id).late.any (fun y => regs.contains y.d) then s
  else
    match s.resolve id a .sread h.pfx.cls hint (n == 8) with
    | .ok s' g =>
      let strong := (ordOf h).strong
      if g.attr.mkind = 2 ∨ s.nextHeld id x i g.place ∨ s.waitBars id g.place n strong regs then s
      else
        (match s'.takeLoad id g n (ordOf h) hint x.brings with
          | some (t, v) => (if x.brings then t else s).modStrand id
              (·.keepAhead ⟨x.pc, x.nth, none, a, n, v, regs, g.place, strong, [], x.brings⟩)
          | none => s)
    | _ => s

/-- An IPOP sum at an address takes the read of one sector of a range (R289): of the array writes to the sector it may see any that is not older
than those its strand knows of, so the read may come before its registers are written. The sum takes it if the sector is then one of its own. -/
def State.readSector (s : State) (id : StrandId) (x : ReadTurn) (i : Instr) (f : IpFmt) : State :=
  let wb := ipBytes f
  let cnt := x.count
  let a := x.base
  let m : PageMap := ⟨a, a.toNat % 4096, []⟩
  let (i0, i1) := m.sectorElems wb cnt x.part
  let sa := a + BitVec.ofNat 64 (i0 * wb)
  if cnt > 2 ^ 30 ∨ a.toNat % wb ≠ 0 ∨ m.sectors wb cnt ≤ x.part ∨ hasCsync i then s
  else
    match s.checkRange id sa ((i1 - i0) * wb) .sread engMem with
    | .ok s' m =>
      let p : Place := .phys (m.pa 0)
      if s.nextHeld id x i p ∨ s.waitBars id p ((i1 - i0) * wb) false [] then s
      else
        (match s'.readRun m wb 0 (i1 - i0) with
          | .ok _ vs => s.modStrand id (·.keepAhead ⟨x.pc, x.nth, some x.part, sa, (i1 - i0) * wb,
              vs.foldr (fun v y => v % 2 ^ (8 * wb) + 2 ^ (8 * wb) * y) 0, [], p, false, [], false⟩)
          | .bad .. => s)
    | _ => s

/-- A relaxed SCOUNT that clears nothing issues, and its value returns later (R289; DEDUCED, assumption 67). -/
def issueLate (h : Hdr) (d b : SReg) (s : State) : Out :=
  runUnit h (sSites s [b]) (fun s =>
    withRange (s.checkRange s.cur (s.me.rS b) 1 .sread ownMem) .sread fun s m =>
      .done (s.modMe fun t => { t with late := t.late ++ [⟨t.pc, d, regionOf (m.pa 0)⟩] })) s

/-- READ_AHEAD (R289, R294): the unit at an address takes its read before it issues. At a relaxed SCOUNT that is next it lets the unit issue with
its value still to come, and at one that has issued it returns the values (R289). -/
def execReadAhead (id : StrandId) (x : ReadTurn) (s : State) : Out :=
  let t := s.strand id
  if t.run = .running ∧ (t.late.any (·.pc == x.pc)) then .next (s.returnCounts id)
  else if s.heldStrand id then .next s
  else
    match s.fetchUnit id x.pc with
    | .unit s' (.good (.scount h false d b)) =>
      if x.pc = t.pc ∧ x.nth = 0 ∧ t.wait.isNone ∧ ¬ acquires (ordOf h).order ∧ ¬ (s.core id.core).claimQ.contains id.slot ∧
          ¬ s.pausedNow id then
        onStrand id (issueLate h d b) (((if t.late.any fun y => y.d == b || y.d == d then s'.returnCounts id else s')).pruneAhead id
          (.scount h false d b))
      else .next s
    | .unit _ (.good (.ld h hint sx w d b y)) =>
      .next (s.readLoad id x h hint (.ld h hint sx w d b y) (widthBytes w) (addrRegs b y) (addrVal h t b y))
    | .unit _ (.good (.ipopSum h f xr yr cr n)) => .next (s.readSector id x (.ipopSum h f xr yr cr n) f)
    | _ => .next s

/-- A slot's load joins the fill in flight of a line, and leaves the line's older ones (R298). -/
def Core.awaitFill (c : Core) (k : SlotId) (line : Nat) : Core :=
  { c with fills := c.fills.filterMap fun f =>
      if f.line != line then some f
      else
        let ws := f.waiters.filter (· != k)
        if !f.killed then some { f with waiters := ws ++ [k] } else if ws.isEmpty then none else some { f with waiters := ws } }

/-- FILL_REQUEST (R298): the line that a strand's next load misses in L1 is read at its point; the load waits on the fill. -/
def execFillRequest (id : StrandId) (s : State) : Out :=
  let t := s.strand id
  if s.heldStrand id ∨ s.pausedNow id ∨ t.wait.isSome then .next s
  else
    match s.fetchUnit id t.pc with
    | .unit s (.good (.ld h hint sx w d b y)) =>
      let n := widthBytes w
      let a := addrVal h t b y
      let waits (s : State) (line : Nat) : State :=
        s.modStrand id fun t => { t with wait := some ⟨.fill line, .ld h hint sx w d b y⟩ }
      let here : State := { s with cur := id }
      if a.toNat % n ≠ 0 ∨ (ordOf h).strong ∨ hint = .streaming ∨ t.rP h.guard = h.gneg ∨ suppressed t (instrAddr h here) h.sched ∨
        (h.sched = .csync ∧ ¬ csyncReady here) ∨ t.ahead.any t.nextRead then .next s
      else
        (match s.resolve id a .sread h.pfx.cls hint false with
          | .ok s ⟨.phys pa, attr⟩ =>
            let line := lineOf pa
            let inFlight := (s.core id.core).fills.find? fun f => f.line == line && !f.killed
            if !l1May ⟨.phys pa, attr⟩ || ((s.core id.core).l1Find line).isSome then .next s
            else
              (match inFlight with
                | some _ => .next ((waits s line).modCore id.core (·.awaitFill id.slot line))
                | none =>
                  (match s.pointRead id pa n attr with
                    | .ok s _ => .next ((waits s line).modCore id.core fun c =>
                        { c.awaitFill id.slot line with
                          fills := (c.awaitFill id.slot line).fills ++ [⟨line, s.lineAtPoint (dieOf id.core) line, [id.slot], false⟩] })
                    | .wait s => .next s
                    | .bad s _ => .next s))
          | .ok s _ => .next s
          | .wait s => .next s
          | .fault s _ _ => .next s)
    | .unit s _ => .next s
    | .wait s => .next s
    | .fault s _ _ => .next s

end Sys2Proof.Machine
end

