-- ==== Sys2Proof/Machine/ScalarFp.lean ====
section
/-! DEFINITION. The scalar floating-point group (R109 to R114). -/
namespace Sys2Proof.Machine

/-- An operation on two operands of a scalar format (R109, R110). -/
def fpBin (h : Hdr) (f : SFmt) (r : Rnd) (d x y : SReg)
    (op : Fmt → RndCtx → FVal → FVal → Nat × FpFlags) (s : State) : Out :=
  runUnit h (ctlSite s 0 :: sSites s [x, y]) (fun s =>
    let t := s.me
    let m := sfmt f
    let (v, fl) := op m (scalarCtx t r) (m.decode (fpBits f (t.rS x))) (m.decode (fpBits f (t.rS y)))
    fpDone s fl fun s => s.wS s.cur d (BitVec.ofNat 64 v)) s

/-- FADD (R110). -/
def execFadd (h : Hdr) (f : SFmt) (r : Rnd) (d x y : SReg) (s : State) : Out := fpBin h f r d x y fAdd s
/-- FSUB (R110). -/
def execFsub (h : Hdr) (f : SFmt) (r : Rnd) (d x y : SReg) (s : State) : Out := fpBin h f r d x y fSub s
/-- FMUL (R110). -/
def execFmul (h : Hdr) (f : SFmt) (r : Rnd) (d x y : SReg) (s : State) : Out := fpBin h f r d x y fMul s
/-- FDIV (R110). -/
def execFdiv (h : Hdr) (f : SFmt) (r : Rnd) (d x y : SReg) (s : State) : Out := fpBin h f r d x y fDiv s

/-- FFMA (R111). -/
def execFfma (h : Hdr) (form : FmaForm) (f : SFmt) (r : Rnd) (d x y z : SReg) (s : State) : Out :=
  runUnit h (ctlSite s 0 :: sSites s [x, y, z]) (fun s =>
    let t := s.me
    let m := sfmt f
    let val (q : SReg) := m.decode (fpBits f (t.rS q))
    let (v, fl) := fFma m (scalarCtx t r) form (val x) (val y) (val z)
    fpDone s fl fun s => s.wS s.cur d (BitVec.ofNat 64 v)) s

/-- FSQRT (R110). -/
def execFsqrt (h : Hdr) (f : SFmt) (r : Rnd) (d x : SReg) (s : State) : Out :=
  runUnit h (ctlSite s 0 :: sSites s [x]) (fun s =>
    let t := s.me
    let m := sfmt f
    let (v, fl) := fSqrt m (scalarCtx t r) (m.decode (fpBits f (t.rS x)))
    fpDone s fl fun s => s.wS s.cur d (BitVec.ofNat 64 v)) s

/-- FMIN and FMAX: an operand delivered exactly (R73, R110). -/
def fpMinMax (h : Hdr) (f : SFmt) (isMax : Bool) (d x y : SReg) (s : State) : Out :=
  runUnit h (ctlSite s 0 :: sSites s [x, y]) (fun s =>
    let t := s.me
    let (v, fl) := fMinMax (sfmt f) false isMax (fpBits f (t.rS x)) (fpBits f (t.rS y))
    fpDone s fl fun s => s.wS s.cur d (BitVec.ofNat 64 v)) s

/-- FMIN (R110). -/
def execFmin (h : Hdr) (f : SFmt) (d x y : SReg) (s : State) : Out := fpMinMax h f false d x y s
/-- FMAX (R110). -/
def execFmax (h : Hdr) (f : SFmt) (d x y : SReg) (s : State) : Out := fpMinMax h f true d x y s

/-- FCMP (R112). -/
def execFcmp (h : Hdr) (c : FCond) (f : SFmt) (d : PReg) (x y : SReg) (s : State) : Out :=
  runUnit h (ctlSite s 0 :: sSites s [x, y]) (fun s =>
    let t := s.me
    let m := sfmt f
    let (b, fl) := fCond c (m.decode (fpBits f (t.rS x))) (m.decode (fpBits f (t.rS y)))
    fpDone s fl fun s => s.wP s.cur d b) s

/-- FCVT (R113): `vtype` decides FP8 saturation; an s32 result is sign-extended. Every FCVT consumes `vtype`, whatever its destination (R70;
DESIGN CHOICE, assumption 69). -/
def execFcvt (h : Hdr) (dst src : CvtFmt) (r : Rnd) (d x : SReg) (s : State) : Out :=
  runUnit h (ctlSite s 0 :: ctlSite s 1 :: sSites s [x]) (fun s =>
    let t := s.me
    let c : RndCtx := ⟨Mode.select r t.rm, vtSAT t.vtype, false⟩
    let (v, fl) := convert dst src c false ((t.rS x).toNat % 2 ^ cvtWidth src)
    fpDone s fl fun s => s.wS s.cur d (if dst = .s32 then sextN 32 v else BitVec.ofNat 64 v)) s

/-- FCLASS (R114). -/
def execFclass (h : Hdr) (f : SFmt) (d x : SReg) (s : State) : Out :=
  runUnit h (sSites s [x]) (fun s => doneS s d (BitVec.ofNat 64 (2 ^ fClass (sfmt f) (fpBits f (s.me.rS x))))) s

end Sys2Proof.Machine
end

