-- ==== Sys2Proof/Machine/VecConfig.lean ====
section
/-! DEFINITION. The vector configuration instructions (R156 to R162) and the steps that end their waits (R137, R142). -/
namespace Sys2Proof.Machine

/-- The waits of R60 and R156: VQ and the strand's XQ entries have drained. In handler state the instruction traps with 0x0B. -/
def configUnit (s : State) (f : State → UnitRes) : UnitRes :=
  if s.me.hs then .trap s (trapInfo 0x0B 0)
  else if !s.vectorIdle s.cur then .wait s
  else f s

/-- What a renegotiation with a request reads where it changes the strand's count: `vtype`, `vl` unless it is given anew, and `mvl` (R138). -/
def State.claimSites (s : State) (r : Nat) (vl : Bool) : List ErrSite :=
  let after := s.relane s.cur.core (·.renegotiate s.cur.slot r)
  if s.vectorIdle s.cur ∧ after.lanes s.cur ≠ s.lanes s.cur then ctlSite s 1 :: ctlSite s 3 :: (if vl then vlSites s s.me.ill else []) else []

/-- VCLAIM (R137, R158): a strand that is granted no group waits in W. -/
def execVclaim (h : Hdr) (d : SReg) (n : RegOrImm 4) (s : State) : Out :=
  let shape : List ErrSite := match s.me.wait with
    | some ⟨.lanes _, _⟩ => ctlSite s 1 :: ctlSite s 3 :: vlSites s s.me.ill
    | _ => s.claimSites (min (max (roiVal s.me n).toNat 1) 8) true
  runUnit h (sSites s (roiRegs n) ++ shape) (fun s =>
    let k := s.cur.slot
    let finish (s : State) : UnitRes := doneS s d (BitVec.ofNat 64 (s.lanes s.cur))
    match s.me.wait with
    | some ⟨.lanes _, _⟩ => if s.myCore.granted k then finish s else .wait s
    | _ =>
      configUnit s fun s =>
        if s.liveInto s.cur then .wait s
        else
          let r := min (max (roiVal s.me n).toNat 1) 8
          let s := s.modMe fun t => { t with claimed := some r }
          let s := s.relane s.cur.core fun c => c.renegotiate k r
          if s.myCore.granted k then finish s
          else .wait (s.modMe fun t => { t with wait := some ⟨.lanes r, .vclaim h d n⟩ })) s

/-- VSETVL (R159, R250). -/
def execVsetvl (h : Hdr) (claim : Bool) (d : SReg) (n : RegOrImm 24) (s : State) : Out :=
  let shape : List ErrSite := match s.me.claimed with
    | some r => if claim ∧ s.lanes s.cur ≠ 0 ∧ ¬ s.liveInto s.cur then s.claimSites r false else []
    | none => []
  runUnit h (ctlSite s 1 :: sSites s (roiRegs n) ++ shape) (fun s =>
    if s.me.ill then .trap s (trapInfo 0x07 s.me.vtype)
    else configUnit s fun s =>
      let req := (roiVal s.me n).toNat
      let s := match s.me.claimed with
        | some r => if claim ∧ s.lanes s.cur ≠ 0 ∧ ¬ s.liveInto s.cur then s.relane s.cur.core (·.renegotiate s.cur.slot r) else s
        | none => s
      let vl := min req (s.maxVl s.cur)
      doneS ((s.modMe fun t => { t with vl := vl }).clearErr (.ctl s.cur 2)) d (BitVec.ofNat 64 vl)) s

/-- VCONFIG (R139, R160). -/
def execVconfig (h : Hdr) (nv : BitVec 2) (s : State) : Out :=
  runUnit h (ctlSite s 1 :: vlSites s s.me.ill ++ if s.me.matrixMode then [ctlSite s 3] else []) (fun s => configUnit s fun s =>
    if s.liveInto s.cur then .wait s
    else
      let lanes := s.lanes s.cur
      let s := { s with errs := s.errs.filter fun e => match e.1 with
          | .kreg i _ _ => i != s.cur
          | _ => true }
      .done (s.modMe fun t =>
        let t := { t.invalidate with nv := 8 * 2 ^ nv.toNat }
        { t with vl := if t.ill then t.vl else min t.vl (maxVL lanes t.nv t.vtype)
                 mvl := if t.matrixMode then min t.mvl (regBytes lanes t.nv / 384) else t.mvl })) s

/-- VTYPE (R141, R161). -/
def execVtype (h : Hdr) (v : RegOrImm 10) (s : State) : Out :=
  runUnit h (sSites s (roiRegs v) ++ vlSites s (s.me.writeVtype (s.lanes s.cur) ((roiVal s.me v).extractLsb' 0 10)).ill) (fun s =>
    let lanes := s.lanes s.cur
    .done ((s.modMe fun t => t.writeVtype lanes ((roiVal t v).extractLsb' 0 10)).clearErr (.ctl s.cur 1))) s

/-- A strand takes T tiles, the lowest-numbered free ones; their cells are unspecified, so they hold free values (R142). -/
def State.takeTiles (s : State) (id : StrandId) (n : Nat) : State :=
  let ts := (s.core id.core).freeTiles.take n
  let f := s.fresh
  let s := s.relane id.core fun c =>
    let own (t : Fin 16) : Option SlotId := if ts.contains t then some id.slot else c.tileOwn[t.val]
    let cell (t : Fin 16) : Tile :=
      if ts.contains t then
        ⟨Config.freeNat (f + 3 * t.val) % 2 ^ 1048576, Config.freeNat (f + 3 * t.val + 1) % 2 ^ 16384,
         Config.freeNat (f + 3 * t.val + 2) % 2 ^ 16384⟩
      else c.tiles[t.val]
    { c with tileOwn := Vector.ofFn own, tiles := Vector.ofFn cell, tileQ := c.tileQ.filter (· != id.slot) }
  { s with fresh := f + 48 }.modStrand id fun t => { t with tilesHeld := ts, matrixMode := true }

/-- MMODE with mod 8 (R142, R162): tiles already owned are released, and tile waiters are served oldest first. -/
def execMmode (h : Hdr) (d b : SReg) (n : BitVec 5) (s : State) : Out :=
  runUnit h (ctlSite s 1 :: sSites s [b]) (fun s =>
    let k := s.cur.slot
    let enter (s : State) : UnitRes :=
      if s.myCore.freeTiles.length ≥ n.toNat ∧ (s.myCore.tileQ.takeWhile (· != k)).isEmpty then
        let s := s.takeTiles s.cur n.toNat
        let mvl := min (min (s.me.rS b).toNat 128) (s.rb s.cur / 384)
        doneS ((s.modMe fun t => { t with mvl := mvl }).clearErr (.ctl s.cur 3)) d (BitVec.ofNat 64 mvl)
      else .wait s
    match s.me.wait with
    | some ⟨.tiles _, _⟩ => enter s
    | _ =>
      if s.me.ill then .trap s (trapInfo 0x07 s.me.vtype)
      else configUnit s fun s =>
        let s := s.relane s.cur.core fun c =>
          let c := c.releaseTiles k
          { c with tileQ := c.tileQ ++ [k] }
        enter (s.modMe fun t => { t with wait := some ⟨.tiles n.toNat, .mmode h d b n⟩ })) s

/-- `mmode.off` (R142, R162). -/
def execMmodeOff (h : Hdr) (s : State) : Out :=
  runUnit h [] (fun s => configUnit s fun s =>
    if s.me.matrixMode then
      let s := s.relane s.cur.core (·.releaseTiles s.cur.slot)
      .done ((s.modMe fun t => { t with matrixMode := false, mvl := 0 }).clearErr (.ctl s.cur 3))
    else .done s) s

/-- VCLAIM_GRANT (R137): a strand in W that holds a group completes its VCLAIM. -/
def execVclaimGrant (id : StrandId) (s : State) : Out :=
  match (s.strand id).run, (s.strand id).wait with
  | .running, some ⟨.lanes _, .vclaim h d n⟩ =>
    if (s.core id.core).granted id.slot then onWaiting id (execVclaim h d n) s else .next s
  | _, _ => .next s

/-- TILE_GRANT (R142): the oldest tile waiter takes its tiles. -/
def execTileGrant (id : StrandId) (s : State) : Out :=
  match (s.strand id).run, (s.strand id).wait with
  | .running, some ⟨.tiles _, .mmode h d b n⟩ => onWaiting id (execMmode h d b n) s
  | _, _ => .next s

end Sys2Proof.Machine
end

