-- ==== Sys2Proof/Machine/Dispatch.lean ====
section
/-! DEFINITION. The meaning of every constructor of `Instr`, one arm each. -/
namespace Sys2Proof.Machine
open Sys2Proof

/-- Execute one instruction, or let one event of the package take place. -/
def exec (i : Instr) (s : State) : Host.Outcome State Fault Refusal :=
  match i with
  | .add h v w d x y => Sys2Proof.Machine.execAdd h v w d x y s
  | .sub h v w d x y => Sys2Proof.Machine.execSub h v w d x y s
  | .mul h v w d x y => Sys2Proof.Machine.execMul h v w d x y s
  | .mulh h v w d x y => Sys2Proof.Machine.execMulh h v w d x y s
  | .div h v w d x y => Sys2Proof.Machine.execDiv h v w d x y s
  | .rem h v w d x y => Sys2Proof.Machine.execRem h v w d x y s
  | .and h w d x y => Sys2Proof.Machine.execAnd h w d x y s
  | .or h w d x y => Sys2Proof.Machine.execOr h w d x y s
  | .xor h w d x y => Sys2Proof.Machine.execXor h w d x y s
  | .andn h w d x y => Sys2Proof.Machine.execAndn h w d x y s
  | .shl h w d x y => Sys2Proof.Machine.execShl h w d x y s
  | .shr h v w d x y => Sys2Proof.Machine.execShr h v w d x y s
  | .rot h v w d x y => Sys2Proof.Machine.execRot h v w d x y s
  | .min h v w d x y => Sys2Proof.Machine.execMin h v w d x y s
  | .max h v w d x y => Sys2Proof.Machine.execMax h v w d x y s
  | .cmp h c d x y => Sys2Proof.Machine.execCmp h c d x y s
  | .sel h d g x y => Sys2Proof.Machine.execSel h d g x y s
  | .clz h w d x => Sys2Proof.Machine.execClz h w d x s
  | .ffs h w d x => Sys2Proof.Machine.execFfs h w d x s
  | .popc h w d x => Sys2Proof.Machine.execPopc h w d x s
  | .li h d i0 => Sys2Proof.Machine.execLi h d i0 s
  | .lea h va d b y => Sys2Proof.Machine.execLea h va d b y s
  | .ext h op d b y => Sys2Proof.Machine.execExt h op d b y s
  | .plog h op d a b => Sys2Proof.Machine.execPlog h op d a b s
  | .pmov h f => Sys2Proof.Machine.execPmov h f s
  | .br h i0 => Sys2Proof.Machine.execBr h i0 s
  | .jal h d i0 => Sys2Proof.Machine.execJal h d i0 s
  | .jalr h d b i0 => Sys2Proof.Machine.execJalr h d b i0 s
  | .loop h b start len => Sys2Proof.Machine.execLoop h b start len s
  | .ld h hint s0 w d b y => Sys2Proof.Machine.execLd h hint s0 w d b y s
  | .st h hint w v b y => Sys2Proof.Machine.execSt h hint w v b y s
  | .amo h hint op w d b y => Sys2Proof.Machine.execAmo h hint op w d b y s
  | .cas h hint w d b x n => Sys2Proof.Machine.execCas h hint w d b x n s
  | .cas128 h hint d b x n => Sys2Proof.Machine.execCas128 h hint d b x n s
  | .pref h hint lv b y => Sys2Proof.Machine.execPref h hint lv b y s
  | .fadd h f r d x y => Sys2Proof.Machine.execFadd h f r d x y s
  | .fsub h f r d x y => Sys2Proof.Machine.execFsub h f r d x y s
  | .fmul h f r d x y => Sys2Proof.Machine.execFmul h f r d x y s
  | .ffma h form f r d x y z => Sys2Proof.Machine.execFfma h form f r d x y z s
  | .fdiv h f r d x y => Sys2Proof.Machine.execFdiv h f r d x y s
  | .fsqrt h f r d x => Sys2Proof.Machine.execFsqrt h f r d x s
  | .fmin h f d x y => Sys2Proof.Machine.execFmin h f d x y s
  | .fmax h f d x y => Sys2Proof.Machine.execFmax h f d x y s
  | .fcmp h c f d x y => Sys2Proof.Machine.execFcmp h c f d x y s
  | .fcvt h dst src r d x => Sys2Proof.Machine.execFcvt h dst src r d x s
  | .fclass h f d x => Sys2Proof.Machine.execFclass h f d x s
  | .trap h code => Sys2Proof.Machine.execTrap h code s
  | .eret h => Sys2Proof.Machine.execEret h s
  | .eretV h => Sys2Proof.Machine.execEretV h s
  | .ctlr h d n => Sys2Proof.Machine.execCtlr h d n s
  | .ctlw h n b => Sys2Proof.Machine.execCtlw h n b s
  | .halt h => Sys2Proof.Machine.execHalt h s
  | .yield h => Sys2Proof.Machine.execYield h s
  | .nopre h => Sys2Proof.Machine.execNopre h s
  | .preok h => Sys2Proof.Machine.execPreok h s
  | .launch h d b l => Sys2Proof.Machine.execLaunch h d b l s
  | .movq h d => Sys2Proof.Machine.execMovq h d s
  | .pair s0 s1 => Sys2Proof.Machine.execPair s0 s1 s
  | .illegalUnit e => Sys2Proof.Machine.execIllegalUnit e s
  | .vclaim h d n => Sys2Proof.Machine.execVclaim h d n s
  | .vsetvl h claim d n => Sys2Proof.Machine.execVsetvl h claim d n s
  | .vconfig h nv => Sys2Proof.Machine.execVconfig h nv s
  | .vtype h v => Sys2Proof.Machine.execVtype h v s
  | .mmode h d b t => Sys2Proof.Machine.execMmode h d b t s
  | .mmodeOff h => Sys2Proof.Machine.execMmodeOff h s
  | .vadd h k v d x y => Sys2Proof.Machine.execVadd h k v d x y s
  | .vsub h k v d x y => Sys2Proof.Machine.execVsub h k v d x y s
  | .vmul h k v d x y => Sys2Proof.Machine.execVmul h k v d x y s
  | .vmulh h k v d x y => Sys2Proof.Machine.execVmulh h k v d x y s
  | .vand h k d x y => Sys2Proof.Machine.execVand h k d x y s
  | .vor h k d x y => Sys2Proof.Machine.execVor h k d x y s
  | .vxor h k d x y => Sys2Proof.Machine.execVxor h k d x y s
  | .vshl h k d x y => Sys2Proof.Machine.execVshl h k d x y s
  | .vshr h k v d x y => Sys2Proof.Machine.execVshr h k v d x y s
  | .vmin h k v d x y => Sys2Proof.Machine.execVmin h k v d x y s
  | .vmax h k v d x y => Sys2Proof.Machine.execVmax h k v d x y s
  | .vcmp h k c d x y => Sys2Proof.Machine.execVcmp h k c d x y s
  | .vsel h m d x y => Sys2Proof.Machine.execVsel h m d x y s
  | .vclz h k d x => Sys2Proof.Machine.execVclz h k d x s
  | .vffs h k d x => Sys2Proof.Machine.execVffs h k d x s
  | .vpopc h k d x => Sys2Proof.Machine.execVpopc h k d x s
  | .vfadd h k f r d x y => Sys2Proof.Machine.execVfadd h k f r d x y s
  | .vfsub h k f r d x y => Sys2Proof.Machine.execVfsub h k f r d x y s
  | .vfmul h k f r d x y => Sys2Proof.Machine.execVfmul h k f r d x y s
  | .vffma h k form f r d x y z => Sys2Proof.Machine.execVffma h k form f r d x y z s
  | .vfdiv h k f r d x y => Sys2Proof.Machine.execVfdiv h k f r d x y s
  | .vfsqrt h k f r d x => Sys2Proof.Machine.execVfsqrt h k f r d x s
  | .vfmin h k f d x y => Sys2Proof.Machine.execVfmin h k f d x y s
  | .vfmax h k f d x y => Sys2Proof.Machine.execVfmax h k f d x y s
  | .vfcmp h k c f d x y => Sys2Proof.Machine.execVfcmp h k c f d x y s
  | .vfcvt h k dst src r d x => Sys2Proof.Machine.execVfcvt h k dst src r d x s
  | .vfexp2 h k f d x => Sys2Proof.Machine.execVfexp2 h k f d x s
  | .vflog2 h k f d x => Sys2Proof.Machine.execVflog2 h k f d x s
  | .vfrcp h k f d x => Sys2Proof.Machine.execVfrcp h k f d x s
  | .vfrsq h k f d x => Sys2Proof.Machine.execVfrsq h k f d x s
  | .vqpack h k t f r d s0 a => Sys2Proof.Machine.execVqpack h k t f r d s0 a s
  | .vqunpack h k f r d a s0 => Sys2Proof.Machine.execVqunpack h k f r d a s0 s
  | .vscacc h k src r d a s0 => Sys2Proof.Machine.execVscacc h k src r d a s0 s
  | .klog h op d a b => Sys2Proof.Machine.execKlog h op d a b s
  | .vred h k grp op d a => Sys2Proof.Machine.execVred h k grp op d a s
  | .vscan h k ex op d a => Sys2Proof.Machine.execVscan h k ex op d a s
  | .vcomp h k cnt d a => Sys2Proof.Machine.execVcomp h k cnt d a s
  | .vexp h k d a => Sys2Proof.Machine.execVexp h k d a s
  | .vperm h k iw d a i0 => Sys2Proof.Machine.execVperm h k iw d a i0 s
  | .vslide h k down d a n => Sys2Proof.Machine.execVslide h k down d a n s
  | .vbcast h k d a n => Sys2Proof.Machine.execVbcast h k d a n s
  | .vtos h a n => Sys2Proof.Machine.execVtos h a n s
  | .vld h hint k d b off => Sys2Proof.Machine.execVld h hint k d b off s
  | .vlds h hint k d b stride => Sys2Proof.Machine.execVlds h hint k d b stride s
  | .vldx h hint k s0 iw n d b i0 => Sys2Proof.Machine.execVldx h hint k s0 iw n d b i0 s
  | .vst h hint k v b off => Sys2Proof.Machine.execVst h hint k v b off s
  | .vsts h hint k v b stride => Sys2Proof.Machine.execVsts h hint k v b stride s
  | .vstx h hint k s0 iw n v b i0 => Sys2Proof.Machine.execVstx h hint k s0 iw n v b i0 s
  | .vappend h hint k v b => Sys2Proof.Machine.execVappend h hint k v b s
  | .rsload h hint q b => Sys2Proof.Machine.execRsload h hint q b s
  | .rsadd h k t q d a b => Sys2Proof.Machine.execRsadd h k t q d a b s
  | .rssub h k t q d a b => Sys2Proof.Machine.execRssub h k t q d a b s
  | .rsmul h k t q d a b => Sys2Proof.Machine.execRsmul h k t q d a b s
  | .rsdiv h k t q d a b => Sys2Proof.Machine.execRsdiv h k t q d a b s
  | .rsrcp h k t q d a => Sys2Proof.Machine.execRsrcp h k t q d a s
  | .rssqr h k t q d a => Sys2Proof.Machine.execRssqr h k t q d a s
  | .rssqrt h k t q d a => Sys2Proof.Machine.execRssqrt h k t q d a s
  | .rsunion h k t q d a b => Sys2Proof.Machine.execRsunion h k t q d a b s
  | .rsisect h k t q d a b => Sys2Proof.Machine.execRsisect h k t q d a b s
  | .rsfrom h k t f q d a b => Sys2Proof.Machine.execRsfrom h k t f q d a b s
  | .rsbnd h k hi t f q d a => Sys2Proof.Machine.execRsbnd h k hi t f q d a s
  | .rstest h k c t q d a b => Sys2Proof.Machine.execRstest h k c t q d a b s
  | .mopa h form t a b => Sys2Proof.Machine.execMopa h form t a b s
  | .mopag h f t a b n => Sys2Proof.Machine.execMopag h f t a b n s
  | .mzero h z => Sys2Proof.Machine.execMzero h z s
  | .mrd h col d t c => Sys2Proof.Machine.execMrd h col d t c s
  | .mwr h col t a c => Sys2Proof.Machine.execMwr h col t a c s
  | .mdrain h f kind col d t c => Sys2Proof.Machine.execMdrain h f kind col d t c s
  | .mldt h hint t b c => Sys2Proof.Machine.execMldt h hint t b c s
  | .mstt h hint t b c => Sys2Proof.Machine.execMstt h hint t b c s
  | .cpset h n y => Sys2Proof.Machine.execCpset h n y s
  | .cpgo h hint d => Sys2Proof.Machine.execCpgo h hint d s
  | .cpgang h g b => Sys2Proof.Machine.execCpgang h g b s
  | .cpgangOff h g => Sys2Proof.Machine.execCpgangOff h g s
  | .bellInit h n e => Sys2Proof.Machine.execBellInit h n e s
  | .bellArrive h d n => Sys2Proof.Machine.execBellArrive h d n s
  | .bellWait h n t => Sys2Proof.Machine.execBellWait h n t s
  | .bellSync h n => Sys2Proof.Machine.execBellSync h n s
  | .bellRemote h d n w => Sys2Proof.Machine.execBellRemote h d n w s
  | .waitlt h c n => Sys2Proof.Machine.execWaitlt h c n s
  | .fence h o s0 => Sys2Proof.Machine.execFence h o s0 s
  | .fenceo h => Sys2Proof.Machine.execFenceo h s
  | .fencer h s0 t => Sys2Proof.Machine.execFencer h s0 t s
  | .settle h b c n => Sys2Proof.Machine.execSettle h b c n s
  | .renew h b c => Sys2Proof.Machine.execRenew h b c s
  | .scount h clr d b => Sys2Proof.Machine.execScount h clr d b s
  | .ipopSum h f x y c n => Sys2Proof.Machine.execIpopSum h f x y c n s
  | .ipopScale h f x c a n => Sys2Proof.Machine.execIpopScale h f x c a n s
  | .ipopAxpy h f x y c a n => Sys2Proof.Machine.execIpopAxpy h f x y c a n s
  | .ipopFill h f x c a n => Sys2Proof.Machine.execIpopFill h f x c a n s
  | .coll h op f x y c det n => Sys2Proof.Machine.execColl h op f x y c det n s
  | .sqWaitEnd s0 => Sys2Proof.Machine.execSqWaitEnd s0 s
  | .vclaimGrant s0 => Sys2Proof.Machine.execVclaimGrant s0 s
  | .tileGrant s0 => Sys2Proof.Machine.execTileGrant s0 s
  | .bellWaitRelease s0 => Sys2Proof.Machine.execBellWaitRelease s0 s
  | .remoteArrival s0 => Sys2Proof.Machine.execRemoteArrival s0 s
  | .waitltRelease s0 => Sys2Proof.Machine.execWaitltRelease s0 s
  | .vectorBeat s0 g => Sys2Proof.Machine.execVectorBeat s0 g s
  | .beatCommit s0 => Sys2Proof.Machine.execBeatCommit s0 s
  | .vectorTrap s0 => Sys2Proof.Machine.execVectorTrap s0 s
  | .xqPost s0 => Sys2Proof.Machine.execXqPost s0 s
  | .matrixComplete c => Sys2Proof.Machine.execMatrixComplete c s
  | .rsloadCommit s0 => Sys2Proof.Machine.execRsloadCommit s0 s
  | .gangConsume s0 => Sys2Proof.Machine.execGangConsume s0 s
  | .transferChunk c id j => Sys2Proof.Machine.execTransferChunk c id j s
  | .transferComplete c id => Sys2Proof.Machine.execTransferComplete c id s
  | .copyFault s0 => Sys2Proof.Machine.execCopyFault s0 s
  | .settleLineStep c id line => Sys2Proof.Machine.execSettleLineStep c id line s
  | .ipopSector c id sector => Sys2Proof.Machine.execIpopSector c id sector s
  | .ipopComplete c id => Sys2Proof.Machine.execIpopComplete c id s
  | .collLanding c id => Sys2Proof.Machine.execCollLanding c id s
  | .readAhead s0 x => Sys2Proof.Machine.execReadAhead s0 x s
  | .egressStep s0 k => Sys2Proof.Machine.execEgressStep s0 k s
  | .performStep c line => Sys2Proof.Machine.execPerformStep c line s
  | .fillRequest s0 => Sys2Proof.Machine.execFillRequest s0 s
  | .fillInstall c line => Sys2Proof.Machine.execFillInstall c line s
  | .rs h line => Sys2Proof.Machine.execRs h line s
  | .rx h line => Sys2Proof.Machine.execRx h line s
  | .wb h line => Sys2Proof.Machine.execWb h line s
  | .dr h line => Sys2Proof.Machine.execDr h line s
  | .at s0 => Sys2Proof.Machine.execAt s0 s
  | .applyStep h line => Sys2Proof.Machine.execApplyStep h line s
  | .recall line => Sys2Proof.Machine.execRecall line s
  | .retire line => Sys2Proof.Machine.execRetire line s
  | .hostSnoop line => Sys2Proof.Machine.execHostSnoop line s
  | .cxlMemRequest line k => Sys2Proof.Machine.execCxlMemRequest line k s
  | .pcieCompletion s0 st => Sys2Proof.Machine.execPcieCompletion s0 st s
  | .completionTimeout s0 => Sys2Proof.Machine.execCompletionTimeout s0 s
  | .postedWriteFailure h => Sys2Proof.Machine.execPostedWriteFailure h s
  | .hostLinkUp h spd wid cxl => Sys2Proof.Machine.execHostLinkUp h spd wid cxl s
  | .packetForward h p => Sys2Proof.Machine.execPacketForward h p s
  | .flitReplay h k => Sys2Proof.Machine.execFlitReplay h k s
  | .peerLinkDown h k => Sys2Proof.Machine.execPeerLinkDown h k s
  | .peerLinkUp h k peer => Sys2Proof.Machine.execPeerLinkUp h k peer s
  | .peerPackageLost p => Sys2Proof.Machine.execPeerPackageLost p s
  | .hallDieLost h => Sys2Proof.Machine.execHallDieLost h s
  | .rollCallStep => Sys2Proof.Machine.execRollCallStep s
  | .rollStallTimeout s0 => Sys2Proof.Machine.execRollStallTimeout s0 s
  | .hrollAdv => Sys2Proof.Machine.execHrollAdv s
  | .tick => Sys2Proof.Machine.execTick s
  | .scrub e => Sys2Proof.Machine.execScrub e s
  | .vbondRepair d => Sys2Proof.Machine.execVbondRepair d s
  | .vbctlGo d => Sys2Proof.Machine.execVbctlGo d s
  | .l2wqWrite d v => Sys2Proof.Machine.execL2wqWrite d v s
  | .tlbicGo d v => Sys2Proof.Machine.execTlbicGo d v s
  | .tlbiDone d => Sys2Proof.Machine.execTlbiDone d s
  | .fresRetry d tag => Sys2Proof.Machine.execFresRetry d tag s
  | .fresDeliver d tag => Sys2Proof.Machine.execFresDeliver d tag s
  | .fresEnd d tag => Sys2Proof.Machine.execFresEnd d tag s
  | .llctlWrite n v => Sys2Proof.Machine.execLlctlWrite n v s
  | .recordConsume n => Sys2Proof.Machine.execRecordConsume n s
  | .launchPlacement lid => Sys2Proof.Machine.execLaunchPlacement lid s
  | .placementRequest lid => Sys2Proof.Machine.execPlacementRequest lid s
  | .plres h v => Sys2Proof.Machine.execPlres h v s
  | .launchComplete lid => Sys2Proof.Machine.execLaunchComplete lid s
  | .launchEnd lid => Sys2Proof.Machine.execLaunchEnd lid s
  | .recess lid block => Sys2Proof.Machine.execRecess lid block s
  | .resume lid block => Sys2Proof.Machine.execResume lid block s
  | .holdExpiry s0 => Sys2Proof.Machine.execHoldExpiry s0 s
  | .thermalThreshold d c temp => Sys2Proof.Machine.execThermalThreshold d c temp s
  | .tempBelowThr d c temp => Sys2Proof.Machine.execTempBelowThr d c temp s
  | .dieOvertemp d temp => Sys2Proof.Machine.execDieOvertemp d temp s
  | .powerWindow watts => Sys2Proof.Machine.execPowerWindow watts s
  | .hostQueueAppend => Sys2Proof.Machine.execHostQueueAppend s
  | .dutyWrite v => Sys2Proof.Machine.execDutyWrite v s
  | .eresResume tag => Sys2Proof.Machine.execEresResume tag s
  | .eresEnd tag => Sys2Proof.Machine.execEresEnd tag s
  | .trapRegisterWrite s0 n v => Sys2Proof.Machine.execTrapRegisterWrite s0 n v s
  | .attctlGo v => Sys2Proof.Machine.execAttctlGo v s
  | .attestationDone => Sys2Proof.Machine.execAttestationDone s
  | .pwrlimWrite v => Sys2Proof.Machine.execPwrlimWrite v s
  | .moduleReset => Sys2Proof.Machine.execModuleReset s
  | .almanacUpdate u => Sys2Proof.Machine.execAlmanacUpdate u s
  | .registerWrite off v => Sys2Proof.Machine.execRegisterWrite off v s

end Sys2Proof.Machine
end

