-- ==== Sys2Proof/Machine/Schedule.lean ====
section
/-! DEFINITION. Which step runs next (R293): the steps that an agenda names, in its order; with an empty agenda, the first step of another
agent that changes the state, else the turn of the next strand (assumption 17). Also the placing of a unit where a strand fetches it. -/
namespace Sys2Proof.Machine

/-! ## Steps that have work -/

/-- The steps that end what a strand waits for (R61, R137, R142, R149, R251, R254, R257, R324, R326). The host answers with success. -/
def Waiting.ends (id : StrandId) : WaitKind → List Instr
  | .sq => [.sqWaitEnd id]
  | .lanes _ => [.vclaimGrant id]
  | .tiles _ => [.tileGrant id]
  | .bell .. => [.bellWaitRelease id]
  | .gang => [.gangConsume id]
  | .remote .. => [.remoteArrival id]
  | .counter _ => [.waitltRelease id]
  | .host _ ok => if ok then [] else [.pcieCompletion id .success]
  | .atomic _ => [.at id]
  | .casRel => []
  | .fencer .. => []
  | .ipop _ => []
  | .renew _ => []
  | .fill _ => []

/-- The steps that may have work for a strand's queues, buffer and wait. -/
def State.strandSteps (s : State) (id : StrandId) : List Instr :=
  let t := s.strand id
  (if t.sb.isEmpty then [] else [.egressStep id 0]) ++ t.late.map (fun x => .readAhead id ⟨x.pc, 0, 0, 0, 0, false⟩) ++
  (if t.vq.isEmpty && !t.drain.isEmpty then [.beatCommit ⟨id, none⟩] else []) ++
  (if t.vq.isEmpty then [] else
    [.vectorTrap id, .beatCommit ⟨id, none⟩, .xqPost id, .rsloadCommit id] ++
      ((List.finRange 8).filter fun g => (s.core id.core).laneOwn[g.val] == some id.slot).map fun g => .vectorBeat id ⟨g, none⟩) ++
  (match t.wait with
    | some w => Waiting.ends id w.kind
    | none => [])

/-- The steps that may have work for one transfer of a core (R246, R247, R284, R288, R374). -/
def Xfer.steps (c : CoreId) (x : Xfer) : List Instr :=
  match x.kind with
  | .copy j => [.transferComplete c x.id, .transferChunk c x.id (((List.range j.chunks).find? fun n => !j.doneChunk n).getD 0)]
  | .settle lines _ _ => .transferComplete c x.id :: lines.map fun l => .settleLineStep c x.id l.1
  | .ipop j => j.todo.map (fun k => .ipopSector c x.id k) ++ [.ipopComplete c x.id]
  | .coll _ => [.collLanding c x.id]

/-- The steps that may have work on a core. -/
def State.coreSteps (s : State) (c : CoreId) : List Instr :=
  let x := s.core c
  (if x.xq.isEmpty then [] else [.matrixComplete ⟨c, none⟩]) ++ x.fills.map (fun f => .fillInstall c f.line) ++
  x.egress.map (fun e => .performStep c (egressKey e)) ++ x.xfers.flatMap (Xfer.steps c) ++
  (List.finRange 8).flatMap fun k => s.strandSteps ⟨c, k⟩

/-- The step that serves a request at a slice (R316). -/
def SliceReq.step (r : SliceReq) : List Instr :=
  match r.kind with
  | .rs => [.rs r.holder r.line]
  | .rx => [.rx r.holder r.line]
  | .wb => [.wb r.holder r.line]
  | .dr => [.dr r.holder r.line]
  | .at => r.strand.toList.map Instr.at

/-- What the home of another package's line answers a request of this package, when it holds the line alone (R370). -/
def State.homeReply (s : State) (a : HomeAsk) : Instr :=
  let h : HallId := s.portOf a.line
  let q : BitVec 6 := match paKind (128 * a.line) with
    | .device p => BitVec.ofNat 6 p
    | _ => 0
  let above (n : Nat) (x : BitVec 6 × HallId × Nat × BitVec 32) : Nat := if x.1 == q && x.2.1 == h then max n (x.2.2.2.toNat + 1) else n
  let seq := (s.hall h).accepted.foldl above 0
  .packetForward h ⟨q, h, s.almanac.package, h, BitVec.ofNat 32 seq, 0, a.line, false, none,
    some (.grant true false a.excl (BitVec.ofNat 1024 (Memory.read s.arrays (128 * a.line) 128))), none⟩

/-- The steps of packets that wait, and of requests at other packages (R368, R370). -/
def State.peerSteps (s : State) : List Instr :=
  ((List.finRange 2).flatMap fun h => (s.hall h).inbox.map fun a => .packetForward h a.p) ++
  ((s.slices[0].asks ++ s.slices[1].asks).filter fun a => a.ans.isNone && !a.dropped).map s.homeReply

/-- The steps by which the victims that wait for their eviction leave a die (R262, R316). -/
def State.outSteps (s : State) (d : DieId) : List Instr :=
  ((s.die d).lines.filter fun c => c.way == outWay).map fun c =>
    if c.st == .m || c.st == .o || c.dirty != 0 then .wb (.die d) c.line else .dr (.die d) c.line

/-- The steps that may have work in the Roll and its slices. -/
def State.rollSteps (s : State) : List Instr :=
  s.pending.map (fun p => .applyStep p.holder p.line) ++
  (s.slices[0].queue ++ s.slices[1].queue).flatMap SliceReq.step ++
  ((s.slices[0].entries ++ s.slices[1].entries).filter (·.rc)).map (fun e => .retire e.line) ++
  (if s.rollCall.rca && !s.rollCall.host then [.rollCallStep] else []) ++ (List.finRange 4).flatMap s.outSteps ++ s.peerSteps

/-- The blocks of a launch whose recess was asked for and waits for their strands (R346). -/
def State.askedBlocks (s : State) (l : Launch) : List Nat :=
  (List.range l.blocks.length).filter fun b => match l.blocks.getD b .waiting with
    | .placed cl => (l.blockCores b cl).any fun c => (s.core c.1).strands.any (·.recessAsked)
    | _ => false

/-- The steps that may have work for a launch (R340 to R347). -/
def State.launchSteps (s : State) (l : Launch) : List Instr :=
  if finalStatus l.status then []
  else
    [.launchComplete l.lid, .launchEnd l.lid, .placementRequest l.lid, .launchPlacement l.lid] ++
    (s.askedBlocks l).map (fun b => .recess l.lid b) ++ (l.blocks.zipIdx.filter fun b => b.1 == .saved).map fun b => .resume l.lid b.2

/-- The steps that may have work in the launch engine, the dies and the Preber. -/
def State.packageSteps (s : State) : List Instr :=
  s.launches.flatMap s.launchSteps ++ ((List.finRange 64).filter fun n => (s.lists[n.val]).en).map (fun n => .recordConsume n) ++
  ((List.finRange 4).filter fun d => (s.die d).tlbcBusy).map (fun d => .tlbiDone d) ++
  s.absentPend.map (fun u => .almanacUpdate u) ++ (if s.preber.waitRecs.isEmpty then [] else [.hostQueueAppend]) ++ (if s.preber.attBusy then [.attestationDone] else [])

/-- Every step of another agent that may have work; the cores of a stopped die do nothing (R276). -/
def State.allSteps (s : State) : List Instr :=
  s.rollSteps ++ s.packageSteps ++ ((List.finRange 128).filter fun c => !(s.die (dieOf c)).stopped).flatMap s.coreSteps

/-- What the first step that changes the state makes of it; none when no step of another agent has work. -/
def State.background (s : State) : Option State :=
  s.allSteps.findSome? fun i => match exec i s with
    | .next s' => if s' = s then none else some s'
    | _ => none

/-! ## Turns -/

/-- The number of a strand in the order of turns, and the strand of a number. -/
def numOfStrand (id : StrandId) : Nat := 8 * id.core.val + id.slot.val
/-- The strand of a number, modulo the count of strands. -/
def strandOfNum (n : Nat) : StrandId := ⟨⟨n / 8 % 128, Nat.mod_lt _ (by decide)⟩, ⟨n % 8, Nat.mod_lt _ (by decide)⟩⟩

/-- Whether a turn of a strand can do anything: it runs, or its record was answered, on a die that has not stopped. -/
def State.mayTurn (s : State) (id : StrandId) : Bool :=
  !(s.die (dieOf id.core)).stopped && match (s.strand id).run with
    | .running => true
    | .parked p => p.answer.isSome
    | _ => false

/-- The strand whose turn comes next after the current one. -/
def State.nextStrand (s : State) : Option StrandId :=
  ((List.range 1024).map fun k => strandOfNum (numOfStrand s.cur + 1 + k)).find? s.mayTurn

/-- The core whose own step an event is, for an event that a stopped die cannot take. -/
def Instr.ownCore : Instr → Option CoreId
  | .sqWaitEnd i | .vclaimGrant i | .tileGrant i | .bellWaitRelease i | .remoteArrival i | .waitltRelease i | .vectorBeat i _ | .beatCommit ⟨i, _⟩
  | .vectorTrap i | .xqPost i | .rsloadCommit i | .gangConsume i | .copyFault i | .readAhead i _ | .egressStep i _ | .fillRequest i => some i.core
  | .matrixComplete ⟨c, _⟩ | .transferChunk c _ _ | .transferComplete c _ | .settleLineStep c _ _ | .ipopSector c _ _ | .ipopComplete c _
  | .collLanding c _ | .performStep c _ | .fillInstall c _ => some c
  | _ => none

/-- A strand takes its turn: what it fetches runs. -/
def State.strandTurn (s : State) (id : StrandId) : Out :=
  match s.pickUnit id with
  | .run s i => exec i s
  | .over o => o

/-- A step of another agent runs; a name that is no step of another agent does nothing. -/
def State.eventTurn (s : State) (i : Instr) : Out :=
  if !i.isEvent || !i.wf then .next s
  else match Instr.ownCore i with
    | some c => if (s.die (dieOf c)).stopped then .fault (.dieStopped (dieOf c)) else exec i s
    | none => exec i s

/-- With an empty agenda: a step of another agent, else the next strand's turn, else nothing. -/
def State.freeTurn (s : State) : Out :=
  match s.background with
  | some s' => .next s'
  | none => match s.nextStrand with
    | some id => s.strandTurn id
    | none => .next s

/-- One step of the machine (R293). -/
def State.turn (s : State) : Out :=
  match s.agenda with
  | .strand id :: rest => State.strandTurn { s with agenda := rest } id
  | .event i :: rest => State.eventTurn { s with agenda := rest } i
  | [] => s.freeTurn

/-! ## Placing a unit -/

/-- A launch of one strand on one core, for a unit that is placed from outside. -/
def oneStrandLaunch (uid : Nat) (lid : BitVec 32) : Launch where
  uid := uid
  hdr := 0
  recAt := 0
  slots := 1
  lid := lid
  list := 0
  recNo := 0
  asid := 0
  root := 0
  status := 2
  entry := 0
  arg := 0
  w := 1
  h := 1
  strands := 1
  lanes := 8
  prio := 0
  det := false
  pre := false
  strips := 0
  after0 := ⟨0, none⟩
  after1 := ⟨0, none⟩
  blocks := [.placed 0]
  asked := false
  src := 0
  since := none
  moving := []

/-- Bytes of words, written from an address on. -/
def Memory.putWords (m : Memory) (a : Nat) : List Word → Memory
  | [] => m
  | w :: ws => Memory.putWords (Memory.write m a 8 w.toNat) (a + 8) ws

/-- The current strand runs on a launch, with two readable and executable pages of device memory mapped at its PC and the words of a unit
there, and the next turn is its own. Its registers stay as they are, but for a PC that no page can hold. -/
def State.placeUnit (s : State) (ws : List Word) : State :=
  let id := s.cur
  let x := s.core id.core
  let lid := x.lid.getD 0
  let pc := (s.strand id).pc
  let pc := if canonical pc && !inLocal pc && pc.toNat % 8 == 0 then pc else 0
  let base := s.pkg * 2 ^ 44
  let page : TlbEntry := ⟨x.asid, pc.toNat % 2 ^ 48 / 4096, 2, base, 0x437⟩
  let s := s.modCore id.core fun c => { c with lid := some lid, tlb := page :: c.tlb, claimQ := c.claimQ.filter (· != id.slot) }
  let s := s.modStrand id fun t => { t with run := .running, pc := pc, wait := none, pend := [], mfault := none, pausedBy := [], recessAsked := false }
  let s := if (s.launch lid).isSome then s else { s with launches := s.launches ++ [oneStrandLaunch s.nextUid lid] }
  let a := base + pc.toNat % 4096
  State.cleanWords { s with arrays := Memory.putWords s.arrays a ws, agenda := .strand id :: s.agenda } a (8 * ws.length)

end Sys2Proof.Machine
end

