-- ==== Sys2Proof/Machine/Step.lean ====
section
/-! DEFINITION. One step of the machine, and a state whose next step fetches and runs a given unit. -/
namespace Sys2Proof.Machine

/-- One step of the machine (R293): the turn that is next. -/
def step (s : State) : Host.Outcome State Fault Refusal := s.turn

/-- The state with a unit placed where its next step fetches it (assumption 18): the words of the unit at the current strand's PC. -/
def State.withFetchWord (s : State) (nbits w : Nat) : State := s.placeUnit (tableWords nbits w)

end Sys2Proof.Machine
end

