-- ==== Sys2Proof/Safety.lean ====
section
/-! DEFINITION. What claims call a safe step, and the form that memory keeps. -/
namespace Sys2Proof.Machine

/-- A step that goes on: neither a fault nor a refusal. -/
def Goes (o : Out) : Prop := ∃ t, o = .next t

/-- Every memory of the package is in canonical form: the arrays with host and peer memory, each core's local memory, and each saved one. -/
def State.memWf (s : State) : Prop :=
  s.arrays.wf ∧ (∀ c : CoreId, (s.core c).loc.wf) ∧ ∀ x ∈ s.recessStore, x.core.loc.wf

/-- No check error stands at any of some places (R151). -/
def State.noErr (s : State) (es : List ErrSite) : Prop := ∀ e ∈ es, s.errAt e = none

/-- A frame 00 unit of the current strand runs its body (R13, R16, R30, R70): its die has not stopped, a wait of sched code 3 is over, no
loop iteration suppresses it, its guard holds, and no check error stands at the strand's scalar registers, predicates and control
registers. -/
structure Runs (h : Hdr) (s : State) : Prop where
  die : (s.die (dieOf s.cur.core)).stopped = false
  csync : h.sched = .csync → csyncReady s = true
  loops : suppressed s.me (instrAddr h s) h.sched = false
  sreg : ∀ r, s.errAt (.sreg s.cur r) = none
  preg : ∀ r, s.errAt (.preg s.cur r) = none
  ctl : ∀ n, s.errAt (.ctl s.cur n) = none
  guard : s.me.rP h.guard ≠ h.gneg

/-- The unit of the current strand has completed and falls through (R64). -/
def State.fallen (s : State) (h : Hdr) : State := s.modMe fun t => { t.advance (hdrWords h) with wait := none }

/-- What a unit of the current strand leaves when it completes: the effect of its scheduling code, its own effect, and the move past it. -/
def State.ends (s : State) (h : Hdr) (f : State → State) : State := (f (s.begun h)).fallen h

/-- A unit completes by writing a scalar register with a value that has a property. -/
def Writes (i : Instr) (h : Hdr) (d : SReg) (s : State) (p : Word → Prop) : Prop :=
  ∃ r, exec i s = .next (s.ends h (·.wS s.cur d r)) ∧ p r

/-- A unit completes by writing a predicate with a truth value. -/
def WritesP (i : Instr) (h : Hdr) (d : PReg) (s : State) (p : Prop) : Prop :=
  ∃ b, exec i s = .next (s.ends h (·.wP s.cur d b)) ∧ (b = true ↔ p)

/-- A step leaves everything as it was but some scalar registers and predicates of the current strand, what moving past a unit changes (the PC,
the loop levels, reads taken ahead, the wait, the lane barrier that scheduling code 2 sets), and `fpctl`, of which a claim says more. -/
structure Keeps (s t : State) (ds : List SReg) (ps : List PReg) : Prop where
  parts : t = { s with cores := t.cores, errs := t.errs }
  cores : ∀ c, t.core c = { s.core c with strands := (t.core c).strands }
  strands : ∀ id, id ≠ s.cur → t.strand id = s.strand id
  own : t.me = { s.me with s := t.me.s, p := t.me.p, fpctl := t.me.fpctl, pc := t.me.pc, loops := t.me.loops, ahead := t.me.ahead,
                           wait := t.me.wait, barrier := t.me.barrier }
  sregs : ∀ r, r ∉ ds → t.me.rS r = s.me.rS r
  pregs : ∀ r, r ∉ ps → t.me.rP r = s.me.rP r
  bytes : ∀ a, Memory.get t.arrays a = Memory.get s.arrays a
  localBytes : ∀ c a, Memory.get (t.core c).loc a = Memory.get (s.core c).loc a

/-- What issuing an instruction of the vector side comes to: `vt` says whether it depends on `vtype`, `ok` whether its issue checks pass, x and
y are the scalar operands it captures, `sq` says whether it reserves an SQ slot and `bar` whether it is a lane barrier. The trap of ILL comes
first, then that of a failed check, then that of a full SQ or of handler state; with VQ full it waits, and else it enters VQ. -/
structure Issues (i : Instr) (h : Hdr) (vt ok : Bool) (x y : Word) (sq bar : Bool) (s : State) : Prop where
  ill : vt = true → s.me.ill = true → exec i s = .next ((s.begun h).scalarTrap s.cur (trapInfo 0x07 s.me.vtype))
  bad : (vt = true → s.me.ill = false) → ok = false → exec i s = .next ((s.begun h).scalarTrap s.cur (trapInfo 0x01 (unitWord i)))
  misuse : (vt = true → s.me.ill = false) → ok = true → (s.me.hs = true ∨ (sq = true ∧ 16 ≤ s.me.sq.length)) →
    exec i s = .next ((s.begun h).scalarTrap s.cur (trapInfo 0x0B 0))
  full : (vt = true → s.me.ill = false) → ok = true → s.me.hs = false → (sq = true → s.me.sq.length < 16) → 64 ≤ s.me.vq.length →
    exec i s = .next (s.begun h)
  enters : (vt = true → s.me.ill = false) → ok = true → s.me.hs = false → (sq = true → s.me.sq.length < 16) → s.me.vq.length < 64 →
    exec i s = .next (s.ends h (·.modMe fun t => t.push i x y sq bar))

end Sys2Proof.Machine
end

