-- ==== Sys2Proof/Certificates/Slice0/Obligations.lean ====
section
/-! DEFINITION. The statements about the machine. -/
open Sys2Proof Sys2Proof.Machine

/-! ## Encoding -/

/-- R12, R19, R20, R25: every well-formed instruction that words can name decodes back from its words, whatever words follow them. -/
def Obligations.DecodeEncode : Prop :=
  ∀ (i : Instr) (rest : List Word), i.wf = true → i.isEvent = false → (∀ e, i ≠ .illegalUnit e) →
    ∃ ws, encode i = some ws ∧ ws.length = i.unitWords ∧ decode (ws ++ rest) = some i

/-- R10, R12, R17: a word that is a unit of its own is the encoding of the well-formed instruction it decodes to, so no two words are one
instruction and no bit of a word is passed over. -/
def Obligations.EncodeDecode : Prop :=
  ∀ (w : Word) (i : Instr), decodeUnit [w] = some (.good i, 1) → encode i = some [w] ∧ i.wf = true ∧ i.isEvent = false

/-- R10, R16, R29: a word of frame 11, and a frame 00 or frame 01 word with a scheduling code 6 or 7, is an illegal instruction at that word. A word or
sequence that is no legal unit traps with its cause and value; `epc` is the unit's first word, or its mismatched prefix. -/
def Obligations.IllegalUnits : Prop :=
  (∀ (w : Word) (rest : List Word),
     (w.extractLsb' 62 2 = 3 ∨ (w.extractLsb' 62 2 = 0 ∧ 6 ≤ (w.extractLsb' 40 3).toNat) ∨
       (w.extractLsb' 62 2 = 1 ∧ (6 ≤ (w.extractLsb' 31 3).toNat ∨ 6 ≤ (w.extractLsb' 0 3).toNat))) →
     decodeUnit (w :: rest) = some (.bad ⟨.illegal, 0, w⟩, 1)) ∧
  (∀ (e : BadUnit) (s : State), (s.die (dieOf s.cur.core)).stopped = false →
     exec (.illegalUnit e) s = .next (s.takeTrap s.cur .scalar
       (trapInfo (match e.cause with
         | .illegal => 0x01
         | .mismatch => 0x02
         | .bank => 0x03) e.val) (s.me.pc + 8 * e.off.setWidth 64) s.me.vcp s.me.resumeGroup))

/-- A few words written out from the spec's encodings decode to the instructions they stand for. -/
def Obligations.WordsDecode : Prop :=
  let h : Hdr := ⟨0, false, .none, ⟨none, none, none⟩⟩
  decode [0x00000050420C0000] = some (.add h true .w32 1 2 (.reg 3)) ∧
  decode [0x0884000000FFFFFD] = some (.br { h with guard := 2 } 0xFFFFFD) ∧
  decode [0x0A000010420C0002] = some (.ld h .default false .w32 1 2 (.idx 3 2)) ∧
  decode [0x0D000004903C0001] = some (.fdiv h .f64 .rne 18 16 15) ∧
  decode [0x1000000000000007] = some (.trap h 7) ∧
  decode [0x80000123456789AB, 0x05000001C0CDEF01] = none ∧
  decode [0x8000000123456789, 0x05000001C0CDEF01] =
    some (.li { h with pfx := { h.pfx with imm := some 0x0123456789 } } 7 0xCDEF01)

/-! ## Memory, reset and invariants -/

/-- The memories of the machine right after reset are in canonical form. -/
def Obligations.ResetMemory : Prop := State.memWf State.reset

/-- Every step keeps every memory of the package in canonical form. -/
def Obligations.StepKeepsMemory : Prop := ∀ s t, s.memWf → step s = .next t → t.memWf

/-- The values the spec gives registers for module reset: the control windows of the Hall dies, the dies, the launch lists and the Preber
(R263, R275, R330, R333, R352, R356, R369), the settle counts (R281), the Roll's out bits and entries (R312, R314), and, as the
model chooses for a slot before any launch, its queues SQ and VQ empty, as R55 has them at a launch, `vcp` and HS (assumption 2), and memory
with nothing listed (the model's choice, assumption 3). -/
def Obligations.ResetValues : Prop :=
  (∀ h, (State.reset.hall h).rollto = 2000 ∧ (State.reset.hall h).cto = 10000 ∧ (State.reset.hall h).up = false) ∧
  (∀ d, (State.reset.die d).vbThr = 64 ∧ (State.reset.die d).vbSpare = 4 ∧ (State.reset.die d).l2wq = 0 ∧
    (State.reset.die d).outBits = [] ∧ ∀ i : Fin 5, ((State.reset.die d).mon[i.val]).thr = 760) ∧
  (∀ n : Fin 64, (State.reset.lists[n.val]).en = false) ∧
  State.reset.preber.pwrlim = 2800 ∧ State.reset.preber.prod = 0 ∧ State.reset.preber.cons = 0 ∧
  (∀ r, State.reset.region r = ⟨r, 0, false, .none⟩) ∧
  (∀ h, (State.reset.slice h).entries = []) ∧
  (∀ id, (State.reset.strand id).vcp = 1 ∧ (State.reset.strand id).hs = false ∧ (State.reset.strand id).sq = [] ∧ (State.reset.strand id).vq = []) ∧
  State.reset.arrays = []

/-! ## A step, and how a unit runs -/

/-- A turn of a running strand that holds no fault, that no launch end, recess or FENCER stops, and that waits in no unit runs the instruction it
fetches at its PC (R20, R24, R30, R293); one that waits in a unit comes to that unit again. What else the turn does first concerns reads: the values of
relaxed SCOUNTs that are still to come return (R289), and reads taken ahead that must come after the unit are discarded (R294); where a strand
has neither, nothing else. -/
def Obligations.StepRunsUnit : Prop :=
  ∀ (s : State) (id : StrandId) (rest : List Turn),
    s.agenda = .strand id :: rest →
    let s0 : State := { s with agenda := rest, cur := id }
    (s0.die (dieOf id.core)).stopped = false → s0.me.run = .running → s0.me.pend = [] → s0.me.mfault = none →
    s0.me.pausedBy = [] → s0.me.recessAsked = false → s0.errs = [] → (s0.launch (s0.me.lid.setWidth 32)).map (·.status) ≠ some 5 →
    (∀ (s' : State) (i : Instr), s0.me.wait = none → (s0.core id.core).claimQ.contains id.slot = false →
      s0.fetchUnit id s0.me.pc = .unit s' (.good i) →
      step s = exec i ((s'.countsFor id i).pruneAhead id i) ∧
      ((s'.strand id).late = [] → (s'.strand id).ahead = [] → step s = exec i s')) ∧
    (∀ w, s0.me.wait = some w → step s = exec w.instr ((s0.countsFor id w.instr).pruneAhead id w.instr) ∧
      (s0.me.late = [] → s0.me.ahead = [] → step s = exec w.instr s0))

/-- The words that a fetch reads in order from an address are decoded as the decoder decodes that list (R20): a fetch that ends at a unit or
at a word that is none agrees with it. -/
def Obligations.FetchDecodes : Prop :=
  ∀ (s : State) (id : StrandId) (va : Word) (ws : List Word) (st : Nat → State) (r : ScanResult) (n : Nat),
    decodeUnit ws = some (r, n) → n ≤ 4 → st 0 = s →
    (∀ k : Nat, k < n → ∃ w, ws[k]? = some w ∧ (st k).fetchWord id (va + 8 * BitVec.ofNat 64 k) = (.ok (st (k + 1)) w, false)) →
    s.fetchUnit id va = .unit (st n) r

/-- R13, R16: a unit whose guard does not hold, or that scheduling code 4 or 5 suppresses on this iteration of its deciding level, only moves past itself,
with the effect of its scheduling code, whatever it is; its sources' check bits and its other conditions do not matter. -/
def Obligations.Suppressed : Prop :=
  (∀ (i : Instr) (h : Hdr) (s : State), i.hdr? = some h →
     (s.die (dieOf s.cur.core)).stopped = false → (h.sched = .csync → csyncReady s = true) →
     suppressed s.me (instrAddr h s) h.sched = false → s.errAt (.preg s.cur h.guard) = none → s.me.rP h.guard = h.gneg →
     exec i s = .next (s.ends h id)) ∧
  (∀ (i : Instr) (h : Hdr) (s : State) (l : LoopLevel), i.hdr? = some h →
     (s.die (dieOf s.cur.core)).stopped = false → s.me.hs = false → decidingLevel (instrAddr h s) s.me.loops = some l →
     ((h.sched = .first ∧ l.iter ≠ 1) ∨ (h.sched = .last ∧ l.iter ≠ l.n)) →
     exec i s = .next (s.ends h id))

/-- R64: a unit whose last word lies at the end of the innermost active level and that completes without a taken branch loops back, the
iteration rising by one, or pops the level and looks at the next one; elsewhere execution goes on at the next word. -/
def Obligations.LoopBack : Prop :=
  ∀ (t : Strand) (words : Nat), t.hs = false →
    let last := t.pc + 8 * BitVec.ofNat 64 (words - 1)
    (∀ l ls, t.loops = l :: ls → l.stop = last → l.iter.toNat < l.n.toNat →
      (t.advance words).pc = l.start ∧ (t.advance words).loops = { l with iter := l.iter + 1 } :: ls) ∧
    (∀ l ls, t.loops = l :: ls → l.stop = last → l.n.toNat ≤ l.iter.toNat →
      (t.advance words).pc = (({ t with loops := ls } : Strand).advance words).pc ∧
      (t.advance words).loops = (({ t with loops := ls } : Strand).advance words).loops) ∧
    ((∀ l ls, t.loops = l :: ls → l.stop ≠ last) →
      (t.advance words).pc = t.pc + 8 * BitVec.ofNat 64 words ∧ (t.advance words).loops = t.loops)

/-- R65: a taken branch pops the levels inside the first one whose body contains the target, and counts no iteration. -/
def Obligations.BranchPops : Prop :=
  ∀ (t : Strand) (target : Word), t.hs = false →
    (t.branch target).pc = target ∧
    ∃ popped, t.loops = popped ++ (t.branch target).loops ∧ (∀ l ∈ popped, l.holds target = false) ∧
      ∀ l ls, (t.branch target).loops = l :: ls → l.start.toNat ≤ target.toNat ∧ target.toNat ≤ l.stop.toNat

/-- R66: taking a trap outside handler state with a handler set saves the cause, the value, the PC to go back to, the vector side's point,
`vtype` and the enables, clears the enables, enters handler state and goes to `tvec`; the registers it writes hold no check error any more (the model's reading,
assumption 25). With no
handler, or in handler state, the strand parks and its trap registers keep their values. Nothing else of the machine's cores changes either way, but
that a strand that waited for lane groups or tiles does so no more. -/
def Obligations.TrapEntry : Prop :=
  ∀ (s : State) (id : StrandId) (o : Origin) (i : TrapInfo) (epc vpc : Word) (grp : Nat),
    let t := s.strand id
    let s' := s.takeTrap id o i epc vpc grp
    (∀ j, j ≠ id → s'.strand j = s.strand j) ∧
    (∀ c, s'.core c = { s.core c with strands := (s'.core c).strands, tileQ := (s'.core c).tileQ, claimQ := (s'.core c).claimQ } ∧
      (c ≠ id.core → (s'.core c).tileQ = (s.core c).tileQ ∧ (s'.core c).claimQ = (s.core c).claimQ)) ∧
    (s'.core id.core).tileQ = (match t.wait with
      | some ⟨.tiles _, _⟩ => (s.core id.core).tileQ.filter (· ≠ id.slot)
      | _ => (s.core id.core).tileQ) ∧
    (s'.core id.core).claimQ = (match t.wait with
      | some ⟨.lanes _, _⟩ => (s.core id.core).claimQ.filter (· ≠ id.slot)
      | _ => (s.core id.core).claimQ) ∧
    s'.arrays = s.arrays ∧
    (t.hs = false → t.tvec ≠ 0 →
      s' = { (s.leaveWait id).setStrand id (s'.strand id) with errs := s'.errs } ∧
      (∀ e, s'.errAt e = if e ∈ [ErrSite.ctl id 0x20, .ctl id 0x21, .ctl id 0x22, .ctl id 0x23, .ctl id 0x24] then none else s.errAt e) ∧
      let u := s'.strand id
      u.ecause = i.cause.setWidth 64 ∧ u.eval = i.val ∧ u.epc = epc ∧ u.evcp = vpc ∧ u.pc = t.tvec ∧ u.hs = true ∧
      u.estatus.extractLsb' 32 16 = t.vtype.extractLsb' 0 16 ∧ u.estatus.extractLsb' 16 16 = BitVec.ofNat 16 grp ∧
      u.estatus.extractLsb' 11 5 = t.fpctl.extractLsb' 9 5 ∧ (u.estatus.getLsbD 10 = true ↔ o = .vector) ∧
      (u.estatus.getLsbD 9 = true ↔ o = .matrix) ∧
      u.fpctl.extractLsb' 9 5 = 0 ∧ u.fpctl &&& ~~~(0x3E00 : Word) = t.fpctl &&& ~~~(0x3E00 : Word) ∧
      u = { t with ecause := u.ecause, eval := u.eval, epc := u.epc, evcp := u.evcp, estatus := u.estatus, fpctl := u.fpctl, pc := u.pc,
                   ahead := [], wait := none, stalled := false }) ∧
    (t.hs = true ∨ t.tvec = 0 →
      ∃ p, s'.strand id = { t with run := .parked p, ahead := [], wait := none, stalled := false } ∧ p.info = i ∧ p.stopPc = epc ∧
        p.page = false)

/-! ## Scalar integer, predicates and control -/

/-- R54: s0, p0 and k0 read as their constants and discard writes; any other register reads as the value last written, and a write changes
no other register. -/
def Obligations.HardwiredRegisters : Prop :=
  ∀ t : Strand,
    (t.rS 0 = 0 ∧ (∀ v, t.wS 0 v = t) ∧ ∀ r v, r ≠ 0 → (t.wS r v).rS r = v ∧ ∀ q, q ≠ r → (t.wS r v).rS q = t.rS q) ∧
    (t.rP 0 = true ∧ (∀ v, t.wP 0 v = t) ∧ ∀ r v, r ≠ 0 → (t.wP r v).rP r = v ∧ ∀ q, q ≠ r → (t.wP r v).rP q = t.rP q) ∧
    ((∀ e, t.rKbit 0 e = true) ∧ (∀ v, t.wK 0 v = t) ∧
      ∀ k v, k ≠ 0 → (∀ e, (t.wK k v).rKbit k e = Nat.testBit v e) ∧ ∀ q e, q ≠ k → (t.wK k v).rKbit q e = t.rKbit q e)

/-- R97, R98: ADD to MAX complete with the results of the table on W bits, extended as it says; the corners of a zero divisor and of
−2^(W−1) / −1 included. -/
def Obligations.IntegerResults : Prop :=
  ∀ (h : Hdr) (v : Bool) (w : Width) (d x : SReg) (y : Src) (s : State), Runs h s →
    let W := widthBits w
    let X : BitVec W := (s.me.rS x).setWidth W
    let Y : BitVec W := (srcVal h s.me y).setWidth W
    let lo : Int := -(2 ^ (W - 1))
    let hi : Int := 2 ^ (W - 1) - 1
    let wrapped (i : Int) (r : Word) : Prop := r.toInt = i.bmod (2 ^ W)
    let clamped (i : Int) (r : Word) : Prop := r.toInt = max lo (min hi i)
    let sign (r : Word) (i : Int) : Prop := if v then r.toNat = i.toNat else r.toInt = i
    let num (b : BitVec W) : Int := if v then (b.toNat : Int) else b.toInt
    Writes (.add h v w d x y) h d s (fun r => if v then clamped (X.toInt + Y.toInt) r else wrapped (X.toInt + Y.toInt) r) ∧
    Writes (.sub h v w d x y) h d s (fun r => if v then clamped (X.toInt - Y.toInt) r else wrapped (X.toInt - Y.toInt) r) ∧
    Writes (.mul h v w d x y) h d s (fun r => if v then clamped (X.toInt * Y.toInt) r else wrapped (X.toInt * Y.toInt) r) ∧
    Writes (.mulh h v w d x y) h d s (fun r => sign r (num X * num Y / 2 ^ W)) ∧
    Writes (.div h v w d x y) h d s (fun r =>
      if Y = 0 then (if v then r.toNat = 2 ^ W - 1 else r.toInt = -1)
      else if ¬ v ∧ X.toInt = lo ∧ Y.toInt = -1 then r.toInt = lo
      else sign r ((num X).tdiv (num Y))) ∧
    Writes (.rem h v w d x y) h d s (fun r => if Y = 0 then sign r (num X) else sign r ((num X).tmod (num Y))) ∧
    Writes (.min h v w d x y) h d s (fun r => sign r (min (num X) (num Y))) ∧
    Writes (.max h v w d x y) h d s (fun r => sign r (max (num X) (num Y)))

/-- R97: the logical operations, the shifts and the rotates complete with their results on W bits, bit by bit. -/
def Obligations.BitResults : Prop :=
  ∀ (h : Hdr) (v : Bool) (w : Width) (d x : SReg) (y : Src) (s : State), Runs h s →
    let W := widthBits w
    let X := s.me.rS x
    let Y := srcVal h s.me y
    let k := Y.toNat % W
    let bitsAre (f : Nat → Bool) (r : Word) : Prop := ∀ i, i < 64 → r.getLsbD i = (decide (i < W) && f i)
    Writes (.and h w d x y) h d s (bitsAre fun i => X.getLsbD i && Y.getLsbD i) ∧
    Writes (.or h w d x y) h d s (bitsAre fun i => X.getLsbD i || Y.getLsbD i) ∧
    Writes (.xor h w d x y) h d s (bitsAre fun i => X.getLsbD i ^^ Y.getLsbD i) ∧
    Writes (.andn h w d x y) h d s (bitsAre fun i => X.getLsbD i && !Y.getLsbD i) ∧
    Writes (.shl h w d x y) h d s (bitsAre fun i => decide (k ≤ i) && X.getLsbD (i - k)) ∧
    Writes (.shr h false w d x y) h d s (bitsAre fun i => decide (i + k < W) && X.getLsbD (i + k)) ∧
    Writes (.shr h true w d x y) h d s (fun r => ∀ i, i < 64 → r.getLsbD i = X.getLsbD (if i + k < W then i + k else W - 1)) ∧
    Writes (.rot h false w d x y) h d s (bitsAre fun i => X.getLsbD ((i + k) % W)) ∧
    Writes (.rot h true w d x y) h d s (bitsAre fun i => X.getLsbD ((i + W - k) % W))

/-- R99, R100, R101, R102: CMP, SEL, CLZ, FFS, POPC and LI complete with their results; the counts by what they count. -/
def Obligations.CompareCountResults : Prop :=
  ∀ (h : Hdr) (w : Width) (d x : SReg) (y : Src) (s : State), Runs h s →
    let X := s.me.rS x
    let Y := srcVal h s.me y
    let W := widthBits w
    (∀ (c : Cond) (p : PReg), WritesP (.cmp h c p x y) h p s (match c with
      | .eq => X = Y
      | .ne => X ≠ Y
      | .lt => X.toInt < Y.toInt
      | .ge => Y.toInt ≤ X.toInt
      | .ltu => X.toNat < Y.toNat
      | .geu => Y.toNat ≤ X.toNat
      | .tst => X &&& Y ≠ 0)) ∧
    (∀ (g : PReg) (b : SReg), Writes (.sel h d g x b) h d s (fun r => r = if s.me.rP g then X else s.me.rS b)) ∧
    Writes (.clz h w d x) h d s (fun r => r.toNat ≤ W ∧ (∀ i, i < W → W ≤ i + r.toNat → X.getLsbD i = false) ∧
      (r.toNat < W → X.getLsbD (W - 1 - r.toNat) = true)) ∧
    Writes (.ffs h w d x) h d s (fun r => r.toNat ≤ W ∧ (∀ i, i < r.toNat → X.getLsbD i = false) ∧
      (r.toNat < W → X.getLsbD r.toNat = true)) ∧
    Writes (.popc h w d x) h d s (fun r => r.toNat = ((List.range W).filter fun i => X.getLsbD i).length) ∧
    (∀ i : BitVec 24, Writes (.li h d i) h d s (fun r => match h.pfx.imm with
      | none => r.toInt = i.toInt
      | some p => r.toNat = p.toNat * 2 ^ 24 + i.toNat))

/-- R103, R104: LEA forms its address modulo 2^64, `.va` makes it canonical, and EXT extracts or deposits the field bit by bit, with bits
past 63 of the source zero and past 63 of the destination dropped. -/
def Obligations.AddressFieldResults : Prop :=
  ∀ (h : Hdr) (d b : SReg) (s : State), Runs h s →
    (∀ (va : Bool) (y : AddrSrc), Writes (.lea h va d b y) h d s (fun r =>
      let a : Nat := ((s.me.rS b).toNat + (match y with
        | .idx i n => (s.me.rS i).toNat * 2 ^ n.toNat
        | .off i => (imm64 h i).toNat)) % 2 ^ 64
      if va then r.toInt = (a : Int).bmod (2 ^ 48) else r.toNat = a)) ∧
    (∀ (op : ExtOp) (y : FieldSrc), Writes (.ext h op d b y) h d s (fun r =>
      let pos := match y with
        | .reg c => (s.me.rS c).toNat % 64
        | .imm p _ => p.toNat
      let len := match y with
        | .reg c => (s.me.rS c).toNat / 64 % 64 + 1
        | .imm _ l => l.toNat + 1
      ∀ i, i < 64 → r.getLsbD i = match op with
        | .u => decide (i < len) && (s.me.rS b).getLsbD (pos + i)
        | .s => (s.me.rS b).getLsbD (pos + min i (len - 1))
        | .dep => if pos ≤ i ∧ i < pos + len then (s.me.rS b).getLsbD (i - pos) else (s.me.rS d).getLsbD i))

/-- R105, R106: PLOG and PMOV complete with their results. -/
def Obligations.PredicateResults : Prop :=
  ∀ (h : Hdr) (d a b : PReg) (r : SReg) (s : State), Runs h s →
    let A := s.me.rP a = true
    let B := s.me.rP b = true
    (∀ op, WritesP (.plog h op d a b) h d s (match op with
      | .and => A ∧ B
      | .or => A ∨ B
      | .xor => ¬ (A ↔ B)
      | .andn => A ∧ ¬ B
      | .nand => ¬ (A ∧ B)
      | .nor => ¬ (A ∨ B)
      | .xnor => A ↔ B
      | .orn => A ∨ ¬ B)) ∧
    WritesP (.pmov h (.toPred d r)) h d s (s.me.rS r ≠ 0) ∧
    Writes (.pmov h (.fromPred r a)) h r s (fun v => v = if s.me.rP a then 1 else 0) ∧
    Writes (.pmov h (.save r)) h r s (fun v => ∀ i, i < 64 → v.getLsbD i = (decide (i < 16) && s.me.rP (BitVec.ofNat 4 i))) ∧
    ∃ t, exec (.pmov h (.load r)) s = .next (t.fallen h) ∧ Keeps s t [] allPreds ∧ t.me.pc = s.me.pc ∧ t.me.fpctl = s.me.fpctl ∧
      ∀ q : PReg, q ≠ 0 → t.me.rP q = (s.me.rS r).getLsbD q.toNat

/-- R107, R11: BR, JAL and JALR go to their targets, the link being the address after the unit; a misaligned JALR target traps with cause 0x04
before the PC and the link change. -/
def Obligations.Branches : Prop :=
  ∀ (h : Hdr) (d b : SReg) (i : BitVec 24) (s : State), Runs h s →
    let link := s.me.pc + 8 * BitVec.ofNat 64 (hdrWords h)
    let goTo (t : State) (a : Word) : State := t.modMe fun u => { u.branch a with wait := none }
    let target := s.me.rS b + imm64 h i
    (s.me.pc.extractLsb' 0 3 = 0 → exec (.br h i) s = .next (goTo (s.begun h) (s.me.pc + 8 * i.signExtend 64))) ∧
    (s.me.pc.extractLsb' 0 3 = 0 →
      exec (.jal h d i) s = .next (goTo ((s.begun h).wS s.cur d (s.me.pc + 8)) (s.me.pc + 8 * i.signExtend 64))) ∧
    (target.extractLsb' 0 3 = 0 → exec (.jalr h d b i) s = .next (goTo ((s.begun h).wS s.cur d link) target)) ∧
    (target.extractLsb' 0 3 ≠ 0 → exec (.jalr h d b i) s = .next ((s.begun h).scalarTrap s.cur (trapInfo 0x04 target)))

/-- R63, R66, R108: LOOP opens a level on iteration 1 and goes to its start, passes over the body for a count of 0, and traps with cause 0x0E
when six levels are active and with cause 0x01 in handler state. -/
def Obligations.LoopOpens : Prop :=
  ∀ (h : Hdr) (b : SReg) (start len : BitVec 12) (s : State), Runs h s →
    let i := Instr.loop h b start len
    let n := s.me.rS b
    let st := s.me.pc + 8 * start.setWidth 64
    let en := st + 8 * len.setWidth 64
    (s.me.hs = true → exec i s = .next ((s.begun h).scalarTrap s.cur (trapInfo 0x01 (unitWord i)))) ∧
    (s.me.hs = false → n = 0 → exec i s = .next ((s.begun h).modMe fun u => { u.branch (en + 8) with wait := none })) ∧
    (s.me.hs = false → n ≠ 0 → 6 ≤ s.me.loops.length → exec i s = .next ((s.begun h).scalarTrap s.cur (trapInfo 0x0E 0))) ∧
    (s.me.hs = false → n ≠ 0 → s.me.loops.length < 6 → ∃ t, exec i s = .next t ∧ t.me.pc = st ∧
      t.me.loops = ⟨n, st, en, 1⟩ :: (s.me.branch st).loops ∧ Keeps s t [] [] ∧ t.me.fpctl = s.me.fpctl)

/-- R25 to R28: a pair word reads both slots' operands before either writes, and slot 1 writes after slot 0; each slot's write is that of its
own guard, and only the named destinations change. Scheduling code 3 of either slot makes the word wait for the vector side. The result of each of the
24 pair codes is that of R27, and a slot whose guard is false writes nothing, except for SEL. -/
def Obligations.PairCompletes : Prop :=
  (∀ (a b : PairSlot) (s : State), (s.die (dieOf s.cur.core)).stopped = false → s.errs = [] →
    (a.sched = .csync ∨ b.sched = .csync → csyncReady s = true) →
    ∃ t, exec (.pair a b) s = .next t ∧
      t.me.pc = (s.me.advance 1).pc ∧ t.me.loops = (s.me.advance 1).loops ∧
      (let after (u : State) (p : PairSlot) : State := match (if suppressed s.me s.me.pc p.sched then .none else slotRes s.me p) with
          | .s d v => u.wS s.cur d v
          | .p d v => u.wP s.cur d v
          | .none => u
       (∀ r, t.me.rS r = (after (after s a) b).me.rS r) ∧ ∀ r, t.me.rP r = (after (after s a) b).me.rP r) ∧
      Keeps s t ([a, b].filterMap PairSlot.sdest) ([a, b].filterMap PairSlot.pdest) ∧ t.me.fpctl = s.me.fpctl) ∧
  (∀ (a b : PairSlot) (s : State), (s.die (dieOf s.cur.core)).stopped = false → (a.sched = .csync ∨ b.sched = .csync) → csyncReady s = false →
    exec (.pair a b) s = .next s) ∧
  (∀ (p : PairSlot) (t : Strand),
    let x := t.rS p.src1
    let shift : Bool := p.op ∈ [.shl, .shr, .shrA, .rot]
    let y : Word := if ¬ p.imf then t.rS p.src2 else if shift then p.src2.setWidth 64 else p.src2.signExtend 64
    let k := y.toNat % 64
    let g := t.rP p.guard
    let wr (f : Word → Prop) : Prop := if g then ∃ v, slotRes t p = .s p.dest v ∧ f v else slotRes t p = .none
    let wp (q : Prop) : Prop := if g then ∃ b, slotRes t p = .p (p.dest.setWidth 4) b ∧ (b = true ↔ q) else slotRes t p = .none
    let bitsAre (f : Nat → Bool) : Prop := wr fun v => ∀ i, i < 64 → v.getLsbD i = f i
    match p.op with
    | .add => wr fun v => v.toNat = (x.toNat + y.toNat) % 2 ^ 64
    | .sub => wr fun v => v.toInt = (x.toInt - y.toInt).bmod (2 ^ 64)
    | .mul => wr fun v => v.toNat = x.toNat * y.toNat % 2 ^ 64
    | .and => bitsAre fun i => x.getLsbD i && y.getLsbD i
    | .or => bitsAre fun i => x.getLsbD i || y.getLsbD i
    | .xor => bitsAre fun i => x.getLsbD i ^^ y.getLsbD i
    | .andn => bitsAre fun i => x.getLsbD i && !y.getLsbD i
    | .shl => bitsAre fun i => decide (k ≤ i) && x.getLsbD (i - k)
    | .shr => bitsAre fun i => x.getLsbD (i + k)
    | .shrA => bitsAre fun i => x.getLsbD (min (i + k) 63)
    | .rot => bitsAre fun i => x.getLsbD ((i + k) % 64)
    | .min => wr fun v => v.toInt = min x.toInt y.toInt
    | .max => wr fun v => v.toInt = max x.toInt y.toInt
    | .minU => wr fun v => v.toNat = min x.toNat y.toNat
    | .maxU => wr fun v => v.toNat = max x.toNat y.toNat
    | .cmpEq => wp (x = y)
    | .cmpLt => wp (x.toInt < y.toInt)
    | .cmpLtu => wp (x.toNat < y.toNat)
    | .sel => slotRes t p = .s p.dest (if g then x else y)
    | .li => wr fun v => v.toInt = (p.src1 ++ p.src2).toInt
    | .clz => wr fun v => v.toNat ≤ 64 ∧ (∀ i, i < 64 → 64 ≤ i + v.toNat → x.getLsbD i = false) ∧
        (v.toNat < 64 → x.getLsbD (63 - v.toNat) = true)
    | .ffs => wr fun v => v.toNat ≤ 64 ∧ (∀ i, i < v.toNat → x.getLsbD i = false) ∧ (v.toNat < 64 → x.getLsbD v.toNat = true)
    | .popc => wr fun v => v.toNat = ((List.range 64).filter fun i => x.getLsbD i).length
    | .plogAnd => wp (t.rP (p.src1.setWidth 4) = true ∧ t.rP (p.src2.setWidth 4) = true))

/-- R96: what an instruction of the integer and predicate groups leaves unchanged when it runs: every register and predicate but its destination,
`fpctl`, every other register of the strand, the other strands, and every byte of memory. -/
def Obligations.ScalarFrame : Prop :=
  ∀ (i : Instr) (h : Hdr) (s t : State), i.hdr? = some h → Runs h s → exec i s = .next t →
    let sd : Option SReg := match i with
      | .add _ _ _ d _ _ | .sub _ _ _ d _ _ | .mul _ _ _ d _ _ | .mulh _ _ _ d _ _ | .div _ _ _ d _ _ | .rem _ _ _ d _ _
      | .shr _ _ _ d _ _ | .rot _ _ _ d _ _ | .min _ _ _ d _ _ | .max _ _ _ d _ _ => some d
      | .and _ _ d _ _ | .or _ _ d _ _ | .xor _ _ d _ _ | .andn _ _ d _ _ | .shl _ _ d _ _ => some d
      | .sel _ d _ _ _ | .clz _ _ d _ | .ffs _ _ d _ | .popc _ _ d _ | .li _ d _ | .lea _ _ d _ _ | .ext _ _ d _ _ => some d
      | .fclass _ _ d _ | .pmov _ (.fromPred d _) | .pmov _ (.save d) | .ctlr _ d _ => some d
      | _ => none
    let pd : Option PReg := match i with
      | .cmp _ _ d _ _ | .plog _ _ d _ _ | .pmov _ (.toPred d _) => some d
      | _ => none
    (sd.isSome = true ∨ pd.isSome = true) → (∀ d n, i = .ctlr h d n → ctlAssigned n = true) →
    Keeps s t sd.toList pd.toList ∧ t.me.fpctl = s.me.fpctl ∧ t.me.pc = (s.me.advance (hdrWords h)).pc

/-! ## Scalar floating point -/

/-- R109 to R114: the scalar FP group, on the low bits of its operands read in their format. With none of its flags enabled an instruction ORs its
flags into `fpctl` and writes its result; with an enabled one it traps with cause 0x09, its flags at their places in `eval`, and writes nothing. FCLASS
writes one set bit, that of its operand's class, and raises no flag. -/
def Obligations.FpResults : Prop :=
  (∀ (h : Hdr) (f : SFmt) (r : Rnd) (d x y z : SReg) (s : State), Runs h s →
     let m := sfmt f
     let bitsOf (q : SReg) : Nat := (s.me.rS q).toNat % 2 ^ m.width
     let val (q : SReg) : FVal := m.decode (bitsOf q)
     let c : RndCtx := ⟨Mode.select r (s.me.fpctl.extractLsb' 0 3), false, false⟩
     let ends (i : Instr) (fl : FpFlags) (w : State → State) : Prop :=
       (s.me.fpctl.extractLsb' 9 5 &&& fl = 0 →
         exec i s = .next (s.ends h fun u => w (u.modMe fun t => { t with fpctl := t.fpctl ||| (fl.setWidth 64 <<< 4) }))) ∧
       (s.me.fpctl.extractLsb' 9 5 &&& fl ≠ 0 →
         exec i s = .next ((s.begun h).scalarTrap s.cur (trapInfo 0x09 (fl.setWidth 64 <<< 4))))
     let writes (i : Instr) (v : Nat × FpFlags) : Prop := ends i v.2 (·.wS s.cur d (BitVec.ofNat 64 v.1))
     writes (.fadd h f r d x y) (fAdd m c (val x) (val y)) ∧
     writes (.fsub h f r d x y) (fSub m c (val x) (val y)) ∧
     writes (.fmul h f r d x y) (fMul m c (val x) (val y)) ∧
     writes (.fdiv h f r d x y) (fDiv m c (val x) (val y)) ∧
     (∀ form, writes (.ffma h form f r d x y z) (fFma m c form (val x) (val y) (val z))) ∧
     writes (.fsqrt h f r d x) (fSqrt m c (val x)) ∧
     writes (.fmin h f d x y) (fMinMax m false false (bitsOf x) (bitsOf y)) ∧
     writes (.fmax h f d x y) (fMinMax m false true (bitsOf x) (bitsOf y)) ∧
     (∀ (cc : FCond) (p : PReg), ends (.fcmp h cc f p x y) (fCond cc (val x) (val y)).2
       (·.wP s.cur p (fCond cc (val x) (val y)).1)) ∧
     (∀ dst src : CvtFmt,
       let v := convert dst src ⟨Mode.select r (s.me.fpctl.extractLsb' 0 3), s.me.vtype.getLsbD 9, false⟩ false
         ((s.me.rS x).toNat % 2 ^ cvtWidth src)
       ends (.fcvt h dst src r d x) v.2 (·.wS s.cur d (if dst = .s32 then (BitVec.ofNat 32 v.1).signExtend 64 else BitVec.ofNat 64 v.1)))) ∧
  (∀ (h : Hdr) (f : SFmt) (d x : SReg) (s : State), Runs h s →
     let m := sfmt f
     let b := (s.me.rS x).toNat % 2 ^ m.width
     let neg := b.testBit (m.fb + m.eb)
     let ex := b / 2 ^ m.fb % 2 ^ m.eb
     let frac := b % 2 ^ m.fb
     Writes (.fclass h f d x) h d s (fun r => r = BitVec.ofNat 64 (2 ^
       (if ex = 2 ^ m.eb - 1 then (if frac = 0 then (if neg then 0 else 7) else if frac < 2 ^ (m.fb - 1) then 8 else 9)
        else if ex = 0 then (if frac = 0 then (if neg then 3 else 4) else (if neg then 2 else 5))
        else if neg then 1 else 6))))

/-- R79: rounding a magnitude m × 2^e to a multiple of 2^q takes one of its two neighbours, the one its mode names: the nearest (ties to
even, or away from zero), toward zero, down, up, or to odd; an exact value stays as it is. -/
def Obligations.RoundingModes : Prop :=
  ∀ (mode : Mode) (neg : Bool) (m : Nat) (e q : Int), e < q →
    let g := 2 ^ (q - e).toNat
    let r := roundTo mode neg m e q
    (r.2 = true ↔ g ∣ m) ∧ (r.2 = true → r.1 * g = m) ∧
    (r.2 = false → (r.1 = m / g ∨ r.1 = m / g + 1) ∧ match mode with
      | .rne => 2 * ((r.1 * g : Nat) - (m : Int)).natAbs ≤ g ∧ (2 * ((r.1 * g : Nat) - (m : Int)).natAbs = g → r.1 % 2 = 0)
      | .rmm => 2 * ((r.1 * g : Nat) - (m : Int)).natAbs ≤ g ∧ (2 * ((r.1 * g : Nat) - (m : Int)).natAbs = g → m < r.1 * g)
      | .rtz => r.1 * g < m
      | .rdn => neg = true ↔ m < r.1 * g
      | .rup => neg = false ↔ m < r.1 * g
      | .rto => r.1 % 2 = 1)

/-- R72, R74, R79: a finite value of a format rounds to its own bits with no flag, in every mode, while outputs are not flushed. -/
def Obligations.RoundExact : Prop :=
  ∀ (f : Fmt) (c : RndCtx) (x : Nat) (n : Bool) (m : Nat) (e : Int),
    f ∈ [Fmt.f64, Fmt.f32, Fmt.f16, Fmt.bf16, Fmt.e5m2, Fmt.fp8] → x < 2 ^ f.width → f.decode x = .fin n m e → c.fo = false →
    f.round c n m e = (x, 0)

/-- R84, R109: what a scalar FP instruction leaves unchanged when it runs with none of its flags enabled: all but its destination, and of
`fpctl` all but the sticky flags, which no instruction of the group clears. -/
def Obligations.FpFrame : Prop :=
  ∀ (i : Instr) (h : Hdr) (s t : State), i.hdr? = some h → Runs h s → s.me.enables = 0 → exec i s = .next t →
    let sd : Option SReg := match i with
      | .fadd _ _ _ d _ _ | .fsub _ _ _ d _ _ | .fmul _ _ _ d _ _ | .ffma _ _ _ _ d _ _ _ | .fdiv _ _ _ d _ _ | .fsqrt _ _ _ d _
      | .fmin _ _ d _ _ | .fmax _ _ d _ _ | .fcvt _ _ _ _ d _ => some d
      | _ => none
    let pd : Option PReg := match i with
      | .fcmp _ _ _ d _ _ => some d
      | _ => none
    (sd.isSome = true ∨ pd.isSome = true) →
    Keeps s t sd.toList pd.toList ∧ t.me.fpctl &&& ~~~(0x1F0 : Word) = s.me.fpctl &&& ~~~(0x1F0 : Word) ∧
      t.me.fpctl &&& s.me.fpctl = s.me.fpctl ∧ t.me.pc = (s.me.advance (hdrWords h)).pc

/-! ## System -/

/-- R127: TRAP traps with cause 0x20 and its code as the value, `epc` at the TRAP itself; where the trap is not entered the strand parks with
that cause and value. -/
def Obligations.TrapTakes : Prop :=
  ∀ (h : Hdr) (code : BitVec 16) (s : State), Runs h s →
    exec (.trap h code) s = .next ((s.begun h).takeTrap s.cur .scalar (trapInfo 0x20 (code.setWidth 64)) s.me.pc s.me.vcp s.me.resumeGroup) ∧
    (s.me.hs = false → s.me.tvec ≠ 0 → ∃ t, exec (.trap h code) s = .next t ∧
      t.me.ecause = 0x20 ∧ t.me.eval = code.setWidth 64 ∧ t.me.epc = s.me.pc ∧ t.me.pc = s.me.tvec) ∧
    (s.me.hs = true ∨ s.me.tvec = 0 → ∃ t p, exec (.trap h code) s = .next t ∧ t.me.run = .parked p ∧ p.info.cause = 0x20 ∧
      p.info.val = code.setWidth 64 ∧ p.stopPc = s.me.pc)

/-- R69, R128: ERET and ERET.V leave handler state: `vtype` takes VT[9:0] and is evaluated, the enables come back, HS falls, the PC becomes `epc`
and loop levels pop as for a branch to it. Without .V a vector trap's instruction leaves VQ, and its undelivered SQ slot takes `eval`; in every
other case VQ stays. Outside handler state they are illegal, and a misaligned `epc` traps with 0x04. -/
def Obligations.TrapReturn : Prop :=
  ∀ (h : Hdr) (dotV : Bool) (s : State), Runs h s →
    let i : Instr := if dotV then .eretV h else .eret h
    let vt : BitVec 10 := s.me.estatus.extractLsb' 32 10
    (s.me.hs = false → exec i s = .next ((s.begun h).scalarTrap s.cur (trapInfo 0x01 (unitWord i)))) ∧
    (s.me.hs = true → s.me.epc.extractLsb' 0 3 ≠ 0 → exec i s = .next ((s.begun h).scalarTrap s.cur (trapInfo 0x04 s.me.epc))) ∧
    (s.me.hs = true → s.me.epc.extractLsb' 0 3 = 0 → ∃ t, exec i s = .next t ∧
      t.me.pc = s.me.epc ∧ t.me.hs = false ∧ t.me.estatus = s.me.estatus &&& ~~~(1 : Word) ∧
      t.me.fpctl = (s.me.fpctl &&& ~~~(0x3E00 : Word)) ||| ((s.me.estatus.extractLsb' 11 5).setWidth 64 <<< 9) ∧
      (vtUnsupported (vt.setWidth 64) = true → t.me.vtype = vt.setWidth 64 ||| 0x8000 ∧ t.me.vl = s.me.vl) ∧
      (vtUnsupported (vt.setWidth 64) = false → t.me.vtype = vt.setWidth 64 ∧
        t.me.vl = min s.me.vl (maxVL (s.lanes s.cur) s.me.nv (vt.setWidth 64))) ∧
      t.me.loops = popLoops s.me.epc s.me.loops ∧
      t.me.epc = s.me.epc ∧ t.me.ecause = s.me.ecause ∧ t.me.eval = s.me.eval ∧ t.me.tvec = s.me.tvec ∧
      (∀ r, t.me.rS r = s.me.rS r) ∧ t.me.p = s.me.p ∧ t.me.k = s.me.k ∧ t.me.v = s.me.v ∧
      (if s.me.estatus.getLsbD 10 ∧ ¬ dotV then
        t.me.vq = s.me.vq.tail ∧ t.me.sq = s.me.sq.map (fun q => match s.me.vq with
          | e :: _ => if q.seq = e.seq ∧ q.val = none then { q with val := some s.me.eval } else q
          | [] => q)
       else t.me.vq = s.me.vq ∧ t.me.sq = s.me.sq) ∧
      t.arrays = s.arrays ∧ ∀ j, j ≠ s.cur → t.strand j = s.strand j)

/-- R56 to R59, R129, R141: CTLR writes the register it names to its destination. CTLW gives a register that is RW the bits the spec lets software
write, and no other control register changes but `vl` under a `vtype` write; a register that is RO keeps its value. An unassigned number traps as an
illegal instruction. -/
def Obligations.ControlRegs : Prop :=
  (∀ (h : Hdr) (d b : SReg) (n : BitVec 12) (s : State), Runs h s → ctlAssigned n = true →
     let v := s.me.rS b
     Writes (.ctlr h d n) h d s (fun r => r = s.ctlRead s.cur n) ∧
     (n = 0x025 → v.extractLsb' 0 3 ≠ 0 → exec (.ctlw h n b) s = .next ((s.begun h).scalarTrap s.cur (trapInfo 0x04 v))) ∧
     ((n = 0x025 → v.extractLsb' 0 3 = 0) → ∃ t, exec (.ctlw h n b) s = .next t ∧
       (t.ctlRead s.cur n = match n.toNat with
         | 0x000 => (v &&& 0x7FF0) ||| (if (v.extractLsb' 0 3).toNat < 6 then v &&& 7 else 0)
         | 0x001 => let f : Word := (v.extractLsb' 0 10).setWidth 64; if vtUnsupported f then f ||| 0x8000 else f
         | 0x005 => v &&& 7
         | 0x020 => v
         | 0x022 => v &&& 0xFF
         | 0x023 => v
         | 0x024 => (s.me.estatus &&& ~~~(0x0000FFFF0000F800 : Word)) ||| (v &&& 0x0000FFFF0000F800)
         | 0x025 => v
         | 0x030 => v &&& 0xFFFFFFFF
         | _ => s.ctlRead s.cur n) ∧
       (∀ m, m ≠ n → (n = 0x001 → m ≠ 0x002) → t.ctlRead s.cur m = s.ctlRead s.cur m) ∧
       t.me.vl = (if n = 0x001 ∧ vtUnsupported ((v.extractLsb' 0 10).setWidth 64) = false then
         min s.me.vl (maxVL (s.lanes s.cur) s.me.nv ((v.extractLsb' 0 10).setWidth 64)) else s.me.vl) ∧
       (∀ r, t.me.rS r = s.me.rS r) ∧ t.me.p = s.me.p ∧ t.arrays = s.arrays ∧ t.me.pc = (s.me.advance (hdrWords h)).pc)) ∧
  (∀ (h : Hdr) (d b : SReg) (n : BitVec 12) (s : State), Runs h s → ctlAssigned n = false →
     exec (.ctlr h d n) s = .next ((s.begun h).scalarTrap s.cur (trapInfo 0x01 (unitWord (.ctlr h d n)))) ∧
     exec (.ctlw h n b) s = .next ((s.begun h).scalarTrap s.cur (trapInfo 0x01 (unitWord (.ctlw h n b)))))

/-- R130 to R132: HALT waits until the strand's vector and matrix work, copies and stores are done; then the strand ends: it has no SQ slot, no region
and no lane group or tile, and no byte of memory changes. YIELD changes no state but the PC. NOPRE opens a region with the budget of `hold` outside
one and does nothing inside one; PREOK closes it. -/
def Obligations.RunControl : Prop :=
  (∀ (h : Hdr) (s : State), Runs h s →
     ((s.begun h).haltReady = false → exec (.halt h) s = .next (s.begun h)) ∧
     ((s.begun h).haltReady = true → ∃ t, exec (.halt h) s = .next t ∧ t.me.run = .halted ∧ t.me.sq = [] ∧ t.me.region = none ∧
       t.lanes s.cur = 0 ∧ (∀ k : Fin 16, ((t.core s.cur.core).tileOwn[k.val]) ≠ some s.cur.slot) ∧
       t.arrays = s.arrays ∧ (t.core s.cur.core).loc = (s.core s.cur.core).loc)) ∧
  (∀ (h : Hdr) (s : State), Runs h s →
     exec (.yield h) s = .next (s.ends h id) ∧
     exec (.nopre h) s = .next (s.ends h (·.modMe fun t => { t with region := match s.me.region with
       | none => some (s.me.hold.extractLsb' 0 32)
       | some b => some b })) ∧
     exec (.preok h) s = .next (s.ends h (·.modMe fun t => { t with region := none })))

/-- R61, R66, R134: MOVQ takes the oldest result and frees its slot, waits for a result that is still to come, and traps with cause 0x0B when no
slot is reserved or in handler state; SQ_WAIT_END completes the waiting MOVQ once its result is there. -/
def Obligations.MovqTakes : Prop :=
  ∀ (h : Hdr) (d : SReg) (s : State),
    (Runs h s → (s.me.hs = true ∨ s.me.sq = []) → exec (.movq h d) s = .next ((s.begun h).scalarTrap s.cur (trapInfo 0x0B 0))) ∧
    (∀ q rest v, Runs h s → s.me.hs = false → s.me.sq = q :: rest → q.val = some v → s.errAt (.queue s.cur .sq q.seq) = none →
      exec (.movq h d) s = .next (s.ends h fun u => (u.modMe fun t => { t with sq := rest }).wS s.cur d v)) ∧
    (∀ q rest, Runs h s → s.me.hs = false → s.me.sq = q :: rest → q.val = none →
      exec (.movq h d) s = .next ((s.begun h).modMe fun t => { t with wait := some ⟨.sq, .movq h d⟩ })) ∧
    (∀ id q rest v, let s1 : State := { s with cur := id }
      Runs h s1 → s1.me.hs = false → s1.me.run = .running → s1.me.pausedBy = [] → s1.me.wait = some ⟨.sq, .movq h d⟩ → s1.me.sq = q :: rest → q.val = some v →
      s.errAt (.queue id .sq q.seq) = none →
      exec (.sqWaitEnd id) s = .next { (s1.ends h fun u => (u.modMe fun t => { t with sq := rest }).wS id d v) with cur := s.cur })

/-- R133, R334, R335, R339: LAUNCH tests its list, after its release is done, reads the record at its aligned address where there is a slot for it,
and appends it to the list its second register names; its destination takes the launch id, and all ones, with nothing read of the record, where
there is no slot. It waits while its older stores, or an overlapping store of its core's egress, are on their way. A
misaligned address traps with 0x04, and so do, with their causes, a bad word of the list's lines and a line past the stall bound. In an enabled list with a free slot, whose tail and
reservation both are k, the append writes the record's first 112 bytes, the record address with bit 63 set as SRC and STATUS = 0 into slot k,
advances TAIL and RSV together to k + 1 and answers the id n × 2^26 + k modulo 2^26; with no free slot or in a list that is not enabled it writes
nothing and answers all ones, and while another producer's append is in progress it waits. What a write of the list's lines stores, a later read of
them returns. A LAUNCH of a record in local memory completes whenever its list can be read and written so. -/
def Obligations.LaunchAppends : Prop :=
  let idOf (n : Fin 64) (k : Word) (r : Word) : Prop := r.toNat = n.val * 2 ^ 26 + k.toNat % 2 ^ 26
  let slotOf (rec : Nat) (a : Word) (body : Nat) : Prop := body % 2 ^ 896 = rec % 2 ^ 896 ∧ body / 2 ^ 896 % 2 ^ 64 = a.toNat % 2 ^ 63 + 2 ^ 63 ∧
    body / 2 ^ 960 = 0
  let tailOf (k : Word) (x : Nat) : Prop := x % 2 ^ 64 = (k.toNat + 1) % 2 ^ 64 ∧ x / 2 ^ 64 = (k.toNat + 1) % 2 ^ 64
  let header (s : State) (q : LaunchList) (tail rsv head : Word) (s3 : State) : Prop := ∃ s1 s2, s.engRead q.addr = .ok (s1, tail) ∧
    s1.engRead (q.addr + 8) = .ok (s2, rsv) ∧ s2.engRead (q.addr + 136) = .ok (s3, head)
  (∀ (h : Hdr) (d b l : SReg) (s s1 s2 s3 : State) (t : Target) (rec : Nat) (r : Word), Runs h s →
    let a := s.me.rS b
    let n := ((s1.me.rS l).extractLsb' 0 6).toFin
    let stops (u : State) (e : EngStop) : Prop :=
      (∀ v, u.appendStop s.cur (u.lists[n.val]) e = .wait v ∨ u.appendStop s.cur (u.lists[n.val]) e = .ok v () → exec (.launch h d b l) s = .next v) ∧
      (∀ v c, u.appendStop s.cur (u.lists[n.val]) e = .bad v c → v.cur = s.cur →
        ∃ x, exec (.launch h d b l) s = .next (({ v with fresh := v.fresh + 1 }).scalarTrap s.cur (trapInfo c x)))
    (a.extractLsb' 0 7 ≠ 0 → exec (.launch h d b l) s = .next ((s.begun h).scalarTrap s.cur (trapInfo 0x04 a))) ∧
    (a.extractLsb' 0 7 = 0 → (s.begun h).resolve s.cur a .sread none .default false = .ok s1 t →
      s1.cur = s.cur →
      ((s1.visible s.cur .system s1.me.sbAge = false ∨ s1.myCore.egressOverlaps t 128 = true) → exec (.launch h d b l) s = .next s1) ∧
      (s1.visible s.cur .system s1.me.sbAge = true → s1.myCore.egressOverlaps t 128 = false →
        (∀ e, s1.appendSpace n = .error e → stops s1 e) ∧
        (s1.appendSpace n = .ok (s2, none) → s2.cur = s.cur → exec (.launch h d b l) s = .next ((s2.endEng.wS s.cur d (BitVec.allOnes 64)).fallen h)) ∧
        (∀ u k, s1.appendSpace n = .ok (u, some k) → s1.readAt s.cur t 128 none = .ok s2 rec → s2.cur = s.cur →
          (s2.appendRecord n rec a = .ok (s3, r) → s3.cur = s.cur → exec (.launch h d b l) s = .next ((s3.endEng.wS s.cur d r).fallen h)) ∧
          (∀ e, s2.appendRecord n rec a = .error e → stops s2 e))))) ∧
  (∀ (s : State) (n : Fin 64) (rec : Nat) (a : Word), s.lists[n.val].en = false →
    s.appendSpace n = .ok (s, none) ∧ s.appendRecord n rec a = .ok (s, BitVec.allOnes 64)) ∧
  (∀ (s s3 : State) (n : Fin 64) (rec : Nat) (a tail rsv head : Word), let q := s.lists[n.val]
    q.en = true → header s q tail rsv head s3 →
    (rsv ≠ tail → s.appendSpace n = .error none) ∧
    (rsv = tail → q.slots ≤ tail.toNat - head.toNat → s.appendSpace n = .ok (s3, none)) ∧
    (rsv = tail → tail.toNat - head.toNat < q.slots → s.appendSpace n = .ok (s3, some tail) ∧ ∀ body x s4 s5, slotOf rec a body → tailOf tail x →
      s3.engWrite (q.addr + 256 + 128 * (tail.toNat % q.slots)) 128 body = .ok s4 → s4.engWrite q.addr 16 x = .ok s5 →
      ∃ r, s.appendRecord n rec a = .ok (s5, r) ∧ idOf n tail r)) ∧
  (∀ (s t : State) (pa n v a : Nat), s.memWf → s.errs = [] → pa % 8 = 0 → n % 8 = 0 → pa % 128 + n ≤ 128 → s.engWrite pa n v = .ok t →
    pa ≤ a → a < pa + n → a % 8 = 0 → ∃ u, t.engRead a = .ok (u, BitVec.ofNat 64 (v / 256 ^ (a - pa)))) ∧
  (∀ (h : Hdr) (d b l : SReg) (s s3 s4 s5 : State) (lid : BitVec 32) (idx off rec body x : Nat) (c : Core) (k head : Word), Runs h s → s.errs = [] →
    let a := s.me.rS b
    let n : Fin 64 := ((s.me.rS l).extractLsb' 0 6).toFin
    let q := s.lists[n.val]
    a.extractLsb' 0 7 = 0 → inLocal a = true → s.localPlace s.cur.core a = some (.loc lid idx off) → s.coreImage lid idx = some c →
    s.me.sb = [] → (∀ e ∈ s.myCore.egress, e.slot ≠ s.cur.slot ∧ overlaps e.entry.tgt.place e.entry.n (.loc lid idx off) 128 = false) →
    (∀ p ∈ s.pending, s.cur ∉ p.strands) → q.en = true →
    header (s.begun h) q k k head s3 → k.toNat - head.toNat < q.slots → (∀ j, j < 112 → rec / 256 ^ j % 256 = (Memory.get c.loc (off + j)).toNat) →
    slotOf rec a body → tailOf k x → s3.engWrite (q.addr + 256 + 128 * (k.toNat % q.slots)) 128 body = .ok s4 → s4.engWrite q.addr 16 x = .ok s5 →
    s5.cur = s.cur → ∃ r, exec (.launch h d b l) s = .next ((s5.endEng.wS s.cur d r).fallen h) ∧ idOf n k r)

/-! ## Scalar memory -/

/-- R117: LD, ST, AMO, CAS and CAS128 at an address that is no multiple of their size trap with cause 0x04 and the address as the value, with no
other effect. -/
def Obligations.MisalignedTraps : Prop :=
  ∀ (h : Hdr) (hint : Hint) (sx : Bool) (op : AmoOp) (w : Width) (d b x n : SReg) (y : AddrSrc) (s : State), Runs h s →
    let traps (i : Instr) (a : Word) : Prop := exec i s = .next ((s.begun h).scalarTrap s.cur (trapInfo 0x04 a))
    let a := addrVal h s.me b y
    let a0 := s.me.rS b
    (a.toNat % widthBytes w ≠ 0 → traps (.ld h hint sx w d b y) a ∧ traps (.st h hint w d b y) a) ∧
    (a0.toNat % widthBytes w ≠ 0 → traps (.amo h hint op w d b x) a0 ∧ traps (.cas h hint w d b x n) a0) ∧
    (a0.toNat % 16 ≠ 0 → traps (.cas128 h hint d b x n) a0)

/-- R118 to R120, R237, R238, R294, R296: a load whose address resolves and whose value is answered writes it, extended, and does its acquire half; the
value a load unit has read ahead is the one it delivers, and what else its read does happens as it issues or has happened with the read (the model's
choice, assumption 77). A load of
host non-coherent memory waits for an overlapping store of its core's egress. A relaxed load from a local memory, with no older store to its bytes in the buffer or the
egress, reads the bytes there, little-endian, and changes no register but its destination and no byte of memory. A load whose bytes lie wholly within
the newest overlapping entry of the store buffer reads from it, whatever memory holds. -/
def Obligations.Loads : Prop :=
  (∀ (h : Hdr) (hint : Hint) (sx : Bool) (w : Width) (d b : SReg) (y : AddrSrc) (s s1 s2 : State) (t : Target) (v : Nat), Runs h s →
     let n := widthBytes w
     let a := addrVal h s.me b y
     let o := ordOf h
     let writes (u : State) (v : Nat) : Out :=
       .next (((if acquires o.order then u.acquired s.cur o.scope else u).wS s.cur d
         (if sx then (BitVec.ofNat (8 * n) v).signExtend 64 else BitVec.ofNat 64 v)).fallen h)
     a.toNat % n = 0 → (s.begun h).resolve s.cur a .sread h.pfx.cls hint (w = .w64) = .ok s1 t → s1.cur = s.cur →
     let mine (x : Ahead) : Prop := x.pc = s1.me.pc ∧ x.nth = 0 ∧ x.part = none ∧ x.addr = a ∧ x.n = n
     ((∀ x ∈ s1.me.ahead, ¬ mine x) → t.attr.mkind ≠ 2 → s1.loadValue s.cur t n o hint = .ok s2 v → s2.cur = s.cur →
       exec (.ld h hint sx w d b y) s = writes s2 v) ∧
     ((∀ x ∈ s1.me.ahead, ¬ mine x) → t.attr.mkind = 2 → s1.myCore.egressOverlaps t n = true → exec (.ld h hint sx w d b y) s = .next s1) ∧
     (∀ x rest, s1.me.ahead = x :: rest → mine x →
       (x.brought = true → exec (.ld h hint sx w d b y) s = writes s1 x.val) ∧
       (x.brought = false → (s1.loadValue s.cur t n o hint = .ok s2 v → s2.cur = s.cur → exec (.ld h hint sx w d b y) s = writes s2 x.val) ∧
         ((∀ s2 v, s1.loadValue s.cur t n o hint ≠ .ok s2 v) → exec (.ld h hint sx w d b y) s = writes s1 x.val)))) ∧
  ((∀ (h : Hdr) (hint : Hint) (sx : Bool) (w : Width) (d b : SReg) (y : AddrSrc) (s : State) (lid : BitVec 32) (idx off : Nat) (c : Core),
      Runs h s → s.errs = [] → s.me.ahead = [] → acquires (ordOf h).order = false →
      let n := widthBytes w
      let a := addrVal h s.me b y
      a.toNat % n = 0 → inLocal a = true → s.localPlace s.cur.core a = some (.loc lid idx off) → s.coreImage lid idx = some c →
      (∀ e ∈ s.me.sb, overlaps e.tgt.place e.n (.loc lid idx off) n = false) →
      (∀ e ∈ s.myCore.egress, overlaps e.entry.tgt.place e.entry.n (.loc lid idx off) n = false) →
      ∃ t v, exec (.ld h hint sx w d b y) s = .next t ∧ (∀ j, j < n → v / 256 ^ j % 256 = (Memory.get c.loc (off + j)).toNat) ∧
        (d ≠ 0 → t.me.rS d = if sx then (BitVec.ofNat (8 * n) v).signExtend 64 else BitVec.ofNat 64 (v % 256 ^ n)) ∧
        Keeps s t [d] [] ∧ t.me.fpctl = s.me.fpctl) ∧
   (∀ (s : State) (id : StrandId) (t : Target) (n off : Nat) (o : OrdPayload) (hint : Hint) (e : SbEntry) (older newer : List SbEntry),
      (s.strand id).sb = older ++ e :: newer → (∀ x ∈ newer, overlaps x.tgt.place x.n t.place n = false) →
      overlaps e.tgt.place e.n t.place n = true → within e.tgt.place e.n t.place n = some off →
      (∀ pa, t.place = .phys pa → s.ownControl pa = false) →
      ∃ v, s.loadValue id t n o hint = .ok s v ∧ ∀ j, j < n → v / 256 ^ j % 256 = e.val / 256 ^ (off + j) % 256))

/-- R118, R119, R295: a store that resolves takes one entry of the store buffer, with its target, its size and the low bytes of its register; its bytes are
not written yet, so every byte reads as it did once the address was translated. With all 32 entries in use it waits. The egress step moves an entry
from the store buffer to its core's egress when no older entry overlaps it, and changes no register and no byte; the perform step then stores the
entry's bytes, and only them, at its target: a local memory, the arrays for an untracked page outside expired regions, or, for a tracked line, the
die's copy at its point, which becomes dirty there. The core's own L1 copy follows a store that its point has taken, and a store that its point does not
take yet stays. -/
def Obligations.Stores : Prop :=
  (∀ (h : Hdr) (hint : Hint) (w : Width) (v b : SReg) (y : AddrSrc) (s s1 : State) (t : Target), Runs h s →
     let n := widthBytes w
     let a := addrVal h s.me b y
     let o := ordOf h
     a.toNat % n = 0 → (s.begun h).resolve s.cur a .swrite h.pfx.cls hint (w = .w64) = .ok s1 t → s1.cur = s.cur →
     (s1.me.sb.length < 32 →
       exec (.st h hint w v b y) s = .next ((s1.modMe fun u => { u with
         sb := u.sb ++ [{ tgt := t, n := n, val := (s1.me.rS v).toNat % 256 ^ n, age := s1.me.sbAge, rel := releases o.order,
                          strong := o.strong, scope := o.scope, va := a }], sbAge := u.sbAge + 1 }).fallen h) ∧
       ∃ u, exec (.st h hint w v b y) s = .next u ∧ Memory.get u.arrays = Memory.get s1.arrays ∧
         (∀ c, (u.core c).loc = (s1.core c).loc) ∧ (∀ r, u.me.rS r = s1.me.rS r) ∧ u.me.p = s1.me.p ∧ u.me.fpctl = s1.me.fpctl ∧
         u.dies = s1.dies ∧ ∀ j, j ≠ s.cur → u.strand j = s1.strand j) ∧
     (32 ≤ s1.me.sb.length → exec (.st h hint w v b y) s = .next s1)) ∧
  ((∀ (s : State) (id : StrandId) (k : Nat) (e : SbEntry), (s.strand id).sb[k]? = some e →
     (∀ x ∈ (s.strand id).sb.take k, overlaps x.tgt.place x.n e.tgt.place e.n = false) → e.tgt.attr.mkind ≠ 2 →
     (e.rel = true → s.visible id e.scope e.age = true) →
     exec (.egressStep id k) s = .next ((s.modStrand id fun t => { t with sb := t.sb.eraseIdx k }).modCore id.core fun c =>
       { c with egress := c.egress ++ [⟨id.slot, e⟩] })) ∧
   (∀ (s : State) (c : CoreId) (x : EgressEntry) (rest : List EgressEntry), s.memWf → (s.core c).egress = x :: rest → x.entry.tgt.attr.mkind ≠ 2 →
     let e := x.entry
     (∀ lid idx off c', e.tgt.place = .loc lid idx off → s.coreAt lid idx = some c' → ∃ t, exec (.performStep c (egressKey x)) s = .next t ∧
       (t.core c).egress = rest ∧ t.arrays = s.arrays ∧
       (∀ j, j < e.n → (Memory.get (t.core c').loc (off + j)).toNat = e.val / 256 ^ j % 256) ∧
       (∀ q a, ¬ (q = c' ∧ off ≤ a ∧ a < off + e.n) → Memory.get (t.core q).loc a = Memory.get (s.core q).loc a) ∧
       ∀ id, t.strand id = s.strand id) ∧
     (∀ pa, e.tgt.place = .phys pa → e.tgt.attr.ut = true → s.reached (lineOf pa) = true → s.ownControl pa = false →
       (s.region (regionOf pa)).life ≠ .dead → ∃ t, exec (.performStep c (egressKey x)) s = .next t ∧
       (t.core c).egress = rest ∧ (∀ q, (t.core q).loc = (s.core q).loc) ∧
       (∀ j, j < e.n → (Memory.get t.arrays (pa + j)).toNat = e.val / 256 ^ j % 256) ∧
       (∀ a, ¬ (pa ≤ a ∧ a < pa + e.n) → Memory.get t.arrays a = Memory.get s.arrays a) ∧
       ∀ id, t.strand id = s.strand id) ∧
     (∀ pa, e.tgt.place = .phys pa → s.ownControl pa = false →
       (∀ t, s.writeAt ⟨c, x.slot⟩ e.tgt e.n e.val = .ok t () → (t.core c).egress = x :: rest →
         ∃ u, exec (.performStep c (egressKey x)) s = .next u ∧ (u.core c).egress = rest ∧
           u = { t with cores := u.cores } ∧ (∀ q, q ≠ c → u.core q = t.core q) ∧
           u.core c = { (t.core c).l1Store (lineOf pa) (pa % 128) e.n e.val with egress := rest }) ∧
       (∀ t, s.writeAt ⟨c, x.slot⟩ e.tgt e.n e.val = .wait t → exec (.performStep c (egressKey x)) s = .next t)) ∧
     (∀ pa l, e.tgt.place = .phys pa → e.tgt.attr.ut = false → s.ownControl pa = false → s.errs = [] →
       s.homeDie (lineOf pa) = some (dieOf c) → s.isOut (lineOf pa) = false → s.busy (lineOf pa) = false →
       s.findLine (dieOf c) (lineOf pa) = some l → (s.region (regionOf pa)).life ≠ .dead → pa % 128 + e.n ≤ 128 →
       ∃ t m, exec (.performStep c (egressKey x)) s = .next t ∧ (t.core c).egress = rest ∧ t.findLine (dieOf c) (lineOf pa) = some m ∧
         (∀ j, j < e.n → lineBytes m.data (pa % 128 + j) 1 = e.val / 256 ^ j % 256 ∧ m.dirty.testBit (pa % 128 + j) = true) ∧
         (∀ j, j < 128 → ¬ (pa % 128 ≤ j ∧ j < pa % 128 + e.n) → lineBytes m.data j 1 = lineBytes l.data j 1 ∧ m.dirty.testBit j = l.dirty.testBit j) ∧
         t.arrays = s.arrays ∧ (∀ q, (t.core q).loc = (s.core q).loc) ∧ ∀ id, t.strand id = s.strand id)))

/-- R121 to R123, R238: the new value of an AMO is its operation on the old value and the operand, in the bytes of its width; at a running core's local
memory, and at the die's copy of a tracked line, an atomic returns the old bytes and writes the new ones, and no other byte changes. An atomic on a local
memory, on an untracked page, or on a tracked one where this die serves it (at core, cluster and die scope, and at any scope for a line of its own whose
out bit is clear), with no older store to its bytes and its release half done, is performed there at once: the destination takes the old value, and its
acquire half is done. A CAS that releases first reads: where the compare fails it is complete without a write, and otherwise it waits for its release
half. That the core's own L1 copy follows an atomic that wrote is the model's reading (assumption 88). -/
def Obligations.Atomics : Prop :=
  ((∀ (op : AmoOp) (w : Width) (x y : Nat), let n := widthBytes w
      x < 256 ^ n → y < 256 ^ n →
      let sv (z : Nat) : Int := if 2 * z < 256 ^ n then z else (z : Int) - 256 ^ n
      amoNew op n x y = match op with
        | .swap => y
        | .add => (x + y) % 256 ^ n
        | .and => Nat.land x y
        | .or => Nat.lor x y
        | .xor => Nat.xor x y
        | .min => if sv x < sv y then x else y
        | .max => if sv x < sv y then y else x
        | .minu => Nat.min x y
        | .maxu => Nat.max x y) ∧
   (∀ (s : State) (id : StrandId) (c : CoreId) (lid : BitVec 32) (idx off n : Nat) (at_ : Attr) (f : Nat → Option Nat), s.memWf → s.errs = [] →
      s.coreAt lid idx = some c →
      ∃ t old, s.atomicAt id ⟨.loc lid idx off, at_⟩ n f = .ok t old ∧
        (∀ j, j < n → old / 256 ^ j % 256 = (Memory.get (s.core c).loc (off + j)).toNat) ∧
        (∀ v j, f old = some v → j < n → (Memory.get (t.core c).loc (off + j)).toNat = v / 256 ^ j % 256) ∧
        (f old = none → t = s) ∧ t.arrays = s.arrays ∧ (∀ q, t.strand q = s.strand q) ∧
        ∀ q a, ¬ (q = c ∧ off ≤ a ∧ a < off + n) → Memory.get (t.core q).loc a = Memory.get (s.core q).loc a) ∧
   (∀ (s : State) (id : StrandId) (pa n : Nat) (at_ : Attr) (f : Nat → Option Nat) (l : CacheLine), s.errs = [] → at_.mkind ≠ 2 → at_.ut = false →
      let d := dieOf id.core
      s.homeDie (lineOf pa) = some d → s.isOut (lineOf pa) = false → s.busy (lineOf pa) = false → s.findLine d (lineOf pa) = some l →
      (s.region (regionOf pa)).life ≠ .dead → pa % 128 + n ≤ 128 → badBytes l.data (pa % 128) n = false →
      let old := lineBytes l.data (pa % 128) n
      ∃ t m, s.atomicAt id ⟨.phys pa, at_⟩ n f = .ok t old ∧ t.findLine d (lineOf pa) = some m ∧
        (∀ v j, f old = some v → j < n → lineBytes m.data (pa % 128 + j) 1 = v / 256 ^ j % 256) ∧
        (∀ j, j < 128 → (f old = none ∨ ¬ (pa % 128 ≤ j ∧ j < pa % 128 + n)) → lineBytes m.data j 1 = lineBytes l.data j 1) ∧
        t.arrays = s.arrays ∧ ∀ q, t.core q = s.core q)) ∧
  (∀ (h : Hdr) (hint : Hint) (op : AmoOp) (w : Width) (d b x nv : SReg) (s s1 : State) (t : Target), Runs h s →
     let a := s.me.rS b
     let o := ordOf h
     (s.begun h).resolve s.cur a .atomic h.pfx.cls hint false = .ok s1 t → s1.cur = s.cur → t.attr.mkind ≠ 2 →
     ((∃ lid idx off, t.place = .loc lid idx off) ∨ ∃ pa, t.place = .phys pa ∧
       (t.attr.ut = true ∨ (t.attr.mkind = 0 ∧ (wideScope o.scope = false ∨
         (s1.homeDie (lineOf pa) = some (dieOf s.cur.core) ∧ s1.isOut (lineOf pa) = false))))) →
     let ends (u : State) (write : State → Nat → State) (old : Nat) : Out :=
       .next ((write (if acquires o.order then u.acquired s.cur o.scope else u) old).fallen h)
     let does (i : Instr) (n : Nat) (f : Nat → Option Nat) (write : State → Nat → State) : Prop :=
       a.toNat % n = 0 → (wideScope o.scope = true → s1.atOut s.cur = false) → s1.atomicReady t n = true → s1.me.journal = none →
       (∀ x j, s1.me.wait ≠ some ⟨.atomic x, j⟩) → ∀ s2 old, s1.atomicAt s.cur t n f = .ok s2 old → s2.cur = s.cur →
         exec i s = ends (match f old with
           | some v => s2.l1Follow s.cur.core t n v
           | none => s2) write old
     let compares (i : Instr) (n : Nat) (f : Nat → Option Nat) (write : State → Nat → State) : Prop :=
       a.toNat % n = 0 → s1.atomicReady t n = true → s1.me.journal = none → s1.me.wait = none →
       ∀ s2 old, s1.readAt s.cur t n (if wideScope o.scope || t.attr.mkind == 1 then some (o.scope == .system) else none) = .ok s2 old → s2.cur = s.cur →
         (f old = none → exec i s = ends s2 write old) ∧
         ((f old).isSome = true → s2.visible s.cur o.scope s2.me.sbAge = false →
           exec i s = .next (s2.modMe fun u => { u with wait := some ⟨.casRel, i⟩ }))
     let m := 8 * widthBytes w
     let one (u : State) (old : Nat) : State := u.wS s.cur d (BitVec.ofNat 64 old)
     let two (u : State) (old : Nat) : State := (one u old).wS s.cur (d + 1) (BitVec.ofNat 64 (old / 2 ^ 64))
     let f1 (old : Nat) : Option Nat := if old = (s.me.rS x).toNat % 2 ^ m then some ((s.me.rS nv).toNat % 2 ^ m) else none
     let f2 (old : Nat) : Option Nat := if old = (s.me.rS x).toNat + (s.me.rS (x + 1)).toNat * 2 ^ 64 then
       some ((s.me.rS nv).toNat + (s.me.rS (nv + 1)).toNat * 2 ^ 64) else none
     ((releases o.order = true → s1.visible s.cur o.scope s1.me.sbAge = true) → does (.amo h hint op w d b x) (widthBytes w)
       (fun old => some (amoNew op (widthBytes w) old ((s.me.rS x).toNat % 2 ^ m))) one) ∧
     (releases o.order = false → does (.cas h hint w d b x nv) (widthBytes w) f1 one ∧ does (.cas128 h hint d b x nv) 16 f2 two) ∧
     (releases o.order = true → compares (.cas h hint w d b x nv) (widthBytes w) f1 one ∧ compares (.cas128 h hint d b x nv) 16 f2 two))

/-- R124, R294, R298: PREF always completes; it traps on nothing, and changes no register of any strand and nothing else of the strand but its PC.
READ_AHEAD takes the read of the load unit that its strand comes to at an address, where the unit the strand waits in lets it be taken and, at
the strand's next unit, the guard and the scheduling code let the unit act: the value is kept for that coming to the unit, and the read brings its
line or leaves nothing else behind, whichever the step says (the model's choice, assumption 77). A unit that issues discards every kept read that must come after it. FILL_REQUEST reads a missing line into a fill that
the load waits on (R298; that a load has one fill at a time is the model's reading, assumption 33); FILL_INSTALL places the line with the core's current
generations, and where no fill of the line is in flight it evicts L1's copy of it and no other (the model's reading, assumption 14). A strand that is stopped or held by a trap takes neither. -/
def Obligations.ReadsAhead : Prop :=
  (∀ (h : Hdr) (hint : Hint) (lv : PrefLevel) (b : SReg) (y : AddrSrc) (s : State), Runs h s →
     ∃ t, exec (.pref h hint lv b y) s = .next t ∧ t.me = (s.ends h id).me ∧ t.cur = s.cur ∧ ∀ j, j ≠ s.cur → t.strand j = s.strand j) ∧
  ((∀ (s s1 s2 : State) (id : StrandId) (x : ReadTurn) (h : Hdr) (hint : Hint) (sx : Bool) (w : Width) (d b : SReg) (y : AddrSrc) (t : Target)
       (v : Nat),
     let a := addrVal h (s.strand id) b y
     let n := widthBytes w
     let i := Instr.ld h hint sx w d b y
     s.heldStrand id = false → (s.strand id).late = [] → s.fetchUnit id x.pc = .unit s1 (.good i) →
     a.toNat % n = 0 → h.sched ≠ .csync → s.resolve id a .sread h.pfx.cls hint (n == 8) = .ok s2 t → t.attr.mkind ≠ 2 →
     (∀ w, (s.strand id).wait = some w → barsReads w.instr = false ∧ hasCsync w.instr = false ∧
       s.readAfter id w.instr t.place n (ordOf h).strong = false ∧ ∀ r ∈ scalarDests (s.strand id) w.instr, r ≠ 0 → r ∉ addrRegs b y) →
     (x.pc = (s.strand id).pc → x.nth = 0 → (s.strand id).acts i = true ∧ ∀ line, (s.strand id).wait.map (·.kind) ≠ some (.fill line)) →
     let keeps (u : Strand) : Strand := { u with
       ahead := (u.ahead.filter fun y => ¬ (y.pc = x.pc ∧ y.nth = x.nth ∧ y.part = none)) ++
         [⟨x.pc, x.nth, none, a, n, v, addrRegs b y, t.place, (ordOf h).strong, [], x.brings⟩] }
     let bare := s2.modStrand id fun u => { u with wait := none }
     (x.brings = false → ∀ u, bare.loadValue id t n (ordOf h) .streaming = .ok u v → exec (.readAhead id x) s = .next (s.modStrand id keeps)) ∧
     (x.brings = true → ∀ u, bare.loadValue id t n (ordOf h) hint = .ok u v → exec (.readAhead id x) s =
       .next ((u.modStrand id fun y => { y with wait := (s2.strand id).wait }).modStrand id keeps))) ∧
   (∀ (s s1 : State) (id : StrandId) (x : ReadTurn) (h : Hdr) (hint : Hint) (sx : Bool) (w : Width) (d b : SReg) (y : AddrSrc),
     let i := Instr.ld h hint sx w d b y
     (s.strand id).late = [] → s.fetchUnit id x.pc = .unit s1 (.good i) →
     x.pc = (s.strand id).pc → x.nth = 0 → (s.strand id).acts i = false → exec (.readAhead id x) s = .next s) ∧
   (∀ (s : State) (id : StrandId) (i : Instr), let kept := ((s.pruneAhead id i).strand id).ahead
     (∀ x ∈ kept, x ∈ (s.strand id).ahead) ∧
     ((hasCsync i = true ∨ ((s.strand id).acts i = true ∧ barsReads i = true)) → ∀ x ∈ kept, (s.strand id).nextRead x = true)) ∧
   (∀ (s : State) (id : StrandId) (pc : ReadTurn), s.heldStrand id = true → (s.strand id).late = [] → exec (.readAhead id pc) s = .next s ∧
     exec (.fillRequest id) s = .next s) ∧
   (∀ (s s1 s2 s3 : State) (id : StrandId) (h : Hdr) (hint : Hint) (sx : Bool) (w : Width) (d b : SReg) (y : AddrSrc) (pa v : Nat) (at_ : Attr),
     let a := addrVal h (s.strand id) b y
     let n := widthBytes w
     let line := lineOf pa
     s.heldStrand id = false → (s.strand id).wait = none → (s1.strand id).ahead = [] → (s.strand id).ahead = [] →
     suppressed (s.strand id) (instrAddr h { s1 with cur := id }) h.sched = false →
     (h.sched = .csync → csyncReady { s1 with cur := id } = true) →
     s.fetchUnit id (s.strand id).pc = .unit s1 (.good (.ld h hint sx w d b y)) → a.toNat % n = 0 → (s.strand id).rP h.guard ≠ h.gneg →
     (ordOf h).strong = false → hint ≠ .streaming → s1.resolve id a .sread h.pfx.cls hint false = .ok s2 ⟨.phys pa, at_⟩ →
     l1May ⟨.phys pa, at_⟩ = true → (s2.core id.core).l1Find line = none → (∀ f ∈ (s2.core id.core).fills, f.line ≠ line) →
     (∀ f ∈ (s3.core id.core).fills, f.line ≠ line) → s2.pointRead id pa n at_ = .ok s3 v →
     exec (.fillRequest id) s = .next ((s3.modStrand id fun u => { u with wait := some ⟨.fill line, .ld h hint sx w d b y⟩ }).modCore id.core
       fun c => { c with fills := c.fills ++ [⟨line, s3.lineAtPoint (dieOf id.core) line, [id.slot], false⟩] })) ∧
   (∀ (s : State) (c : CoreId) (f : Fill), f ∈ (s.core c).fills → f.killed = false →
     ∃ t g, exec (.fillInstall c f.line) s = .next t ∧ g ∈ (s.core c).fills ∧ g.line = f.line ∧
       (t.core c).l1Find f.line = some ⟨f.line, g.data, (s.core c).gens⟩ ∧ t.arrays = s.arrays ∧ t.dies = s.dies ∧
       ∀ id, t.strand id = s.strand id) ∧
   (∀ (s : State) (c : CoreId) (line : Nat), (∀ f ∈ (s.core c).fills, f.line ≠ line) →
     ∃ t, exec (.fillInstall c line) s = .next t ∧ (t.core c).l1Find line = none ∧ (∀ l, l ≠ line → (t.core c).l1Find l = (s.core c).l1Find l) ∧
       t.arrays = s.arrays ∧ t.dies = s.dies ∧ ∀ id, t.strand id = s.strand id))

/-! ## Vector configuration -/

/-- R137, R138, R156 to R162: outside handler state and with the strand's vector and matrix work drained, VCLAIM renegotiates its request and takes
the count it is granted, or waits for a group; VSETVL sets `vl` under the shape it has or renegotiates; VCONFIG sets the count of registers and
invalidates them; MMODE takes free tiles and `mmode.off` releases them. VTYPE writes `vtype` at issue, with no wait. -/
def Obligations.ConfigCompletes : Prop :=
  ∀ (h : Hdr) (d b : SReg) (s : State), Runs h s →
    let c := s.cur.core
    let k := s.cur.slot
    let s0 := s.begun h
    let idle := s0.me.hs = false ∧ s0.vectorIdle s.cur = true ∧ s0.me.wait = none
    (∀ v : RegOrImm 10, exec (.vtype h v) s = .next (s.ends h fun u => (u.modMe fun t =>
      t.writeVtype (s.lanes s.cur) ((match v with
        | .reg b => s.me.rS b
        | .imm i => i.setWidth 64).extractLsb' 0 10)).clearErr (.ctl s.cur 1))) ∧
    (idle → s0.liveInto s.cur = false → ∀ n : RegOrImm 4,
      let r := min (max (match n with
        | .reg b => (s.me.rS b).toNat
        | .imm i => i.toNat) 1) 8
      let u := (s0.modMe fun t => { t with claimed := some r }).relane c fun x => x.renegotiate k r
      (0 < u.lanes s.cur → ¬ (u.core c).claimQ.contains k → exec (.vclaim h d n) s = .next ((u.wS s.cur d (BitVec.ofNat 64 (u.lanes s.cur))).fallen h)) ∧
      (u.lanes s.cur = 0 → exec (.vclaim h d n) s = .next (u.modMe fun t => { t with wait := some ⟨.lanes r, .vclaim h d n⟩ }))) ∧
    (idle → s0.me.ill = false → ∀ (claim : Bool) (n : RegOrImm 24),
      let req := match n with
        | .reg b => (s.me.rS b).toNat
        | .imm i => i.toNat
      let u := match s.me.claimed with
        | some r => if claim ∧ s0.lanes s.cur ≠ 0 ∧ s0.liveInto s.cur = false then s0.relane c fun x => x.renegotiate k r else s0
        | none => s0
      let vl := min req (maxVL (u.lanes s.cur) u.me.nv u.me.vtype)
      exec (.vsetvl h claim d n) s = .next ((((u.modMe fun t => { t with vl := vl }).clearErr (.ctl s.cur 2)).wS s.cur d (BitVec.ofNat 64 vl)).fallen h)) ∧
    (idle → s0.liveInto s.cur = false → ∀ nv : BitVec 2, ∃ t, exec (.vconfig h nv) s = .next t ∧ t.me.nv = 8 * 2 ^ nv.toNat ∧ t.me.vvalid = 0 ∧
      (∀ r : KReg, r ≠ 0 → ∀ e, t.me.rKbit r e = false) ∧ (∀ r, t.me.rV r = 0) ∧ t.lanes s.cur = s.lanes s.cur ∧
      (s.me.ill = false → t.me.vl = min s.me.vl (maxVL (s.lanes s.cur) t.me.nv s.me.vtype)) ∧ (s.me.ill = true → t.me.vl = s.me.vl) ∧
      (∀ r, t.me.rS r = s.me.rS r) ∧ t.me.p = s.me.p ∧ t.arrays = s.arrays) ∧
    (idle → s0.me.ill = false → s.me.tilesHeld = [] → (s.core c).tileQ = [] → (∀ j : Fin 16, (s.core c).tileOwn[j.val] ≠ some k) → ∀ n : BitVec 5,
      n.toNat ≤ (s.core c).freeTiles.length → ∃ t, exec (.mmode h d b n) s = .next t ∧ t.me.tilesHeld = (s.core c).freeTiles.take n.toNat ∧
      t.me.matrixMode = true ∧ t.me.mvl = min (min (s.me.rS b).toNat 128) (s.rb s.cur / 384) ∧
      (d ≠ 0 → t.me.rS d = BitVec.ofNat 64 t.me.mvl) ∧ (∀ j ∈ t.me.tilesHeld, (t.core c).tileOwn[j.val] = some k) ∧
      (∀ j : Fin 16, j ∉ t.me.tilesHeld → (t.core c).tileOwn[j.val] = (s.core c).tileOwn[j.val] ∧ (t.core c).tiles[j.val] = (s.core c).tiles[j.val]) ∧
      (∀ r, r ≠ d → t.me.rS r = s.me.rS r) ∧ t.arrays = s.arrays ∧ t.me.wait = none) ∧
    (idle → s.me.matrixMode = true → ∃ t, exec (.mmodeOff h) s = .next t ∧ t.me.tilesHeld = [] ∧ t.me.matrixMode = false ∧ t.me.mvl = 0 ∧
      (∀ j : Fin 16, (t.core c).tileOwn[j.val] ≠ some k) ∧ (∀ j : Fin 16, (t.core c).tiles[j.val] = (s.core c).tiles[j.val]) ∧
      (∀ r, t.me.rS r = s.me.rS r) ∧ t.arrays = s.arrays) ∧
    (idle → s.me.matrixMode = false → exec (.mmodeOff h) s = .next (s.ends h id))

/-- R66, R141, R156: VCLAIM, VSETVL, VCONFIG and MMODE trap with cause 0x0B in handler state, and VSETVL and MMODE with cause 0x07 and `vtype`
while ILL is set; with vector or matrix work left they wait. -/
def Obligations.ConfigStops : Prop :=
  ∀ (h : Hdr) (d b : SReg) (n : RegOrImm 4) (m : RegOrImm 24) (claim : Bool) (nv : BitVec 2) (tl : BitVec 5) (s : State), Runs h s →
    s.me.wait = none →
    let ill (i : Instr) : Prop := exec i s = .next ((s.begun h).scalarTrap s.cur (trapInfo 0x07 s.me.vtype))
    let hs (i : Instr) : Prop := exec i s = .next ((s.begun h).scalarTrap s.cur (trapInfo 0x0B 0))
    let waits (i : Instr) : Prop := exec i s = .next (s.begun h)
    (s.me.ill = true → ill (.vsetvl h claim d m) ∧ ill (.mmode h d b tl)) ∧
    (s.me.hs = true → hs (.vclaim h d n) ∧ hs (.vconfig h nv) ∧ hs (.mmodeOff h) ∧
      (s.me.ill = false → hs (.vsetvl h claim d m) ∧ hs (.mmode h d b tl))) ∧
    (s.me.hs = false → s.vectorIdle s.cur = false → waits (.vclaim h d n) ∧ waits (.vconfig h nv) ∧ waits (.mmodeOff h) ∧
      (s.me.ill = false → waits (.vsetvl h claim d m) ∧ waits (.mmode h d b tl)))

/-- R137, R142: with nobody waiting, a renegotiation grants min(n, held + free) groups; a strand that holds groups keeps at least one whoever waits, and a
strand is never left with a group it did not ask for. VCLAIM_GRANT completes a VCLAIM that waits once its strand holds a group, its destination taking
the count; TILE_GRANT lets the oldest tile waiter take its tiles. -/
def Obligations.LaneGrants : Prop :=
  (∀ (c : Core) (k : SlotId) (n : Nat), 1 ≤ n →
     (c.claimQ = [] → 0 < c.held k + c.freeGroups.length →
       (c.renegotiate k n).held k = min n (c.held k + c.freeGroups.length) ∧ (c.renegotiate k n).claimQ = []) ∧
     (c.claimQ = [] → c.held k + c.freeGroups.length = 0 → (c.renegotiate k n).claimQ = [k]) ∧
     (0 < c.held k → ¬ c.claimQ.contains k → 0 < (c.renegotiate k n).held k ∧ (c.renegotiate k n).held k ≤ n)) ∧
  (∀ (s : State) (id : StrandId) (h : Hdr) (d b : SReg), let s1 : State := { s with cur := id }
     Runs h s1 → s1.me.run = .running → s1.me.pausedBy = [] →
     (∀ n r, s1.me.wait = some ⟨.lanes r, .vclaim h d n⟩ → (s.core id.core).claimQ.contains id.slot = false → 0 < s.lanes id →
       exec (.vclaimGrant id) s = .next { (s1.ends h fun u => u.wS id d (BitVec.ofNat 64 (s.lanes id))) with cur := s.cur }) ∧
     (∀ (n : BitVec 5) r rest, s1.me.wait = some ⟨.tiles r, .mmode h d b n⟩ → (s.core id.core).tileQ = id.slot :: rest →
       n.toNat ≤ (s.core id.core).freeTiles.length →
       ∃ t, exec (.tileGrant id) s = .next t ∧ (t.strand id).tilesHeld = (s.core id.core).freeTiles.take n.toNat ∧
         (t.strand id).matrixMode = true ∧ (t.strand id).wait = none ∧ (t.core id.core).tileQ = rest.filter (· != id.slot) ∧
         (t.strand id).mvl = min (min (s1.me.rS b).toNat 128) (s.rb id / 384)))

/-! ## Issue into VQ -/

/-- R59, R60, R153, R154: an instruction that enters VQ takes the last place with its address, which of a unit with prefix words is that of the first
(the model's choice, assumption 66), and captures `vl` (R153), `mvl`, `vtype`, the rounding mode, the enables (R154), `slip` and its scalar operands; one with a result reserves the last slot of SQ. Nothing else of the strand changes but a lane barrier that was
asked for, which it takes over. -/
def Obligations.VqCaptures : Prop :=
  ∀ (t : Strand) (i : Instr) (x y : Word) (sq bar : Bool),
    let u := t.push i x y sq bar
    (∃ e : VqEntry, u.vq = t.vq ++ [e] ∧ e.pc = t.pc ∧ e.instr = i ∧ e.cap.vl = t.vl ∧ e.cap.mvl = t.mvl ∧ e.cap.vtype = t.vtype ∧
      e.cap.rm = t.fpctl.extractLsb' 0 3 ∧ e.cap.en = t.fpctl.extractLsb' 9 5 ∧ e.cap.slip = (t.slip.extractLsb' 0 3).toNat ∧ e.cap.x = x ∧
      e.cap.y = y ∧ e.nextGrp = 0 ∧ e.seq = t.vseq ∧ e.barrier = (t.barrier || bar)) ∧
    u.sq = (if sq then t.sq ++ [⟨t.vseq, none⟩] else t.sq) ∧
    u = { t with vq := u.vq, vseq := t.vseq + 1, barrier := false, sq := u.sq } ∧ (t.vq = [] → u.vcp = t.pc) ∧ (t.vq ≠ [] → u.vcp = t.vcp)

/-- R153, R163 to R171, R175: the integer group, KLOG, the floating group and the narrow formats issue when EW is 8 to 64, or the width of their format,
or the wider one of a conversion, and every vector operand obeys the naming rule: the narrower operand of VFCVT by its own count of registers (R168), the
groups that hold codes and scales and the source of VSCACC by L (the model's reading, assumption 20); KLOG does not depend on `vtype`. A broadcast
operand is captured. -/
def Obligations.ElementIssues : Prop :=
  (∀ (h : Hdr) (k dk a b : KReg) (v : Bool) (c : Cond) (op : LogOp) (d x : VReg) (y : VSrc) (s : State), Runs h s →
     let u := s.me
     let un : Bool := decide (8 ≤ vtEW u.vtype) && vregOk u d && vregOk u x
     let ok : Bool := un && vsrcOk u y
     let Y : Word := match y with
       | .vec _ => 0
       | .scl r => u.rS r
     let bin (i : Instr) : Prop := Issues i h true ok 0 Y false false s
     bin (.vadd h k v d x y) ∧ bin (.vsub h k v d x y) ∧ bin (.vmul h k v d x y) ∧ bin (.vmulh h k v d x y) ∧ bin (.vand h k d x y) ∧
     bin (.vor h k d x y) ∧ bin (.vxor h k d x y) ∧ bin (.vshl h k d x y) ∧ bin (.vshr h k v d x y) ∧ bin (.vmin h k v d x y) ∧
     bin (.vmax h k v d x y) ∧ bin (.vsel h k d x y) ∧
     Issues (.vcmp h k c dk x y) h true (decide (8 ≤ vtEW u.vtype) && vregOk u x && vsrcOk u y) 0 Y false false s ∧
     Issues (.vclz h k d x) h true un 0 0 false false s ∧ Issues (.vffs h k d x) h true un 0 0 false false s ∧
     Issues (.vpopc h k d x) h true un 0 0 false false s ∧ Issues (.klog h op dk a b) h false true 0 0 false false s) ∧
  (∀ (h : Hdr) (k dk : KReg) (f : FFmt) (g : SFmt) (q : QFmt) (qt : QType) (ss : ScaccSrc) (r : Rnd) (fm : FmaForm) (cc : FCond) (dst src : CvtFmt)
     (d x z : VReg) (y : VSrc) (s : State), Runs h s →
     let u := s.me
     let ew := vtEW u.vtype
     let reg (v : VReg) : Bool := vregOk u v
     let Y : Word := match y with
       | .vec _ => 0
       | .scl r => u.rS r
     let fw := (ffmt f).width
     let gw := (sfmt g).width
     let bin (i : Instr) (w : Nat) : Prop := Issues i h true (ew == w && reg d && reg x && vsrcOk u y) 0 Y false false s
     let un (i : Instr) : Prop := Issues i h true (ew == gw && reg d && reg x) 0 0 false false s
     bin (.vfadd h k f r d x y) fw ∧ bin (.vfsub h k f r d x y) fw ∧ bin (.vfmul h k f r d x y) fw ∧ bin (.vfdiv h k g r d x y) gw ∧
     bin (.vfmin h k f d x y) fw ∧ bin (.vfmax h k f d x y) fw ∧
     Issues (.vffma h k fm f r d x y z) h true (ew == fw && reg d && reg x && vsrcOk u y && reg z) 0 Y false false s ∧
     un (.vfsqrt h k g r d x) ∧ un (.vfexp2 h k g d x) ∧ un (.vflog2 h k g d x) ∧ un (.vfrcp h k g d x) ∧ un (.vfrsq h k g d x) ∧
     Issues (.vfcmp h k cc f dk x y) h true (ew == fw && reg x && vsrcOk u y) 0 Y false false s ∧
     Issues (.vfcvt h k dst src r d x) h true (ew == max (cvtWidth dst) (cvtWidth src) && groupOk u d (packedRegs u.vtype (cvtWidth dst)) &&
       groupOk u x (packedRegs u.vtype (cvtWidth src))) 0 0 false false s ∧
     Issues (.vqpack h k qt q r d z x) h true (ew == (qfmt q).width && reg d && reg z && reg x && d != z) 0 0 false false s ∧
     Issues (.vqunpack h k q r d x z) h true (ew == (qfmt q).width && reg d && reg x && reg z && d != z) 0 0 false false s ∧
     Issues (.vscacc h k ss r d x z) h true (ew == 32 && reg d && reg x && reg z) 0 0 false false s)

/-- R197, R198, R204, R206 to R213: the cross-lane group issues as lane barriers, VTOS alone none; VCOMP with its count and VTOS reserve an SQ slot; the
moves need operands that share no register. The vector memory group issues with its base and its offset or stride captured; VAPPEND is a lane
barrier with an SQ result. -/
def Obligations.MoveIssues : Prop :=
  (∀ (h : Hdr) (k : KReg) (flag : Bool) (op : RedOp) (iw : IdxW) (d a i : VReg) (n : Src) (s : State), Runs h s →
     let u := s.me
     let ew := vtEW u.vtype
     let l := vtL u.vtype
     let red : Bool := (match op with
       | .int _ => decide (8 ≤ ew)
       | .fadd f _ | .fmin f | .fmax f => ew == (ffmt f).width) && vregOk u d && vregOk u a
     let apart : Bool := vregOk u d && vregOk u a && !groupsMeet d l a l
     let li := idxRegs u.vtype iw
     Issues (.vred h k flag op d a) h true red 0 0 false true s ∧ Issues (.vscan h k flag op d a) h true red 0 0 false true s ∧
     Issues (.vcomp h k flag d a) h true apart 0 0 flag true s ∧ Issues (.vexp h k d a) h true apart 0 0 false true s ∧
     Issues (.vperm h k iw d a i) h true (decide (8 ≤ ew) && apart && groupOk u i li && !groupsMeet d l i li) 0 0 false true s ∧
     Issues (.vslide h k flag d a n) h true apart 0 (srcVal h u n) false true s ∧
     Issues (.vbcast h k d a n) h true apart 0 (srcVal h u n) false true s ∧
     Issues (.vtos h a n) h true (vregOk u a) 0 (srcVal h u n) true false s) ∧
  (∀ (h : Hdr) (hint : Hint) (k : KReg) (sg : Bool) (iw : IdxW) (n : BitVec 2) (v i : VReg) (b : SReg) (off : Src) (s : State), Runs h s →
     let u := s.me
     let wide : Bool := decide (8 ≤ vtEW u.vtype)
     let B := u.rS b
     let idx : Bool := wide && vregOk u v && groupOk u i (idxRegs u.vtype iw)
     Issues (.vld h hint k v b off) h true (vregOk u v) B (srcVal h u off) false false s ∧
     Issues (.vst h hint k v b off) h true (vregOk u v) B (srcVal h u off) false false s ∧
     Issues (.vlds h hint k v b off) h true (wide && vregOk u v) B (srcVal h u off) false false s ∧
     Issues (.vsts h hint k v b off) h true (wide && vregOk u v) B (srcVal h u off) false false s ∧
     Issues (.vldx h hint k sg iw n v b i) h true idx B 0 false false s ∧ Issues (.vstx h hint k sg iw n v b i) h true idx B 0 false false s ∧
     Issues (.vappend h hint k v b) h true (wide && vregOk u v) B 0 true true s)

/-- R181, R187, R191 to R195: the ring-set group issues when EW is the width of the set format, or the wider width of RSFROM and RSBND. R216, R218, R225 to
R227: the matrix group issues when `mvl` is above 0, GRP and EW are what its format asks for, its tiles are held and its lines lie within the tile; the
line number and the addresses are captured. -/
def Obligations.SetMatrixIssues : Prop :=
  (∀ (h : Hdr) (hint : Hint) (k dk : KReg) (f : RsFmt) (g : SFmt) (hi : Bool) (c : RsCond) (q : BitVec 2) (d a b : VReg) (r : SReg) (s : State),
     Runs h s →
     let u := s.me
     let ew := vtEW u.vtype
     let w := rsWidth f
     let un : Bool := ew == w && vregOk u d && vregOk u a
     let two (i : Instr) : Prop := Issues i h true (un && vregOk u b) 0 0 false false s
     let one (i : Instr) : Prop := Issues i h true un 0 0 false false s
     let gw := (sfmt g).width
     let mix (dw sw : Nat) (vs : List VReg) : Bool :=
       ew == max dw sw && groupOk u d (packedRegs u.vtype dw) && vs.all fun v => groupOk u v (packedRegs u.vtype sw)
     Issues (.rsload h hint q r) h true true (u.rS r) 0 false false s ∧
     two (.rsadd h k f q d a b) ∧ two (.rssub h k f q d a b) ∧ two (.rsmul h k f q d a b) ∧ two (.rsdiv h k f q d a b) ∧
     two (.rsunion h k f q d a b) ∧ two (.rsisect h k f q d a b) ∧ one (.rsrcp h k f q d a) ∧ one (.rssqr h k f q d a) ∧ one (.rssqrt h k f q d a) ∧
     Issues (.rsfrom h k f g q d a b) h true (mix w gw [a, b]) 0 0 false false s ∧ Issues (.rsbnd h k hi f g q d a) h true (mix gw w [a]) 0 0 false false s ∧
     Issues (.rstest h k c f q dk a b) h true (ew == w && vregOk u a && (!(c == .sub || c == .meet) || vregOk u b)) 0 0 false false s) ∧
  (∀ (h : Hdr) (hint : Hint) (form : MopaForm) (f : MFmt) (df : DrainFmt) (kind : DrainKind) (col : Bool) (z : ZeroSel) (t : TileNo) (a b n : VReg)
     (r c : SReg) (s : State), Runs h s →
     let u := s.me
     let on : Bool := u.mvl != 0
     let grid (w : Nat) : Bool := vtL u.vtype == 1 && vtEW u.vtype == w
     let held (pair : Bool) : Bool :=
       decide (t.toNat < u.tilesHeld.length) && (!pair || (t.toNat % 2 == 0 && decide (t.toNat + 1 < u.tilesHeld.length)))
     let lines : Bool := decide ((u.rS c).toNat + (u.vl + 127) / 128 ≤ 128)
     Issues (.mopa h form t a b) h true (on && (match form with
       | .plain f => grid (mfmtWidth f) && held (f == .f64) && groupOk u a 1 && groupOk u b 1
       | .q4 va vb => grid 4 && held false && groupOk u a 1 && groupOk u b 1 && groupOk u va 1 && groupOk u vb 1)) 0 0 false false s ∧
     Issues (.mopag h f t a b n) h true (on && (grid (mfmtWidth f) && held (f == .f64) && decide (b.toNat + 8 ≤ u.nv) && groupOk u a 1 &&
       groupOk u n 1)) 0 0 false false s ∧
     Issues (.mzero h z) h true (on && (match z with
       | .one t => decide (t.toNat < u.tilesHeld.length)
       | .all => true)) 0 0 false false s ∧
     Issues (.mrd h col a t c) h true (on && (grid 64 && held false && groupOk u a 1 && lines)) (u.rS c) 0 false false s ∧
     Issues (.mwr h col t a c) h true (on && (grid 64 && held false && groupOk u a 1 && lines)) (u.rS c) 0 false false s ∧
     Issues (.mdrain h df kind col a t c) h true (on && (grid (cvtWidth (drainCvt df)) && held (kind == .xa128) && groupOk u a 1 && lines))
       (u.rS c) 0 false false s ∧
     Issues (.mldt h hint t r c) h true (on && held false) (u.rS r) (u.rS c) false false s ∧
     Issues (.mstt h hint t r c) h true (on && held false) (u.rS r) (u.rS c) false false s)

/-! ## The vector side and the matrix array -/

/-- R62, R67, R144, R145, R200, R202: VECTOR_BEAT opens the next commit group of the oldest instruction with one left, as a lane group's share, and the last
share runs it; a bad entry of the queue faults it. BEAT_COMMIT commits the oldest beat: its flags join `fpctl`, its result goes to SQ, and its stores
become visible from then on; a store that a slice or a link holds up keeps the beat from committing, and faults its element once the stall bound has
passed. While stores of a committed group are left, BEAT_COMMIT performs them and nothing else: with a number that store alone, once none before it
overlaps it, and without one all of them as far as they go. That such a store is a step of its own is the model's reading (assumption 23), and so is that
it traps at the next unit boundary where it stalls past its bound (assumption 65). VECTOR_TRAP rolls every open beat back and takes the oldest one's
fault, with `epc` at the unit boundary and the instruction and its group saved; a younger instruction's fault waits. -/
def Obligations.BeatSteps : Prop :=
  ∀ (s : State) (id : StrandId) (e : VqEntry) (rest : List VqEntry),
    let t := s.strand id
    t.run = .running → t.hs = false → t.vq = e :: rest →
    (∀ g : Fin 8, t.stopped = false → (s.core id.core).laneOwn[g.val] = some id.slot → t.beats = [] → isMatrix e.instr = false → isRsload e.instr = false →
      e.nextGrp < s.groups id e → s.heldByCopy id e = false → s.heldByMatrix id e = false →
      let b := newBeat e 0
      let done : BitVec 8 := 1 <<< g.val
      let upd (f : Beat → Beat) (u : State) : State := u.modStrand id fun t =>
        { t with beats := t.beats.map fun x => if x.seq = b.seq ∧ x.grp = b.grp then f x else x }
      let s1 := s.modStrand id fun t => { t with
        beats := t.beats ++ [b], vq := t.vq.map fun x => if x.seq = e.seq then { x with nextGrp := x.nextGrp + 1 } else x }
      (done &&& s.laneMask id ≠ s.laneMask id → exec (.vectorBeat id ⟨g, none⟩) s = .next (upd (fun x => { x with done := done }) s1)) ∧
      (done &&& s.laneMask id = s.laneMask id →
        (∀ s0 i, s1.queueCheck id .vq e.seq = (s0, some i) → exec (.vectorBeat id ⟨g, none⟩) s =
          .next (upd (fun x => { x with done := done }) (upd (fun x => { x with ran := true, fault := some i }) s0))) ∧
        (∀ s0, s1.queueCheck id .vq e.seq = (s0, none) →
          (∀ s2 pre st fl out, runGroup (s0.work id e e.nextGrp) s0 = .done s2 pre st fl out → exec (.vectorBeat id ⟨g, none⟩) s =
            .next (upd (fun x => { x with done := done })
              (upd (fun x => { x with ran := true, pre := pre, stores := st, flags := fl, out := out }) s2))) ∧
          (∀ s2 i tr, runGroup (s0.work id e e.nextGrp) s0 = .fault s2 i tr → exec (.vectorBeat id ⟨g, none⟩) s =
            .next (upd (fun x => { x with done := done })
              (upd (fun x => { x with ran := true, fault := some i, fromTr := tr && s2.preber.duty.getLsbD 1 }) s2))) ∧
          (∀ s2, runGroup (s0.work id e e.nextGrp) s0 = .wait s2 → exec (.vectorBeat id ⟨g, none⟩) s = .next s2)))) ∧
    (∀ b bs, t.beats = b :: bs → b.ran = true → b.fault = none → b.seq = e.seq → s.releaseOk id e = true → t.drain = [] →
      let stuck (x : HeldStore) : Bool := s.storeStuck (dieOf id.core) x.tgt
      (∀ k, (∀ x ∈ b.stores, stuck x = false) →
        let s2 := s.modStrand id fun t =>
          let t := { (t.raise (b.flags.setWidth 5)).raiseRsh (b.flags.getLsbD 5) with beats := bs, drain := b.stores }
          match b.out with
          | some v => t.deliver e.seq v
          | none => t
        let s3 := s2.commitErrs id b.pre
        exec (.beatCommit ⟨id, k⟩) s = .next ((if b.grp + 1 ≥ s3.groups id e then s3.retireHead id e else s3).drainBy id k)) ∧
      (∀ k x, b.stores.find? stuck = some x →
        (t.stalled = false → exec (.beatCommit ⟨id, k⟩) s = .next s) ∧
        (t.stalled = true → exec (.beatCommit ⟨id, k⟩) s = .next (s.modStrand id fun t => { t with
          beats := t.beats.map fun y => if y.seq = b.seq ∧ y.grp = b.grp then { y with fault := some (elemFault 0x0D x.e x.va .vwrite) } else y,
          stalled := false }))) ∧
      (b.stores = [] → b.out = none → vqOrd e.instr = none → s.groups id e ≤ b.grp + 1 → ∃ u, exec (.beatCommit ⟨id, none⟩) s = .next u ∧
        (u.strand id).vq = t.vq.filter (·.seq != e.seq) ∧ (u.strand id).beats = bs ∧
        (u.strand id).fpctl = t.fpctl ||| ((b.flags.setWidth 5).setWidth 64 <<< 4) ||| (if b.flags.getLsbD 5 then 0x4000 else 0) ∧
        (u.strand id).v = t.v ∧ (u.strand id).k = t.k ∧ (∀ r, (u.strand id).rS r = t.rS r) ∧ u.arrays = s.arrays ∧
        ∀ j, j ≠ id → u.strand j = s.strand j)) ∧
    (t.drain ≠ [] →
      (∀ k, exec (.beatCommit ⟨id, k⟩) s = .next (s.drainBy id k)) ∧
      (∀ k x, t.drain[k]? = some x → (∀ y ∈ t.drain.take k, overlaps y.tgt.place (y.bits / 8) x.tgt.place (x.bits / 8) = false) →
        (∀ s1, s.storeAt id x.tgt (x.bits / 8) x.val = .ok s1 () →
          exec (.beatCommit ⟨id, some k⟩) s = .next (s1.modStrand id fun u => { u with drain := u.drain.eraseIdx k })) ∧
        (∀ s1, s.storeAt id x.tgt (x.bits / 8) x.val = .wait s1 → exec (.beatCommit ⟨id, some k⟩) s = .next s1) ∧
        (∀ s1 c, s.storeAt id x.tgt (x.bits / 8) x.val = .bad s1 c →
          exec (.beatCommit ⟨id, some k⟩) s = .next (s1.modStrand id fun u => { u with pend := u.pend ++ [⟨trapInfo c x.va, .scalar, false⟩] })))) ∧
    (∀ b bs i, t.beats = b :: bs → b.fault = some i → t.midUnit = false → t.holdEnded = false →
      (b.seq ≠ e.seq → exec (.vectorTrap id) s = .next s) ∧
      (b.seq = e.seq → b.fromTr = false → exec (.vectorTrap id) s =
        .next (((s.rollback id).unchain id).takeTrap id .vector i t.pc e.pc b.grp)) ∧
      (b.seq = e.seq → b.fromTr = true → exec (.vectorTrap id) s =
        .next (((s.rollback id).unchain id).parkPage id .vector i t.pc e.pc b.grp)))

/-- R154, R163 to R166, R175: what a commit group of the integer group, of KLOG and of VFADD, VFSUB and VFMUL writes: the result of the table in
every active element of the group below `vl`, and no other: not those at `vl` and above, not those of another vector register, and no bit of another
mask; nothing of the strand but the destination's file changes. A floating group
gives the OR of its active elements' flags, and where one is enabled it faults at the lowest such element with nothing written. -/
def Obligations.VectorElements : Prop :=
  ∀ (s : State) (id : StrandId) (e : VqEntry) (g : Nat) (h : Hdr) (k dk a b : KReg) (v : Bool) (c : Cond) (op : LogOp) (f : FFmt) (r : Rnd)
      (d x : VReg) (y : VSrc),
    let t := s.strand id
    let ew := vtEW e.cap.vtype
    let per := 8 * s.rb id / ew
    let cg := 2048 * s.lanes id / ew
    s.errs = [] → e.snap = [] → 8 ≤ ew → 0 < per → 0 < cg → e.cap.vl ≤ 64 * per →
    let grp (n : Nat) : Prop := g * cg ≤ n ∧ n < (g + 1) * cg
    let act (n : Nat) : Prop := grp n ∧ t.rKbit k n = true
    let el (u : Strand) (q : VReg) (n : Nat) : Nat := u.elem (s.rb id) ew q n
    let yn (n : Nat) : Nat := match y with
      | .vec q => el t q n
      | .scl _ => e.cap.y.toNat % 2 ^ ew
    let X (n : Nat) : BitVec ew := BitVec.ofNat ew (el t x n)
    let Y (n : Nat) : BitVec ew := BitVec.ofNat ew (yn n)
    let num (q : BitVec ew) : Int := if v then (q.toNat : Int) else q.toInt
    let clamp (i : Int) : Int := max (-(2 ^ (ew - 1))) (min (2 ^ (ew - 1) - 1) i)
    let runs (i : Instr) : BeatOut := runGroup (s.work id { e with instr := i } g) s
    let rest (t' : Strand) (who : Nat → Prop) : Prop :=
      t' = { t with v := t'.v, vvalid := t'.vvalid } ∧ (∀ n, n < 64 * per → ¬ (n < e.cap.vl ∧ who n) → el t' d n = el t d n) ∧
        ∀ q : VReg, (∀ n, n < e.cap.vl → who n → q ≠ d + BitVec.ofNat 6 (n / per)) → t'.rV q = t.rV q
    let vec (i : Instr) (who : Nat → Prop) (p : Nat → Nat → Prop) : Prop :=
      ∃ t' pre, runs i = .done (s.setStrand id t') pre [] 0 none ∧ rest t' who ∧ ∀ n, n < e.cap.vl → who n → p n (el t' d n)
    let bin (i : Instr) (p : BitVec ew → BitVec ew → BitVec ew → Prop) : Prop := vec i act fun n q => p (X n) (Y n) (BitVec.ofNat ew q)
    let mask (i : Instr) (who : Nat → Prop) (p : Nat → Prop) : Prop :=
      ∃ t' pre, runs i = .done (s.setStrand id t') pre [] 0 none ∧ t' = { t with k := t'.k } ∧ (dk = 0 → t' = t) ∧
        (dk ≠ 0 → ∀ n, (n < e.cap.vl → who n → (t'.rKbit dk n = true ↔ p n)) ∧
          (¬ (n < e.cap.vl ∧ who n) → t'.rKbit dk n = t.rKbit dk n)) ∧ ∀ q n, q ≠ dk → t'.rKbit q n = t.rKbit q n
    bin (.vadd h k v d x y) (fun X Y R => if v then R.toInt = clamp (X.toInt + Y.toInt) else R = X + Y) ∧
    bin (.vsub h k v d x y) (fun X Y R => if v then R.toInt = clamp (X.toInt - Y.toInt) else R = X - Y) ∧
    bin (.vmul h k v d x y) (fun X Y R => if v then R.toInt = clamp (X.toInt * Y.toInt) else R = X * Y) ∧
    bin (.vmulh h k v d x y) (fun X Y R => R = BitVec.ofInt ew (num X * num Y / 2 ^ ew)) ∧
    bin (.vand h k d x y) (fun X Y R => R = X &&& Y) ∧ bin (.vor h k d x y) (fun X Y R => R = X ||| Y) ∧
    bin (.vxor h k d x y) (fun X Y R => R = X ^^^ Y) ∧
    bin (.vshl h k d x y) (fun X Y R => R = X <<< (Y.toNat % ew)) ∧
    bin (.vshr h k v d x y) (fun X Y R => R = if v then X.sshiftRight (Y.toNat % ew) else X >>> (Y.toNat % ew)) ∧
    bin (.vmin h k v d x y) (fun X Y R => num R = min (num X) (num Y)) ∧
    bin (.vmax h k v d x y) (fun X Y R => num R = max (num X) (num Y)) ∧
    vec (.vsel h k d x y) grp (fun n q => q = if t.rKbit k n then el t x n else yn n) ∧
    vec (.vclz h k d x) act (fun n q => q ≤ ew ∧ (∀ i, i < ew → ew ≤ i + q → (X n).getLsbD i = false) ∧
      (q < ew → (X n).getLsbD (ew - 1 - q) = true)) ∧
    vec (.vffs h k d x) act (fun n q => q ≤ ew ∧ (∀ i, i < q → (X n).getLsbD i = false) ∧ (q < ew → (X n).getLsbD q = true)) ∧
    vec (.vpopc h k d x) act (fun n q => q = ((List.range ew).filter fun i => (X n).getLsbD i).length) ∧
    mask (.vcmp h k c dk x y) act (fun n => match c with
      | .eq => X n = Y n
      | .ne => X n ≠ Y n
      | .lt => (X n).toInt < (Y n).toInt
      | .ge => (Y n).toInt ≤ (X n).toInt
      | .ltu => (X n).toNat < (Y n).toNat
      | .geu => (Y n).toNat ≤ (X n).toNat
      | .tst => X n &&& Y n ≠ 0) ∧
    mask (.klog h op dk a b) grp (fun n =>
      let A := t.rKbit a n = true
      let B := t.rKbit b n = true
      match op with
      | .and => A ∧ B
      | .or => A ∨ B
      | .xor => ¬ (A ↔ B)
      | .andn => A ∧ ¬ B
      | .nand => ¬ (A ∧ B)
      | .nor => ¬ (A ∨ B)
      | .xnor => A ↔ B
      | .orn => A ∨ ¬ B) ∧
    (ew = (ffmt f).width →
      let ctx : RndCtx := ⟨Mode.select r e.cap.rm, vtSAT e.cap.vtype, vtFO e.cap.vtype⟩
      let val (q : Nat) : FVal := (ffmt f).flushIn (vtFI e.cap.vtype) ((ffmt f).decode q)
      let fp (i : Instr) (res : Nat → Nat × FpFlags) : Prop :=
        let on (n : Nat) : Prop := n < e.cap.vl ∧ act n
        ((∀ n, on n → (res n).2 &&& e.cap.en = 0) → ∃ t' pre fl, runs i = .done (s.setStrand id t') pre [] fl none ∧
          rest t' act ∧ (∀ n, on n → el t' d n = (res n).1 % 2 ^ ew) ∧
          ∀ j, j < 6 → (fl.getLsbD j = true ↔ ∃ n, on n ∧ (res n).2.getLsbD j = true)) ∧
        (∀ n, on n → (res n).2 &&& e.cap.en ≠ 0 → (∀ m, m < n → on m → (res m).2 &&& e.cap.en = 0) →
          runs i = .fault s (trapInfo 0x09 ((res n).2.setWidth 64 <<< 4)) false)
      fp (.vfadd h k f r d x y) (fun n => fAdd (ffmt f) ctx (val (el t x n)) (val (yn n))) ∧
      fp (.vfsub h k f r d x y) (fun n => fSub (ffmt f) ctx (val (el t x n)) (val (yn n))) ∧
      fp (.vfmul h k f r d x y) (fun n => fMul (ffmt f) ctx (val (el t x n)) (val (yn n))))

/-- R60, R70, R181, R215, R223 to R225, R231: XQ_POST posts the matrix instruction at the VQ head, or the one chained to the VLD there once a group of that has
committed; a bad entry of the queue faults instead. MATRIX_COMPLETE finishes the oldest entry that is not held, row by row for an MSTT, and with a number
reads that doubleword of an MLDT alone (the model's choice, assumption 73); an entry that traps leaves XQ with its trap kept for the strand. MZERO clears a tile, MRD reads cells into the
destination's elements, and MWR writes them, with their sticky bits cleared and every other cell kept. RSLOAD_COMMIT installs the ring it read, at every
`vl` (the model's choice, assumption 70), and the ring holds no check error then (the model's reading, assumption 25). -/
def Obligations.MatrixSteps : Prop :=
  ∀ (s : State) (id : StrandId),
    let t := s.strand id
    let c := id.core
    let post (e : VqEntry) (u : State) : State := u.modCore c fun y => { y with xq := y.xq ++ [⟨id.slot, e, [], []⟩] }
    let room (e : VqEntry) (u : State) : Prop :=
      u.heldByCopy id e = false ∧ (u.core c).xq.length < 128 ∧ (isTileMem e.instr = true → (u.strand id).drain = [])
    (∀ e rest, t.vq = e :: rest → t.run = .running → t.hs = false → isMatrix e.instr = true →
      (e.nextGrp = 0 → (∀ b ∈ t.beats, b.seq ≠ e.seq) →
        (∀ s0 i, s.queueCheck id .vq e.seq = (s0, some i) → exec (.xqPost id) s = .next (s0.modStrand id fun t => { t with
          beats := { newBeat e (BitVec.allOnes 8) with ran := true, fault := some i } :: t.beats })) ∧
        (∀ s0, s.queueCheck id .vq e.seq = (s0, none) →
          (room e s0 → exec (.xqPost id) s = .next (post e (s0.modStrand id fun t => { t with vq := rest }))) ∧
          (¬ room e s0 → exec (.xqPost id) s = .next s0))) ∧
      (e.nextGrp ≠ 0 → exec (.xqPost id) s = .next (s.modStrand id fun t => { t with vq := rest }))) ∧
    (∀ e m more h hint k d b y, t.vq = e :: m :: more → t.run = .running → t.hs = false → e.instr = .vld h hint k d b y → m.nextGrp = 0 →
      ((∃ h' form x v, m.instr = .mopa h' form x d v) ∨ ∃ h' f x v n, m.instr = .mopag h' f x d v n) →
      t.committed e ≠ 0 → room m s → ∀ s0, s.queueCheck id .vq m.seq = (s0, none) → exec (.xqPost id) s =
        .next (post m (s0.modStrand id fun t => { t with vq := e :: { m with nextGrp := 1 } :: more }))) ∧
    (∀ x, (s.core c).xq.find? (fun x => !(s.core c).held? x.slot) = some x →
      let who : StrandId := ⟨c, x.slot⟩
      let out (u : State) : State := u.modCore c fun y => { y with xq := removeFirst (· == x) y.xq }
      let traps (u : State) (i : TrapInfo) (host : Bool) : State := (out u).modStrand who fun t =>
        { t with mdropped := some { x.entry with nextGrp := 0 }, mfault := some (x.entry.pc, i, host) }
      let put (u : State) (n : Nat) (rows : List (List (Target × Word))) : State := u.modCore c fun y => { y with
        xq := replaceFirst (· == x) (fun z => { z with entry := { z.entry with nextGrp := z.entry.nextGrp + n }, rows := rows }) y.xq }
      (∀ one, s.chainReady x who = false → exec (.matrixComplete ⟨c, one⟩) s = .next s) ∧
      (s.chainReady x who = true →
        (∀ one s0 i, s.queueCheck who .xq x.entry.seq = (s0, some i) → exec (.matrixComplete ⟨c, one⟩) s = .next (traps s0 i false)) ∧
        (∀ s0, s.queueCheck who .xq x.entry.seq = (s0, none) →
          (∀ s1, serveXq s0 who x = .done s1 → exec (.matrixComplete ⟨c, none⟩) s = .next (out s1)) ∧
          (∀ s1 rows, serveXq s0 who x = .more s1 rows → exec (.matrixComplete ⟨c, none⟩) s = .next (put s1 1 rows)) ∧
          (∀ s1 rows, serveXq s0 who x = .held s1 rows → exec (.matrixComplete ⟨c, none⟩) s = .next (put s1 0 rows)) ∧
          (∀ s1, serveXq s0 who x = .wait s1 → exec (.matrixComplete ⟨c, none⟩) s = .next s1) ∧
          (∀ s1 i tr, serveXq s0 who x = .trap s1 i tr →
            exec (.matrixComplete ⟨c, none⟩) s = .next (traps s1 i (tr && s1.preber.duty.getLsbD 1))) ∧
          (∀ k, ∃ u, exec (.matrixComplete ⟨c, some k⟩) s = .next u ∧ (u.core c).tiles = (s.core c).tiles ∧
            (u.core c).xq.map (·.entry) = (s.core c).xq.map (·.entry))))) ∧
    (s.errs = [] → ∀ (e : VqEntry) (h : Hdr) (col : Bool) (d : VReg) (n : TileNo) (r : SReg),
      let served (i : Instr) : XqOut := serveXq s id ⟨id.slot, { e with instr := i }, [], []⟩
      let l0 := e.cap.x.toNat
      let at_ (m : Nat) : Nat × Nat := if col then (m % 128, l0 + m / 128) else (l0 + m / 128, m % 128)
      let rb := s.rb id
      served (.mzero h (.one n)) = .done (s.setTile id n.toNat ⟨0, 0, 0⟩) ∧
      (e.cap.vl ≤ 8 * rb / 64 → ∃ t', served (.mrd h col d n r) = .done (s.setStrand id t') ∧
        t' = { t with v := t'.v, vvalid := t'.vvalid } ∧
        (∀ m, m < e.cap.vl → t'.elem rb 64 d m = (s.tile id n.toNat).cell (at_ m).1 (at_ m).2) ∧
        (∀ m, e.cap.vl ≤ m → m < 8 * rb / 64 → t'.elem rb 64 d m = t.elem rb 64 d m) ∧ ∀ q, q ≠ d → t'.rV q = t.rV q) ∧
      (l0 + (e.cap.vl + 127) / 128 ≤ 128 → ∃ y, served (.mwr h col n d r) = .done (s.setTile id n.toNat y) ∧
        (∀ m, m < e.cap.vl → y.cell (at_ m).1 (at_ m).2 = t.elem rb 64 d m ∧ y.marks (at_ m).1 (at_ m).2 = (false, false)) ∧
        ∀ i j, j < 128 → (∀ m, m < e.cap.vl → at_ m ≠ (i, j)) →
          y.cell i j = (s.tile id n.toNat).cell i j ∧ y.marks i j = (s.tile id n.toNat).marks i j)) ∧
    (∀ e rest h hint q r s1 ring, t.vq = e :: rest → t.beats = [] → e.instr = .rsload h hint q r → t.run = .running → t.hs = false → t.stopped = false →
      (s.core c).slotBusy q = false → ∀ s0, s.queueCheck id .vq e.seq = (s0, none) → beatRsload (s0.work id e 0) s0 h hint = .inr (s1, ring) →
      exec (.rsloadCommit id) s = .next (((s1.modCore c fun y => { y with rings := y.rings.set q.toNat (some ring) q.isLt }).clearErr (.ring c q.toFin)).retireHead id e))

/-! ## Copies and synchronisation -/

/-- R244, R245, R253, R254: CPSET writes a shadow register; a CPGO that passes its checks starts a transfer, which raises its counter and gives its
destination the transfer's id, once a place, the vector side and a gang's armings let it; CPGANG waits for the vector side and arms, and traps with
sub-cause 2 where its counter is full then; `cpgang.off` disarms once no delivery of its gang is under way, a residual transfer being none (the model's
choice, assumption 84). That CPGANG's other checks come before its wait is the model's choice (assumption 75). -/
def Obligations.CopyStarts : Prop :=
  ∀ (h : Hdr) (hint : Hint) (d b : SReg) (n : BitVec 3) (y : Src) (g : BitVec 4) (s : State), Runs h s →
    let s0 := s.begun h
    let q := s.me.copyDesc
    let goes (u : State) (ms : List (Nat × Arming)) : Prop :=
      (q.dv = true ∨ q.ge = true → u.me.ill = false) ∧ u.copyCheck u.cur q = none ∧ u.myCore.xfers.length < 32 ∧
      (q.dv = true → q.ge = false → u.vectorIdle u.cur = true) ∧ (q.ge = false → ms = []) ∧
      (q.ge = true → u.gangArmings u.cur.core q.g (windowsOf q.cores) = some ms ∧
        (ms.all fun m => u.armingFits (u.myCore.lid.getD 0) m.1 m.2 q.dst (q.rows * q.rb)) = true)
    let v := s.me.rS b
    let cc : CtrNo := v.extractLsb' 12 4
    let k : KReg := v.extractLsb' 8 4
    exec (.cpset h n y) s = .next (s.ends h (·.modMe fun t => { t with
      shadow := if n = 7 then t.shadow else t.shadow.set! n.toNat (srcVal h s.me y) })) ∧
    (∀ ms, goes s0 ms → exec (.cpgo h hint d) s = .next ((s0.startCopy h hint d q ms).fallen h)) ∧
    (q.dv = false → q.ge = false → goes s0 [] → ∃ t j, exec (.cpgo h hint d) s = .next t ∧
      t.myCore.xfers = s.myCore.xfers ++ [⟨s.myCore.nextXfer, s.cur.slot, q.cc, .copy j⟩] ∧ j.csrc = q.src ∧ j.cdst = q.dst ∧ j.rows = q.rows ∧
      j.rb = q.rb ∧ j.dest = .mem ∧ j.read = [] ∧ j.landed = [] ∧ t.me.rC q.cc = s.me.rC q.cc + 1 ∧
      (d ≠ 0 → t.me.rS d = s.myCore.nextXfer.setWidth 64) ∧ (∀ r, r ≠ d → t.me.rS r = s.me.rS r) ∧ t.arrays = s.arrays) ∧
    (q.ge = true → (q.dv = true ∨ q.ge = true → s0.me.ill = false) → s0.copyCheck s.cur q = none →
      s0.gangArmings s.cur.core q.g (windowsOf q.cores) = none →
      exec (.cpgo h hint d) s = .next (s0.modMe fun t => { t with wait := some ⟨.gang, .cpgo h hint d⟩ })) ∧
    (s.me.ill = false → v &&& ~~~(0xFF3F : Word) = 0 → s.myCore.armings.any (·.g == g) = false →
      (s0.vectorIdle s.cur = false → exec (.cpgang h g b) s = .next s0) ∧
      (s0.vectorIdle s.cur = true → s.me.rC cc = 0xFFFF →
        exec (.cpgang h g b) s = .next (s0.scalarTrap s.cur (trapInfo 0x0F (BitVec.ofNat 64 (2 * 2 ^ 56 + cc.toNat * 2 ^ 52))))) ∧
      (s0.vectorIdle s.cur = true → s.me.rC cc ≠ 0xFFFF →
        exec (.cpgang h g b) s = .next (s.ends h fun u => ((u.clearMask s.cur k).modMe (·.incC cc)).modCore s.cur.core
          fun c => { c with armings := c.armings ++ [⟨g, s.cur.slot, v.extractLsb' 0 6, k, cc, vtL s.me.vtype, vtEW s.me.vtype⟩] }))) ∧
    (s0.delivering s.cur g = false → exec (.cpgangOff h g) s =
      .next (match s.myCore.armings.find? fun a => a.g == g && a.slot == s.cur.slot with
        | none => s.ends h id
        | some a => s.ends h fun u => (u.modMe (·.decC a.ctr)).modCore s.cur.core fun c =>
            { c with armings := c.armings.filter (· != a) })) ∧
    (∀ u : State, s = { u with cur := s.cur } → s.me.run = .running → s.me.pausedBy = [] → s.me.wait = some ⟨.gang, .cpgo h hint d⟩ → q.ge = true →
      ∀ ms, goes s0 ms → exec (.gangConsume s.cur) u = .next { (s0.startCopy h hint d q ms).fallen h with cur := u.cur })

/-- R246 to R249, R252, R254, R292: TRANSFER_CHUNK reads a chunk of a copy and keeps its bytes; in a later step it writes them to memory, to its
strand's registers or to one member of its gang, and notes it. To registers it lands once no lower chunk can fault (the model's reading, assumption
41): those of the strand once each lower one was read or is read now for the case that it cannot be later, when it lands with those bytes; those of a
gang once each was read. TRANSFER_COMPLETE ends a transfer whose
chunks have all landed, its counter falling by 1; COPY_FAULT takes the oldest held fault of a copy at a unit boundary, with cause 0x0F. -/
def Obligations.CopySteps : Prop :=
  ∀ (s : State) (c : CoreId) (x : BitVec 32),
    (∀ f j n, (s.core c).xfers.find? (·.id == x) = some f → f.kind = .copy j →
      let id : StrandId := ⟨c, f.slot⟩
      let lo := (j.range n).1
      n < j.chunks → s.copyStopped id x = false → s.copyOrdered id j = true →
      let be (u : State) (k : CopyJob) : State := u.modXfer c f fun z => { z with kind := .copy k }
      ((∀ p ∈ j.read, p.1 ≠ n) → n ∉ j.landed → j.localOverlap = false → j.snap = none →
        ∀ s1 v, s.readSegs id j lo (j.srcSegs n) = .ok s1 v →
        ((∀ ms, j.dest ≠ .gang ms) → exec (.transferChunk c x n) s = .next (be s1 { j with read := j.read ++ [(n, v)] })) ∧
        (∀ ms, j.dest = .gang ms →
          exec (.transferChunk c x n) s = .next (be s1 { j with read := j.read ++ [(n, v)], landed := n :: j.landed }))) ∧
      ((∀ p ∈ j.read, p.1 ≠ n) → n ∉ j.landed → j.localOverlap = false → j.snap = none →
        ∀ s1 cause a tr m v, s.readSegs id j lo (j.srcSegs n) = .bad s1 cause a tr → j.spare.find? (·.1 == n) = some (m, v) →
        exec (.transferChunk c x n) s = .next (be s1 { j with read := j.read ++ [(m, v)] })) ∧
      (∀ m v, j.read.find? (·.1 == n) = some (m, v) →
        let noted (k : CopyJob) : CopyJob :=
          { k with landed := n :: j.landed, read := j.read.filter (·.1 != n), spare := k.spare.filter (·.1 != n) }
        (∀ s1 s2 v1 v2, j.dest = .mem → s.checkSegs id j .cwrite (j.dstSegs n) = .ok s1 v1 →
          s1.writeSegs id f j lo v (j.dstSegs n) = .ok s2 v2 → exec (.transferChunk c x n) s = .next (be s2 (noted j))) ∧
        (∀ vr k l w, j.dest = .regs vr k l w →
          let off := j.cdst.toNat + lo
          let cnt := (j.range n).2 - lo
          (s.readSpare id j (j.unread n) = none → exec (.transferChunk c x n) s = .next s) ∧
          (∀ s1 sp, s.readSpare id j (j.unread n) = some (s1, sp) →
            exec (.transferChunk c x n) s = .next (be (s1.landAt id vr k l w off cnt v) (noted { j with spare := j.spare ++ sp }))) ∧
          (s.errs = [] → s.landAt id vr k l w off cnt v = s.modStrand id fun t => t.land (s.rb id) vr k l w off cnt v)) ∧
        (∀ lid pre q post c', j.dest = .gang (pre ++ q :: post) → j.unread n = [] → (∀ y ∈ pre ++ post, y.fin = true ∨ n ∈ y.landed) →
          q.fin = false → n ∉ q.landed → (s.core c).lid = some lid → s.coreAt lid q.core = some c' →
          exec (.transferChunk c x n) s =
            .next (be (s.landMember c' j n v q).1 { j with dest := .gang (pre ++ (s.landMember c' j n v q).2 :: post) })))) ∧
    (∀ f j, (s.core c).xfers.find? (·.id == x) = some f → f.kind = .copy j → (∀ n, n < j.chunks → j.doneChunk n = true) →
      exec (.transferComplete c x) s = .next (s.dropXfer ⟨c, f.slot⟩ x) ∧
      ((∀ ms, j.dest ≠ .gang ms) → ∃ t, exec (.transferComplete c x) s = .next t ∧
        (t.strand ⟨c, f.slot⟩).rC f.ctr = (s.strand ⟨c, f.slot⟩).rC f.ctr - 1 ∧
        (t.core c).xfers = (s.core c).xfers.filter (fun z => !(z.id == x && z.slot == f.slot)) ∧ t.arrays = s.arrays ∧
        ∀ q, q ≠ ⟨c, f.slot⟩ → t.strand q = s.strand q)) ∧
    (∀ (id : StrandId) p rest, (s.strand id).pend = p :: rest → (s.strand id).run = .running → (s.strand id).midUnit = false → p.origin = .copy →
      let s1 := s.modStrand id fun t => { t with pend := rest }
      exec (.copyFault id) s = .next (s1.takePend id p) ∧
      ((p.info.isTranslation = false ∨ p.host = false) → (s.strand id).hs = false → (s.strand id).tvec ≠ 0 →
        ∃ t, exec (.copyFault id) s = .next t ∧ (t.strand id).ecause = 0x0F ∧ (t.strand id).eval = p.info.val ∧
          (t.strand id).epc = (s.strand id).pc ∧ (t.strand id).pc = (s.strand id).tvec ∧ (t.strand id).pend = rest))

/-- R148, R149, R251, R256, R257: a bell is initialised when no arrivals are outstanding; an arrival takes one off its count, the last of a phase
flipping it, and returns the phase it met; a wait ends when the phase differs from the given one, and an acquiring one then advances its scope's
generation; a remote arrival is made at the bell of the windowed core and its reply completes the unit. WAITLT ends once its counter is below
the bound. Each release step goes on with a wait that has ended. -/
def Obligations.BellsAndCounters : Prop :=
  ∀ (h : Hdr) (d : SReg) (n : BitVec 8) (e : RegOrImm 16) (ph : RegOrImm 1) (w : RegOrImm 3) (c : CtrNo) (m : RegOrImm 17) (s : State), Runs h s →
    s.errs = [] →
    let s0 := s.begun h
    let o := ordOf h
    let bell := s.myCore.bell n
    let acq (u : State) : State := if acquires o.order then u.acquired s.cur o.scope else u
    let arrives (u : State) : State := u.modCore s.cur.core (·.setBell n bell.arrive)
    let waits (i : Instr) (k : WaitKind) : Prop := exec i s = .next (s0.modMe fun u => { u with wait := some ⟨k, i⟩ })
    let e' : BitVec 16 := (roiVal s.me e).extractLsb' 0 16
    let p := (roiVal s.me ph).getLsbD 0
    let bound := min (roiVal s.me m).toNat 65536
    let win := ((roiVal s.me w).extractLsb' 0 3).toNat
    (e' ≠ 0 → (bell.v = false ∨ bell.c = bell.e) →
      exec (.bellInit h n e) s = .next (s.ends h fun u => u.modCore s.cur.core (·.setBell n ⟨true, false, e', e'⟩))) ∧
    ((e' = 0 ∨ (bell.v = true ∧ bell.c ≠ bell.e)) →
      exec (.bellInit h n e) s = .next (s0.scalarTrap s.cur (trapInfo 0x0A (BitVec.ofNat 64 n.toNat)))) ∧
    (bell.v = true → s0.releaseReady o = true → exec (.bellArrive h d n) s =
      .next (s.ends h fun u => (arrives u).wS s.cur d (if bell.p then 1 else 0))) ∧
    (s.me.wait = none → bell.v = true → (bell.p ≠ p → exec (.bellWait h n ph) s = .next ((acq s0).fallen h)) ∧
      (bell.p = p → waits (.bellWait h n ph) (.bell n p))) ∧
    (∀ q i, s.me.wait = some ⟨.bell n q, i⟩ → bell.p ≠ q → exec (.bellSync h n) s = .next ((acq s0).fallen h)) ∧
    (s.me.wait = none → bell.v = true → s0.releaseReady o = true →
      (bell.arrive.p ≠ bell.p → exec (.bellSync h n) s = .next ((acq (arrives s0)).fallen h)) ∧
      (bell.arrive.p = bell.p → exec (.bellSync h n) s =
        .next ((arrives s0).modMe fun u => { u with wait := some ⟨.bell n bell.p, .bellSync h n⟩ }))) ∧
    (s.me.wait = none → s0.windowPlaced s.cur.core win = true → s0.releaseReady o = true →
      waits (.bellRemote h d n w) (.remote (s.myCore.window win) n)) ∧
    (∀ (u : State) core k, s = { u with cur := s.cur } → s.me.run = .running → s.me.pausedBy = [] → s.me.wait = some ⟨.remote core k, .bellRemote h d n w⟩ →
      ∀ lid x, s.myCore.lid = some lid → s.coreAt lid core = some x → ((s.core x).bell n).v = true →
        exec (.remoteArrival s.cur) u = .next { (((s.modCore x (·.setBell n ((s.core x).bell n).arrive)).wS s.cur d
          (if ((s.core x).bell n).p then 1 else 0)).fallen h) with cur := u.cur }) ∧
    (∀ (u : State) q, s = { u with cur := s.cur } → s.me.run = .running → s.me.pausedBy = [] → bell.v = true → bell.p ≠ q →
      (s.me.wait = some ⟨.bell n q, .bellWait h n ph⟩ ∨ s.me.wait = some ⟨.bell n q, .bellSync h n⟩) →
      exec (.bellWaitRelease s.cur) u = .next { (acq s0).fallen h with cur := u.cur }) ∧
    (s.me.wait = none → bound ≠ 0 → ((s.me.rC c).toNat < bound → exec (.waitlt h c m) s = .next ((acq (s0.seenDone s.cur c)).fallen h)) ∧
      (bound ≤ (s.me.rC c).toNat → waits (.waitlt h c m) (.counter bound))) ∧
    (s.me.wait = none → bound = 0 →
      exec (.waitlt h c m) s = .next (s0.scalarTrap s.cur (trapInfo 0x01 (unitWord (.waitlt h c m))))) ∧
    (∀ (u : State) q, s = { u with cur := s.cur } → s.me.run = .running → s.me.pausedBy = [] → s.me.wait = some ⟨.counter q, .waitlt h c m⟩ →
      (s.me.rC c).toNat < q → exec (.waitltRelease s.cur) u = .next { (acq (s0.seenDone s.cur c)).fallen h with cur := u.cur })

/-- R301 to R304 (and assumption 44): FENCE waits for what every fence waits for and for its release half, and its acquire half advances the
generation; FENCEO changes nothing. FENCER takes its targets at issue, which are other strands of its launch; it waits for its release half with none
of them paused; then each turn releases the targets that are done, their cores' generations advancing, and pauses one more, the others staying as
they are; with none left it ends with its acquire half. A paused strand issues nothing. -/
def Obligations.Fences : Prop :=
  (∀ (h : Hdr) (fo : FenceOrd) (sc : Scope) (s : State), Runs h s →
    let s0 := s.begun h
    let rel : Bool := fo = .rel ∨ fo = .ar
    let acq : Bool := fo = .acq ∨ fo = .ar
    (s0.fenceReady rel sc = false → exec (.fence h fo sc) s = .next s0) ∧
    (s0.fenceReady rel sc = true → exec (.fence h fo sc) s = .next ((if acq then s0.acquired s.cur sc else s0).fallen h)) ∧
    exec (.fenceo h) s = .next (s.ends h id)) ∧
  (∀ (h : Hdr) (sc : Scope) (ft : FencerTgt) (s : State) (lid : BitVec 32), Runs h s → s.myCore.lid = some lid →
    (∀ c d, (s.core c).lid = some lid → (s.core d).lid = some lid → (s.core c).index = (s.core d).index → c = d) →
    let s0 := s.begun h
    let i := Instr.fencer h sc ft
    let ts := s0.fencerTargets s.cur sc ft
    let paused (u : State) (x : StrandId) : Prop := s.cur ∈ (u.strand x).pausedBy
    let same (u : State) : Prop := u.arrays = s.arrays ∧ (∀ r, u.me.rS r = s.me.rS r) ∧ u.cur = s.cur
    let holds (u : State) (go : Bool) (todo : List (Nat × SlotId)) : Prop := u.me.wait = some ⟨.fencer go todo, i⟩ ∧ u.me.pc = s.me.pc ∧ same u
    (∀ x ∈ ts, x ≠ s.cur ∧ (s.core x.core).lid = some lid) ∧
    (s.me.wait = none →
      let todo := ts.map fun x => ((s.core x.core).index, x.slot)
      (s0.fenceReady true sc = false → ∃ t, exec i s = .next t ∧ holds t false todo ∧ ∀ x, (s.core x.core).lid = some lid → ¬ paused t x) ∧
      (s0.fenceReady true sc = true → ts = [] → ∃ t, exec i s = .next t ∧ same t ∧ t.me.wait = none ∧
        t.me.pc = (s.me.advance (hdrWords h)).pc ∧ (t.core s.cur.core).gens = ((s.core s.cur.core).advanceGen sc).gens) ∧
      (s0.fenceReady true sc = true → ts ≠ [] → ∃ t x, exec i s = .next t ∧ holds t true todo ∧ x ∈ ts ∧ paused t x ∧
        ∀ y, y ≠ x → (s.core y.core).lid = some lid → ¬ paused t y)) ∧
    (∀ go todo j, s.me.wait = some ⟨.fencer go todo, j⟩ →
      let done (x : Nat × SlotId) : Bool := s0.fencerDone s.cur lid sc x
      let at_ (x : Nat × SlotId) (p : StrandId → Prop) : Prop := ∀ c, s.coreAt lid x.1 = some c → p ⟨c, x.2⟩
      (s0.fenceReady true sc = false → exec i s = .next (s0.modMe fun u => { u with wait := some ⟨.fencer false todo, i⟩ })) ∧
      (s0.fenceReady true sc = true → (∀ x ∈ todo, done x = true) →
        exec i s = .next (let u := todo.foldl (fun u x => u.fencerRelease s.cur lid sc x) s0; (u.acquired s.cur sc).fallen h)) ∧
      (s0.fenceReady true sc = true → ¬ (∀ x ∈ todo, done x = true) → ∃ t, exec i s = .next t ∧ holds t true (todo.filter fun x => !done x) ∧
        (∀ x ∈ todo, done x = true → at_ x fun y => ¬ paused t y) ∧
        (∀ x ∈ todo, done x = false → at_ x fun y => paused s y → paused t y) ∧
        ((∃ x ∈ todo, done x = false ∧ s0.holdsPaused s.cur lid x = false) →
          ∃ x ∈ todo, done x = false ∧ s0.holdsPaused s.cur lid x = false ∧ t.holdsPaused s.cur lid x = true)))) ∧
  (∀ (s : State) (id : StrandId) (rest : List Turn), s.agenda = .strand id :: rest → (s.die (dieOf id.core)).stopped = false →
    (s.strand id).run = .running → (s.strand id).midUnit = false → (s.strand id).pend = [] → (s.strand id).mfault = none → s.errs = [] →
    (∀ go todo j, (s.strand id).wait ≠ some ⟨.fencer go todo, j⟩) → s.pausedNow id = true → step s = .next { s with agenda := rest, cur := id })

/-- R240, R281 to R288, R372 to R374: SETTLE, the IPOPs and COLL whose ranges pass their checks start work on their counter, which rises by 1, and an
acquiring IPOP holds its strand; RENEW removes every copy of the lines of its range one by one, their dirty bytes written; SCOUNT returns a region's
count and expired status, `.clr` clearing it; a relaxed one may issue with its value still to come (assumption 67). -/
def Obligations.InPlaceStarts : Prop :=
  (∀ (h : Hdr) (b c d x y ar : SReg) (det : Option SReg) (n : CtrNo) (f : IpFmt) (op : CollOp) (clr : Bool) (s sa s1 sb s2 : State)
      (ma m mb m2 : PageMap), Runs h s → s.me.wait = none →
    let s0 := s.begun h
    let o := ordOf h
    let acq (u : State) : State := if acquires o.order then u.acquired s.cur o.scope else u
    let ready (u : State) : Prop := u.cur = s.cur ∧ u.me.rC n ≠ 0xFFFF ∧ u.myCore.xfers.length < 32 ∧ u.releaseReady o = true
    let starts (u : State) (i : Instr) (kind : XferKind → Prop) (waits : Bool) : Prop := ∃ t k, exec i s = .next t ∧ kind k ∧
      t.myCore.xfers = u.myCore.xfers ++ [⟨u.myCore.workKey, s.cur.slot, n, k⟩] ∧ t.myCore.nextXfer = u.myCore.nextXfer ∧
      t.me.rC n = u.me.rC n + 1 ∧ t.arrays = u.arrays ∧
      (∀ r, t.me.rS r = u.me.rS r) ∧ t.me.wait = (if waits then some ⟨.ipop u.myCore.workKey, i⟩ else none) ∧
      t.me.pc = (if waits then u.me.pc else (u.me.advance (hdrWords h)).pc)
    let len := (s.me.rS c).toNat
    let wb := ipBytes f
    let cnt := (s.me.rS c).toNat
    let X := s.me.rS x
    let Y := s.me.rS y
    let job (kind : IpopKind) (xm : PageMap) (res : Option Target) (count : Nat) (k : XferKind) : Prop := ∃ j, k = .ipop j ∧ j.kind = kind ∧
      j.fmt = f ∧ j.x = xm ∧ j.res = res ∧ j.n = cnt ∧ j.todo = List.range count ∧ j.vals = [] ∧ j.flags = 0
    (len ≤ 2 ^ 30 → s0.checkRange s.cur (s.me.rS b) len .sread ownMem = .ok s1 m → ready s1 → starts s1 (.settle h b c n)
      (fun k => k = .settle (m.lines len) m.regions s1.me.sbAge) false) ∧
    (len ≤ 2 ^ 30 → s0.checkRange s.cur (s.me.rS b) len .sread ownMem = .ok s1 m → s1.cur = s.cur →
      (m.lines len = [] → exec (.renew h b c) s = .next ((acq s1).fallen h)) ∧
      (∀ line va rest, m.lines len = (line, va) :: rest →
        let u := (s1.renewLine line).l1Drop s.cur.core line
        let stays (u : State) (todo : List (Nat × Word)) : Prop :=
          exec (.renew h b c) s = .next (u.modMe fun t => { t with wait := some ⟨.renew todo, .renew h b c⟩ })
        (s1.lineVisible s.cur s1.me.sbAge line = true → s1.lineReady line = true → u.cur = s.cur →
          (rest = [] → exec (.renew h b c) s = .next ((acq u).fallen h)) ∧ (rest ≠ [] → stays u rest)) ∧
        ((s1.lineVisible s.cur s1.me.sbAge line && s1.lineReady line) = false → s1.stallOver s.cur line = false →
          stays s1 ((line, va) :: rest)))) ∧
    (s0.checkRange s.cur (s.me.rS b) 1 .sread ownMem = .ok s1 m → s1.cur = s.cur →
      let q := s1.region (regionOf (m.pa 0))
      let u := if clr then s1.putRegion { q with exp := false } else s1
      exec (.scount h clr d b) s = .next (((acq u).wS s.cur d ((0 : BitVec 31) ++ BitVec.ofBool q.exp ++ q.count)).fallen h)) ∧
    (cnt ≤ 2 ^ 30 → X.toNat % wb = 0 →
      (s0.checkRange s.cur X (cnt * wb) .sread engMem = .ok sa ma → sa.checkRange s.cur X (cnt * wb) .swrite engMem = .ok s1 m → ready s1 →
        starts s1 (.ipopScale h f x c ar n) (job .scale m none (m.sectors wb cnt)) (acquires o.order) ∧
        starts s1 (.ipopFill h f x c ar n) (job .fill m none (m.sectors wb cnt)) (acquires o.order)) ∧
      (Y.toNat % wb = 0 → s0.checkRange s.cur X (cnt * wb) .sread engMem = .ok s1 m →
        (∀ p, s1.cur = s.cur → inLocal Y = true → s1.localPlace s.cur.core Y = some p → ready s1 →
          starts s1 (.ipopSum h f x y c n) (job .sum m (some ⟨p, localAttr .default⟩) (m.sectors wb cnt)) (acquires o.order)) ∧
        (s1.cur = s.cur → inLocal Y = false → s1.checkRange s.cur Y wb .swrite engMem = .ok s2 m2 → ready s2 →
          starts s2 (.ipopSum h f x y c n) (job .sum m (some ⟨.phys (m2.pa 0), m2.attr 0⟩) (m.sectors wb cnt)) (acquires o.order)) ∧
        (s1.checkRange s.cur Y (cnt * wb) .sread engMem = .ok sb mb → sb.checkRange s.cur Y (cnt * wb) .swrite engMem = .ok s2 m2 → ready s2 →
          (X = Y ∨ Y.toNat + cnt * wb ≤ X.toNat ∨ X.toNat + cnt * wb ≤ Y.toNat) →
          starts s2 (.ipopAxpy h f x y c ar n) (job .axpy m none (m.sectors wb cnt + if X = Y then 0 else m2.sectors wb cnt))
            (acquires o.order)))) ∧
    (let key := det.map fun r => let v := s.me.rS r; ((v.extractLsb' 0 16).toNat, (v.extractLsb' 16 16).toNat + 1, v.extractLsb' 32 32)
     cnt ≤ 2 ^ 30 → (∀ r cap tag, key = some (r, cap, tag) → r < cap ∧ cap * (cnt * wb) ≤ 32 * 2 ^ 20) → X.toNat % wb = 0 → Y.toNat % wb = 0 →
      s0.checkRange s.cur X (cnt * wb) .sread engMem = .ok s1 m →
      s1.checkRange s.cur Y (cnt * wb) .swrite collDest = .ok s2 m2 →
      (Y.toNat + cnt * wb ≤ X.toNat ∨ X.toNat + cnt * wb ≤ Y.toNat) → ready s2 →
      starts s2 (.coll h op f x y c det n) (fun k => ∃ j, k = .coll j ∧ j.op = op ∧ j.fmt = f ∧ j.x = m ∧ j.y = m2 ∧ j.n = cnt ∧ j.det = key ∧
        j.xs = none ∧ j.mark = s2.me.sbAge ∧ j.todo = List.range (m.sectors wb cnt) ∧ j.got = [] ∧ j.fills = false ∧ j.sent = false) false)) ∧
  (∀ (h : Hdr) (b c : SReg) (s : State) (line : Nat) (va : Word) (rest : List (Nat × Word)) (j : Instr), Runs h s →
    s.me.wait = some ⟨.renew ((line, va) :: rest), j⟩ →
    let s0 := s.begun h
    let u := (s0.renewLine line).l1Drop s.cur.core line
    s0.lineVisible s.cur s0.me.sbAge line = true → s0.lineReady line = true → u.cur = s.cur →
    (rest = [] → exec (.renew h b c) s = .next ((if acquires (ordOf h).order then u.acquired s.cur (ordOf h).scope else u).fallen h)) ∧
    (rest ≠ [] → exec (.renew h b c) s = .next (u.modMe fun t => { t with wait := some ⟨.renew rest, .renew h b c⟩ }))) ∧
  (∀ (s : State) (id : StrandId), (s.strand id).run = .running →
    (∀ (h : Hdr) (d b : SReg) (s1 s3 : State) (m : PageMap), s.heldStrand id = false → (s.strand id).late = [] → (s.strand id).wait = none →
      acquires (ordOf h).order = false → s.fetchUnit id (s.strand id).pc = .unit s1 (.good (.scount h false d b)) →
      (s.core id.core).claimQ.contains id.slot = false → s.pausedNow id = false →
      let s2 : State := { s1.pruneAhead id (.scount h false d b) with cur := id }
      Runs h s2 → (s2.begun h).checkRange id (s2.me.rS b) 1 .sread ownMem = .ok s3 m → s3.cur = id →
      exec (.readAhead id ⟨(s.strand id).pc, 0, 0, 0, 0, false⟩) s = .next { (s3.modMe fun t =>
        { t with late := t.late ++ [⟨t.pc, d, regionOf (m.pa 0)⟩] }).fallen h with cur := s1.cur }) ∧
    (∀ pc nth part base cnt brings d r, (s.strand id).late = [⟨pc, d, r⟩] → ∃ t, exec (.readAhead id ⟨pc, nth, part, base, cnt, brings⟩) s = .next t ∧ (t.strand id).late = [] ∧
      (d ≠ 0 → (t.strand id).rS d = (0 : BitVec 31) ++ BitVec.ofBool (s.region r).exp ++ (s.region r).count) ∧
      (∀ q, q ≠ d → (t.strand id).rS q = (s.strand id).rS q) ∧ t.arrays = s.arrays ∧ ∀ j, j ≠ id → t.strand j = s.strand j))

/-- R281, R284, R287, R288, R374 to R376: SETTLE_LINE_STEP writes one line's dirty bytes, counts a region whose lines are all done, and ends the SETTLE
with its last line; IPOP_SECTOR does one sector and takes it off the list; what a sector reads and writes is its elements and no other byte;
IPOP_COMPLETE stores a sum's root, folds the flags and lets the counter fall; COLL_LANDING reads the source sector by sector, and then, once the way to
Y's die has been open, a fast contribution arrives and is applied sector by sector, after those that arrived before it and once its core's stores to the
bytes are performed, and a deterministic one is held, the one that fills its group applying it. That the
flags of the sectors that are done are folded where a word is bad (assumption 78), with its address in `eval` (assumption 38), that the acquire wait ends
with such an IPOP too (assumption 39), and that the contribution which fills its group applies it (assumption 40) are the model's readings. -/
def Obligations.InPlaceSteps : Prop :=
  (∀ (s : State) (c : CoreId) (x : BitVec 32) (f : Xfer), (s.core c).xfers.find? (·.id == x) = some f →
    let id : StrandId := ⟨c, f.slot⟩
    s.copyStopped id x = false →
    (∀ lines regions mark y, f.kind = .settle lines regions mark → y ∈ lines → s.lineVisible id mark y.1 = true → s.lineReady y.1 = true →
      let left := lines.filter (·.1 != y.1)
      let r := y.1 / 32
      let last : Bool := regions.contains r && left.all fun z => z.1 / 32 != r
      ∃ t, exec (.settleLineStep c x y.1) s = .next t ∧ t.arrays = (s.settleLine y.1).arrays ∧
        (t.region r).count = (s.region r).count + (if last then 1 else 0) ∧
        (left = [] → (t.strand id).rC f.ctr = (s.strand id).rC f.ctr - 1 ∧
          (t.core c).xfers = (s.core c).xfers.filter fun z => !(z.id == x && z.slot == f.slot)) ∧
        (left ≠ [] → (t.strand id).rC f.ctr = (s.strand id).rC f.ctr ∧ ∃ g, (t.core c).xfers.find? (·.id == x) = some g ∧
          g.kind = .settle left (if last then regions.filter (· != r) else regions) mark)) ∧
    (∀ j k, f.kind = .ipop j → k ∈ j.todo → s.ipopPaused id x = false →
      let wb := ipBytes j.fmt
      let nx := j.x.sectors wb j.n
      let ex := j.x.sectorElems wb j.n k
      let ey := j.y.sectorElems wb j.n (k - nx)
      let r := if k < nx then (match j.early.find? (·.1 == k) with
          | some p => SectorRes.ok s (j.earlySector p.2 ex.1 ex.2)
          | none => s.xSector j (j.x.va == j.y.va) ex.1 ex.2) else s.ySector j ey.1 ey.2
      (∀ s1 j1, r = .ok s1 j1 → exec (.ipopSector c x k) s =
        .next (s1.modXfer c f fun z => { z with kind := .ipop { j1 with todo := j1.todo.filter (· != k) } })) ∧
      (∀ s1 a, r = .bad s1 a → exec (.ipopSector c x k) s =
        .next (((s1.modStrand id (·.raise j.flags)).holdFault id x 0x0C a).endIpopWait id x)) ∧
      (r = .early → exec (.ipopSector c x k) s = .next s)) ∧
    (∀ j, f.kind = .ipop j → j.todo = [] → s.ipopPaused id x = false →
      let ends (u : State) (fl : FpFlags) : State := ((u.modStrand id (·.raise fl)).dropXfer id x).endIpopWait id x
      (j.res = none → exec (.ipopComplete c x) s = .next (ends s j.flags)) ∧
      (∀ t s1, j.res = some t → s.storeAt id t (ipBytes j.fmt) j.root.1 = .ok s1 () →
        exec (.ipopComplete c x) s = .next (ends (s1.overtake id (some x) f.ctr t.place (ipBytes j.fmt)) (j.flags ||| j.root.2)))) ∧
    (∀ j, f.kind = .coll j →
      let upd (u : State) (j : CollJob) : State := u.modXfer c f fun z => { z with kind := .coll j }
      let all := j.n * ipBytes j.fmt
      (j.xs = none → (∀ l ∈ j.x.lines all, s.lineStored id j.mark l.1 = true) →
        (∀ k s1 vs, j.todo = [k] → s.collRead id j k = .ok s1 vs →
          exec (.collLanding c x) s = .next (upd s1 { j with got := j.got ++ vs, todo := [] })) ∧
        (j.todo = [] → ∀ vs, j.got = vs.mapIdx (fun i v => (i, v)) → vs.length = j.n → exec (.collLanding c x) s =
          .next (upd s { j with xs := some vs, todo := List.range (j.y.sectors (ipBytes j.fmt) j.n) }))) ∧
      (∀ xs, j.xs = some xs →
        let mine (rank : Nat) : Contribution := ⟨rank, xs, some ((s.core c).lid.getD 0, (s.core c).index, f.slot, f.ctr)⟩
        (∀ l, j.sent = false → (j.y.lines all).find? (fun l => !s.reached l.1) = some l → s.stallOver id l.1 .home = false →
          exec (.collLanding c x) s = .next s) ∧
        (∀ l, j.sent = false → (j.y.lines all).find? (fun l => !s.reached l.1) = some l → s.stallOver id l.1 .home = true →
          exec (.collLanding c x) s = .next ((s.stallEnd id l.1).holdFault id x 0x0D j.y.va)) ∧
        let goes (k : Nat) : Prop := s.landReady j.y (ipBytes j.fmt) j.n k [mine 0] (some j.arr) = true
        ((j.sent = true ∨ ∀ l ∈ j.y.lines all, s.reached l.1 = true) →
          (j.det = none → j.sent = false → exec (.collLanding c x) s = .next (upd s { j with sent := true, arr := s.nextArrival })) ∧
          (∀ k, j.det = none → j.sent = true → j.todo = [k] →
            (goes k → exec (.collLanding c x) s = .next ((s.collSector j.op j.fmt j.y j.n k [mine 0]).dropXfer id x)) ∧
            (¬ goes k → exec (.collLanding c x) s = .next s)) ∧
          (∀ k q rest, j.det = none → j.sent = true → j.todo = k :: q :: rest → (∀ k ∈ j.todo, goes k) → ∃ e ∈ j.todo, ∃ s1, s1 = { s with fresh := s.fresh + 1 } ∧
            exec (.collLanding c x) s =
              (let t := s1.collSector j.op j.fmt j.y j.n e [mine 0]
               let left := j.todo.filter (· != e)
               .next (if left = [] then t.dropXfer id x else upd t { j with todo := left }))) ∧
          (∀ rank r tag, j.det = some (rank, r, tag) → j.fills = false →
            let k : DetKey := ⟨j.y, j.n, j.fmt, j.op, r, tag⟩
            ∀ s1 ok, s.arriveDet k (mine rank) = (s1, ok) →
              (ok = false → exec (.collLanding c x) s = .next (upd s1 { j with sent := true })) ∧
              (ok = true → ∀ g, s1.detGroup k = some g →
                (g.members.length < r → g.r = r → exec (.collLanding c x) s = .next (s1.modCore c fun y =>
                  { y with xfers := y.xfers.filter fun z => !(z.id == x && z.slot == f.slot) })) ∧
                (r ≤ g.members.length → g.r = r → exec (.collLanding c x) s = .next (upd s1 { j with sent := true, fills := true })))) ∧
          (∀ rank r tag k, j.det = some (rank, r, tag) → j.fills = true → j.todo = [k] →
            let q : DetKey := ⟨j.y, j.n, j.fmt, j.op, r, tag⟩
            ∀ g, s.detGroup q = some g → s.landReady j.y (ipBytes j.fmt) j.n k g.ranked none = true → exec (.collLanding c x) s =
              .next (((s.collSector j.op j.fmt j.y j.n k g.ranked).endGroup q (·.rank == rank)).dropXfer id x)))))) ∧
  (∀ (s : State) (j : IpopJob) (i0 i1 : Nat), s.memWf → s.errs = [] → s.regions = [] → i0 < i1 →
    let wb := ipBytes j.fmt
    let el (u : State) (m : PageMap) (i : Nat) : Nat := Memory.read u.arrays (m.pa (i * wb)) wb
    let rm := Mode.ofRM j.rm
    let apart (m : PageMap) : Prop := (∀ i, i0 ≤ i → i < i1 → m.pa (i * wb) = m.pa (i0 * wb) + (i - i0) * wb) ∧ (m.attr (i0 * wb)).sl = false
    let writes (r : SectorRes) (m : PageMap) (v : Nat → Nat × FpFlags) : Prop := ∃ t j1, r = .ok t j1 ∧ j1 = { j with flags := j1.flags } ∧
      (∀ b, b < 5 → (j1.flags.getLsbD b = true ↔ j.flags.getLsbD b = true ∨ ∃ i, i0 ≤ i ∧ i < i1 ∧ (v i).2.getLsbD b = true)) ∧
      (∀ i, i0 ≤ i → i < i1 → el t m i = (v i).1 % 2 ^ (8 * wb)) ∧
      ∀ a, ¬ (m.pa (i0 * wb) ≤ a ∧ a < m.pa (i0 * wb) + (i1 - i0) * wb) → Memory.get t.arrays a = Memory.get s.arrays a
    (j.kind = .fill → apart j.x → writes (s.xSector j false i0 i1) j.x fun _ => (j.a, 0)) ∧
    (j.kind = .scale → apart j.x → writes (s.xSector j false i0 i1) j.x fun i => ipMul j.fmt rm j.a (el s j.x i)) ∧
    (j.kind = .axpy → apart j.x → writes (s.xSector j true i0 i1) j.x fun i => ipFma j.fmt rm j.a (el s j.x i) (el s j.x i)) ∧
    (∀ xv : Nat → Nat, j.kind = .axpy → apart j.y → (∀ i, i0 ≤ i → i < i1 → j.vals.find? (·.1 == i) = some (i, xv i)) →
      writes (s.ySector j i0 i1) j.y fun i => ipFma j.fmt rm j.a (xv i) (el s j.y i)) ∧
    ((j.kind = .sum ∨ j.kind = .axpy) → apart j.x → ∃ t j1, s.xSector j false i0 i1 = .ok t j1 ∧ t.arrays = s.arrays ∧
      (∀ i, i0 ≤ i → i < i1 → j1.vals.find? (·.1 == i) = some (i, el s j.x i))))

/-! ## The Roll, the host and the peers -/

/-- R314 to R325. RS and RX serve the oldest request for a free line by the rows of R316: with no entry the requester takes the line from its home in
E, or with a dirty home copy by RX in M, and the out bit is set; with an entry RS makes M and O into O, E and S into S, and gives a clean copy of the
owner's data, and RX sends every other holder an invalidation and moves the owner's data and dirty bytes. A line of another package that this package
does not hold is asked for at its home first, and is taken as the home gives it. WB writes an owner's dirty bytes home and
frees the entry, or leaves them in the line store while others share the line; DR gives a clean copy up. AT does its operation, writes the new line
home and marks the record done, a step each; the copy in the issuing core's L1 follows the write (the model's reading, assumption 88). APPLY_STEP removes an invalidated copy. RECALL sets RC, sends every holder an invalidation and writes
dirty data home, or only sets RC while an atomic is in progress, the slice waits or a holder's package is not reached; RETIRE goes on with a recall that
had to wait, and frees a recalled entry, clears the out bit and counts it. What the entry's fields show while its recall runs is the model's choice
(assumption 91). -/
def Obligations.RollSteps : Prop :=
  ∀ (s : State) (line : Nat),
    let byte (x j : Nat) : Nat := x / 256 ^ j % 256
    let merged (t : State) (data dirty : Nat) : Prop := ∀ j, j < 128 →
      byte (t.homeData line) j = if dirty.testBit j then byte data j else byte (s.homeData line) j
    let fresh (h : Holder) (e : RollEntry) (st : RollSt) : Prop := e.line = line ∧ e.st = st ∧ e.rc = false ∧ e.atom = false ∧ e.own = ownerOf h ∧
      e.ls = false ∧ e.holders = [h]
    let freed (t : State) : Prop := t.entry line = none ∧ ((s.homeDie line).isSome = true → t.isOut line = false)
    let room : Prop := s.entry line = none → (s.rollWays line).length < 16
    let roomy : Prop := ((s.hallEntries line).filter fun x => x.ls && x.line != line).length < storeSize
    let like (x : Option RollEntry) (y : RollEntry) : Prop := ∃ z, x = some z ∧ { z with use := y.use } = y
    (∀ (d : DieId) r, s.lineFree line (if r.kind = .rx then .all else .data) = true → s.firstReq line = some r → r.holder = .die d → s.errs = [] → room →
      s.findLine d line = none → s.hasPending (.die d) line = false →
      let away : Bool := s.homeDie line != some d
      let ways := if away then List.range 16 else openWays (s.die d).l2wq r.attr.cls r.attr.hint
      (∃ w, pickWay (s.die d).lines away line ways = some (w, none)) →
      let copy (t : State) (data dirty : Nat) (st : CopySt) : Prop := ∃ c, t.findLine d line = some c ∧ c.data = data ∧ c.dirty = dirty ∧ c.st = st
      let owned (e : RollEntry) (data dirty : Nat) : Prop := (∃ q c, q ≠ d ∧ e.own = .die q ∧ s.findLine q line = some c ∧ c.data = data ∧ c.dirty = dirty) ∨
        (e.own = .store ∧ e.lsData = data ∧ e.lsDirty = dirty)
      let excl : Bool := r.kind == .rx
      ((r.kind = .rs ∨ r.kind = .rx) → s.homeNeed line excl = true →
        (s.homeAns line excl .proxy = none →
          exec (if excl then .rx (.die d) line else .rs (.die d) line) s = .next (s.askHome line excl .proxy)) ∧
        (∀ own more pend x, s.entry line = none → s.homeAns line excl .proxy = some (own, more, pend, x) →
          let dirty : Bool := own && more
          ∃ t e, exec (if excl then .rx (.die d) line else .rs (.die d) line) s = .next t ∧ t.entry line = some e ∧ e.mine = own ∧ e.px = true ∧
            fresh (.die d) e (if ¬ own then .s else if dirty then .m else .e) ∧
            copy t x (if dirty then 2 ^ 128 - 1 else 0) (if ¬ own then .s else if dirty then .m else .e) ∧
            (∀ p, paKind (128 * line) = .device p → pend = true → t.hasPending (.peer (BitVec.ofNat 6 p)) line = true) ∧ t.arrays = s.arrays)) ∧
      (r.kind = .rs → s.homeNeed line false = false →
        (s.entry line = none → ∃ t e, exec (.rs (.die d) line) s = .next t ∧ t.entry line = some e ∧ fresh (.die d) e .e ∧
          copy t (s.homeData line) 0 .e ∧ ((s.homeDie line).isSome = true → t.isOut line = true) ∧ t.arrays = s.arrays ∧ t.cores = s.cores) ∧
        (∀ e x m, s.entry line = some e → e.has (.die d) = false → owned e x m → ∃ t, exec (.rs (.die d) line) s = .next t ∧
          let st : RollSt := if e.st = .m ∨ e.st = .o then .o else .s
          like (t.entry line) ({ e with st := st, known := none }.add (.die d)) ∧ copy t x 0 (if st = .o ∧ e.own = .store then .sd else .s) ∧
          (∀ q c, e.own = .die q → s.findLine q line = some c → t.findLine q line = some { c with st := if st = .o then .o else .s }) ∧
          t.arrays = s.arrays ∧ t.cores = s.cores)) ∧
      (r.kind = .rx → s.homeNeed line true = false →
        (s.entry line = none → s.homeDie line ≠ some d → ∃ t e, exec (.rx (.die d) line) s = .next t ∧ t.entry line = some e ∧
          (∀ q, s.homeDie line = some q → t.findLine q line = none ∧ t.isOut line = true ∧
            (∀ c, s.findLine q line = some c → fresh (.die d) e (if c.dirty = 0 then .e else .m) ∧
              copy t c.data c.dirty (if c.dirty = 0 then .e else .m)) ∧
            (s.findLine q line = none → fresh (.die d) e .e ∧ copy t (s.arrayLine line) 0 .e)) ∧
          (s.homeDie line = none → fresh (.die d) e .e ∧ copy t (s.arrayLine line) 0 .e) ∧ t.arrays = s.arrays ∧ t.cores = s.cores) ∧
        (∀ e x m, s.entry line = some e → e.mine = true → owned e x m → ∃ t e', exec (.rx (.die d) line) s = .next t ∧ t.entry line = some e' ∧
          let dirty : Bool := e.st = .m || e.st = .o
          fresh (.die d) e' (if dirty then .m else .e) ∧ copy t x (if dirty then m else 0) (if dirty then .m else .e) ∧
          (∀ h ∈ e.holders, h ≠ .die d → t.hasPending h line = true) ∧ t.arrays = s.arrays ∧ t.cores = s.cores))) ∧
    (∀ h : Holder, (h = .host ∧ s.cxlUp line = true ∨ ∃ p, h = .peer p ∧ p ∉ s.lostPeers) → (s.homeDie line).isSome = true → s.errs = [] →
      s.hasPending h line = false → s.entry line = none → (s.rollWays line).length < 16 → (s.region (regionOf (128 * line))).life ≠ .dead →
      (s.canServe line .data = true → ∃ t e, exec (.rs h line) s = .next t ∧ t.entry line = some e ∧ fresh h e .e ∧ t.isOut line = true ∧ t.homeData line = s.homeData line) ∧
      (s.canServe line .all = true → ∃ t e st, exec (.rx h line) s = .next t ∧ t.entry line = some e ∧ fresh h e st ∧ t.isOut line = true ∧
        ∀ q, s.homeDie line = some q → t.findLine q line = none)) ∧
    (∀ (d : DieId) c, s.canServe line .home = true → s.findLine d line = some c → c.st ≠ .home →
      let dirty : Bool := c.st == .m || c.st == .o || c.dirty != 0
      (∀ s1, (if s.homeDie line = some d then s.evictHome d c else s.evictRdc d c) = some s1 →
        (dirty = true → exec (.wb (.die d) line) s = .next s1) ∧ (dirty = false → exec (.dr (.die d) line) s = .next s1)) ∧
      (∀ e, s.entry line = some e → s.homeDie line ≠ some d → s.hasPending (.die d) line = false → s.errs = [] → s.memWf → s.tailList line = none → roomy →
        let r := e.del (.die d)
        let alone : Prop := r.holders = [] ∧ e.ls = false
        (dirty = true → e.own = .die d → (e.st = .m ∨ e.st = .o ∧ alone) → ∃ t, exec (.wb (.die d) line) s = .next t ∧ freed t ∧
          t.findLine d line = none ∧ merged t c.data c.dirty) ∧
        (dirty = true → e.own = .die d → e.st = .o → r.holders ≠ [] → ∃ t, exec (.wb (.die d) line) s = .next t ∧
          like (t.entry line) { r with own := .store, ls := true, lsData := c.data, lsDirty := c.dirty } ∧ t.findLine d line = none ∧
          (∀ q x, .die q ∈ r.holders → s.findLine q line = some x → t.findLine q line = some { x with st := .sd }) ∧
          t.homeData line = s.homeData line) ∧
        (dirty = false → e.own = .die d → (e.st = .e ∨ e.st = .s) → alone → ∃ t, exec (.dr (.die d) line) s = .next t ∧ freed t ∧
          t.findLine d line = none ∧ t.homeData line = s.homeData line) ∧
        (dirty = false → e.own ≠ .die d → r.holders ≠ [] → ∃ t, exec (.dr (.die d) line) s = .next t ∧ like (t.entry line) r ∧
          t.findLine d line = none ∧ t.homeData line = s.homeData line))) ∧
    (∀ (id : StrandId) r, (s.slices[0].queue ++ s.slices[1].queue).find? (fun r => r.kind == .at && r.strand == some id) = some r →
      s.firstReq r.line = some r → r.line = line → s.sliceUp (sliceOf line) = true →
      ((s.strand id).journal = none → s.lineFree line = true →
        (s.homeNeed line true = true → room → s.homeAns line true .proxy = none → exec (Instr.at id) s = .next (s.askHome line true .proxy)) ∧
        ((s.homeNeed line true = true → room ∧ (s.homeAns line true .proxy).isSome = true) →
          (∀ s1, s.atOp id r = .wait s1 → exec (Instr.at id) s = .next s1) ∧
          ∀ s1 a, s.atOp id r = .ok s1 a → (s1.core id.core).egressOverlaps ⟨.phys a.pa, r.attr⟩ a.n = false →
            exec (Instr.at id) s = .next (s1.atomicIntent id a.pa a.n r.attr r.vec a.err a.desc a.f))) ∧
      (∀ j, (s.strand id).journal = some j →
        (j.done = true → exec (Instr.at id) s = .next (s.dequeue r)) ∧
        (j.done = false → j.wrote = false → exec (Instr.at id) s = .next (s.atomicWrite id j)) ∧
        (j.done = false → j.wrote = true → exec (Instr.at id) s = .next ((s.atomicDone id j).dequeue r)))) ∧
    (∀ (id : StrandId) pa n attr vec desc (f : Nat → Option Nat), lineOf pa = line → pa % 128 + n ≤ 128 → s.errs = [] → s.entry line = none → s.homeNeed line true = false →
      s.homeData line < 2 ^ 1024 → (s.region (regionOf pa)).life = .none → attr.sl = false →
      let old := s.homeData line / 256 ^ (pa % 128) % 256 ^ n
      ((s.atomicIntent id pa n attr vec true desc f).busy line = s.busy line ∧
        ∃ j, s.atomicIntent id pa n attr vec true desc f = s.modStrand id (fun t => { t with journal := some j }) ∧ j.bad = true ∧ j.done = true ∧
          j.mask = 0) ∧
      ∃ j, (s.atomicIntent id pa n attr vec false desc f).strand id = { s.strand id with journal := some j } ∧
        (s.atomicIntent id pa n attr vec false desc f).busy line = true ∧ (s.atomicIntent id pa n attr vec false desc f).arrays = s.arrays ∧
        j.line = line ∧ j.oldLine = s.homeData line ∧ j.oldVal = old ∧ j.wrote = false ∧ j.done = false ∧ j.bad = false ∧
        (f old = none → j.newLine = j.oldLine ∧ j.mask = 0) ∧ j.op = j.mask ∧
        (∀ v, f old = some v → (∀ i, i < 128 → j.mask.testBit i = (decide (pa % 128 ≤ i) && decide (i < pa % 128 + n))) ∧
          ∀ i, i < 128 → byte j.newLine i = if pa % 128 ≤ i ∧ i < pa % 128 + n then byte v (i - pa % 128) else byte j.oldLine i)) ∧
    (∀ (id : StrandId) j, j.line = line → s.memWf → s.errs = [] → roomy → (j.mask ≠ 0 → merged (s.atomicWrite id j) j.newLine j.mask) ∧
      (j.mask = 0 → s.atomicWrite id j = s.modStrand id fun t => { t with journal := some { j with wrote := true } }) ∧
      (∀ e, s.entry line = some e → j.mask ≠ 0 → like ((s.atomicWrite id j).entry line) { e with lsData := j.newLine, lsDirty := 0 }) ∧
      ((s.atomicWrite id j).strand id).journal = some { j with wrote := true } ∧
      (j.mask ≠ 0 → ∀ x, x ∈ ((s.atomicWrite id j).core id.core).l1 → x.line = line → ∃ y ∈ (s.core id.core).l1, y.line = line ∧ y.gen = x.gen ∧
        ∀ i, i < 128 → byte x.data i = if j.op.testBit i then byte j.newLine i else byte y.data i) ∧
      ((s.atomicDone id j).strand id).journal = some { j with wrote := true, done := true } ∧ (s.atomicDone id j).busy line = false ∧
      (∀ e, s.entry line = some e → like ((s.atomicDone id j).entry line) { e with atom := false }) ∧ (s.atomicDone id j).arrays = s.arrays) ∧
    (∀ h : Holder, exec (.applyStep h line) s = .next (s.applyPending h line) ∧
      ((s.applyPending h line).hasPending h line = false) ∧
      (∀ d, h = .die d → s.hasPending h line = true → s.homeDie line ≠ some d → (s.applyPending h line).findLine d line = none)) ∧
    (∀ e, s.entry line = some e →
      (e.recalled = true → exec (Instr.recall line) s = .next s) ∧
      (e.recalled = false → (e.atom = true ∨ s.sliceUp (sliceOf line) = false ∨ s.linked line = false) → ∃ t, exec (Instr.recall line) s = .next t ∧
        t.entry line = some { e with rc := true } ∧ t.pending = s.pending ∧ t.arrays = s.arrays ∧ t.dies = s.dies) ∧
      (e.recalled = false → e.atom = false → s.sliceUp (sliceOf line) = true → s.linked line = true → s.errs = [] → s.memWf → roomy →
        ∀ q c, e.own = .die q → s.findLine q line = some c → s.homeDie line ≠ some q →
        ∃ t e', exec (Instr.recall line) s = .next t ∧ t.entry line = some e' ∧ e'.rc = true ∧ e'.st = .s ∧ e'.own = .store ∧ e'.lsData = c.data ∧
        e'.lsDirty = 0 ∧ e'.holders = [] ∧ (∀ h ∈ e.holders, (∀ p, s.homeDie line = some p → h ≠ .die p) → t.hasPending h line = true) ∧
        ((∀ p, s.homeDie line = some p → Holder.die p ∉ e.holders) →
          ((e.st = .m ∨ e.st = .o) → merged t c.data c.dirty) ∧ ((e.st = .e ∨ e.st = .s) → t.homeData line = s.homeData line)))) ∧
    (∀ e, s.entry line = some e → e.rc = true → e.atom = false → s.busy line = false → s.sliceUp (sliceOf line) = true →
      (e.recalled = false → s.linked line = true → exec (.retire line) s = .next (s.recallEntry e)) ∧
      (e.recalled = true → (∀ p ∈ s.pending, p.line ≠ line) → s.tailList line = none → ∃ t, exec (.retire line) s = .next t ∧ freed t ∧
        (t.hall (t.portOf line)).recalls = (s.hall (s.portOf line)).recalls + 1 ∧
        (e.lsDirty = 0 → t.homeData line = s.homeData line) ∧
        (e.lsDirty ≠ 0 → s.errs = [] → s.memWf → merged t e.lsData e.lsDirty)))

/-- R326, R362 to R371, R377: HOST_SNOOP takes a host line out of the package and may write bytes of it; CXL_MEM_REQUEST reads or writes a line at its
serialisation point while the link is up; a completion lets its unit go on, or traps it with its cause; a posted write that fails is counted and
recorded; ports come up and go down; a packet for this package is accepted once, by its source package, source Hall die and number, in the order of its
line, and acted on; another is forwarded, with at most six hops, and one that is dropped makes its request or its access find the home unreachable; a lost package leaves every line homed here. The causes of failed completions that a
load brings to its unit (assumption 24), a failure that finds no posted write (45), the record's layout (46), the region that a CXL.mem request meets
(48), the sharers that are invalidated when a lost package owned the line dirty (49), and the mark on a request whose packet a hop count drops (76) are
the model's readings. -/
def Obligations.HostAndPeerSteps : Prop :=
  ∀ (s : State),
    (∀ line, paKind (128 * line) = .host → s.busy line = false →
      (s.entry line = none → s.memWf → s.errs = [] → exec (.hostSnoop ⟨line, none⟩) s = .next s ∧ ∀ w : LineWrite, ∃ t,
        exec (.hostSnoop ⟨line, some w⟩) s = .next t ∧ t.dies = s.dies ∧ t.cores = s.cores ∧ (∀ i, i < 128 → Memory.get t.arrays (128 * line + i) =
          if w.mask.getLsbD i then w.data.extractLsb' (8 * i) 8 else Memory.get s.arrays (128 * line + i)) ∧
        ∀ a, ¬ (128 * line ≤ a ∧ a < 128 * line + 128) → Memory.get t.arrays a = Memory.get s.arrays a) ∧
      (∀ e s1 x m, s.lineFree line = true → s.entry line = some e → e.line = line → s.entryData e = (s1, x, m) →
        let s2 := if (e.st = .m ∨ e.st = .o) ∧ m ≠ 0 then s1.arrayWrite line x m else s1
        let s3 : State := { s2 with pending := e.holders.map (inval line .host []) ++ s2.tellHall line .host [] ++ s2.pending }.dropEntry line
        exec (.hostSnoop ⟨line, none⟩) s = .next s3 ∧
        ∀ w : LineWrite, exec (.hostSnoop ⟨line, some w⟩) s = .next (s3.arrayWrite line w.data.toNat w.mask.toNat))) ∧
    (∀ line, (s.homeDie line).isSome = true → s.present s.pkg line = true →
      let met := s.meetRegion (128 * line) (localAttr .default) false
      (s.cxlUp line = false → ∀ k, exec (.cxlMemRequest line k) s = .next s) ∧
      (s.cxlUp line = true →
        (s.canServe line .data = true →
          (met.entry line = none → exec (.cxlMemRequest line .read) s = .next met) ∧
          (∀ e, met.entry line = some e → e.line = line → ∃ t e', exec (.cxlMemRequest line .read) s = .next t ∧ t.entry line = some e' ∧
            { e' with use := e.use, known := e.known } = { e with st := if e.st = .m ∨ e.st = .o then .o else .s } ∧ t.arrays = met.arrays) ∧
          exec (.cxlMemRequest line .readKeep) s = .next (met.grant .host line false (localAttr .default)).1) ∧
        (s.canServe line = true → ∀ (w : LineWrite) s1,
          s.sysWriteMask (dieOfAddr (128 * line)) line w.mask.toNat w.data.toNat (localAttr .default) = .ok s1 () →
          exec (.cxlMemRequest line (.write w)) s = .next s1))) ∧
    (∀ (id : StrandId) pa i, (s.strand id).run = .running → (s.strand id).wait = some ⟨.host pa false, i⟩ →
      let a := hostUnitAddr (s.strand id) i
      let traps (e : Instr) (cause : Nat) : Prop := exec e s =
        .next ((s.modStrand id fun t => { t with wait := none }).scalarTrap id (trapInfo cause a))
      exec (.pcieCompletion id .success) s = .next (s.modStrand id fun t => { t with wait := some ⟨.host pa true, i⟩ }) ∧
      traps (.pcieCompletion id .unsupported) 0x06 ∧ traps (.pcieCompletion id .abort) 0x0C ∧ traps (.pcieCompletion id .poisoned) 0x0C ∧
      traps (.completionTimeout id) 0x0C) ∧
    (∀ (h : HallId) (c : CoreId) e pa, (∀ k : CoreId, k < c → ∀ x ∈ (s.core k).egress, s.postedOn h x = false) →
      (s.core c).egress.find? (s.postedOn h) = some e → e.entry.tgt.place = .phys pa → ∃ t, exec (.postedWriteFailure h) s = .next t ∧
        (t.core c).egress = removeFirst (· == e) (s.core c).egress ∧ t.preber.postedFails = s.preber.postedFails + 1 ∧
        t.preber.waitRecs = s.preber.waitRecs ++ [⟨1, BitVec.ofNat 64 pa, (0x0C : Word) <<< 48, 0, 0, none⟩] ∧ t.arrays = s.arrays ∧
        ∀ id, t.strand id = s.strand id) ∧
    (∀ h : HallId, (∀ c, ∀ x ∈ (s.core c).egress, s.postedOn h x = false) →
      exec (.postedWriteFailure h) s = .next (s.modHall h fun x => { x with failNext := true })) ∧
    (∀ (h : HallId), (s.hall h).present = true → (s.hall h).lost = false →
      (∀ spd wid cxl, spd.toNat ≤ 5 → (wid = 4 ∨ wid = 8 ∨ wid = 16) → exec (.hostLinkUp h spd wid cxl) s =
        .next (s.modHall h fun x => { x with up := true, spd := spd, wid := wid, cxl := cxl })) ∧
      (∀ k : Fin 18,
        let p := ((s.hall h).ports[k.val])
        let port (q : Port) : State := s.modHall h fun x => { x with ports := x.ports.set k.val q k.isLt }
        (p.up = true → exec (.flitReplay h k) s = .next (port { p with retry := p.retry + 1 }) ∧
          exec (.peerLinkDown h k) s = .next (port { p with up := false, downs := p.downs + 1 })) ∧
        (p.pres = true → ∀ q, exec (.peerLinkUp h k q) s = .next (port { p with up := true, peer := q }))) ∧
      (∀ p : PeerPacket, p.dst = s.almanac.package → s.serving p.dstHall = some h →
        let box := (s.hall h).inbox
        (box.any (·.p == p) = false → (s.hall h).stale p = true → exec (.packetForward h p) s = .next s) ∧
        (box.any (·.p == p) = false → (s.hall h).accepted.any (fun (q, k, _, n) => q == p.src && k == p.srcHall && n == p.seq) = true →
          exec (.packetForward h p) s = .next s) ∧
        (box.any (·.p == p) = false → (s.hall h).stale p = false →
          let taken := s.modHall h fun x => { x with accepted := (p.src, p.srcHall, p.line, p.seq) :: x.accepted, inbox := x.inbox ++ [⟨p, none, 0⟩] }
          (box.any (fun b => sameWay b.p p && b.holds) = true → exec (.packetForward h p) s = .next taken) ∧
          (box.any (fun b => sameWay b.p p && b.holds) = false → ∀ t left, taken.actOn ⟨p, none, 0⟩ = (t, left) →
            exec (.packetForward h p) s = .next (t.modHall h fun x => { x with inbox := match left with
              | some b => replaceFirst (fun a => a.p == p) (fun _ => b) x.inbox
              | none => removeFirst (fun a => a.p == p) x.inbox }))) ∧
        (∀ a left arr, p.coll = none → p.ans = none → paKind (128 * p.line) = .device s.pkg →
          (s.canServe p.line (if p.excl ∨ p.w.isSome then .all else .data) = false ∨ p.src ∈ s.lostPeers → s.actOn ⟨p, left, arr⟩ = (s, some ⟨p, left, arr⟩)) ∧
          (s.canServe p.line (if p.excl ∨ p.w.isSome then .all else .data) = true → p.src ∉ s.lostPeers →
            (p.w = none → (s.grant (.peer p.src) p.line p.excl (localAttr .default)).2 = true → s.actOn ⟨p, left, arr⟩ =
              (((s.meetRegion (128 * p.line) (localAttr .default) false).grant (.peer p.src) p.line p.excl (localAttr .default)).1, none)) ∧
            (∀ w s1, p.w = some w → s.sysWriteMask (dieOfAddr (128 * p.line)) p.line w.mask.toNat w.data.toNat (localAttr .default) = .ok s1 () →
              s.actOn ⟨p, left, arr⟩ = (s1, none))) ∧
          (box.find? (fun x => x.p == p) = some a → (box.takeWhile fun x => !(x.p == p)).any (fun b => sameWay b.p p && b.holds) = true →
            exec (.packetForward h p) s = .next s))) ∧
      (∀ p : PeerPacket, p.dst ≠ s.almanac.package →
        (∀ g o, p.hops < 6 → s.route h p.dst.toNat p.line = some (g, o) → exec (.packetForward h p) s =
          .next (s.modHall g fun x => { x with outPackets := x.outPackets ++ [(o, { p with hops := p.hops + 1 })] })) ∧
        (6 ≤ p.hops → ∃ t, exec (.packetForward h p) s = .next t ∧
          (¬ (p.src = s.almanac.package ∧ p.ans = none) → t = s) ∧
          (p.src = s.almanac.package ∧ p.ans = none → t = { s with slices := t.slices } ∧ (p.coll = none →
            let asks := (s.slice (sliceOf p.line)).asks
            (t.slice (sliceOf p.line)).asks = if asks.any (fun a => a.line == p.line && a.ans.isNone && a.who != .gone) then
              asks.map fun a => if a.line = p.line then { a with dropped := a.ans.isNone } else a
              else asks ++ [⟨p.line, false, .sent, none, true⟩]))))) ∧
    (∀ p, p ∉ s.lostPeers → p ≠ s.almanac.package →
      let held := (s.slices[0].entries ++ s.slices[1].entries).filter fun e => e.has (.peer p) && (s.homeDie e.line).isSome
      exec (.peerPackageLost p) s = .next (held.foldl (fun s e => s.loseCopy p e)
        { s with lostPeers := p :: s.lostPeers, slices := s.slices.map fun (x : Slice) =>
          { x with asks := x.asks.filter fun a => !(paKind (128 * a.line) == .device p.toNat) } }))

/-- R327 to R332, R361: a Hall die that is lost leaves its slices waiting, the almanac updated and roll call begun when a Hall die survives; each step
of roll call is run by the survivor, or by a write of ADV in host-assisted mode; the stall bound passes for a strand's access. The mark that the bound
has passed (assumption 31) and the layout of the record (46) are the model's. -/
def Obligations.RollCallSteps : Prop :=
  ∀ (s : State),
    (∀ h : HallId, (s.hall h).present = true → (s.hall h).lost = false → ∃ t, exec (.hallDieLost h) s = .next t ∧
      (t.hall h).lost = true ∧ t.rollCall.lost = true ∧ t.rollCall.who = h ∧ t.rollCall.step = 0 ∧
      (t.rollCall.rca = true ↔ (s.hall (1 - h)).present = true ∧ (s.hall (1 - h)).lost = false) ∧
      t.rollCall.host = s.preber.duty.getLsbD 4 ∧ (∀ k : HallId, s.serving k = some h → (t.slice k).waiting = true) ∧
      t.almanac.gen = s.almanac.gen + 1 ∧ t.almanac.hallMask.getLsbD h.val = false ∧ t.arrays = s.arrays ∧ t.dies = s.dies ∧ t.cores = s.cores) ∧
    (s.rollCall.rca = true → s.rollCall.host = false → exec .rollCallStep s = .next s.rollCallRun) ∧
    (s.rollCall.rca = true → s.rollCall.host = true → exec .hrollAdv s =
      .next (s.rollCallRun.hqPut ⟨5, s.rollCall.step.setWidth 64, 0, 0, 0, none⟩)) ∧
    (s.rollCall.rca = false → exec .rollCallStep s = .next s ∧ exec .hrollAdv s = .next s) ∧
    (s.rollCall.step = 3 → s.rollCall.rca = true → s.rollCallRun.rollCall.rca = false ∧ ∀ k, (s.rollCallRun.slice k).waiting = false) ∧
    (∀ id : StrandId, (s.strand id).run ≠ .idle →
      exec (.rollStallTimeout id) s = .next (s.modStrand id fun t => { t with stalled := true }))

/-! ## The dies, launches and management -/

/-- R151, R263, R269, R270, R272, R274 to R276: a tick ends short-lived regions whose deadline is reached, with no copy of their lines left; a scrub corrects
what can be corrected and a triple tag error stops its die; a bond repair of the stacks whose mode it is runs before a placement or by GO; the quota, TLB
invalidation and fault-answer registers act when they are written. That an engine about to place on a die repairs it first (assumption 53) and which
accesses keep TLBIC busy (55) are the model's readings. -/
def Obligations.DieSteps : Prop :=
  ∀ (s : State) (d : DieId) (v : Word) (tag : BitVec 16),
    let open_ := s.preber.badImage = none
    let due (line : Nat) : Bool := s.regions.any fun x => x.r == line / 32 && (match x.life with
      | .live q => decide (q ≤ s.tick + 1)
      | _ => false)
    (∃ t, exec .tick s = .next t ∧ t.tick = s.tick + 1 ∧ t.arrays = s.arrays ∧
      (∀ c, { t.core c with strands := (s.core c).strands, l1 := (s.core c).l1, fills := (s.core c).fills } = s.core c ∧
        (t.core c).l1 = (s.core c).l1.filter (fun x => !due x.line) ∧ ∀ f ∈ (t.core c).fills, due f.line = true → f.killed = true) ∧
      (∀ n : Fin 64, t.lists[n.val] = if due (lineOf (s.lists[n.val]).addr) then { s.lists[n.val] with tail := none } else s.lists[n.val]) ∧
      (∀ id, { t.strand id with journal := (s.strand id).journal } = s.strand id ∧ (∀ j, (s.strand id).journal = some j →
        ∃ k, (t.strand id).journal = some k ∧ { k with mask := j.mask, op := j.op } = j ∧
        (if due j.line then k.mask = 0 ∧ k.op = 0 else k = j)) ∧
        ((s.strand id).journal = none → (t.strand id).journal = none)) ∧
      (∀ r q, (s.region r).life = .live q → (t.region r).life = if q ≤ s.tick + 1 then .dead else .live q) ∧
      (∀ r, (∀ q, (s.region r).life ≠ .live q) → (t.region r).life = (s.region r).life) ∧
      ∀ k c, c ∈ (t.die k).lines → c ∈ (s.die k).lines ∧ due c.line = false) ∧
    (∀ e, s.errAt e = none → exec (.scrub e) s = .next s) ∧
    (∀ pa, s.errAt (.word pa) = some .single → exec (.scrub (.word pa)) s = .next ((s.clearErr (.word pa)).countCorrected (dieOfAddr pa))) ∧
    (∀ pa, s.errAt (.word pa) = some .double → exec (.scrub (.word pa)) s = .next s) ∧
    (s.errAt (.tag d) = some .triple → ∃ t, exec (.scrub (.tag d)) s = .next t ∧ (t.die d).stopped = true ∧ t.arrays = s.arrays) ∧
    (∀ stack bus k, s.errAt (.bus stack bus) = some k →
      exec (.scrub (.bus stack bus)) s = .next ((s.clearErr (.bus stack bus)).busError stack bus)) ∧
    (s.placingOn d = true → exec (.vbondRepair d) s = .next (s.vbRepair d false)) ∧
    (open_ → exec (.vbctlGo d) s = .next (s.vbRepair d true)) ∧
    (∀ host, let t := s.vbRepair d host
      t.cores = s.cores ∧ t.arrays = s.arrays ∧ (t.die d).vbThr = (s.die d).vbThr ∧ (t.die d).vbHost = (s.die d).vbHost ∧
      ∀ i : Fin 2, (t.die d).vbPend[i.val] = ((s.die d).vbPend[i.val] && (s.die d).vbHost[i.val] != host)) ∧
    (open_ → ∃ t, exec (.l2wqWrite d v) s = .next t ∧
      let sum := (v.extractLsb' 0 5).toNat + (v.extractLsb' 5 5).toNat + (v.extractLsb' 10 5).toNat + (v.extractLsb' 15 5).toNat
      (t.die d).l2wq = (if sum ≤ 24 then v &&& 0xFFFFF else (s.die d).l2wq ||| 0x100000) ∧ t = s.modDie d fun x => { x with l2wq := (t.die d).l2wq }) ∧
    (open_ → (s.die d).tlbcBusy = false → ∃ t, exec (.tlbicGo d v) s = .next t ∧
      let asid : BitVec 16 := v.extractLsb' 24 16
      let hit (x : TlbEntry) : Bool := x.hit asid ((s.die d).tlba.toNat / 4096) (v.extractLsb' 0 20).toNat
      (t.die d).tlbcBusy = true ∧ (t.die d).tlbcRun = asid ∧ (t.die d).tlb = (s.die d).tlb.filter (fun x => !hit x) ∧
      (∀ c, dieOf c = d → (t.core c).tlb = (s.core c).tlb.filter (fun x => !hit x)) ∧ (∀ c, dieOf c ≠ d → t.core c = s.core c) ∧
      t.arrays = s.arrays) ∧
    ((s.die d).tlbcBusy = true → s.asidBusy d (s.die d).tlbcRun = false →
      exec (.tlbiDone d) s = .next ((s.unaskBy (· == .party d)).modDie d fun x => { x with tlbcBusy := false })) ∧
    (open_ → ∀ x, (s.die d).pageTags.find? (·.tag == tag) = some x → s.unrecorded 0 tag (some d) = false →
      let s1 := s.modDie d fun y => { y with pageTags := y.pageTags.filter (·.tag != tag) }
      (s1.parkedWith x.lid x.core x.slot tag (some d) = false → exec (.fresEnd d tag) s = .next s1 ∧ exec (.fresRetry d tag) s = .next s1 ∧
        exec (.fresDeliver d tag) s = .next s1) ∧
      (s1.parkedWith x.lid x.core x.slot tag (some d) = true → exec (.fresEnd d tag) s = .next (s1.endOf x.lid)) ∧
      ∀ c p, s1.coreAt x.lid x.core = some c → (s1.strand ⟨c, x.slot⟩).run = .parked p → p.tag = tag → p.page = true → p.die = d →
        exec (.fresRetry d tag) s = .next (s1.unpark ⟨c, x.slot⟩ p) ∧ exec (.fresDeliver d tag) s = .next (s1.deliver ⟨c, x.slot⟩ p))

/-- R132, R333 to R347: a list's control takes a write; the engine consumes the next record of the first list in order; a ready launch whose turn it is
starts, or a launch of lower priority is recessed for it, or the host is asked; launches complete, end, recess and resume; a budget runs out. A list
that is not enabled gives no record; a resumed block stands on its cluster and its launch goes on; a recess keeps what is saved and changes no array;
PLRES puts a block of a waiting launch on a cluster that may take it while another is still to be named, and is ignored otherwise. That a
budget may run out at any time (assumption 8), that a launch's missing blocks go together (32), the record's layout (46), the cluster of a resume off a
hot one (51), the order of placement (57) and what PLRES does with a second answer (63) are the model's readings. -/
def Obligations.LaunchSteps : Prop :=
  ∀ (s : State) (lid : BitVec 32),
    (∀ (n : Fin 64) v, s.preber.badImage = none →
      let l := s.lists[n.val]
      ∃ t, exec (.llctlWrite n v) s = .next t ∧ t = { s with lists := t.lists } ∧ (∀ m : Fin 64, m ≠ n → t.lists[m.val] = s.lists[m.val]) ∧
        t.lists[n.val] = { l with en := v.getLsbD 63, prio := v.extractLsb' 61 2, sz := if l.en then l.sz else v.extractLsb' 57 4,
                                  asid := if l.en then l.asid else v.extractLsb' 24 16,
                                  tail := if v.getLsbD 63 && l.en then l.tail else none }) ∧
    (∀ (n : Fin 64), s.listServed n = true →
      (∀ m : Fin 64, s.listHall m = s.listHall n → (s.lists[m.val]).en = true → (s.consumeRecord m).toBool = true →
        ¬ ((s.lists[n.val]).prio.toNat < (s.lists[m.val]).prio.toNat ∨ ((s.lists[m.val]).prio = (s.lists[n.val]).prio ∧ m < n))) →
      (∀ s1, s.consumeRecord n = .ok s1 → exec (.recordConsume n) s = .next s1.endEng) ∧
      (∀ e, (s.lists[n.val]).tail ≠ none → s.consumeRecord n = .error e → exec (.recordConsume n) s = .next (s.engWait e)) ∧
      ((s.lists[n.val]).tail = none → (s.lists[n.val]).en = true → exec (.recordConsume n) s = .next (s.hallRead n).1) ∧
      ((s.lists[n.val]).en = false → exec (.recordConsume n) s = .next s)) ∧
    (∀ l, s.launch lid = some l → s.listServed l.list = true →
      (s.preber.duty.getLsbD 0 = false → l.waits = true → s.mayPlace l = true →
        (∀ plan s1, l.status = 1 → s.chooseClusters l l.missing [] = some plan → s.startLaunch l plan = .ok s1 → exec (.launchPlacement lid) s = .next s1.endEng) ∧
        (∀ x, s.chooseClusters l l.missing [] = none → s.firstWaiting l = true → s.victim l = some x → exec (.launchPlacement lid) s = .next (s.recessLaunch x))) ∧
      (s.preber.duty.getLsbD 0 = true → l.waits = true → l.asked = false → exec (.placementRequest lid) s =
        .next ((s.modLaunch lid fun l => { l with asked := true }).hqPut ⟨2, l.lid.setWidth 64, BitVec.ofNat 64 l.blocks.length, 0, 0, none⟩)) ∧
      (l.status = 2 → s.allHalted l = true → ∀ s1, ((s.coresOf lid).foldl State.releaseCore s).finishLaunch l 3 = .ok s1 →
        exec (.launchComplete lid) s = .next s1.endEng) ∧
      (l.status = 5 → s.endDrained lid = true → ∀ s1, s.finishLaunch l 4 = .ok s1 → ∃ t, exec (.launchEnd lid) s = .next t ∧
        (∀ x ∈ t.recessStore, x.lid ≠ lid) ∧ (∀ x ∈ t.preber.errTags, x.lid ≠ lid) ∧ ∀ d, (t.die d).pageTags = (s1.die d).pageTags) ∧
      (∀ block cl, l.status = 2 → l.blocks.getD block .waiting = .saved → (∀ x ∈ s.launches, x.uid = l.uid → x = l) →
        ∃ x, (s.resumeBlock l block cl).launch lid = some x ∧ x.status = 2 ∧ x.blocks = l.blocks.set block (.placed cl)) ∧
      (∀ block, l.status = 2 → l.blocks.getD block .waiting = .saved →
        let cooler := (l.moving.find? (·.1 == block)).bind fun m => s.coolerCluster l block m.2
        (∀ cl, cooler = some cl → exec (.resume lid block) s = .next (s.resumeBlock l block cl)) ∧
        (cooler = none → s.preber.duty.getLsbD 0 = false → s.mayPlace l = true →
          ∀ plan cl, s.chooseClusters l l.missing [] = some plan → plan.find? (·.1 == block) = some (block, cl) →
            exec (.resume lid block) s = .next (s.resumeBlock l block cl)))) ∧
    (∀ l block cl, s.launch lid = some l → l.status = 2 → l.pre = true → l.blocks.getD block .waiting = .placed cl →
      exec (.recess lid block) s = .next (s.recessBlock l block cl) ∧ (s.recessBlock l block cl).arrays = s.arrays ∧
        ∀ x ∈ s.recessStore, x ∈ (s.recessBlock l block cl).recessStore) ∧
    (∀ (h : HallId) v, s.preber.badImage = none → (s.hall h).present = true → (s.hall h).lost = false →
      exec (.plres h v) s = .next (s.plresWrite h v) ∧ (s.preber.duty.getLsbD 0 = false → exec (.plres h v) s = .next s) ∧
      ∀ l, s.launch (v.extractLsb' 0 32) = some l →
        let b := (v.extractLsb' 32 8).toNat
        let cl : Fin 16 := ⟨(v.extractLsb' 40 4).toNat, (v.extractLsb' 40 4).isLt⟩
        (s.clusterTakes l b cl = false ∨ s.listHall l.list ≠ h ∨ l.asked = false ∨ .named cl ∈ l.blocks ∨ l.blocks.length ≤ b →
          exec (.plres h v) s = .next s) ∧
        (s.preber.duty.getLsbD 0 = true → l.asked = true → l.status = 1 → l.waits = true → s.listHall l.list = h → s.clusterTakes l b cl = true →
          .named cl ∉ l.blocks → b < l.blocks.length → (∃ i, i < l.blocks.length ∧ i ≠ b ∧ ∀ c, l.blocks.getD i .waiting ≠ .named c) →
          exec (.plres h v) s = .next (s.modLaunch (v.extractLsb' 0 32) fun x => { x with blocks := l.blocks.set b (.named cl) }))) ∧
    (∀ id : StrandId, (s.strand id).region.isSome = true → (s.strand id).run ≠ .idle →
      exec (.holdExpiry id) s = .next (s.modStrand id fun t => { t with region := some 0 }))

/-- R348, R350, R352 to R361: the monitors' readings move, slow and free clocks; the host queue takes its oldest record; the duty, power, answer,
attestation and trap registers act when they are written; an attestation ends; a module reset leaves no launch and no cached line; the almanac marks an
idle unit absent; TLBIA and ATTNONCE take a write, and a write that is not an aligned doubleword, or goes to an absent Hall die, is ignored. The record's
layout (assumption 46), the cluster of a migration (51), the clock steps of a power window (52), what a module reset
keeps (56), and that a write to a lost Hall die (98) or to an offset that no table assigns (99) is ignored are the model's readings. -/
def Obligations.ManagementSteps : Prop :=
  ∀ (s : State) (v : Word) (tag : BitVec 16),
    let open_ := s.preber.badImage = none
    let put (f : Preber → Preber) : State := { s with preber := f s.preber }
    (∀ (d : DieId) (c : Fin 4) temp,
      let s1 := s.setTemp d ⟨c.val, by omega⟩ temp
      let hot := ((s1.die d).mon[c.val]).hot
      let cl := clusterOfDie d c
      (hot = true → s.preber.duty.getLsbD 3 = true → exec (.thermalThreshold d c temp) s =
        .next ((s1.setClk cl true).hqPut ⟨3, BitVec.ofNat 64 cl.val, 0, 0, 0, none⟩)) ∧
      (hot = true → s.preber.duty.getLsbD 3 = false → exec (.thermalThreshold d c temp) s = .next (s1.migrate cl)) ∧
      (hot = false → exec (.tempBelowThr d ⟨c.val, by omega⟩ temp) s = .next (s1.setClk cl false))) ∧
    (∀ (d : DieId) temp, ∃ t, exec (.dieOvertemp d temp) s = .next t ∧ ((t.die d).mon[4]).temp = temp ∧
      ((880 : Int) ≤ temp.toInt → (t.die d).halved = true) ∧
      (temp.toInt < (880 : Int) → temp.toInt < (((s.die d).mon[4]).thr).toInt → (t.die d).halved = false)) ∧
    (∀ watts, exec (.powerWindow watts) s =
      .next (put fun p => { p with clkSteps := if p.pwrlim.toNat < watts then p.clkSteps + 1 else p.clkSteps - 1 })) ∧
    (∀ r rest s1, s.preber.waitRecs = r :: rest → (∀ l ∈ s.launches, r.ends = some l.uid → l.status ≠ 5) →
      let n := 2 ^ (s.preber.hqsz.toNat + 4)
      (s.preber.prod - s.preber.cons).toNat < n →
      s.engWrite (s.preber.hqbase.toNat * 4096 + 32 * (s.preber.prod.toNat % n)) 32 r.bytes = .ok s1 →
      exec .hostQueueAppend s = .next (State.endEng { s1 with preber := { s1.preber with waitRecs := rest, prod := s.preber.prod + 1 } })) ∧
    (open_ → exec (.dutyWrite v) s = .next (put fun p => { p with duty := v.extractLsb' 0 6 })) ∧
    (open_ → ∃ t, exec (.pwrlimWrite v) s = .next t ∧ t = { s with preber := { s.preber with pwrlim := t.preber.pwrlim } } ∧
      t.preber.pwrlim.toNat = max 1000 (min 2800 (v.extractLsb' 0 12).toNat)) ∧
    (open_ → s.preber.attBusy = false → exec (.attctlGo v) s =
      .next (put fun p => { p with attBuf := v.extractLsb' 12 40, attBusy := true, attNonce := p.nonce })) ∧
    (∀ s1, s.preber.attBusy = true → s.sysWriteMany (s.preber.attBuf.toNat * 4096) s.report 103 = .ok s1 →
      exec .attestationDone s = .next (State.endEng { s1 with preber := { s1.preber with attBusy := false } })) ∧
    (open_ → ∀ x, s.preber.errTags.find? (·.tag == tag) = some x → s.unrecorded 1 tag none = false →
      let s1 := put fun p => { p with errTags := p.errTags.filter (·.tag != tag) }
      (s1.parkedWith x.lid x.core x.slot tag none = false → exec (.eresEnd tag) s = .next s1 ∧ exec (.eresResume tag) s = .next s1) ∧
      (s1.parkedWith x.lid x.core x.slot tag none = true → exec (.eresEnd tag) s = .next (s1.endOf x.lid)) ∧
      ∀ c p, s1.coreAt x.lid x.core = some c → (s1.strand ⟨c, x.slot⟩).run = .parked p → p.tag = tag → p.page = false →
        exec (.eresResume tag) s = .next (s1.unpark ⟨c, x.slot⟩ p)) ∧
    (open_ → ∀ (id : StrandId) p (n : BitVec 12), (s.strand id).run = .parked p → 0x20 ≤ n.toNat → n.toNat ≤ 0x25 →
      (n = 0x25 → v.extractLsb' 0 3 = 0) → exec (.trapRegisterWrite id n v) s = .next (s.ctlPut id 0 n v)) ∧
    (∃ t, exec .moduleReset s = .next t ∧ t.launches = [] ∧ (∀ c, t.core c = { Core.reset with laneAbs := ~~~(s.almanac.lanes[c.val]) }) ∧ (∀ d, (t.die d).lines = [] ∧ (t.die d).outBits = []) ∧
      (∀ h, t.slice h = Slice.reset) ∧ t.preber.duty = 0 ∧ t.preber.pwrlim = 2800 ∧ t.almanac = s.almanac ∧ t.regions = [] ∧
      (∀ n : Fin 64, t.lists[n.val] = LaunchList.reset) ∧
      ∀ a, s.ownDevice a = false → Memory.get t.arrays a = Memory.get s.arrays a) ∧
    (∀ u, s.unitIdle u = true → ∃ t, exec (.almanacUpdate u) s = .next t ∧ t.almanac = s.almanac.mark u ∧ t.arrays = s.arrays) ∧
    (∀ u, s.unitIdle u = false → exec (.almanacUpdate u) s =
      .next (if s.absentPend.contains u then s else { s with absentPend := s.absentPend ++ [u] })) ∧
    (∀ off, off % 8 = 0 → exec (.registerWrite off v) s = .next (s.writeReg off v)) ∧
    (∀ off, off % 8 ≠ 0 ∨ (0x30000 ≤ off ∧ off < 0x100000) → exec (.registerWrite off v) s = .next s) ∧
    (∀ (h : HallId) off, 0x10000 + 0x10000 * h.val ≤ off → off < 0x20000 + 0x10000 * h.val → (s.hall h).present = false ∨ (s.hall h).lost = true →
      exec (.registerWrite off v) s = .next s) ∧
    (open_ → ∀ d : DieId, exec (.registerWrite (0x100110 + 0x10000 * d.val) v) s =
      .next (s.modDie d fun x => { x with tlba := v &&& 0x0000FFFFFFFFF000 })) ∧
    (open_ → ∀ i : Fin 4, exec (.registerWrite (0x40 + 8 * i.val) v) s = .next (put fun p => { p with nonce := p.nonce.set i.val v i.isLt }))
end

