-- ==== Sys2Proof/Laws/Memory.lean ====
section
/-! SUPPORT. Memory: every operation keeps the canonical form, a read after a write gives what was written, and a write leaves every other
byte alone. -/
namespace Sys2Proof.Machine

/-! ## Bytes -/

theorem Memory.get_of_lt {m : Memory} {a : Nat} (h : ∀ c ∈ m, a < c.1) : Memory.get m a = dfltByte := by
  induction m with
  | nil => rfl
  | cons c m ih =>
    obtain ⟨k, b⟩ := c
    have hk : a < k := h (k, b) (by simp)
    simp only [Memory.get, if_neg (Nat.ne_of_lt hk)]
    exact ih fun c hc => h c (by simp [hc])

theorem Memory.mem_set {m : Memory} {a : Nat} {b : Byte} {c : Host.Cell} (h : c ∈ Memory.set m a b) :
    c ∈ m ∨ (c = (a, b) ∧ b ≠ dfltByte) := by
  induction m with
  | nil =>
    simp only [Memory.set] at h
    split at h
    · simp at h
    · exact .inr ⟨by simpa using h, ‹_›⟩
  | cons d m ih =>
    obtain ⟨k, x⟩ := d
    simp only [Memory.set] at h
    split at h
    · split at h
      · exact .inl h
      · rcases List.mem_cons.mp h with e | e
        · exact .inr ⟨e, ‹_›⟩
        · exact .inl e
    · split at h
      · split at h
        · exact .inl (List.mem_cons_of_mem _ h)
        · rcases List.mem_cons.mp h with e | e
          · exact .inr ⟨e, ‹_›⟩
          · exact .inl (List.mem_cons_of_mem _ e)
      · rcases List.mem_cons.mp h with e | e
        · exact .inl (by simp [e])
        · rcases ih e with q | q
          · exact .inl (List.mem_cons_of_mem _ q)
          · exact .inr q

theorem Memory.wf_nil : Memory.wf [] := by simp [Memory.wf]

theorem Memory.wf_tail {c : Host.Cell} {m : Memory} (h : Memory.wf (c :: m)) : Memory.wf m :=
  ⟨(List.pairwise_cons.mp h.1).2, fun d hd => h.2 d (by simp [hd])⟩

theorem Memory.wf_set {m : Memory} (h : m.wf) (a : Nat) (b : Byte) : (Memory.set m a b).wf := by
  induction m with
  | nil =>
    simp only [Memory.set]
    split
    · exact Memory.wf_nil
    · exact ⟨by simp, by simpa using ‹_›⟩
  | cons d m ih =>
    obtain ⟨k, x⟩ := d
    have ht := Memory.wf_tail h
    have hp := (List.pairwise_cons.mp h.1).1
    have hx : x ≠ dfltByte := h.2 (k, x) (by simp)
    simp only [Memory.set]
    split
    · rename_i hk
      split
      · exact h
      · rename_i hb
        refine ⟨List.pairwise_cons.mpr ⟨fun c hc => ?_, h.1⟩, fun c hc => ?_⟩
        · rcases List.mem_cons.mp hc with e | e
          · simpa [e] using hk
          · exact Nat.lt_trans hk (hp c e)
        · rcases List.mem_cons.mp hc with e | e
          · simpa [e] using hb
          · exact h.2 c e
    · split
      · rename_i hk he
        split
        · exact ht
        · rename_i hb
          refine ⟨List.pairwise_cons.mpr ⟨fun c hc => ?_, ht.1⟩, fun c hc => ?_⟩
          · simpa [he] using hp c hc
          · rcases List.mem_cons.mp hc with e | e
            · simpa [e] using hb
            · exact ht.2 c e
      · rename_i hk he
        refine ⟨List.pairwise_cons.mpr ⟨fun c hc => ?_, (ih ht).1⟩, fun c hc => ?_⟩
        · rcases Memory.mem_set hc with e | e
          · exact hp c e
          · simp only [e.1]
            omega
        · rcases List.mem_cons.mp hc with e | e
          · simpa [e] using hx
          · exact (ih ht).2 c e

theorem Memory.get_set_same {m : Memory} (h : m.wf) (a : Nat) (b : Byte) : (Memory.set m a b).get a = b := by
  induction m with
  | nil =>
    simp only [Memory.set]
    split
    · simp [Memory.get, ‹b = dfltByte›]
    · simp [Memory.get]
  | cons d m ih =>
    obtain ⟨k, x⟩ := d
    have hp := (List.pairwise_cons.mp h.1).1
    simp only [Memory.set]
    split
    · rename_i hk
      split
      · rename_i hb
        rw [hb]
        refine Memory.get_of_lt fun c hc => ?_
        rcases List.mem_cons.mp hc with e | e
        · simpa [e] using hk
        · exact Nat.lt_trans hk (hp c e)
      · simp [Memory.get]
    · split
      · rename_i hk he
        split
        · rename_i hb
          rw [hb]
          exact Memory.get_of_lt fun c hc => by simpa [he] using hp c hc
        · simp [Memory.get]
      · rename_i hk he
        simp only [Memory.get, if_neg he]
        exact ih (Memory.wf_tail h)

theorem Memory.get_set_ne {m : Memory} (h : m.wf) {a q : Nat} (b : Byte) (hq : q ≠ a) : (Memory.set m a b).get q = m.get q := by
  induction m with
  | nil =>
    simp only [Memory.set]
    split <;> simp [Memory.get, hq]
  | cons d m ih =>
    obtain ⟨k, x⟩ := d
    have hp := (List.pairwise_cons.mp h.1).1
    simp only [Memory.set]
    split
    · split
      · rfl
      · simp [Memory.get, hq]
    · split
      · rename_i hk he
        have hkq : q ≠ k := by omega
        split <;> simp [Memory.get, hq, hkq]
      · simp only [Memory.get, ih (Memory.wf_tail h)]

/-! ## Runs of bytes -/

theorem Memory.wf_write {m : Memory} (h : m.wf) (a n v : Nat) : (Memory.write m a n v).wf := by
  induction n generalizing m a v with
  | zero => exact h
  | succ n ih => exact ih (Memory.wf_set h _ _) _ _

theorem Memory.wf_writeMasked {m : Memory} (h : m.wf) (a n mask v : Nat) : (Memory.writeMasked m a n mask v).wf := by
  induction n generalizing m a mask v with
  | zero => exact h
  | succ n ih =>
    simp only [Memory.writeMasked]
    split
    · exact ih (Memory.wf_set h _ _) _ _ _
    · exact ih h _ _ _

theorem Memory.wf_filter {m : Memory} (h : m.wf) (p : Host.Cell → Bool) : Memory.wf (m.filter p) :=
  ⟨h.1.filter p, fun c hc => h.2 c (List.mem_of_mem_filter hc)⟩

theorem Memory.wf_zero {m : Memory} (h : m.wf) (a n : Nat) : (Memory.zero m a n).wf := Memory.wf_filter h _

theorem Memory.wf_putWords {m : Memory} (h : m.wf) (a : Nat) (ws : List Word) : (Memory.putWords m a ws).wf := by
  induction ws generalizing m a with
  | nil => exact h
  | cons w ws ih => exact ih (Memory.wf_write h _ _ _) _

theorem Memory.get_write_out {m : Memory} (h : m.wf) {a n q : Nat} (v : Nat) (hq : q < a ∨ a + n ≤ q) :
    (Memory.write m a n v).get q = m.get q := by
  induction n generalizing m a v with
  | zero => rfl
  | succ n ih =>
    simp only [Memory.write]
    rw [ih (Memory.wf_set h _ _) _ (by omega), Memory.get_set_ne h _ (by omega)]

theorem Memory.read_write_out {m : Memory} (h : m.wf) {a n q k : Nat} (v : Nat) (hq : q + k ≤ a ∨ a + n ≤ q) :
    (Memory.write m a n v).read q k = m.read q k := by
  induction k generalizing q with
  | zero => rfl
  | succ k ih => simp only [Memory.read, ih (by omega : q + 1 + k ≤ a ∨ a + n ≤ q + 1), Memory.get_write_out h v (by omega : q < a ∨ a + n ≤ q)]

theorem Memory.read_write_same {m : Memory} (h : m.wf) (a n v : Nat) : (Memory.write m a n v).read a n = v % 256 ^ n := by
  induction n generalizing m a v with
  | zero => simp [Memory.read, Nat.mod_one]
  | succ n ih =>
    have hw := Memory.wf_set h a (BitVec.ofNat 8 v)
    have hg : ((Memory.set m a (BitVec.ofNat 8 v)).write (a + 1) n (v / 256)).get a = BitVec.ofNat 8 v := by
      rw [Memory.get_write_out hw _ (.inl (Nat.lt_succ_self a)), Memory.get_set_same h]
    simp only [Memory.read, Memory.write, ih hw (a + 1) (v / 256), hg]
    rw [show (256 : Nat) ^ (n + 1) = 256 * 256 ^ n from by ring, Nat.mod_mul]
    simp

theorem Memory.get_zero {m : Memory} (a n q : Nat) : (Memory.zero m a n).get q = if a ≤ q ∧ q < a + n then dfltByte else m.get q := by
  induction m with
  | nil => simp [Memory.zero, Memory.get]
  | cons c m ih =>
    obtain ⟨k, b⟩ := c
    simp only [Memory.zero, List.filter_cons] at ih ⊢
    by_cases hk : a ≤ k ∧ k < a + n
    · simp only [hk.1, hk.2, decide_true, Bool.and_self, Bool.not_true, Bool.false_eq_true, if_false, ih, Memory.get]
      by_cases hq : q = k
      · simp [hq, hk]
      · simp [hq]
    · have : (!(decide (a ≤ k) && decide (k < a + n))) = true := by
        simp only [Bool.not_eq_true', Bool.and_eq_false_iff, decide_eq_false_iff_not]
        by_cases h1 : a ≤ k
        · exact .inr fun h2 => hk ⟨h1, h2⟩
        · exact .inl h1
      simp only [this, if_true, Memory.get, ih]
      by_cases hq : q = k
      · simp [hq, hk]
      · simp [hq]

/-! ## The whole package -/

/-- The local memory of each core, in a state whose memories are canonical. -/
theorem State.memWf_loc {s : State} (h : s.memWf) (c : CoreId) : (s.core c).loc.wf := h.2.1 c

end Sys2Proof.Machine
end

