-- ==== Sys2Proof/Laws/PerInstr.lean ====
section
/-! SUPPORT. The length of what the encoder writes, one lemma per constructor: the words of an instruction are as many as its unit takes. -/
namespace Sys2Proof.Laws

/-- The encoder writes as many words as the unit takes (R20). -/
def Length.Statement (i : Instr) : Prop := ∀ ws, encode i = some ws → ws.length = i.unitWords

theorem Length.of_pfx (p : Pfx) :
    (encPfx p).length = (if p.imm.isSome then 1 else 0) + (if p.ord.isSome then 1 else 0) + (if p.cls.isSome then 1 else 0) := by
  unfold encPfx
  cases p.imm <;> cases p.ord <;> cases p.cls <;> rfl

theorem Length.of_hdr {i : Instr} {h : Hdr} {ws : List Word} (hi : i.hdr? = some h)
    (hw : ∃ r : Raw, encPfx h.pfx ++ [r.pack] = ws) : ws.length = i.unitWords := by
  obtain ⟨r, rfl⟩ := hw
  simp only [List.length_append, Length.of_pfx, List.length_singleton, Instr.unitWords, hi]
  omega

theorem Length.of_any (i : Instr) : Length.Statement i := by
  intro ws hw
  unfold encode at hw
  split at hw
  · cases hw; rfl
  · split at hw
    · rename_i h r hi _
      exact Length.of_hdr hi ⟨r, Option.some.inj hw⟩
    · cases hw

theorem Length.add (h : Hdr) (v : Bool) (w : Width) (d : SReg) (x : SReg) (y : Src) : Length.Statement (.add h v w d x y) := Length.of_any _
theorem Length.sub (h : Hdr) (v : Bool) (w : Width) (d : SReg) (x : SReg) (y : Src) : Length.Statement (.sub h v w d x y) := Length.of_any _
theorem Length.mul (h : Hdr) (v : Bool) (w : Width) (d : SReg) (x : SReg) (y : Src) : Length.Statement (.mul h v w d x y) := Length.of_any _
theorem Length.mulh (h : Hdr) (v : Bool) (w : Width) (d : SReg) (x : SReg) (y : Src) : Length.Statement (.mulh h v w d x y) := Length.of_any _
theorem Length.div (h : Hdr) (v : Bool) (w : Width) (d : SReg) (x : SReg) (y : Src) : Length.Statement (.div h v w d x y) := Length.of_any _
theorem Length.rem (h : Hdr) (v : Bool) (w : Width) (d : SReg) (x : SReg) (y : Src) : Length.Statement (.rem h v w d x y) := Length.of_any _
theorem Length.and (h : Hdr) (w : Width) (d : SReg) (x : SReg) (y : Src) : Length.Statement (.and h w d x y) := Length.of_any _
theorem Length.or (h : Hdr) (w : Width) (d : SReg) (x : SReg) (y : Src) : Length.Statement (.or h w d x y) := Length.of_any _
theorem Length.xor (h : Hdr) (w : Width) (d : SReg) (x : SReg) (y : Src) : Length.Statement (.xor h w d x y) := Length.of_any _
theorem Length.andn (h : Hdr) (w : Width) (d : SReg) (x : SReg) (y : Src) : Length.Statement (.andn h w d x y) := Length.of_any _
theorem Length.shl (h : Hdr) (w : Width) (d : SReg) (x : SReg) (y : Src) : Length.Statement (.shl h w d x y) := Length.of_any _
theorem Length.shr (h : Hdr) (v : Bool) (w : Width) (d : SReg) (x : SReg) (y : Src) : Length.Statement (.shr h v w d x y) := Length.of_any _
theorem Length.rot (h : Hdr) (v : Bool) (w : Width) (d : SReg) (x : SReg) (y : Src) : Length.Statement (.rot h v w d x y) := Length.of_any _
theorem Length.min (h : Hdr) (v : Bool) (w : Width) (d : SReg) (x : SReg) (y : Src) : Length.Statement (.min h v w d x y) := Length.of_any _
theorem Length.max (h : Hdr) (v : Bool) (w : Width) (d : SReg) (x : SReg) (y : Src) : Length.Statement (.max h v w d x y) := Length.of_any _
theorem Length.cmp (h : Hdr) (c : Cond) (d : PReg) (x : SReg) (y : Src) : Length.Statement (.cmp h c d x y) := Length.of_any _
theorem Length.sel (h : Hdr) (d : SReg) (g : PReg) (x : SReg) (y : SReg) : Length.Statement (.sel h d g x y) := Length.of_any _
theorem Length.clz (h : Hdr) (w : Width) (d : SReg) (x : SReg) : Length.Statement (.clz h w d x) := Length.of_any _
theorem Length.ffs (h : Hdr) (w : Width) (d : SReg) (x : SReg) : Length.Statement (.ffs h w d x) := Length.of_any _
theorem Length.popc (h : Hdr) (w : Width) (d : SReg) (x : SReg) : Length.Statement (.popc h w d x) := Length.of_any _
theorem Length.li (h : Hdr) (d : SReg) (i : BitVec 24) : Length.Statement (.li h d i) := Length.of_any _
theorem Length.lea (h : Hdr) (va : Bool) (d : SReg) (b : SReg) (y : AddrSrc) : Length.Statement (.lea h va d b y) := Length.of_any _
theorem Length.ext (h : Hdr) (op : ExtOp) (d : SReg) (b : SReg) (y : FieldSrc) : Length.Statement (.ext h op d b y) := Length.of_any _
theorem Length.plog (h : Hdr) (op : LogOp) (d : PReg) (a : PReg) (b : PReg) : Length.Statement (.plog h op d a b) := Length.of_any _
theorem Length.pmov (h : Hdr) (f : PmovForm) : Length.Statement (.pmov h f) := Length.of_any _
theorem Length.br (h : Hdr) (i : BitVec 24) : Length.Statement (.br h i) := Length.of_any _
theorem Length.jal (h : Hdr) (d : SReg) (i : BitVec 24) : Length.Statement (.jal h d i) := Length.of_any _
theorem Length.jalr (h : Hdr) (d : SReg) (b : SReg) (i : BitVec 24) : Length.Statement (.jalr h d b i) := Length.of_any _
theorem Length.loop (h : Hdr) (b : SReg) (start : BitVec 12) (len : BitVec 12) : Length.Statement (.loop h b start len) := Length.of_any _
theorem Length.ld (h : Hdr) (hint : Hint) (s : Bool) (w : Width) (d : SReg) (b : SReg) (y : AddrSrc) : Length.Statement (.ld h hint s w d b y) := Length.of_any _
theorem Length.st (h : Hdr) (hint : Hint) (w : Width) (v : SReg) (b : SReg) (y : AddrSrc) : Length.Statement (.st h hint w v b y) := Length.of_any _
theorem Length.amo (h : Hdr) (hint : Hint) (op : AmoOp) (w : Width) (d : SReg) (b : SReg) (y : SReg) : Length.Statement (.amo h hint op w d b y) := Length.of_any _
theorem Length.cas (h : Hdr) (hint : Hint) (w : Width) (d : SReg) (b : SReg) (x : SReg) (n : SReg) : Length.Statement (.cas h hint w d b x n) := Length.of_any _
theorem Length.cas128 (h : Hdr) (hint : Hint) (d : SReg) (b : SReg) (x : SReg) (n : SReg) : Length.Statement (.cas128 h hint d b x n) := Length.of_any _
theorem Length.pref (h : Hdr) (hint : Hint) (lv : PrefLevel) (b : SReg) (y : AddrSrc) : Length.Statement (.pref h hint lv b y) := Length.of_any _
theorem Length.fadd (h : Hdr) (f : SFmt) (r : Rnd) (d : SReg) (x : SReg) (y : SReg) : Length.Statement (.fadd h f r d x y) := Length.of_any _
theorem Length.fsub (h : Hdr) (f : SFmt) (r : Rnd) (d : SReg) (x : SReg) (y : SReg) : Length.Statement (.fsub h f r d x y) := Length.of_any _
theorem Length.fmul (h : Hdr) (f : SFmt) (r : Rnd) (d : SReg) (x : SReg) (y : SReg) : Length.Statement (.fmul h f r d x y) := Length.of_any _
theorem Length.ffma (h : Hdr) (form : FmaForm) (f : SFmt) (r : Rnd) (d : SReg) (x : SReg) (y : SReg) (z : SReg) : Length.Statement (.ffma h form f r d x y z) := Length.of_any _
theorem Length.fdiv (h : Hdr) (f : SFmt) (r : Rnd) (d : SReg) (x : SReg) (y : SReg) : Length.Statement (.fdiv h f r d x y) := Length.of_any _
theorem Length.fsqrt (h : Hdr) (f : SFmt) (r : Rnd) (d : SReg) (x : SReg) : Length.Statement (.fsqrt h f r d x) := Length.of_any _
theorem Length.fmin (h : Hdr) (f : SFmt) (d : SReg) (x : SReg) (y : SReg) : Length.Statement (.fmin h f d x y) := Length.of_any _
theorem Length.fmax (h : Hdr) (f : SFmt) (d : SReg) (x : SReg) (y : SReg) : Length.Statement (.fmax h f d x y) := Length.of_any _
theorem Length.fcmp (h : Hdr) (c : FCond) (f : SFmt) (d : PReg) (x : SReg) (y : SReg) : Length.Statement (.fcmp h c f d x y) := Length.of_any _
theorem Length.fcvt (h : Hdr) (dst : CvtFmt) (src : CvtFmt) (r : Rnd) (d : SReg) (x : SReg) : Length.Statement (.fcvt h dst src r d x) := Length.of_any _
theorem Length.fclass (h : Hdr) (f : SFmt) (d : SReg) (x : SReg) : Length.Statement (.fclass h f d x) := Length.of_any _
theorem Length.trap (h : Hdr) (code : BitVec 16) : Length.Statement (.trap h code) := Length.of_any _
theorem Length.eret (h : Hdr) : Length.Statement (.eret h) := Length.of_any _
theorem Length.eretV (h : Hdr) : Length.Statement (.eretV h) := Length.of_any _
theorem Length.ctlr (h : Hdr) (d : SReg) (n : BitVec 12) : Length.Statement (.ctlr h d n) := Length.of_any _
theorem Length.ctlw (h : Hdr) (n : BitVec 12) (b : SReg) : Length.Statement (.ctlw h n b) := Length.of_any _
theorem Length.halt (h : Hdr) : Length.Statement (.halt h) := Length.of_any _
theorem Length.yield (h : Hdr) : Length.Statement (.yield h) := Length.of_any _
theorem Length.nopre (h : Hdr) : Length.Statement (.nopre h) := Length.of_any _
theorem Length.preok (h : Hdr) : Length.Statement (.preok h) := Length.of_any _
theorem Length.launch (h : Hdr) (d : SReg) (b : SReg) (l : SReg) : Length.Statement (.launch h d b l) := Length.of_any _
theorem Length.movq (h : Hdr) (d : SReg) : Length.Statement (.movq h d) := Length.of_any _
theorem Length.pair (s0 : PairSlot) (s1 : PairSlot) : Length.Statement (.pair s0 s1) := Length.of_any _
theorem Length.illegalUnit (e : BadUnit) : Length.Statement (.illegalUnit e) := Length.of_any _
theorem Length.vclaim (h : Hdr) (d : SReg) (n : RegOrImm 4) : Length.Statement (.vclaim h d n) := Length.of_any _
theorem Length.vsetvl (h : Hdr) (claim : Bool) (d : SReg) (n : RegOrImm 24) : Length.Statement (.vsetvl h claim d n) := Length.of_any _
theorem Length.vconfig (h : Hdr) (nv : BitVec 2) : Length.Statement (.vconfig h nv) := Length.of_any _
theorem Length.vtype (h : Hdr) (v : RegOrImm 10) : Length.Statement (.vtype h v) := Length.of_any _
theorem Length.mmode (h : Hdr) (d : SReg) (b : SReg) (t : BitVec 5) : Length.Statement (.mmode h d b t) := Length.of_any _
theorem Length.mmodeOff (h : Hdr) : Length.Statement (.mmodeOff h) := Length.of_any _
theorem Length.vadd (h : Hdr) (k : KReg) (v : Bool) (d : VReg) (x : VReg) (y : VSrc) : Length.Statement (.vadd h k v d x y) := Length.of_any _
theorem Length.vsub (h : Hdr) (k : KReg) (v : Bool) (d : VReg) (x : VReg) (y : VSrc) : Length.Statement (.vsub h k v d x y) := Length.of_any _
theorem Length.vmul (h : Hdr) (k : KReg) (v : Bool) (d : VReg) (x : VReg) (y : VSrc) : Length.Statement (.vmul h k v d x y) := Length.of_any _
theorem Length.vmulh (h : Hdr) (k : KReg) (v : Bool) (d : VReg) (x : VReg) (y : VSrc) : Length.Statement (.vmulh h k v d x y) := Length.of_any _
theorem Length.vand (h : Hdr) (k : KReg) (d : VReg) (x : VReg) (y : VSrc) : Length.Statement (.vand h k d x y) := Length.of_any _
theorem Length.vor (h : Hdr) (k : KReg) (d : VReg) (x : VReg) (y : VSrc) : Length.Statement (.vor h k d x y) := Length.of_any _
theorem Length.vxor (h : Hdr) (k : KReg) (d : VReg) (x : VReg) (y : VSrc) : Length.Statement (.vxor h k d x y) := Length.of_any _
theorem Length.vshl (h : Hdr) (k : KReg) (d : VReg) (x : VReg) (y : VSrc) : Length.Statement (.vshl h k d x y) := Length.of_any _
theorem Length.vshr (h : Hdr) (k : KReg) (v : Bool) (d : VReg) (x : VReg) (y : VSrc) : Length.Statement (.vshr h k v d x y) := Length.of_any _
theorem Length.vmin (h : Hdr) (k : KReg) (v : Bool) (d : VReg) (x : VReg) (y : VSrc) : Length.Statement (.vmin h k v d x y) := Length.of_any _
theorem Length.vmax (h : Hdr) (k : KReg) (v : Bool) (d : VReg) (x : VReg) (y : VSrc) : Length.Statement (.vmax h k v d x y) := Length.of_any _
theorem Length.vcmp (h : Hdr) (k : KReg) (c : Cond) (d : KReg) (x : VReg) (y : VSrc) : Length.Statement (.vcmp h k c d x y) := Length.of_any _
theorem Length.vsel (h : Hdr) (m : KReg) (d : VReg) (x : VReg) (y : VSrc) : Length.Statement (.vsel h m d x y) := Length.of_any _
theorem Length.vclz (h : Hdr) (k : KReg) (d : VReg) (x : VReg) : Length.Statement (.vclz h k d x) := Length.of_any _
theorem Length.vffs (h : Hdr) (k : KReg) (d : VReg) (x : VReg) : Length.Statement (.vffs h k d x) := Length.of_any _
theorem Length.vpopc (h : Hdr) (k : KReg) (d : VReg) (x : VReg) : Length.Statement (.vpopc h k d x) := Length.of_any _
theorem Length.vfadd (h : Hdr) (k : KReg) (f : FFmt) (r : Rnd) (d : VReg) (x : VReg) (y : VSrc) : Length.Statement (.vfadd h k f r d x y) := Length.of_any _
theorem Length.vfsub (h : Hdr) (k : KReg) (f : FFmt) (r : Rnd) (d : VReg) (x : VReg) (y : VSrc) : Length.Statement (.vfsub h k f r d x y) := Length.of_any _
theorem Length.vfmul (h : Hdr) (k : KReg) (f : FFmt) (r : Rnd) (d : VReg) (x : VReg) (y : VSrc) : Length.Statement (.vfmul h k f r d x y) := Length.of_any _
theorem Length.vffma (h : Hdr) (k : KReg) (form : FmaForm) (f : FFmt) (r : Rnd) (d : VReg) (x : VReg) (y : VSrc) (z : VReg) : Length.Statement (.vffma h k form f r d x y z) := Length.of_any _
theorem Length.vfdiv (h : Hdr) (k : KReg) (f : SFmt) (r : Rnd) (d : VReg) (x : VReg) (y : VSrc) : Length.Statement (.vfdiv h k f r d x y) := Length.of_any _
theorem Length.vfsqrt (h : Hdr) (k : KReg) (f : SFmt) (r : Rnd) (d : VReg) (x : VReg) : Length.Statement (.vfsqrt h k f r d x) := Length.of_any _
theorem Length.vfmin (h : Hdr) (k : KReg) (f : FFmt) (d : VReg) (x : VReg) (y : VSrc) : Length.Statement (.vfmin h k f d x y) := Length.of_any _
theorem Length.vfmax (h : Hdr) (k : KReg) (f : FFmt) (d : VReg) (x : VReg) (y : VSrc) : Length.Statement (.vfmax h k f d x y) := Length.of_any _
theorem Length.vfcmp (h : Hdr) (k : KReg) (c : FCond) (f : FFmt) (d : KReg) (x : VReg) (y : VSrc) : Length.Statement (.vfcmp h k c f d x y) := Length.of_any _
theorem Length.vfcvt (h : Hdr) (k : KReg) (dst : CvtFmt) (src : CvtFmt) (r : Rnd) (d : VReg) (x : VReg) : Length.Statement (.vfcvt h k dst src r d x) := Length.of_any _
theorem Length.vfexp2 (h : Hdr) (k : KReg) (f : SFmt) (d : VReg) (x : VReg) : Length.Statement (.vfexp2 h k f d x) := Length.of_any _
theorem Length.vflog2 (h : Hdr) (k : KReg) (f : SFmt) (d : VReg) (x : VReg) : Length.Statement (.vflog2 h k f d x) := Length.of_any _
theorem Length.vfrcp (h : Hdr) (k : KReg) (f : SFmt) (d : VReg) (x : VReg) : Length.Statement (.vfrcp h k f d x) := Length.of_any _
theorem Length.vfrsq (h : Hdr) (k : KReg) (f : SFmt) (d : VReg) (x : VReg) : Length.Statement (.vfrsq h k f d x) := Length.of_any _
theorem Length.vqpack (h : Hdr) (k : KReg) (t : QType) (f : QFmt) (r : Rnd) (d : VReg) (s : VReg) (a : VReg) : Length.Statement (.vqpack h k t f r d s a) := Length.of_any _
theorem Length.vqunpack (h : Hdr) (k : KReg) (f : QFmt) (r : Rnd) (d : VReg) (a : VReg) (s : VReg) : Length.Statement (.vqunpack h k f r d a s) := Length.of_any _
theorem Length.vscacc (h : Hdr) (k : KReg) (src : ScaccSrc) (r : Rnd) (d : VReg) (a : VReg) (s : VReg) : Length.Statement (.vscacc h k src r d a s) := Length.of_any _
theorem Length.klog (h : Hdr) (op : LogOp) (d : KReg) (a : KReg) (b : KReg) : Length.Statement (.klog h op d a b) := Length.of_any _
theorem Length.vred (h : Hdr) (k : KReg) (grp : Bool) (op : RedOp) (d : VReg) (a : VReg) : Length.Statement (.vred h k grp op d a) := Length.of_any _
theorem Length.vscan (h : Hdr) (k : KReg) (ex : Bool) (op : RedOp) (d : VReg) (a : VReg) : Length.Statement (.vscan h k ex op d a) := Length.of_any _
theorem Length.vcomp (h : Hdr) (k : KReg) (cnt : Bool) (d : VReg) (a : VReg) : Length.Statement (.vcomp h k cnt d a) := Length.of_any _
theorem Length.vexp (h : Hdr) (k : KReg) (d : VReg) (a : VReg) : Length.Statement (.vexp h k d a) := Length.of_any _
theorem Length.vperm (h : Hdr) (k : KReg) (iw : IdxW) (d : VReg) (a : VReg) (i : VReg) : Length.Statement (.vperm h k iw d a i) := Length.of_any _
theorem Length.vslide (h : Hdr) (k : KReg) (down : Bool) (d : VReg) (a : VReg) (n : Src) : Length.Statement (.vslide h k down d a n) := Length.of_any _
theorem Length.vbcast (h : Hdr) (k : KReg) (d : VReg) (a : VReg) (n : Src) : Length.Statement (.vbcast h k d a n) := Length.of_any _
theorem Length.vtos (h : Hdr) (a : VReg) (n : Src) : Length.Statement (.vtos h a n) := Length.of_any _
theorem Length.vld (h : Hdr) (hint : Hint) (k : KReg) (d : VReg) (b : SReg) (off : Src) : Length.Statement (.vld h hint k d b off) := Length.of_any _
theorem Length.vlds (h : Hdr) (hint : Hint) (k : KReg) (d : VReg) (b : SReg) (stride : Src) : Length.Statement (.vlds h hint k d b stride) := Length.of_any _
theorem Length.vldx (h : Hdr) (hint : Hint) (k : KReg) (s : Bool) (iw : IdxW) (n : BitVec 2) (d : VReg) (b : SReg) (i : VReg) : Length.Statement (.vldx h hint k s iw n d b i) := Length.of_any _
theorem Length.vst (h : Hdr) (hint : Hint) (k : KReg) (v : VReg) (b : SReg) (off : Src) : Length.Statement (.vst h hint k v b off) := Length.of_any _
theorem Length.vsts (h : Hdr) (hint : Hint) (k : KReg) (v : VReg) (b : SReg) (stride : Src) : Length.Statement (.vsts h hint k v b stride) := Length.of_any _
theorem Length.vstx (h : Hdr) (hint : Hint) (k : KReg) (s : Bool) (iw : IdxW) (n : BitVec 2) (v : VReg) (b : SReg) (i : VReg) : Length.Statement (.vstx h hint k s iw n v b i) := Length.of_any _
theorem Length.vappend (h : Hdr) (hint : Hint) (k : KReg) (v : VReg) (b : SReg) : Length.Statement (.vappend h hint k v b) := Length.of_any _
theorem Length.rsload (h : Hdr) (hint : Hint) (q : BitVec 2) (b : SReg) : Length.Statement (.rsload h hint q b) := Length.of_any _
theorem Length.rsadd (h : Hdr) (k : KReg) (t : RsFmt) (q : BitVec 2) (d : VReg) (a : VReg) (b : VReg) : Length.Statement (.rsadd h k t q d a b) := Length.of_any _
theorem Length.rssub (h : Hdr) (k : KReg) (t : RsFmt) (q : BitVec 2) (d : VReg) (a : VReg) (b : VReg) : Length.Statement (.rssub h k t q d a b) := Length.of_any _
theorem Length.rsmul (h : Hdr) (k : KReg) (t : RsFmt) (q : BitVec 2) (d : VReg) (a : VReg) (b : VReg) : Length.Statement (.rsmul h k t q d a b) := Length.of_any _
theorem Length.rsdiv (h : Hdr) (k : KReg) (t : RsFmt) (q : BitVec 2) (d : VReg) (a : VReg) (b : VReg) : Length.Statement (.rsdiv h k t q d a b) := Length.of_any _
theorem Length.rsrcp (h : Hdr) (k : KReg) (t : RsFmt) (q : BitVec 2) (d : VReg) (a : VReg) : Length.Statement (.rsrcp h k t q d a) := Length.of_any _
theorem Length.rssqr (h : Hdr) (k : KReg) (t : RsFmt) (q : BitVec 2) (d : VReg) (a : VReg) : Length.Statement (.rssqr h k t q d a) := Length.of_any _
theorem Length.rssqrt (h : Hdr) (k : KReg) (t : RsFmt) (q : BitVec 2) (d : VReg) (a : VReg) : Length.Statement (.rssqrt h k t q d a) := Length.of_any _
theorem Length.rsunion (h : Hdr) (k : KReg) (t : RsFmt) (q : BitVec 2) (d : VReg) (a : VReg) (b : VReg) : Length.Statement (.rsunion h k t q d a b) := Length.of_any _
theorem Length.rsisect (h : Hdr) (k : KReg) (t : RsFmt) (q : BitVec 2) (d : VReg) (a : VReg) (b : VReg) : Length.Statement (.rsisect h k t q d a b) := Length.of_any _
theorem Length.rsfrom (h : Hdr) (k : KReg) (t : RsFmt) (f : SFmt) (q : BitVec 2) (d : VReg) (a : VReg) (b : VReg) : Length.Statement (.rsfrom h k t f q d a b) := Length.of_any _
theorem Length.rsbnd (h : Hdr) (k : KReg) (hi : Bool) (t : RsFmt) (f : SFmt) (q : BitVec 2) (d : VReg) (a : VReg) : Length.Statement (.rsbnd h k hi t f q d a) := Length.of_any _
theorem Length.rstest (h : Hdr) (k : KReg) (c : RsCond) (t : RsFmt) (q : BitVec 2) (d : KReg) (a : VReg) (b : VReg) : Length.Statement (.rstest h k c t q d a b) := Length.of_any _
theorem Length.mopa (h : Hdr) (form : MopaForm) (t : TileNo) (a : VReg) (b : VReg) : Length.Statement (.mopa h form t a b) := Length.of_any _
theorem Length.mopag (h : Hdr) (f : MFmt) (t : TileNo) (a : VReg) (b : VReg) (n : VReg) : Length.Statement (.mopag h f t a b n) := Length.of_any _
theorem Length.mzero (h : Hdr) (z : ZeroSel) : Length.Statement (.mzero h z) := Length.of_any _
theorem Length.mrd (h : Hdr) (col : Bool) (d : VReg) (t : TileNo) (c : SReg) : Length.Statement (.mrd h col d t c) := Length.of_any _
theorem Length.mwr (h : Hdr) (col : Bool) (t : TileNo) (a : VReg) (c : SReg) : Length.Statement (.mwr h col t a c) := Length.of_any _
theorem Length.mdrain (h : Hdr) (f : DrainFmt) (kind : DrainKind) (col : Bool) (d : VReg) (t : TileNo) (c : SReg) : Length.Statement (.mdrain h f kind col d t c) := Length.of_any _
theorem Length.mldt (h : Hdr) (hint : Hint) (t : TileNo) (b : SReg) (c : SReg) : Length.Statement (.mldt h hint t b c) := Length.of_any _
theorem Length.mstt (h : Hdr) (hint : Hint) (t : TileNo) (b : SReg) (c : SReg) : Length.Statement (.mstt h hint t b c) := Length.of_any _
theorem Length.cpset (h : Hdr) (n : BitVec 3) (y : Src) : Length.Statement (.cpset h n y) := Length.of_any _
theorem Length.cpgo (h : Hdr) (hint : Hint) (d : SReg) : Length.Statement (.cpgo h hint d) := Length.of_any _
theorem Length.cpgang (h : Hdr) (g : BitVec 4) (b : SReg) : Length.Statement (.cpgang h g b) := Length.of_any _
theorem Length.cpgangOff (h : Hdr) (g : BitVec 4) : Length.Statement (.cpgangOff h g) := Length.of_any _
theorem Length.bellInit (h : Hdr) (n : BitVec 8) (e : RegOrImm 16) : Length.Statement (.bellInit h n e) := Length.of_any _
theorem Length.bellArrive (h : Hdr) (d : SReg) (n : BitVec 8) : Length.Statement (.bellArrive h d n) := Length.of_any _
theorem Length.bellWait (h : Hdr) (n : BitVec 8) (t : RegOrImm 1) : Length.Statement (.bellWait h n t) := Length.of_any _
theorem Length.bellSync (h : Hdr) (n : BitVec 8) : Length.Statement (.bellSync h n) := Length.of_any _
theorem Length.bellRemote (h : Hdr) (d : SReg) (n : BitVec 8) (w : RegOrImm 3) : Length.Statement (.bellRemote h d n w) := Length.of_any _
theorem Length.waitlt (h : Hdr) (c : CtrNo) (n : RegOrImm 17) : Length.Statement (.waitlt h c n) := Length.of_any _
theorem Length.fence (h : Hdr) (o : FenceOrd) (s : Scope) : Length.Statement (.fence h o s) := Length.of_any _
theorem Length.fenceo (h : Hdr) : Length.Statement (.fenceo h) := Length.of_any _
theorem Length.fencer (h : Hdr) (s : Scope) (t : FencerTgt) : Length.Statement (.fencer h s t) := Length.of_any _
theorem Length.settle (h : Hdr) (b : SReg) (c : SReg) (n : CtrNo) : Length.Statement (.settle h b c n) := Length.of_any _
theorem Length.renew (h : Hdr) (b : SReg) (c : SReg) : Length.Statement (.renew h b c) := Length.of_any _
theorem Length.scount (h : Hdr) (clr : Bool) (d : SReg) (b : SReg) : Length.Statement (.scount h clr d b) := Length.of_any _
theorem Length.ipopSum (h : Hdr) (f : IpFmt) (x : SReg) (y : SReg) (c : SReg) (n : CtrNo) : Length.Statement (.ipopSum h f x y c n) := Length.of_any _
theorem Length.ipopScale (h : Hdr) (f : IpFmt) (x : SReg) (c : SReg) (a : SReg) (n : CtrNo) : Length.Statement (.ipopScale h f x c a n) := Length.of_any _
theorem Length.ipopAxpy (h : Hdr) (f : IpFmt) (x : SReg) (y : SReg) (c : SReg) (a : SReg) (n : CtrNo) : Length.Statement (.ipopAxpy h f x y c a n) := Length.of_any _
theorem Length.ipopFill (h : Hdr) (f : IpFmt) (x : SReg) (c : SReg) (a : SReg) (n : CtrNo) : Length.Statement (.ipopFill h f x c a n) := Length.of_any _
theorem Length.coll (h : Hdr) (op : CollOp) (f : IpFmt) (x : SReg) (y : SReg) (c : SReg) (det : Option SReg) (n : CtrNo) : Length.Statement (.coll h op f x y c det n) := Length.of_any _
theorem Length.sqWaitEnd (s : StrandId) : Length.Statement (.sqWaitEnd s) := Length.of_any _
theorem Length.vclaimGrant (s : StrandId) : Length.Statement (.vclaimGrant s) := Length.of_any _
theorem Length.tileGrant (s : StrandId) : Length.Statement (.tileGrant s) := Length.of_any _
theorem Length.bellWaitRelease (s : StrandId) : Length.Statement (.bellWaitRelease s) := Length.of_any _
theorem Length.remoteArrival (s : StrandId) : Length.Statement (.remoteArrival s) := Length.of_any _
theorem Length.waitltRelease (s : StrandId) : Length.Statement (.waitltRelease s) := Length.of_any _
theorem Length.vectorBeat (s : StrandId) (g : LaneBeat) : Length.Statement (.vectorBeat s g) := Length.of_any _
theorem Length.beatCommit (s : CommitTurn) : Length.Statement (.beatCommit s) := Length.of_any _
theorem Length.vectorTrap (s : StrandId) : Length.Statement (.vectorTrap s) := Length.of_any _
theorem Length.xqPost (s : StrandId) : Length.Statement (.xqPost s) := Length.of_any _
theorem Length.matrixComplete (c : MatrixTurn) : Length.Statement (.matrixComplete c) := Length.of_any _
theorem Length.rsloadCommit (s : StrandId) : Length.Statement (.rsloadCommit s) := Length.of_any _
theorem Length.gangConsume (s : StrandId) : Length.Statement (.gangConsume s) := Length.of_any _
theorem Length.transferChunk (c : CoreId) (id : BitVec 32) (j : Nat) : Length.Statement (.transferChunk c id j) := Length.of_any _
theorem Length.transferComplete (c : CoreId) (id : BitVec 32) : Length.Statement (.transferComplete c id) := Length.of_any _
theorem Length.copyFault (s : StrandId) : Length.Statement (.copyFault s) := Length.of_any _
theorem Length.settleLineStep (c : CoreId) (id : BitVec 32) (line : Nat) : Length.Statement (.settleLineStep c id line) := Length.of_any _
theorem Length.ipopSector (c : CoreId) (id : BitVec 32) (sector : Nat) : Length.Statement (.ipopSector c id sector) := Length.of_any _
theorem Length.ipopComplete (c : CoreId) (id : BitVec 32) : Length.Statement (.ipopComplete c id) := Length.of_any _
theorem Length.collLanding (c : CoreId) (id : BitVec 32) : Length.Statement (.collLanding c id) := Length.of_any _
theorem Length.readAhead (s : StrandId) (x : ReadTurn) : Length.Statement (.readAhead s x) := Length.of_any _
theorem Length.egressStep (s : StrandId) (k : Nat) : Length.Statement (.egressStep s k) := Length.of_any _
theorem Length.performStep (c : CoreId) (line : Nat) : Length.Statement (.performStep c line) := Length.of_any _
theorem Length.fillRequest (s : StrandId) : Length.Statement (.fillRequest s) := Length.of_any _
theorem Length.fillInstall (c : CoreId) (line : Nat) : Length.Statement (.fillInstall c line) := Length.of_any _
theorem Length.rs (h : Holder) (line : Nat) : Length.Statement (.rs h line) := Length.of_any _
theorem Length.rx (h : Holder) (line : Nat) : Length.Statement (.rx h line) := Length.of_any _
theorem Length.wb (h : Holder) (line : Nat) : Length.Statement (.wb h line) := Length.of_any _
theorem Length.dr (h : Holder) (line : Nat) : Length.Statement (.dr h line) := Length.of_any _
theorem Length.at (s : StrandId) : Length.Statement (.at s) := Length.of_any _
theorem Length.applyStep (h : Holder) (line : Nat) : Length.Statement (.applyStep h line) := Length.of_any _
theorem Length.recall (line : Nat) : Length.Statement (.recall line) := Length.of_any _
theorem Length.retire (line : Nat) : Length.Statement (.retire line) := Length.of_any _
theorem Length.hostSnoop (line : HostTake) : Length.Statement (.hostSnoop line) := Length.of_any _
theorem Length.cxlMemRequest (line : Nat) (k : CxlKind) : Length.Statement (.cxlMemRequest line k) := Length.of_any _
theorem Length.pcieCompletion (s : StrandId) (st : PcieStatus) : Length.Statement (.pcieCompletion s st) := Length.of_any _
theorem Length.completionTimeout (s : StrandId) : Length.Statement (.completionTimeout s) := Length.of_any _
theorem Length.postedWriteFailure (h : HallId) : Length.Statement (.postedWriteFailure h) := Length.of_any _
theorem Length.hostLinkUp (h : HallId) (spd : BitVec 3) (wid : BitVec 5) (cxl : Bool) : Length.Statement (.hostLinkUp h spd wid cxl) := Length.of_any _
theorem Length.packetForward (h : HallId) (p : PeerPacket) : Length.Statement (.packetForward h p) := Length.of_any _
theorem Length.flitReplay (h : HallId) (k : Fin 18) : Length.Statement (.flitReplay h k) := Length.of_any _
theorem Length.peerLinkDown (h : HallId) (k : Fin 18) : Length.Statement (.peerLinkDown h k) := Length.of_any _
theorem Length.peerLinkUp (h : HallId) (k : Fin 18) (peer : BitVec 6) : Length.Statement (.peerLinkUp h k peer) := Length.of_any _
theorem Length.peerPackageLost (p : BitVec 6) : Length.Statement (.peerPackageLost p) := Length.of_any _
theorem Length.hallDieLost (h : HallId) : Length.Statement (.hallDieLost h) := Length.of_any _
theorem Length.rollCallStep : Length.Statement (.rollCallStep) := Length.of_any _
theorem Length.rollStallTimeout (s : StrandId) : Length.Statement (.rollStallTimeout s) := Length.of_any _
theorem Length.hrollAdv : Length.Statement (.hrollAdv) := Length.of_any _
theorem Length.tick : Length.Statement (.tick) := Length.of_any _
theorem Length.scrub (e : ErrSite) : Length.Statement (.scrub e) := Length.of_any _
theorem Length.vbondRepair (d : DieId) : Length.Statement (.vbondRepair d) := Length.of_any _
theorem Length.vbctlGo (d : DieId) : Length.Statement (.vbctlGo d) := Length.of_any _
theorem Length.l2wqWrite (d : DieId) (v : Word) : Length.Statement (.l2wqWrite d v) := Length.of_any _
theorem Length.tlbicGo (d : DieId) (v : Word) : Length.Statement (.tlbicGo d v) := Length.of_any _
theorem Length.tlbiDone (d : DieId) : Length.Statement (.tlbiDone d) := Length.of_any _
theorem Length.fresRetry (d : DieId) (tag : BitVec 16) : Length.Statement (.fresRetry d tag) := Length.of_any _
theorem Length.fresDeliver (d : DieId) (tag : BitVec 16) : Length.Statement (.fresDeliver d tag) := Length.of_any _
theorem Length.fresEnd (d : DieId) (tag : BitVec 16) : Length.Statement (.fresEnd d tag) := Length.of_any _
theorem Length.llctlWrite (n : Fin 64) (v : Word) : Length.Statement (.llctlWrite n v) := Length.of_any _
theorem Length.recordConsume (n : Fin 64) : Length.Statement (.recordConsume n) := Length.of_any _
theorem Length.launchPlacement (lid : BitVec 32) : Length.Statement (.launchPlacement lid) := Length.of_any _
theorem Length.placementRequest (lid : BitVec 32) : Length.Statement (.placementRequest lid) := Length.of_any _
theorem Length.plres (h : HallId) (v : Word) : Length.Statement (.plres h v) := Length.of_any _
theorem Length.launchComplete (lid : BitVec 32) : Length.Statement (.launchComplete lid) := Length.of_any _
theorem Length.launchEnd (lid : BitVec 32) : Length.Statement (.launchEnd lid) := Length.of_any _
theorem Length.recess (lid : BitVec 32) (block : Nat) : Length.Statement (.recess lid block) := Length.of_any _
theorem Length.resume (lid : BitVec 32) (block : Nat) : Length.Statement (.resume lid block) := Length.of_any _
theorem Length.holdExpiry (s : StrandId) : Length.Statement (.holdExpiry s) := Length.of_any _
theorem Length.thermalThreshold (d : DieId) (c : Fin 4) (temp : BitVec 16) : Length.Statement (.thermalThreshold d c temp) := Length.of_any _
theorem Length.tempBelowThr (d : DieId) (c : Fin 5) (temp : BitVec 16) : Length.Statement (.tempBelowThr d c temp) := Length.of_any _
theorem Length.dieOvertemp (d : DieId) (temp : BitVec 16) : Length.Statement (.dieOvertemp d temp) := Length.of_any _
theorem Length.powerWindow (watts : Nat) : Length.Statement (.powerWindow watts) := Length.of_any _
theorem Length.hostQueueAppend : Length.Statement (.hostQueueAppend) := Length.of_any _
theorem Length.dutyWrite (v : Word) : Length.Statement (.dutyWrite v) := Length.of_any _
theorem Length.eresResume (tag : BitVec 16) : Length.Statement (.eresResume tag) := Length.of_any _
theorem Length.eresEnd (tag : BitVec 16) : Length.Statement (.eresEnd tag) := Length.of_any _
theorem Length.trapRegisterWrite (s : StrandId) (n : BitVec 12) (v : Word) : Length.Statement (.trapRegisterWrite s n v) := Length.of_any _
theorem Length.attctlGo (v : Word) : Length.Statement (.attctlGo v) := Length.of_any _
theorem Length.attestationDone : Length.Statement (.attestationDone) := Length.of_any _
theorem Length.pwrlimWrite (v : Word) : Length.Statement (.pwrlimWrite v) := Length.of_any _
theorem Length.moduleReset : Length.Statement (.moduleReset) := Length.of_any _
theorem Length.almanacUpdate (u : AbsentUnit) : Length.Statement (.almanacUpdate u) := Length.of_any _
theorem Length.registerWrite (off : Nat) (v : Word) : Length.Statement (.registerWrite off v) := Length.of_any _

end Sys2Proof.Laws
end

