-- ==== Sys2Proof/Laws/State.lean ====
section
/-! SUPPORT. What each update of the state leaves alone: one lemma per field and update; and what reading gives after a write. -/
namespace Sys2Proof.Machine

/-! ## The package -/

@[simp] theorem State.setCore_dies (s : State) (c : CoreId) (x : Core) : (s.setCore c x).dies = s.dies := rfl
@[simp] theorem State.setCore_halls (s : State) (c : CoreId) (x : Core) : (s.setCore c x).halls = s.halls := rfl
@[simp] theorem State.setCore_slices (s : State) (c : CoreId) (x : Core) : (s.setCore c x).slices = s.slices := rfl
@[simp] theorem State.setCore_pending (s : State) (c : CoreId) (x : Core) : (s.setCore c x).pending = s.pending := rfl
@[simp] theorem State.setCore_rollCall (s : State) (c : CoreId) (x : Core) : (s.setCore c x).rollCall = s.rollCall := rfl
@[simp] theorem State.setCore_arrays (s : State) (c : CoreId) (x : Core) : (s.setCore c x).arrays = s.arrays := rfl
@[simp] theorem State.setCore_regions (s : State) (c : CoreId) (x : Core) : (s.setCore c x).regions = s.regions := rfl
@[simp] theorem State.setCore_tick (s : State) (c : CoreId) (x : Core) : (s.setCore c x).tick = s.tick := rfl
@[simp] theorem State.setCore_lists (s : State) (c : CoreId) (x : Core) : (s.setCore c x).lists = s.lists := rfl
@[simp] theorem State.setCore_launches (s : State) (c : CoreId) (x : Core) : (s.setCore c x).launches = s.launches := rfl
@[simp] theorem State.setCore_recessStore (s : State) (c : CoreId) (x : Core) : (s.setCore c x).recessStore = s.recessStore := rfl
@[simp] theorem State.setCore_preber (s : State) (c : CoreId) (x : Core) : (s.setCore c x).preber = s.preber := rfl
@[simp] theorem State.setCore_almanac (s : State) (c : CoreId) (x : Core) : (s.setCore c x).almanac = s.almanac := rfl
@[simp] theorem State.setCore_lostPeers (s : State) (c : CoreId) (x : Core) : (s.setCore c x).lostPeers = s.lostPeers := rfl
@[simp] theorem State.setCore_absentPend (s : State) (c : CoreId) (x : Core) : (s.setCore c x).absentPend = s.absentPend := rfl
@[simp] theorem State.setCore_errs (s : State) (c : CoreId) (x : Core) : (s.setCore c x).errs = s.errs := rfl
@[simp] theorem State.setCore_agenda (s : State) (c : CoreId) (x : Core) : (s.setCore c x).agenda = s.agenda := rfl
@[simp] theorem State.setCore_cur (s : State) (c : CoreId) (x : Core) : (s.setCore c x).cur = s.cur := rfl
@[simp] theorem State.setCore_fresh (s : State) (c : CoreId) (x : Core) : (s.setCore c x).fresh = s.fresh := rfl
@[simp] theorem State.modCore_dies (s : State) (c : CoreId) (f : Core → Core) : (s.modCore c f).dies = s.dies := rfl
@[simp] theorem State.modCore_halls (s : State) (c : CoreId) (f : Core → Core) : (s.modCore c f).halls = s.halls := rfl
@[simp] theorem State.modCore_slices (s : State) (c : CoreId) (f : Core → Core) : (s.modCore c f).slices = s.slices := rfl
@[simp] theorem State.modCore_pending (s : State) (c : CoreId) (f : Core → Core) : (s.modCore c f).pending = s.pending := rfl
@[simp] theorem State.modCore_rollCall (s : State) (c : CoreId) (f : Core → Core) : (s.modCore c f).rollCall = s.rollCall := rfl
@[simp] theorem State.modCore_arrays (s : State) (c : CoreId) (f : Core → Core) : (s.modCore c f).arrays = s.arrays := rfl
@[simp] theorem State.modCore_regions (s : State) (c : CoreId) (f : Core → Core) : (s.modCore c f).regions = s.regions := rfl
@[simp] theorem State.modCore_tick (s : State) (c : CoreId) (f : Core → Core) : (s.modCore c f).tick = s.tick := rfl
@[simp] theorem State.modCore_lists (s : State) (c : CoreId) (f : Core → Core) : (s.modCore c f).lists = s.lists := rfl
@[simp] theorem State.modCore_launches (s : State) (c : CoreId) (f : Core → Core) : (s.modCore c f).launches = s.launches := rfl
@[simp] theorem State.modCore_recessStore (s : State) (c : CoreId) (f : Core → Core) : (s.modCore c f).recessStore = s.recessStore := rfl
@[simp] theorem State.modCore_preber (s : State) (c : CoreId) (f : Core → Core) : (s.modCore c f).preber = s.preber := rfl
@[simp] theorem State.modCore_almanac (s : State) (c : CoreId) (f : Core → Core) : (s.modCore c f).almanac = s.almanac := rfl
@[simp] theorem State.modCore_lostPeers (s : State) (c : CoreId) (f : Core → Core) : (s.modCore c f).lostPeers = s.lostPeers := rfl
@[simp] theorem State.modCore_absentPend (s : State) (c : CoreId) (f : Core → Core) : (s.modCore c f).absentPend = s.absentPend := rfl
@[simp] theorem State.modCore_errs (s : State) (c : CoreId) (f : Core → Core) : (s.modCore c f).errs = s.errs := rfl
@[simp] theorem State.modCore_agenda (s : State) (c : CoreId) (f : Core → Core) : (s.modCore c f).agenda = s.agenda := rfl
@[simp] theorem State.modCore_cur (s : State) (c : CoreId) (f : Core → Core) : (s.modCore c f).cur = s.cur := rfl
@[simp] theorem State.modCore_fresh (s : State) (c : CoreId) (f : Core → Core) : (s.modCore c f).fresh = s.fresh := rfl
@[simp] theorem State.setStrand_dies (s : State) (id : StrandId) (x : Strand) : (s.setStrand id x).dies = s.dies := rfl
@[simp] theorem State.setStrand_halls (s : State) (id : StrandId) (x : Strand) : (s.setStrand id x).halls = s.halls := rfl
@[simp] theorem State.setStrand_slices (s : State) (id : StrandId) (x : Strand) : (s.setStrand id x).slices = s.slices := rfl
@[simp] theorem State.setStrand_pending (s : State) (id : StrandId) (x : Strand) : (s.setStrand id x).pending = s.pending := rfl
@[simp] theorem State.setStrand_rollCall (s : State) (id : StrandId) (x : Strand) : (s.setStrand id x).rollCall = s.rollCall := rfl
@[simp] theorem State.setStrand_arrays (s : State) (id : StrandId) (x : Strand) : (s.setStrand id x).arrays = s.arrays := rfl
@[simp] theorem State.setStrand_regions (s : State) (id : StrandId) (x : Strand) : (s.setStrand id x).regions = s.regions := rfl
@[simp] theorem State.setStrand_tick (s : State) (id : StrandId) (x : Strand) : (s.setStrand id x).tick = s.tick := rfl
@[simp] theorem State.setStrand_lists (s : State) (id : StrandId) (x : Strand) : (s.setStrand id x).lists = s.lists := rfl
@[simp] theorem State.setStrand_launches (s : State) (id : StrandId) (x : Strand) : (s.setStrand id x).launches = s.launches := rfl
@[simp] theorem State.setStrand_recessStore (s : State) (id : StrandId) (x : Strand) : (s.setStrand id x).recessStore = s.recessStore := rfl
@[simp] theorem State.setStrand_preber (s : State) (id : StrandId) (x : Strand) : (s.setStrand id x).preber = s.preber := rfl
@[simp] theorem State.setStrand_almanac (s : State) (id : StrandId) (x : Strand) : (s.setStrand id x).almanac = s.almanac := rfl
@[simp] theorem State.setStrand_lostPeers (s : State) (id : StrandId) (x : Strand) : (s.setStrand id x).lostPeers = s.lostPeers := rfl
@[simp] theorem State.setStrand_absentPend (s : State) (id : StrandId) (x : Strand) : (s.setStrand id x).absentPend = s.absentPend := rfl
@[simp] theorem State.setStrand_errs (s : State) (id : StrandId) (x : Strand) : (s.setStrand id x).errs = s.errs := rfl
@[simp] theorem State.setStrand_agenda (s : State) (id : StrandId) (x : Strand) : (s.setStrand id x).agenda = s.agenda := rfl
@[simp] theorem State.setStrand_cur (s : State) (id : StrandId) (x : Strand) : (s.setStrand id x).cur = s.cur := rfl
@[simp] theorem State.setStrand_fresh (s : State) (id : StrandId) (x : Strand) : (s.setStrand id x).fresh = s.fresh := rfl
@[simp] theorem State.modStrand_dies (s : State) (id : StrandId) (f : Strand → Strand) : (s.modStrand id f).dies = s.dies := rfl
@[simp] theorem State.modStrand_halls (s : State) (id : StrandId) (f : Strand → Strand) : (s.modStrand id f).halls = s.halls := rfl
@[simp] theorem State.modStrand_slices (s : State) (id : StrandId) (f : Strand → Strand) : (s.modStrand id f).slices = s.slices := rfl
@[simp] theorem State.modStrand_pending (s : State) (id : StrandId) (f : Strand → Strand) : (s.modStrand id f).pending = s.pending := rfl
@[simp] theorem State.modStrand_rollCall (s : State) (id : StrandId) (f : Strand → Strand) : (s.modStrand id f).rollCall = s.rollCall := rfl
@[simp] theorem State.modStrand_arrays (s : State) (id : StrandId) (f : Strand → Strand) : (s.modStrand id f).arrays = s.arrays := rfl
@[simp] theorem State.modStrand_regions (s : State) (id : StrandId) (f : Strand → Strand) : (s.modStrand id f).regions = s.regions := rfl
@[simp] theorem State.modStrand_tick (s : State) (id : StrandId) (f : Strand → Strand) : (s.modStrand id f).tick = s.tick := rfl
@[simp] theorem State.modStrand_lists (s : State) (id : StrandId) (f : Strand → Strand) : (s.modStrand id f).lists = s.lists := rfl
@[simp] theorem State.modStrand_launches (s : State) (id : StrandId) (f : Strand → Strand) : (s.modStrand id f).launches = s.launches := rfl
@[simp] theorem State.modStrand_recessStore (s : State) (id : StrandId) (f : Strand → Strand) : (s.modStrand id f).recessStore = s.recessStore := rfl
@[simp] theorem State.modStrand_preber (s : State) (id : StrandId) (f : Strand → Strand) : (s.modStrand id f).preber = s.preber := rfl
@[simp] theorem State.modStrand_almanac (s : State) (id : StrandId) (f : Strand → Strand) : (s.modStrand id f).almanac = s.almanac := rfl
@[simp] theorem State.modStrand_lostPeers (s : State) (id : StrandId) (f : Strand → Strand) : (s.modStrand id f).lostPeers = s.lostPeers := rfl
@[simp] theorem State.modStrand_absentPend (s : State) (id : StrandId) (f : Strand → Strand) : (s.modStrand id f).absentPend = s.absentPend := rfl
@[simp] theorem State.modStrand_errs (s : State) (id : StrandId) (f : Strand → Strand) : (s.modStrand id f).errs = s.errs := rfl
@[simp] theorem State.modStrand_agenda (s : State) (id : StrandId) (f : Strand → Strand) : (s.modStrand id f).agenda = s.agenda := rfl
@[simp] theorem State.modStrand_cur (s : State) (id : StrandId) (f : Strand → Strand) : (s.modStrand id f).cur = s.cur := rfl
@[simp] theorem State.modStrand_fresh (s : State) (id : StrandId) (f : Strand → Strand) : (s.modStrand id f).fresh = s.fresh := rfl
@[simp] theorem State.modMe_dies (s : State) (f : Strand → Strand) : (s.modMe f).dies = s.dies := rfl
@[simp] theorem State.modMe_halls (s : State) (f : Strand → Strand) : (s.modMe f).halls = s.halls := rfl
@[simp] theorem State.modMe_slices (s : State) (f : Strand → Strand) : (s.modMe f).slices = s.slices := rfl
@[simp] theorem State.modMe_pending (s : State) (f : Strand → Strand) : (s.modMe f).pending = s.pending := rfl
@[simp] theorem State.modMe_rollCall (s : State) (f : Strand → Strand) : (s.modMe f).rollCall = s.rollCall := rfl
@[simp] theorem State.modMe_arrays (s : State) (f : Strand → Strand) : (s.modMe f).arrays = s.arrays := rfl
@[simp] theorem State.modMe_regions (s : State) (f : Strand → Strand) : (s.modMe f).regions = s.regions := rfl
@[simp] theorem State.modMe_tick (s : State) (f : Strand → Strand) : (s.modMe f).tick = s.tick := rfl
@[simp] theorem State.modMe_lists (s : State) (f : Strand → Strand) : (s.modMe f).lists = s.lists := rfl
@[simp] theorem State.modMe_launches (s : State) (f : Strand → Strand) : (s.modMe f).launches = s.launches := rfl
@[simp] theorem State.modMe_recessStore (s : State) (f : Strand → Strand) : (s.modMe f).recessStore = s.recessStore := rfl
@[simp] theorem State.modMe_preber (s : State) (f : Strand → Strand) : (s.modMe f).preber = s.preber := rfl
@[simp] theorem State.modMe_almanac (s : State) (f : Strand → Strand) : (s.modMe f).almanac = s.almanac := rfl
@[simp] theorem State.modMe_lostPeers (s : State) (f : Strand → Strand) : (s.modMe f).lostPeers = s.lostPeers := rfl
@[simp] theorem State.modMe_absentPend (s : State) (f : Strand → Strand) : (s.modMe f).absentPend = s.absentPend := rfl
@[simp] theorem State.modMe_errs (s : State) (f : Strand → Strand) : (s.modMe f).errs = s.errs := rfl
@[simp] theorem State.modMe_agenda (s : State) (f : Strand → Strand) : (s.modMe f).agenda = s.agenda := rfl
@[simp] theorem State.modMe_cur (s : State) (f : Strand → Strand) : (s.modMe f).cur = s.cur := rfl
@[simp] theorem State.modMe_fresh (s : State) (f : Strand → Strand) : (s.modMe f).fresh = s.fresh := rfl
@[simp] theorem State.setDie_cores (s : State) (d : DieId) (x : Die) : (s.setDie d x).cores = s.cores := rfl
@[simp] theorem State.setDie_halls (s : State) (d : DieId) (x : Die) : (s.setDie d x).halls = s.halls := rfl
@[simp] theorem State.setDie_slices (s : State) (d : DieId) (x : Die) : (s.setDie d x).slices = s.slices := rfl
@[simp] theorem State.setDie_pending (s : State) (d : DieId) (x : Die) : (s.setDie d x).pending = s.pending := rfl
@[simp] theorem State.setDie_rollCall (s : State) (d : DieId) (x : Die) : (s.setDie d x).rollCall = s.rollCall := rfl
@[simp] theorem State.setDie_arrays (s : State) (d : DieId) (x : Die) : (s.setDie d x).arrays = s.arrays := rfl
@[simp] theorem State.setDie_regions (s : State) (d : DieId) (x : Die) : (s.setDie d x).regions = s.regions := rfl
@[simp] theorem State.setDie_tick (s : State) (d : DieId) (x : Die) : (s.setDie d x).tick = s.tick := rfl
@[simp] theorem State.setDie_lists (s : State) (d : DieId) (x : Die) : (s.setDie d x).lists = s.lists := rfl
@[simp] theorem State.setDie_launches (s : State) (d : DieId) (x : Die) : (s.setDie d x).launches = s.launches := rfl
@[simp] theorem State.setDie_recessStore (s : State) (d : DieId) (x : Die) : (s.setDie d x).recessStore = s.recessStore := rfl
@[simp] theorem State.setDie_preber (s : State) (d : DieId) (x : Die) : (s.setDie d x).preber = s.preber := rfl
@[simp] theorem State.setDie_almanac (s : State) (d : DieId) (x : Die) : (s.setDie d x).almanac = s.almanac := rfl
@[simp] theorem State.setDie_lostPeers (s : State) (d : DieId) (x : Die) : (s.setDie d x).lostPeers = s.lostPeers := rfl
@[simp] theorem State.setDie_absentPend (s : State) (d : DieId) (x : Die) : (s.setDie d x).absentPend = s.absentPend := rfl
@[simp] theorem State.setDie_errs (s : State) (d : DieId) (x : Die) : (s.setDie d x).errs = s.errs := rfl
@[simp] theorem State.setDie_agenda (s : State) (d : DieId) (x : Die) : (s.setDie d x).agenda = s.agenda := rfl
@[simp] theorem State.setDie_cur (s : State) (d : DieId) (x : Die) : (s.setDie d x).cur = s.cur := rfl
@[simp] theorem State.setDie_fresh (s : State) (d : DieId) (x : Die) : (s.setDie d x).fresh = s.fresh := rfl
@[simp] theorem State.modDie_cores (s : State) (d : DieId) (f : Die → Die) : (s.modDie d f).cores = s.cores := rfl
@[simp] theorem State.modDie_halls (s : State) (d : DieId) (f : Die → Die) : (s.modDie d f).halls = s.halls := rfl
@[simp] theorem State.modDie_slices (s : State) (d : DieId) (f : Die → Die) : (s.modDie d f).slices = s.slices := rfl
@[simp] theorem State.modDie_pending (s : State) (d : DieId) (f : Die → Die) : (s.modDie d f).pending = s.pending := rfl
@[simp] theorem State.modDie_rollCall (s : State) (d : DieId) (f : Die → Die) : (s.modDie d f).rollCall = s.rollCall := rfl
@[simp] theorem State.modDie_arrays (s : State) (d : DieId) (f : Die → Die) : (s.modDie d f).arrays = s.arrays := rfl
@[simp] theorem State.modDie_regions (s : State) (d : DieId) (f : Die → Die) : (s.modDie d f).regions = s.regions := rfl
@[simp] theorem State.modDie_tick (s : State) (d : DieId) (f : Die → Die) : (s.modDie d f).tick = s.tick := rfl
@[simp] theorem State.modDie_lists (s : State) (d : DieId) (f : Die → Die) : (s.modDie d f).lists = s.lists := rfl
@[simp] theorem State.modDie_launches (s : State) (d : DieId) (f : Die → Die) : (s.modDie d f).launches = s.launches := rfl
@[simp] theorem State.modDie_recessStore (s : State) (d : DieId) (f : Die → Die) : (s.modDie d f).recessStore = s.recessStore := rfl
@[simp] theorem State.modDie_preber (s : State) (d : DieId) (f : Die → Die) : (s.modDie d f).preber = s.preber := rfl
@[simp] theorem State.modDie_almanac (s : State) (d : DieId) (f : Die → Die) : (s.modDie d f).almanac = s.almanac := rfl
@[simp] theorem State.modDie_lostPeers (s : State) (d : DieId) (f : Die → Die) : (s.modDie d f).lostPeers = s.lostPeers := rfl
@[simp] theorem State.modDie_absentPend (s : State) (d : DieId) (f : Die → Die) : (s.modDie d f).absentPend = s.absentPend := rfl
@[simp] theorem State.modDie_errs (s : State) (d : DieId) (f : Die → Die) : (s.modDie d f).errs = s.errs := rfl
@[simp] theorem State.modDie_agenda (s : State) (d : DieId) (f : Die → Die) : (s.modDie d f).agenda = s.agenda := rfl
@[simp] theorem State.modDie_cur (s : State) (d : DieId) (f : Die → Die) : (s.modDie d f).cur = s.cur := rfl
@[simp] theorem State.modDie_fresh (s : State) (d : DieId) (f : Die → Die) : (s.modDie d f).fresh = s.fresh := rfl
@[simp] theorem State.modHall_cores (s : State) (h : HallId) (f : Hall → Hall) : (s.modHall h f).cores = s.cores := rfl
@[simp] theorem State.modHall_dies (s : State) (h : HallId) (f : Hall → Hall) : (s.modHall h f).dies = s.dies := rfl
@[simp] theorem State.modHall_slices (s : State) (h : HallId) (f : Hall → Hall) : (s.modHall h f).slices = s.slices := rfl
@[simp] theorem State.modHall_pending (s : State) (h : HallId) (f : Hall → Hall) : (s.modHall h f).pending = s.pending := rfl
@[simp] theorem State.modHall_rollCall (s : State) (h : HallId) (f : Hall → Hall) : (s.modHall h f).rollCall = s.rollCall := rfl
@[simp] theorem State.modHall_arrays (s : State) (h : HallId) (f : Hall → Hall) : (s.modHall h f).arrays = s.arrays := rfl
@[simp] theorem State.modHall_regions (s : State) (h : HallId) (f : Hall → Hall) : (s.modHall h f).regions = s.regions := rfl
@[simp] theorem State.modHall_tick (s : State) (h : HallId) (f : Hall → Hall) : (s.modHall h f).tick = s.tick := rfl
@[simp] theorem State.modHall_lists (s : State) (h : HallId) (f : Hall → Hall) : (s.modHall h f).lists = s.lists := rfl
@[simp] theorem State.modHall_launches (s : State) (h : HallId) (f : Hall → Hall) : (s.modHall h f).launches = s.launches := rfl
@[simp] theorem State.modHall_recessStore (s : State) (h : HallId) (f : Hall → Hall) : (s.modHall h f).recessStore = s.recessStore := rfl
@[simp] theorem State.modHall_preber (s : State) (h : HallId) (f : Hall → Hall) : (s.modHall h f).preber = s.preber := rfl
@[simp] theorem State.modHall_almanac (s : State) (h : HallId) (f : Hall → Hall) : (s.modHall h f).almanac = s.almanac := rfl
@[simp] theorem State.modHall_lostPeers (s : State) (h : HallId) (f : Hall → Hall) : (s.modHall h f).lostPeers = s.lostPeers := rfl
@[simp] theorem State.modHall_absentPend (s : State) (h : HallId) (f : Hall → Hall) : (s.modHall h f).absentPend = s.absentPend := rfl
@[simp] theorem State.modHall_errs (s : State) (h : HallId) (f : Hall → Hall) : (s.modHall h f).errs = s.errs := rfl
@[simp] theorem State.modHall_agenda (s : State) (h : HallId) (f : Hall → Hall) : (s.modHall h f).agenda = s.agenda := rfl
@[simp] theorem State.modHall_cur (s : State) (h : HallId) (f : Hall → Hall) : (s.modHall h f).cur = s.cur := rfl
@[simp] theorem State.modHall_fresh (s : State) (h : HallId) (f : Hall → Hall) : (s.modHall h f).fresh = s.fresh := rfl
@[simp] theorem State.modSlice_cores (s : State) (h : HallId) (f : Slice → Slice) : (s.modSlice h f).cores = s.cores := rfl
@[simp] theorem State.modSlice_dies (s : State) (h : HallId) (f : Slice → Slice) : (s.modSlice h f).dies = s.dies := rfl
@[simp] theorem State.modSlice_halls (s : State) (h : HallId) (f : Slice → Slice) : (s.modSlice h f).halls = s.halls := rfl
@[simp] theorem State.modSlice_pending (s : State) (h : HallId) (f : Slice → Slice) : (s.modSlice h f).pending = s.pending := rfl
@[simp] theorem State.modSlice_rollCall (s : State) (h : HallId) (f : Slice → Slice) : (s.modSlice h f).rollCall = s.rollCall := rfl
@[simp] theorem State.modSlice_arrays (s : State) (h : HallId) (f : Slice → Slice) : (s.modSlice h f).arrays = s.arrays := rfl
@[simp] theorem State.modSlice_regions (s : State) (h : HallId) (f : Slice → Slice) : (s.modSlice h f).regions = s.regions := rfl
@[simp] theorem State.modSlice_tick (s : State) (h : HallId) (f : Slice → Slice) : (s.modSlice h f).tick = s.tick := rfl
@[simp] theorem State.modSlice_lists (s : State) (h : HallId) (f : Slice → Slice) : (s.modSlice h f).lists = s.lists := rfl
@[simp] theorem State.modSlice_launches (s : State) (h : HallId) (f : Slice → Slice) : (s.modSlice h f).launches = s.launches := rfl
@[simp] theorem State.modSlice_recessStore (s : State) (h : HallId) (f : Slice → Slice) : (s.modSlice h f).recessStore = s.recessStore := rfl
@[simp] theorem State.modSlice_preber (s : State) (h : HallId) (f : Slice → Slice) : (s.modSlice h f).preber = s.preber := rfl
@[simp] theorem State.modSlice_almanac (s : State) (h : HallId) (f : Slice → Slice) : (s.modSlice h f).almanac = s.almanac := rfl
@[simp] theorem State.modSlice_lostPeers (s : State) (h : HallId) (f : Slice → Slice) : (s.modSlice h f).lostPeers = s.lostPeers := rfl
@[simp] theorem State.modSlice_absentPend (s : State) (h : HallId) (f : Slice → Slice) : (s.modSlice h f).absentPend = s.absentPend := rfl
@[simp] theorem State.modSlice_errs (s : State) (h : HallId) (f : Slice → Slice) : (s.modSlice h f).errs = s.errs := rfl
@[simp] theorem State.modSlice_agenda (s : State) (h : HallId) (f : Slice → Slice) : (s.modSlice h f).agenda = s.agenda := rfl
@[simp] theorem State.modSlice_cur (s : State) (h : HallId) (f : Slice → Slice) : (s.modSlice h f).cur = s.cur := rfl
@[simp] theorem State.modSlice_fresh (s : State) (h : HallId) (f : Slice → Slice) : (s.modSlice h f).fresh = s.fresh := rfl
@[simp] theorem State.clearErr_cores (s : State) (e : ErrSite) : (s.clearErr e).cores = s.cores := rfl
@[simp] theorem State.clearErr_dies (s : State) (e : ErrSite) : (s.clearErr e).dies = s.dies := rfl
@[simp] theorem State.clearErr_halls (s : State) (e : ErrSite) : (s.clearErr e).halls = s.halls := rfl
@[simp] theorem State.clearErr_slices (s : State) (e : ErrSite) : (s.clearErr e).slices = s.slices := rfl
@[simp] theorem State.clearErr_pending (s : State) (e : ErrSite) : (s.clearErr e).pending = s.pending := rfl
@[simp] theorem State.clearErr_rollCall (s : State) (e : ErrSite) : (s.clearErr e).rollCall = s.rollCall := rfl
@[simp] theorem State.clearErr_arrays (s : State) (e : ErrSite) : (s.clearErr e).arrays = s.arrays := rfl
@[simp] theorem State.clearErr_regions (s : State) (e : ErrSite) : (s.clearErr e).regions = s.regions := rfl
@[simp] theorem State.clearErr_tick (s : State) (e : ErrSite) : (s.clearErr e).tick = s.tick := rfl
@[simp] theorem State.clearErr_lists (s : State) (e : ErrSite) : (s.clearErr e).lists = s.lists := rfl
@[simp] theorem State.clearErr_launches (s : State) (e : ErrSite) : (s.clearErr e).launches = s.launches := rfl
@[simp] theorem State.clearErr_recessStore (s : State) (e : ErrSite) : (s.clearErr e).recessStore = s.recessStore := rfl
@[simp] theorem State.clearErr_preber (s : State) (e : ErrSite) : (s.clearErr e).preber = s.preber := rfl
@[simp] theorem State.clearErr_almanac (s : State) (e : ErrSite) : (s.clearErr e).almanac = s.almanac := rfl
@[simp] theorem State.clearErr_lostPeers (s : State) (e : ErrSite) : (s.clearErr e).lostPeers = s.lostPeers := rfl
@[simp] theorem State.clearErr_absentPend (s : State) (e : ErrSite) : (s.clearErr e).absentPend = s.absentPend := rfl
@[simp] theorem State.clearErr_agenda (s : State) (e : ErrSite) : (s.clearErr e).agenda = s.agenda := rfl
@[simp] theorem State.clearErr_cur (s : State) (e : ErrSite) : (s.clearErr e).cur = s.cur := rfl
@[simp] theorem State.clearErr_fresh (s : State) (e : ErrSite) : (s.clearErr e).fresh = s.fresh := rfl
@[simp] theorem State.countCorrected_cores (s : State) (d : DieId) : (s.countCorrected d).cores = s.cores := rfl
@[simp] theorem State.countCorrected_halls (s : State) (d : DieId) : (s.countCorrected d).halls = s.halls := rfl
@[simp] theorem State.countCorrected_slices (s : State) (d : DieId) : (s.countCorrected d).slices = s.slices := rfl
@[simp] theorem State.countCorrected_pending (s : State) (d : DieId) : (s.countCorrected d).pending = s.pending := rfl
@[simp] theorem State.countCorrected_rollCall (s : State) (d : DieId) : (s.countCorrected d).rollCall = s.rollCall := rfl
@[simp] theorem State.countCorrected_arrays (s : State) (d : DieId) : (s.countCorrected d).arrays = s.arrays := rfl
@[simp] theorem State.countCorrected_regions (s : State) (d : DieId) : (s.countCorrected d).regions = s.regions := rfl
@[simp] theorem State.countCorrected_tick (s : State) (d : DieId) : (s.countCorrected d).tick = s.tick := rfl
@[simp] theorem State.countCorrected_lists (s : State) (d : DieId) : (s.countCorrected d).lists = s.lists := rfl
@[simp] theorem State.countCorrected_launches (s : State) (d : DieId) : (s.countCorrected d).launches = s.launches := rfl
@[simp] theorem State.countCorrected_recessStore (s : State) (d : DieId) : (s.countCorrected d).recessStore = s.recessStore := rfl
@[simp] theorem State.countCorrected_preber (s : State) (d : DieId) : (s.countCorrected d).preber = s.preber := rfl
@[simp] theorem State.countCorrected_almanac (s : State) (d : DieId) : (s.countCorrected d).almanac = s.almanac := rfl
@[simp] theorem State.countCorrected_lostPeers (s : State) (d : DieId) : (s.countCorrected d).lostPeers = s.lostPeers := rfl
@[simp] theorem State.countCorrected_absentPend (s : State) (d : DieId) : (s.countCorrected d).absentPend = s.absentPend := rfl
@[simp] theorem State.countCorrected_errs (s : State) (d : DieId) : (s.countCorrected d).errs = s.errs := rfl
@[simp] theorem State.countCorrected_agenda (s : State) (d : DieId) : (s.countCorrected d).agenda = s.agenda := rfl
@[simp] theorem State.countCorrected_cur (s : State) (d : DieId) : (s.countCorrected d).cur = s.cur := rfl
@[simp] theorem State.countCorrected_fresh (s : State) (d : DieId) : (s.countCorrected d).fresh = s.fresh := rfl
@[simp] theorem State.hqPut_cores (s : State) (r : HqRecord) : (s.hqPut r).cores = s.cores := rfl
@[simp] theorem State.hqPut_dies (s : State) (r : HqRecord) : (s.hqPut r).dies = s.dies := rfl
@[simp] theorem State.hqPut_halls (s : State) (r : HqRecord) : (s.hqPut r).halls = s.halls := rfl
@[simp] theorem State.hqPut_slices (s : State) (r : HqRecord) : (s.hqPut r).slices = s.slices := rfl
@[simp] theorem State.hqPut_pending (s : State) (r : HqRecord) : (s.hqPut r).pending = s.pending := rfl
@[simp] theorem State.hqPut_rollCall (s : State) (r : HqRecord) : (s.hqPut r).rollCall = s.rollCall := rfl
@[simp] theorem State.hqPut_arrays (s : State) (r : HqRecord) : (s.hqPut r).arrays = s.arrays := rfl
@[simp] theorem State.hqPut_regions (s : State) (r : HqRecord) : (s.hqPut r).regions = s.regions := rfl
@[simp] theorem State.hqPut_tick (s : State) (r : HqRecord) : (s.hqPut r).tick = s.tick := rfl
@[simp] theorem State.hqPut_lists (s : State) (r : HqRecord) : (s.hqPut r).lists = s.lists := rfl
@[simp] theorem State.hqPut_launches (s : State) (r : HqRecord) : (s.hqPut r).launches = s.launches := rfl
@[simp] theorem State.hqPut_recessStore (s : State) (r : HqRecord) : (s.hqPut r).recessStore = s.recessStore := rfl
@[simp] theorem State.hqPut_almanac (s : State) (r : HqRecord) : (s.hqPut r).almanac = s.almanac := rfl
@[simp] theorem State.hqPut_lostPeers (s : State) (r : HqRecord) : (s.hqPut r).lostPeers = s.lostPeers := rfl
@[simp] theorem State.hqPut_absentPend (s : State) (r : HqRecord) : (s.hqPut r).absentPend = s.absentPend := rfl
@[simp] theorem State.hqPut_errs (s : State) (r : HqRecord) : (s.hqPut r).errs = s.errs := rfl
@[simp] theorem State.hqPut_agenda (s : State) (r : HqRecord) : (s.hqPut r).agenda = s.agenda := rfl
@[simp] theorem State.hqPut_cur (s : State) (r : HqRecord) : (s.hqPut r).cur = s.cur := rfl
@[simp] theorem State.hqPut_fresh (s : State) (r : HqRecord) : (s.hqPut r).fresh = s.fresh := rfl
@[simp] theorem State.wS_dies (s : State) (id : StrandId) (r : SReg) (v : Word) : (s.wS id r v).dies = s.dies := rfl
@[simp] theorem State.wS_halls (s : State) (id : StrandId) (r : SReg) (v : Word) : (s.wS id r v).halls = s.halls := rfl
@[simp] theorem State.wS_slices (s : State) (id : StrandId) (r : SReg) (v : Word) : (s.wS id r v).slices = s.slices := rfl
@[simp] theorem State.wS_pending (s : State) (id : StrandId) (r : SReg) (v : Word) : (s.wS id r v).pending = s.pending := rfl
@[simp] theorem State.wS_rollCall (s : State) (id : StrandId) (r : SReg) (v : Word) : (s.wS id r v).rollCall = s.rollCall := rfl
@[simp] theorem State.wS_arrays (s : State) (id : StrandId) (r : SReg) (v : Word) : (s.wS id r v).arrays = s.arrays := rfl
@[simp] theorem State.wS_regions (s : State) (id : StrandId) (r : SReg) (v : Word) : (s.wS id r v).regions = s.regions := rfl
@[simp] theorem State.wS_tick (s : State) (id : StrandId) (r : SReg) (v : Word) : (s.wS id r v).tick = s.tick := rfl
@[simp] theorem State.wS_lists (s : State) (id : StrandId) (r : SReg) (v : Word) : (s.wS id r v).lists = s.lists := rfl
@[simp] theorem State.wS_launches (s : State) (id : StrandId) (r : SReg) (v : Word) : (s.wS id r v).launches = s.launches := rfl
@[simp] theorem State.wS_recessStore (s : State) (id : StrandId) (r : SReg) (v : Word) : (s.wS id r v).recessStore = s.recessStore := rfl
@[simp] theorem State.wS_preber (s : State) (id : StrandId) (r : SReg) (v : Word) : (s.wS id r v).preber = s.preber := rfl
@[simp] theorem State.wS_almanac (s : State) (id : StrandId) (r : SReg) (v : Word) : (s.wS id r v).almanac = s.almanac := rfl
@[simp] theorem State.wS_lostPeers (s : State) (id : StrandId) (r : SReg) (v : Word) : (s.wS id r v).lostPeers = s.lostPeers := rfl
@[simp] theorem State.wS_absentPend (s : State) (id : StrandId) (r : SReg) (v : Word) : (s.wS id r v).absentPend = s.absentPend := rfl
@[simp] theorem State.wS_agenda (s : State) (id : StrandId) (r : SReg) (v : Word) : (s.wS id r v).agenda = s.agenda := rfl
@[simp] theorem State.wS_cur (s : State) (id : StrandId) (r : SReg) (v : Word) : (s.wS id r v).cur = s.cur := rfl
@[simp] theorem State.wS_fresh (s : State) (id : StrandId) (r : SReg) (v : Word) : (s.wS id r v).fresh = s.fresh := rfl
@[simp] theorem State.wP_dies (s : State) (id : StrandId) (r : PReg) (v : Bool) : (s.wP id r v).dies = s.dies := rfl
@[simp] theorem State.wP_halls (s : State) (id : StrandId) (r : PReg) (v : Bool) : (s.wP id r v).halls = s.halls := rfl
@[simp] theorem State.wP_slices (s : State) (id : StrandId) (r : PReg) (v : Bool) : (s.wP id r v).slices = s.slices := rfl
@[simp] theorem State.wP_pending (s : State) (id : StrandId) (r : PReg) (v : Bool) : (s.wP id r v).pending = s.pending := rfl
@[simp] theorem State.wP_rollCall (s : State) (id : StrandId) (r : PReg) (v : Bool) : (s.wP id r v).rollCall = s.rollCall := rfl
@[simp] theorem State.wP_arrays (s : State) (id : StrandId) (r : PReg) (v : Bool) : (s.wP id r v).arrays = s.arrays := rfl
@[simp] theorem State.wP_regions (s : State) (id : StrandId) (r : PReg) (v : Bool) : (s.wP id r v).regions = s.regions := rfl
@[simp] theorem State.wP_tick (s : State) (id : StrandId) (r : PReg) (v : Bool) : (s.wP id r v).tick = s.tick := rfl
@[simp] theorem State.wP_lists (s : State) (id : StrandId) (r : PReg) (v : Bool) : (s.wP id r v).lists = s.lists := rfl
@[simp] theorem State.wP_launches (s : State) (id : StrandId) (r : PReg) (v : Bool) : (s.wP id r v).launches = s.launches := rfl
@[simp] theorem State.wP_recessStore (s : State) (id : StrandId) (r : PReg) (v : Bool) : (s.wP id r v).recessStore = s.recessStore := rfl
@[simp] theorem State.wP_preber (s : State) (id : StrandId) (r : PReg) (v : Bool) : (s.wP id r v).preber = s.preber := rfl
@[simp] theorem State.wP_almanac (s : State) (id : StrandId) (r : PReg) (v : Bool) : (s.wP id r v).almanac = s.almanac := rfl
@[simp] theorem State.wP_lostPeers (s : State) (id : StrandId) (r : PReg) (v : Bool) : (s.wP id r v).lostPeers = s.lostPeers := rfl
@[simp] theorem State.wP_absentPend (s : State) (id : StrandId) (r : PReg) (v : Bool) : (s.wP id r v).absentPend = s.absentPend := rfl
@[simp] theorem State.wP_agenda (s : State) (id : StrandId) (r : PReg) (v : Bool) : (s.wP id r v).agenda = s.agenda := rfl
@[simp] theorem State.wP_cur (s : State) (id : StrandId) (r : PReg) (v : Bool) : (s.wP id r v).cur = s.cur := rfl
@[simp] theorem State.wP_fresh (s : State) (id : StrandId) (r : PReg) (v : Bool) : (s.wP id r v).fresh = s.fresh := rfl

/-! ## Reading after a write -/

@[simp] theorem State.core_setCore_same (s : State) (c : CoreId) (x : Core) : (s.setCore c x).core c = x := by
  simp [State.core, State.setCore]
theorem State.core_setCore_ne (s : State) {c d : CoreId} (x : Core) (h : d ≠ c) : (s.setCore c x).core d = s.core d := by
  simp only [State.core, State.setCore]
  exact Vector.getElem_set_ne _ _ (fun e => h (Fin.ext e.symm))
@[simp] theorem State.core_modCore_same (s : State) (c : CoreId) (f : Core → Core) : (s.modCore c f).core c = f (s.core c) := by
  simp [State.modCore]
theorem State.core_modCore_ne (s : State) {c d : CoreId} (f : Core → Core) (h : d ≠ c) : (s.modCore c f).core d = s.core d :=
  State.core_setCore_ne s _ h
@[simp] theorem State.strand_setStrand_same (s : State) (id : StrandId) (x : Strand) : (s.setStrand id x).strand id = x := by
  simp [State.strand, State.setStrand, Core.setStrand]
theorem State.strand_setStrand_ne (s : State) {id j : StrandId} (x : Strand) (h : j ≠ id) :
    (s.setStrand id x).strand j = s.strand j := by
  obtain ⟨c, k⟩ := id
  obtain ⟨d, l⟩ := j
  simp only [State.strand, State.setStrand]
  by_cases e : d = c
  · subst e
    have hk : k.val ≠ l.val := fun q => h (by rw [Fin.ext q])
    simp [Core.setStrand, Vector.getElem_set_ne, hk]
  · simp only [State.core_setCore_ne s _ e]
@[simp] theorem State.strand_modStrand_same (s : State) (id : StrandId) (f : Strand → Strand) :
    (s.modStrand id f).strand id = f (s.strand id) := by
  simp [State.modStrand]
theorem State.strand_modStrand_ne (s : State) {id j : StrandId} (f : Strand → Strand) (h : j ≠ id) :
    (s.modStrand id f).strand j = s.strand j :=
  State.strand_setStrand_ne s _ h
@[simp] theorem State.me_modMe (s : State) (f : Strand → Strand) : (s.modMe f).me = f s.me := by
  simp [State.me, State.modMe]
@[simp] theorem State.core_clearErr (s : State) (e : ErrSite) (c : CoreId) : (s.clearErr e).core c = s.core c := rfl
@[simp] theorem State.strand_clearErr (s : State) (e : ErrSite) (i : StrandId) : (s.clearErr e).strand i = s.strand i := rfl
@[simp] theorem State.die_modStrand (s : State) (id : StrandId) (f : Strand → Strand) (d : DieId) : (s.modStrand id f).die d = s.die d := rfl
@[simp] theorem State.errAt_modStrand (s : State) (id : StrandId) (f : Strand → Strand) (e : ErrSite) :
    (s.modStrand id f).errAt e = s.errAt e := rfl
@[simp] theorem State.die_modDie_same (s : State) (d : DieId) (f : Die → Die) : (s.modDie d f).die d = f (s.die d) := by
  simp [State.die, State.modDie, State.setDie]
@[simp] theorem State.hall_modHall_same (s : State) (h : HallId) (f : Hall → Hall) : (s.modHall h f).hall h = f (s.hall h) := by
  simp [State.hall, State.modHall]
@[simp] theorem State.slice_modSlice_same (s : State) (h : HallId) (f : Slice → Slice) : (s.modSlice h f).slice h = f (s.slice h) := by
  simp [State.slice, State.modSlice]

/-! ## A strand -/

@[simp] theorem Strand.wS_run (t : Strand) (r : SReg) (v : Word) : (t.wS r v).run = t.run := by
  unfold Strand.wS; split <;> rfl
@[simp] theorem Strand.wS_p (t : Strand) (r : SReg) (v : Word) : (t.wS r v).p = t.p := by
  unfold Strand.wS; split <;> rfl
@[simp] theorem Strand.wS_k (t : Strand) (r : SReg) (v : Word) : (t.wS r v).k = t.k := by
  unfold Strand.wS; split <;> rfl
@[simp] theorem Strand.wS_v (t : Strand) (r : SReg) (v : Word) : (t.wS r v).v = t.v := by
  unfold Strand.wS; split <;> rfl
@[simp] theorem Strand.wS_vvalid (t : Strand) (r : SReg) (v : Word) : (t.wS r v).vvalid = t.vvalid := by
  unfold Strand.wS; split <;> rfl
@[simp] theorem Strand.wS_pc (t : Strand) (r : SReg) (v : Word) : (t.wS r v).pc = t.pc := by
  unfold Strand.wS; split <;> rfl
@[simp] theorem Strand.wS_fpctl (t : Strand) (r : SReg) (v : Word) : (t.wS r v).fpctl = t.fpctl := by
  unfold Strand.wS; split <;> rfl
@[simp] theorem Strand.wS_vtype (t : Strand) (r : SReg) (v : Word) : (t.wS r v).vtype = t.vtype := by
  unfold Strand.wS; split <;> rfl
@[simp] theorem Strand.wS_vl (t : Strand) (r : SReg) (v : Word) : (t.wS r v).vl = t.vl := by
  unfold Strand.wS; split <;> rfl
@[simp] theorem Strand.wS_mvl (t : Strand) (r : SReg) (v : Word) : (t.wS r v).mvl = t.mvl := by
  unfold Strand.wS; split <;> rfl
@[simp] theorem Strand.wS_slip (t : Strand) (r : SReg) (v : Word) : (t.wS r v).slip = t.slip := by
  unfold Strand.wS; split <;> rfl
@[simp] theorem Strand.wS_sid (t : Strand) (r : SReg) (v : Word) : (t.wS r v).sid = t.sid := by
  unfold Strand.wS; split <;> rfl
@[simp] theorem Strand.wS_lcoord (t : Strand) (r : SReg) (v : Word) : (t.wS r v).lcoord = t.lcoord := by
  unfold Strand.wS; split <;> rfl
@[simp] theorem Strand.wS_lid (t : Strand) (r : SReg) (v : Word) : (t.wS r v).lid = t.lid := by
  unfold Strand.wS; split <;> rfl
@[simp] theorem Strand.wS_strip0 (t : Strand) (r : SReg) (v : Word) : (t.wS r v).strip0 = t.strip0 := by
  unfold Strand.wS; split <;> rfl
@[simp] theorem Strand.wS_stripn (t : Strand) (r : SReg) (v : Word) : (t.wS r v).stripn = t.stripn := by
  unfold Strand.wS; split <;> rfl
@[simp] theorem Strand.wS_epc (t : Strand) (r : SReg) (v : Word) : (t.wS r v).epc = t.epc := by
  unfold Strand.wS; split <;> rfl
@[simp] theorem Strand.wS_evcp (t : Strand) (r : SReg) (v : Word) : (t.wS r v).evcp = t.evcp := by
  unfold Strand.wS; split <;> rfl
@[simp] theorem Strand.wS_ecause (t : Strand) (r : SReg) (v : Word) : (t.wS r v).ecause = t.ecause := by
  unfold Strand.wS; split <;> rfl
@[simp] theorem Strand.wS_eval (t : Strand) (r : SReg) (v : Word) : (t.wS r v).eval = t.eval := by
  unfold Strand.wS; split <;> rfl
@[simp] theorem Strand.wS_estatus (t : Strand) (r : SReg) (v : Word) : (t.wS r v).estatus = t.estatus := by
  unfold Strand.wS; split <;> rfl
@[simp] theorem Strand.wS_tvec (t : Strand) (r : SReg) (v : Word) : (t.wS r v).tvec = t.tvec := by
  unfold Strand.wS; split <;> rfl
@[simp] theorem Strand.wS_hold (t : Strand) (r : SReg) (v : Word) : (t.wS r v).hold = t.hold := by
  unfold Strand.wS; split <;> rfl
@[simp] theorem Strand.wS_ctr (t : Strand) (r : SReg) (v : Word) : (t.wS r v).ctr = t.ctr := by
  unfold Strand.wS; split <;> rfl
@[simp] theorem Strand.wS_loops (t : Strand) (r : SReg) (v : Word) : (t.wS r v).loops = t.loops := by
  unfold Strand.wS; split <;> rfl
@[simp] theorem Strand.wS_vq (t : Strand) (r : SReg) (v : Word) : (t.wS r v).vq = t.vq := by
  unfold Strand.wS; split <;> rfl
@[simp] theorem Strand.wS_beats (t : Strand) (r : SReg) (v : Word) : (t.wS r v).beats = t.beats := by
  unfold Strand.wS; split <;> rfl
@[simp] theorem Strand.wS_vseq (t : Strand) (r : SReg) (v : Word) : (t.wS r v).vseq = t.vseq := by
  unfold Strand.wS; split <;> rfl
@[simp] theorem Strand.wS_barrier (t : Strand) (r : SReg) (v : Word) : (t.wS r v).barrier = t.barrier := by
  unfold Strand.wS; split <;> rfl
@[simp] theorem Strand.wS_sq (t : Strand) (r : SReg) (v : Word) : (t.wS r v).sq = t.sq := by
  unfold Strand.wS; split <;> rfl
@[simp] theorem Strand.wS_nv (t : Strand) (r : SReg) (v : Word) : (t.wS r v).nv = t.nv := by
  unfold Strand.wS; split <;> rfl
@[simp] theorem Strand.wS_claimed (t : Strand) (r : SReg) (v : Word) : (t.wS r v).claimed = t.claimed := by
  unfold Strand.wS; split <;> rfl
@[simp] theorem Strand.wS_tilesHeld (t : Strand) (r : SReg) (v : Word) : (t.wS r v).tilesHeld = t.tilesHeld := by
  unfold Strand.wS; split <;> rfl
@[simp] theorem Strand.wS_matrixMode (t : Strand) (r : SReg) (v : Word) : (t.wS r v).matrixMode = t.matrixMode := by
  unfold Strand.wS; split <;> rfl
@[simp] theorem Strand.wS_region (t : Strand) (r : SReg) (v : Word) : (t.wS r v).region = t.region := by
  unfold Strand.wS; split <;> rfl
@[simp] theorem Strand.wS_recessAsked (t : Strand) (r : SReg) (v : Word) : (t.wS r v).recessAsked = t.recessAsked := by
  unfold Strand.wS; split <;> rfl
@[simp] theorem Strand.wS_shadow (t : Strand) (r : SReg) (v : Word) : (t.wS r v).shadow = t.shadow := by
  unfold Strand.wS; split <;> rfl
@[simp] theorem Strand.wS_sb (t : Strand) (r : SReg) (v : Word) : (t.wS r v).sb = t.sb := by
  unfold Strand.wS; split <;> rfl
@[simp] theorem Strand.wS_sbAge (t : Strand) (r : SReg) (v : Word) : (t.wS r v).sbAge = t.sbAge := by
  unfold Strand.wS; split <;> rfl
@[simp] theorem Strand.wS_ahead (t : Strand) (r : SReg) (v : Word) : (t.wS r v).ahead = t.ahead := by
  unfold Strand.wS; split <;> rfl
@[simp] theorem Strand.wS_late (t : Strand) (r : SReg) (v : Word) : (t.wS r v).late = t.late := by
  unfold Strand.wS; split <;> rfl
@[simp] theorem Strand.wS_wait (t : Strand) (r : SReg) (v : Word) : (t.wS r v).wait = t.wait := by
  unfold Strand.wS; split <;> rfl
@[simp] theorem Strand.wS_pend (t : Strand) (r : SReg) (v : Word) : (t.wS r v).pend = t.pend := by
  unfold Strand.wS; split <;> rfl
@[simp] theorem Strand.wS_mfault (t : Strand) (r : SReg) (v : Word) : (t.wS r v).mfault = t.mfault := by
  unfold Strand.wS; split <;> rfl
@[simp] theorem Strand.wS_mdropped (t : Strand) (r : SReg) (v : Word) : (t.wS r v).mdropped = t.mdropped := by
  unfold Strand.wS; split <;> rfl
@[simp] theorem Strand.wS_pausedBy (t : Strand) (r : SReg) (v : Word) : (t.wS r v).pausedBy = t.pausedBy := by
  unfold Strand.wS; split <;> rfl
@[simp] theorem Strand.wS_journal (t : Strand) (r : SReg) (v : Word) : (t.wS r v).journal = t.journal := by
  unfold Strand.wS; split <;> rfl
@[simp] theorem Strand.wS_savedLanes (t : Strand) (r : SReg) (v : Word) : (t.wS r v).savedLanes = t.savedLanes := by
  unfold Strand.wS; split <;> rfl
@[simp] theorem Strand.wS_residual (t : Strand) (r : SReg) (v : Word) : (t.wS r v).residual = t.residual := by
  unfold Strand.wS; split <;> rfl
@[simp] theorem Strand.wS_stalled (t : Strand) (r : SReg) (v : Word) : (t.wS r v).stalled = t.stalled := by
  unfold Strand.wS; split <;> rfl
@[simp] theorem Strand.wS_hostBad (t : Strand) (r : SReg) (v : Word) : (t.wS r v).hostBad = t.hostBad := by
  unfold Strand.wS; split <;> rfl
@[simp] theorem Strand.wS_drain (t : Strand) (r : SReg) (v : Word) : (t.wS r v).drain = t.drain := by
  unfold Strand.wS; split <;> rfl
@[simp] theorem Strand.wP_run (t : Strand) (r : PReg) (v : Bool) : (t.wP r v).run = t.run := by
  unfold Strand.wP; split <;> rfl
@[simp] theorem Strand.wP_s (t : Strand) (r : PReg) (v : Bool) : (t.wP r v).s = t.s := by
  unfold Strand.wP; split <;> rfl
@[simp] theorem Strand.wP_k (t : Strand) (r : PReg) (v : Bool) : (t.wP r v).k = t.k := by
  unfold Strand.wP; split <;> rfl
@[simp] theorem Strand.wP_v (t : Strand) (r : PReg) (v : Bool) : (t.wP r v).v = t.v := by
  unfold Strand.wP; split <;> rfl
@[simp] theorem Strand.wP_vvalid (t : Strand) (r : PReg) (v : Bool) : (t.wP r v).vvalid = t.vvalid := by
  unfold Strand.wP; split <;> rfl
@[simp] theorem Strand.wP_pc (t : Strand) (r : PReg) (v : Bool) : (t.wP r v).pc = t.pc := by
  unfold Strand.wP; split <;> rfl
@[simp] theorem Strand.wP_fpctl (t : Strand) (r : PReg) (v : Bool) : (t.wP r v).fpctl = t.fpctl := by
  unfold Strand.wP; split <;> rfl
@[simp] theorem Strand.wP_vtype (t : Strand) (r : PReg) (v : Bool) : (t.wP r v).vtype = t.vtype := by
  unfold Strand.wP; split <;> rfl
@[simp] theorem Strand.wP_vl (t : Strand) (r : PReg) (v : Bool) : (t.wP r v).vl = t.vl := by
  unfold Strand.wP; split <;> rfl
@[simp] theorem Strand.wP_mvl (t : Strand) (r : PReg) (v : Bool) : (t.wP r v).mvl = t.mvl := by
  unfold Strand.wP; split <;> rfl
@[simp] theorem Strand.wP_slip (t : Strand) (r : PReg) (v : Bool) : (t.wP r v).slip = t.slip := by
  unfold Strand.wP; split <;> rfl
@[simp] theorem Strand.wP_sid (t : Strand) (r : PReg) (v : Bool) : (t.wP r v).sid = t.sid := by
  unfold Strand.wP; split <;> rfl
@[simp] theorem Strand.wP_lcoord (t : Strand) (r : PReg) (v : Bool) : (t.wP r v).lcoord = t.lcoord := by
  unfold Strand.wP; split <;> rfl
@[simp] theorem Strand.wP_lid (t : Strand) (r : PReg) (v : Bool) : (t.wP r v).lid = t.lid := by
  unfold Strand.wP; split <;> rfl
@[simp] theorem Strand.wP_strip0 (t : Strand) (r : PReg) (v : Bool) : (t.wP r v).strip0 = t.strip0 := by
  unfold Strand.wP; split <;> rfl
@[simp] theorem Strand.wP_stripn (t : Strand) (r : PReg) (v : Bool) : (t.wP r v).stripn = t.stripn := by
  unfold Strand.wP; split <;> rfl
@[simp] theorem Strand.wP_epc (t : Strand) (r : PReg) (v : Bool) : (t.wP r v).epc = t.epc := by
  unfold Strand.wP; split <;> rfl
@[simp] theorem Strand.wP_evcp (t : Strand) (r : PReg) (v : Bool) : (t.wP r v).evcp = t.evcp := by
  unfold Strand.wP; split <;> rfl
@[simp] theorem Strand.wP_ecause (t : Strand) (r : PReg) (v : Bool) : (t.wP r v).ecause = t.ecause := by
  unfold Strand.wP; split <;> rfl
@[simp] theorem Strand.wP_eval (t : Strand) (r : PReg) (v : Bool) : (t.wP r v).eval = t.eval := by
  unfold Strand.wP; split <;> rfl
@[simp] theorem Strand.wP_estatus (t : Strand) (r : PReg) (v : Bool) : (t.wP r v).estatus = t.estatus := by
  unfold Strand.wP; split <;> rfl
@[simp] theorem Strand.wP_tvec (t : Strand) (r : PReg) (v : Bool) : (t.wP r v).tvec = t.tvec := by
  unfold Strand.wP; split <;> rfl
@[simp] theorem Strand.wP_hold (t : Strand) (r : PReg) (v : Bool) : (t.wP r v).hold = t.hold := by
  unfold Strand.wP; split <;> rfl
@[simp] theorem Strand.wP_ctr (t : Strand) (r : PReg) (v : Bool) : (t.wP r v).ctr = t.ctr := by
  unfold Strand.wP; split <;> rfl
@[simp] theorem Strand.wP_loops (t : Strand) (r : PReg) (v : Bool) : (t.wP r v).loops = t.loops := by
  unfold Strand.wP; split <;> rfl
@[simp] theorem Strand.wP_vq (t : Strand) (r : PReg) (v : Bool) : (t.wP r v).vq = t.vq := by
  unfold Strand.wP; split <;> rfl
@[simp] theorem Strand.wP_beats (t : Strand) (r : PReg) (v : Bool) : (t.wP r v).beats = t.beats := by
  unfold Strand.wP; split <;> rfl
@[simp] theorem Strand.wP_vseq (t : Strand) (r : PReg) (v : Bool) : (t.wP r v).vseq = t.vseq := by
  unfold Strand.wP; split <;> rfl
@[simp] theorem Strand.wP_barrier (t : Strand) (r : PReg) (v : Bool) : (t.wP r v).barrier = t.barrier := by
  unfold Strand.wP; split <;> rfl
@[simp] theorem Strand.wP_sq (t : Strand) (r : PReg) (v : Bool) : (t.wP r v).sq = t.sq := by
  unfold Strand.wP; split <;> rfl
@[simp] theorem Strand.wP_nv (t : Strand) (r : PReg) (v : Bool) : (t.wP r v).nv = t.nv := by
  unfold Strand.wP; split <;> rfl
@[simp] theorem Strand.wP_claimed (t : Strand) (r : PReg) (v : Bool) : (t.wP r v).claimed = t.claimed := by
  unfold Strand.wP; split <;> rfl
@[simp] theorem Strand.wP_tilesHeld (t : Strand) (r : PReg) (v : Bool) : (t.wP r v).tilesHeld = t.tilesHeld := by
  unfold Strand.wP; split <;> rfl
@[simp] theorem Strand.wP_matrixMode (t : Strand) (r : PReg) (v : Bool) : (t.wP r v).matrixMode = t.matrixMode := by
  unfold Strand.wP; split <;> rfl
@[simp] theorem Strand.wP_region (t : Strand) (r : PReg) (v : Bool) : (t.wP r v).region = t.region := by
  unfold Strand.wP; split <;> rfl
@[simp] theorem Strand.wP_recessAsked (t : Strand) (r : PReg) (v : Bool) : (t.wP r v).recessAsked = t.recessAsked := by
  unfold Strand.wP; split <;> rfl
@[simp] theorem Strand.wP_shadow (t : Strand) (r : PReg) (v : Bool) : (t.wP r v).shadow = t.shadow := by
  unfold Strand.wP; split <;> rfl
@[simp] theorem Strand.wP_sb (t : Strand) (r : PReg) (v : Bool) : (t.wP r v).sb = t.sb := by
  unfold Strand.wP; split <;> rfl
@[simp] theorem Strand.wP_sbAge (t : Strand) (r : PReg) (v : Bool) : (t.wP r v).sbAge = t.sbAge := by
  unfold Strand.wP; split <;> rfl
@[simp] theorem Strand.wP_ahead (t : Strand) (r : PReg) (v : Bool) : (t.wP r v).ahead = t.ahead := by
  unfold Strand.wP; split <;> rfl
@[simp] theorem Strand.wP_late (t : Strand) (r : PReg) (v : Bool) : (t.wP r v).late = t.late := by
  unfold Strand.wP; split <;> rfl
@[simp] theorem Strand.wP_wait (t : Strand) (r : PReg) (v : Bool) : (t.wP r v).wait = t.wait := by
  unfold Strand.wP; split <;> rfl
@[simp] theorem Strand.wP_pend (t : Strand) (r : PReg) (v : Bool) : (t.wP r v).pend = t.pend := by
  unfold Strand.wP; split <;> rfl
@[simp] theorem Strand.wP_mfault (t : Strand) (r : PReg) (v : Bool) : (t.wP r v).mfault = t.mfault := by
  unfold Strand.wP; split <;> rfl
@[simp] theorem Strand.wP_mdropped (t : Strand) (r : PReg) (v : Bool) : (t.wP r v).mdropped = t.mdropped := by
  unfold Strand.wP; split <;> rfl
@[simp] theorem Strand.wP_pausedBy (t : Strand) (r : PReg) (v : Bool) : (t.wP r v).pausedBy = t.pausedBy := by
  unfold Strand.wP; split <;> rfl
@[simp] theorem Strand.wP_journal (t : Strand) (r : PReg) (v : Bool) : (t.wP r v).journal = t.journal := by
  unfold Strand.wP; split <;> rfl
@[simp] theorem Strand.wP_savedLanes (t : Strand) (r : PReg) (v : Bool) : (t.wP r v).savedLanes = t.savedLanes := by
  unfold Strand.wP; split <;> rfl
@[simp] theorem Strand.wP_residual (t : Strand) (r : PReg) (v : Bool) : (t.wP r v).residual = t.residual := by
  unfold Strand.wP; split <;> rfl
@[simp] theorem Strand.wP_stalled (t : Strand) (r : PReg) (v : Bool) : (t.wP r v).stalled = t.stalled := by
  unfold Strand.wP; split <;> rfl
@[simp] theorem Strand.wP_hostBad (t : Strand) (r : PReg) (v : Bool) : (t.wP r v).hostBad = t.hostBad := by
  unfold Strand.wP; split <;> rfl
@[simp] theorem Strand.wP_drain (t : Strand) (r : PReg) (v : Bool) : (t.wP r v).drain = t.drain := by
  unfold Strand.wP; split <;> rfl
@[simp] theorem Strand.wK_run (t : Strand) (k : KReg) (v : Nat) : (t.wK k v).run = t.run := by
  unfold Strand.wK; split <;> rfl
@[simp] theorem Strand.wK_s (t : Strand) (k : KReg) (v : Nat) : (t.wK k v).s = t.s := by
  unfold Strand.wK; split <;> rfl
@[simp] theorem Strand.wK_p (t : Strand) (k : KReg) (v : Nat) : (t.wK k v).p = t.p := by
  unfold Strand.wK; split <;> rfl
@[simp] theorem Strand.wK_v (t : Strand) (k : KReg) (v : Nat) : (t.wK k v).v = t.v := by
  unfold Strand.wK; split <;> rfl
@[simp] theorem Strand.wK_vvalid (t : Strand) (k : KReg) (v : Nat) : (t.wK k v).vvalid = t.vvalid := by
  unfold Strand.wK; split <;> rfl
@[simp] theorem Strand.wK_pc (t : Strand) (k : KReg) (v : Nat) : (t.wK k v).pc = t.pc := by
  unfold Strand.wK; split <;> rfl
@[simp] theorem Strand.wK_fpctl (t : Strand) (k : KReg) (v : Nat) : (t.wK k v).fpctl = t.fpctl := by
  unfold Strand.wK; split <;> rfl
@[simp] theorem Strand.wK_vtype (t : Strand) (k : KReg) (v : Nat) : (t.wK k v).vtype = t.vtype := by
  unfold Strand.wK; split <;> rfl
@[simp] theorem Strand.wK_vl (t : Strand) (k : KReg) (v : Nat) : (t.wK k v).vl = t.vl := by
  unfold Strand.wK; split <;> rfl
@[simp] theorem Strand.wK_mvl (t : Strand) (k : KReg) (v : Nat) : (t.wK k v).mvl = t.mvl := by
  unfold Strand.wK; split <;> rfl
@[simp] theorem Strand.wK_slip (t : Strand) (k : KReg) (v : Nat) : (t.wK k v).slip = t.slip := by
  unfold Strand.wK; split <;> rfl
@[simp] theorem Strand.wK_sid (t : Strand) (k : KReg) (v : Nat) : (t.wK k v).sid = t.sid := by
  unfold Strand.wK; split <;> rfl
@[simp] theorem Strand.wK_lcoord (t : Strand) (k : KReg) (v : Nat) : (t.wK k v).lcoord = t.lcoord := by
  unfold Strand.wK; split <;> rfl
@[simp] theorem Strand.wK_lid (t : Strand) (k : KReg) (v : Nat) : (t.wK k v).lid = t.lid := by
  unfold Strand.wK; split <;> rfl
@[simp] theorem Strand.wK_strip0 (t : Strand) (k : KReg) (v : Nat) : (t.wK k v).strip0 = t.strip0 := by
  unfold Strand.wK; split <;> rfl
@[simp] theorem Strand.wK_stripn (t : Strand) (k : KReg) (v : Nat) : (t.wK k v).stripn = t.stripn := by
  unfold Strand.wK; split <;> rfl
@[simp] theorem Strand.wK_epc (t : Strand) (k : KReg) (v : Nat) : (t.wK k v).epc = t.epc := by
  unfold Strand.wK; split <;> rfl
@[simp] theorem Strand.wK_evcp (t : Strand) (k : KReg) (v : Nat) : (t.wK k v).evcp = t.evcp := by
  unfold Strand.wK; split <;> rfl
@[simp] theorem Strand.wK_ecause (t : Strand) (k : KReg) (v : Nat) : (t.wK k v).ecause = t.ecause := by
  unfold Strand.wK; split <;> rfl
@[simp] theorem Strand.wK_eval (t : Strand) (k : KReg) (v : Nat) : (t.wK k v).eval = t.eval := by
  unfold Strand.wK; split <;> rfl
@[simp] theorem Strand.wK_estatus (t : Strand) (k : KReg) (v : Nat) : (t.wK k v).estatus = t.estatus := by
  unfold Strand.wK; split <;> rfl
@[simp] theorem Strand.wK_tvec (t : Strand) (k : KReg) (v : Nat) : (t.wK k v).tvec = t.tvec := by
  unfold Strand.wK; split <;> rfl
@[simp] theorem Strand.wK_hold (t : Strand) (k : KReg) (v : Nat) : (t.wK k v).hold = t.hold := by
  unfold Strand.wK; split <;> rfl
@[simp] theorem Strand.wK_ctr (t : Strand) (k : KReg) (v : Nat) : (t.wK k v).ctr = t.ctr := by
  unfold Strand.wK; split <;> rfl
@[simp] theorem Strand.wK_loops (t : Strand) (k : KReg) (v : Nat) : (t.wK k v).loops = t.loops := by
  unfold Strand.wK; split <;> rfl
@[simp] theorem Strand.wK_vq (t : Strand) (k : KReg) (v : Nat) : (t.wK k v).vq = t.vq := by
  unfold Strand.wK; split <;> rfl
@[simp] theorem Strand.wK_beats (t : Strand) (k : KReg) (v : Nat) : (t.wK k v).beats = t.beats := by
  unfold Strand.wK; split <;> rfl
@[simp] theorem Strand.wK_vseq (t : Strand) (k : KReg) (v : Nat) : (t.wK k v).vseq = t.vseq := by
  unfold Strand.wK; split <;> rfl
@[simp] theorem Strand.wK_barrier (t : Strand) (k : KReg) (v : Nat) : (t.wK k v).barrier = t.barrier := by
  unfold Strand.wK; split <;> rfl
@[simp] theorem Strand.wK_sq (t : Strand) (k : KReg) (v : Nat) : (t.wK k v).sq = t.sq := by
  unfold Strand.wK; split <;> rfl
@[simp] theorem Strand.wK_nv (t : Strand) (k : KReg) (v : Nat) : (t.wK k v).nv = t.nv := by
  unfold Strand.wK; split <;> rfl
@[simp] theorem Strand.wK_claimed (t : Strand) (k : KReg) (v : Nat) : (t.wK k v).claimed = t.claimed := by
  unfold Strand.wK; split <;> rfl
@[simp] theorem Strand.wK_tilesHeld (t : Strand) (k : KReg) (v : Nat) : (t.wK k v).tilesHeld = t.tilesHeld := by
  unfold Strand.wK; split <;> rfl
@[simp] theorem Strand.wK_matrixMode (t : Strand) (k : KReg) (v : Nat) : (t.wK k v).matrixMode = t.matrixMode := by
  unfold Strand.wK; split <;> rfl
@[simp] theorem Strand.wK_region (t : Strand) (k : KReg) (v : Nat) : (t.wK k v).region = t.region := by
  unfold Strand.wK; split <;> rfl
@[simp] theorem Strand.wK_recessAsked (t : Strand) (k : KReg) (v : Nat) : (t.wK k v).recessAsked = t.recessAsked := by
  unfold Strand.wK; split <;> rfl
@[simp] theorem Strand.wK_shadow (t : Strand) (k : KReg) (v : Nat) : (t.wK k v).shadow = t.shadow := by
  unfold Strand.wK; split <;> rfl
@[simp] theorem Strand.wK_sb (t : Strand) (k : KReg) (v : Nat) : (t.wK k v).sb = t.sb := by
  unfold Strand.wK; split <;> rfl
@[simp] theorem Strand.wK_sbAge (t : Strand) (k : KReg) (v : Nat) : (t.wK k v).sbAge = t.sbAge := by
  unfold Strand.wK; split <;> rfl
@[simp] theorem Strand.wK_ahead (t : Strand) (k : KReg) (v : Nat) : (t.wK k v).ahead = t.ahead := by
  unfold Strand.wK; split <;> rfl
@[simp] theorem Strand.wK_late (t : Strand) (k : KReg) (v : Nat) : (t.wK k v).late = t.late := by
  unfold Strand.wK; split <;> rfl
@[simp] theorem Strand.wK_wait (t : Strand) (k : KReg) (v : Nat) : (t.wK k v).wait = t.wait := by
  unfold Strand.wK; split <;> rfl
@[simp] theorem Strand.wK_pend (t : Strand) (k : KReg) (v : Nat) : (t.wK k v).pend = t.pend := by
  unfold Strand.wK; split <;> rfl
@[simp] theorem Strand.wK_mfault (t : Strand) (k : KReg) (v : Nat) : (t.wK k v).mfault = t.mfault := by
  unfold Strand.wK; split <;> rfl
@[simp] theorem Strand.wK_mdropped (t : Strand) (k : KReg) (v : Nat) : (t.wK k v).mdropped = t.mdropped := by
  unfold Strand.wK; split <;> rfl
@[simp] theorem Strand.wK_pausedBy (t : Strand) (k : KReg) (v : Nat) : (t.wK k v).pausedBy = t.pausedBy := by
  unfold Strand.wK; split <;> rfl
@[simp] theorem Strand.wK_journal (t : Strand) (k : KReg) (v : Nat) : (t.wK k v).journal = t.journal := by
  unfold Strand.wK; split <;> rfl
@[simp] theorem Strand.wK_savedLanes (t : Strand) (k : KReg) (v : Nat) : (t.wK k v).savedLanes = t.savedLanes := by
  unfold Strand.wK; split <;> rfl
@[simp] theorem Strand.wK_residual (t : Strand) (k : KReg) (v : Nat) : (t.wK k v).residual = t.residual := by
  unfold Strand.wK; split <;> rfl
@[simp] theorem Strand.wK_stalled (t : Strand) (k : KReg) (v : Nat) : (t.wK k v).stalled = t.stalled := by
  unfold Strand.wK; split <;> rfl
@[simp] theorem Strand.wK_hostBad (t : Strand) (k : KReg) (v : Nat) : (t.wK k v).hostBad = t.hostBad := by
  unfold Strand.wK; split <;> rfl
@[simp] theorem Strand.wK_drain (t : Strand) (k : KReg) (v : Nat) : (t.wK k v).drain = t.drain := by
  unfold Strand.wK; split <;> rfl
@[simp] theorem Strand.wC_run (t : Strand) (c : CtrNo) (v : BitVec 16) : (t.wC c v).run = t.run := rfl
@[simp] theorem Strand.wC_s (t : Strand) (c : CtrNo) (v : BitVec 16) : (t.wC c v).s = t.s := rfl
@[simp] theorem Strand.wC_p (t : Strand) (c : CtrNo) (v : BitVec 16) : (t.wC c v).p = t.p := rfl
@[simp] theorem Strand.wC_k (t : Strand) (c : CtrNo) (v : BitVec 16) : (t.wC c v).k = t.k := rfl
@[simp] theorem Strand.wC_v (t : Strand) (c : CtrNo) (v : BitVec 16) : (t.wC c v).v = t.v := rfl
@[simp] theorem Strand.wC_vvalid (t : Strand) (c : CtrNo) (v : BitVec 16) : (t.wC c v).vvalid = t.vvalid := rfl
@[simp] theorem Strand.wC_pc (t : Strand) (c : CtrNo) (v : BitVec 16) : (t.wC c v).pc = t.pc := rfl
@[simp] theorem Strand.wC_fpctl (t : Strand) (c : CtrNo) (v : BitVec 16) : (t.wC c v).fpctl = t.fpctl := rfl
@[simp] theorem Strand.wC_vtype (t : Strand) (c : CtrNo) (v : BitVec 16) : (t.wC c v).vtype = t.vtype := rfl
@[simp] theorem Strand.wC_vl (t : Strand) (c : CtrNo) (v : BitVec 16) : (t.wC c v).vl = t.vl := rfl
@[simp] theorem Strand.wC_mvl (t : Strand) (c : CtrNo) (v : BitVec 16) : (t.wC c v).mvl = t.mvl := rfl
@[simp] theorem Strand.wC_slip (t : Strand) (c : CtrNo) (v : BitVec 16) : (t.wC c v).slip = t.slip := rfl
@[simp] theorem Strand.wC_sid (t : Strand) (c : CtrNo) (v : BitVec 16) : (t.wC c v).sid = t.sid := rfl
@[simp] theorem Strand.wC_lcoord (t : Strand) (c : CtrNo) (v : BitVec 16) : (t.wC c v).lcoord = t.lcoord := rfl
@[simp] theorem Strand.wC_lid (t : Strand) (c : CtrNo) (v : BitVec 16) : (t.wC c v).lid = t.lid := rfl
@[simp] theorem Strand.wC_strip0 (t : Strand) (c : CtrNo) (v : BitVec 16) : (t.wC c v).strip0 = t.strip0 := rfl
@[simp] theorem Strand.wC_stripn (t : Strand) (c : CtrNo) (v : BitVec 16) : (t.wC c v).stripn = t.stripn := rfl
@[simp] theorem Strand.wC_epc (t : Strand) (c : CtrNo) (v : BitVec 16) : (t.wC c v).epc = t.epc := rfl
@[simp] theorem Strand.wC_evcp (t : Strand) (c : CtrNo) (v : BitVec 16) : (t.wC c v).evcp = t.evcp := rfl
@[simp] theorem Strand.wC_ecause (t : Strand) (c : CtrNo) (v : BitVec 16) : (t.wC c v).ecause = t.ecause := rfl
@[simp] theorem Strand.wC_eval (t : Strand) (c : CtrNo) (v : BitVec 16) : (t.wC c v).eval = t.eval := rfl
@[simp] theorem Strand.wC_estatus (t : Strand) (c : CtrNo) (v : BitVec 16) : (t.wC c v).estatus = t.estatus := rfl
@[simp] theorem Strand.wC_tvec (t : Strand) (c : CtrNo) (v : BitVec 16) : (t.wC c v).tvec = t.tvec := rfl
@[simp] theorem Strand.wC_hold (t : Strand) (c : CtrNo) (v : BitVec 16) : (t.wC c v).hold = t.hold := rfl
@[simp] theorem Strand.wC_loops (t : Strand) (c : CtrNo) (v : BitVec 16) : (t.wC c v).loops = t.loops := rfl
@[simp] theorem Strand.wC_vq (t : Strand) (c : CtrNo) (v : BitVec 16) : (t.wC c v).vq = t.vq := rfl
@[simp] theorem Strand.wC_beats (t : Strand) (c : CtrNo) (v : BitVec 16) : (t.wC c v).beats = t.beats := rfl
@[simp] theorem Strand.wC_vseq (t : Strand) (c : CtrNo) (v : BitVec 16) : (t.wC c v).vseq = t.vseq := rfl
@[simp] theorem Strand.wC_barrier (t : Strand) (c : CtrNo) (v : BitVec 16) : (t.wC c v).barrier = t.barrier := rfl
@[simp] theorem Strand.wC_sq (t : Strand) (c : CtrNo) (v : BitVec 16) : (t.wC c v).sq = t.sq := rfl
@[simp] theorem Strand.wC_nv (t : Strand) (c : CtrNo) (v : BitVec 16) : (t.wC c v).nv = t.nv := rfl
@[simp] theorem Strand.wC_claimed (t : Strand) (c : CtrNo) (v : BitVec 16) : (t.wC c v).claimed = t.claimed := rfl
@[simp] theorem Strand.wC_tilesHeld (t : Strand) (c : CtrNo) (v : BitVec 16) : (t.wC c v).tilesHeld = t.tilesHeld := rfl
@[simp] theorem Strand.wC_matrixMode (t : Strand) (c : CtrNo) (v : BitVec 16) : (t.wC c v).matrixMode = t.matrixMode := rfl
@[simp] theorem Strand.wC_region (t : Strand) (c : CtrNo) (v : BitVec 16) : (t.wC c v).region = t.region := rfl
@[simp] theorem Strand.wC_recessAsked (t : Strand) (c : CtrNo) (v : BitVec 16) : (t.wC c v).recessAsked = t.recessAsked := rfl
@[simp] theorem Strand.wC_shadow (t : Strand) (c : CtrNo) (v : BitVec 16) : (t.wC c v).shadow = t.shadow := rfl
@[simp] theorem Strand.wC_sb (t : Strand) (c : CtrNo) (v : BitVec 16) : (t.wC c v).sb = t.sb := rfl
@[simp] theorem Strand.wC_sbAge (t : Strand) (c : CtrNo) (v : BitVec 16) : (t.wC c v).sbAge = t.sbAge := rfl
@[simp] theorem Strand.wC_ahead (t : Strand) (c : CtrNo) (v : BitVec 16) : (t.wC c v).ahead = t.ahead := rfl
@[simp] theorem Strand.wC_late (t : Strand) (c : CtrNo) (v : BitVec 16) : (t.wC c v).late = t.late := rfl
@[simp] theorem Strand.wC_wait (t : Strand) (c : CtrNo) (v : BitVec 16) : (t.wC c v).wait = t.wait := rfl
@[simp] theorem Strand.wC_pend (t : Strand) (c : CtrNo) (v : BitVec 16) : (t.wC c v).pend = t.pend := rfl
@[simp] theorem Strand.wC_mfault (t : Strand) (c : CtrNo) (v : BitVec 16) : (t.wC c v).mfault = t.mfault := rfl
@[simp] theorem Strand.wC_mdropped (t : Strand) (c : CtrNo) (v : BitVec 16) : (t.wC c v).mdropped = t.mdropped := rfl
@[simp] theorem Strand.wC_pausedBy (t : Strand) (c : CtrNo) (v : BitVec 16) : (t.wC c v).pausedBy = t.pausedBy := rfl
@[simp] theorem Strand.wC_journal (t : Strand) (c : CtrNo) (v : BitVec 16) : (t.wC c v).journal = t.journal := rfl
@[simp] theorem Strand.wC_savedLanes (t : Strand) (c : CtrNo) (v : BitVec 16) : (t.wC c v).savedLanes = t.savedLanes := rfl
@[simp] theorem Strand.wC_residual (t : Strand) (c : CtrNo) (v : BitVec 16) : (t.wC c v).residual = t.residual := rfl
@[simp] theorem Strand.wC_stalled (t : Strand) (c : CtrNo) (v : BitVec 16) : (t.wC c v).stalled = t.stalled := rfl
@[simp] theorem Strand.wC_hostBad (t : Strand) (c : CtrNo) (v : BitVec 16) : (t.wC c v).hostBad = t.hostBad := rfl
@[simp] theorem Strand.wC_drain (t : Strand) (c : CtrNo) (v : BitVec 16) : (t.wC c v).drain = t.drain := rfl
@[simp] theorem Strand.wV_run (t : Strand) (r : VReg) (v : Nat) : (t.wV r v).run = t.run := rfl
@[simp] theorem Strand.wV_s (t : Strand) (r : VReg) (v : Nat) : (t.wV r v).s = t.s := rfl
@[simp] theorem Strand.wV_p (t : Strand) (r : VReg) (v : Nat) : (t.wV r v).p = t.p := rfl
@[simp] theorem Strand.wV_k (t : Strand) (r : VReg) (v : Nat) : (t.wV r v).k = t.k := rfl
@[simp] theorem Strand.wV_pc (t : Strand) (r : VReg) (v : Nat) : (t.wV r v).pc = t.pc := rfl
@[simp] theorem Strand.wV_fpctl (t : Strand) (r : VReg) (v : Nat) : (t.wV r v).fpctl = t.fpctl := rfl
@[simp] theorem Strand.wV_vtype (t : Strand) (r : VReg) (v : Nat) : (t.wV r v).vtype = t.vtype := rfl
@[simp] theorem Strand.wV_vl (t : Strand) (r : VReg) (v : Nat) : (t.wV r v).vl = t.vl := rfl
@[simp] theorem Strand.wV_mvl (t : Strand) (r : VReg) (v : Nat) : (t.wV r v).mvl = t.mvl := rfl
@[simp] theorem Strand.wV_slip (t : Strand) (r : VReg) (v : Nat) : (t.wV r v).slip = t.slip := rfl
@[simp] theorem Strand.wV_sid (t : Strand) (r : VReg) (v : Nat) : (t.wV r v).sid = t.sid := rfl
@[simp] theorem Strand.wV_lcoord (t : Strand) (r : VReg) (v : Nat) : (t.wV r v).lcoord = t.lcoord := rfl
@[simp] theorem Strand.wV_lid (t : Strand) (r : VReg) (v : Nat) : (t.wV r v).lid = t.lid := rfl
@[simp] theorem Strand.wV_strip0 (t : Strand) (r : VReg) (v : Nat) : (t.wV r v).strip0 = t.strip0 := rfl
@[simp] theorem Strand.wV_stripn (t : Strand) (r : VReg) (v : Nat) : (t.wV r v).stripn = t.stripn := rfl
@[simp] theorem Strand.wV_epc (t : Strand) (r : VReg) (v : Nat) : (t.wV r v).epc = t.epc := rfl
@[simp] theorem Strand.wV_evcp (t : Strand) (r : VReg) (v : Nat) : (t.wV r v).evcp = t.evcp := rfl
@[simp] theorem Strand.wV_ecause (t : Strand) (r : VReg) (v : Nat) : (t.wV r v).ecause = t.ecause := rfl
@[simp] theorem Strand.wV_eval (t : Strand) (r : VReg) (v : Nat) : (t.wV r v).eval = t.eval := rfl
@[simp] theorem Strand.wV_estatus (t : Strand) (r : VReg) (v : Nat) : (t.wV r v).estatus = t.estatus := rfl
@[simp] theorem Strand.wV_tvec (t : Strand) (r : VReg) (v : Nat) : (t.wV r v).tvec = t.tvec := rfl
@[simp] theorem Strand.wV_hold (t : Strand) (r : VReg) (v : Nat) : (t.wV r v).hold = t.hold := rfl
@[simp] theorem Strand.wV_ctr (t : Strand) (r : VReg) (v : Nat) : (t.wV r v).ctr = t.ctr := rfl
@[simp] theorem Strand.wV_loops (t : Strand) (r : VReg) (v : Nat) : (t.wV r v).loops = t.loops := rfl
@[simp] theorem Strand.wV_vq (t : Strand) (r : VReg) (v : Nat) : (t.wV r v).vq = t.vq := rfl
@[simp] theorem Strand.wV_beats (t : Strand) (r : VReg) (v : Nat) : (t.wV r v).beats = t.beats := rfl
@[simp] theorem Strand.wV_vseq (t : Strand) (r : VReg) (v : Nat) : (t.wV r v).vseq = t.vseq := rfl
@[simp] theorem Strand.wV_barrier (t : Strand) (r : VReg) (v : Nat) : (t.wV r v).barrier = t.barrier := rfl
@[simp] theorem Strand.wV_sq (t : Strand) (r : VReg) (v : Nat) : (t.wV r v).sq = t.sq := rfl
@[simp] theorem Strand.wV_nv (t : Strand) (r : VReg) (v : Nat) : (t.wV r v).nv = t.nv := rfl
@[simp] theorem Strand.wV_claimed (t : Strand) (r : VReg) (v : Nat) : (t.wV r v).claimed = t.claimed := rfl
@[simp] theorem Strand.wV_tilesHeld (t : Strand) (r : VReg) (v : Nat) : (t.wV r v).tilesHeld = t.tilesHeld := rfl
@[simp] theorem Strand.wV_matrixMode (t : Strand) (r : VReg) (v : Nat) : (t.wV r v).matrixMode = t.matrixMode := rfl
@[simp] theorem Strand.wV_region (t : Strand) (r : VReg) (v : Nat) : (t.wV r v).region = t.region := rfl
@[simp] theorem Strand.wV_recessAsked (t : Strand) (r : VReg) (v : Nat) : (t.wV r v).recessAsked = t.recessAsked := rfl
@[simp] theorem Strand.wV_shadow (t : Strand) (r : VReg) (v : Nat) : (t.wV r v).shadow = t.shadow := rfl
@[simp] theorem Strand.wV_sb (t : Strand) (r : VReg) (v : Nat) : (t.wV r v).sb = t.sb := rfl
@[simp] theorem Strand.wV_sbAge (t : Strand) (r : VReg) (v : Nat) : (t.wV r v).sbAge = t.sbAge := rfl
@[simp] theorem Strand.wV_ahead (t : Strand) (r : VReg) (v : Nat) : (t.wV r v).ahead = t.ahead := rfl
@[simp] theorem Strand.wV_late (t : Strand) (r : VReg) (v : Nat) : (t.wV r v).late = t.late := rfl
@[simp] theorem Strand.wV_wait (t : Strand) (r : VReg) (v : Nat) : (t.wV r v).wait = t.wait := rfl
@[simp] theorem Strand.wV_pend (t : Strand) (r : VReg) (v : Nat) : (t.wV r v).pend = t.pend := rfl
@[simp] theorem Strand.wV_mfault (t : Strand) (r : VReg) (v : Nat) : (t.wV r v).mfault = t.mfault := rfl
@[simp] theorem Strand.wV_mdropped (t : Strand) (r : VReg) (v : Nat) : (t.wV r v).mdropped = t.mdropped := rfl
@[simp] theorem Strand.wV_pausedBy (t : Strand) (r : VReg) (v : Nat) : (t.wV r v).pausedBy = t.pausedBy := rfl
@[simp] theorem Strand.wV_journal (t : Strand) (r : VReg) (v : Nat) : (t.wV r v).journal = t.journal := rfl
@[simp] theorem Strand.wV_savedLanes (t : Strand) (r : VReg) (v : Nat) : (t.wV r v).savedLanes = t.savedLanes := rfl
@[simp] theorem Strand.wV_residual (t : Strand) (r : VReg) (v : Nat) : (t.wV r v).residual = t.residual := rfl
@[simp] theorem Strand.wV_stalled (t : Strand) (r : VReg) (v : Nat) : (t.wV r v).stalled = t.stalled := rfl
@[simp] theorem Strand.wV_hostBad (t : Strand) (r : VReg) (v : Nat) : (t.wV r v).hostBad = t.hostBad := rfl
@[simp] theorem Strand.wV_drain (t : Strand) (r : VReg) (v : Nat) : (t.wV r v).drain = t.drain := rfl
@[simp] theorem Strand.raise_run (t : Strand) (f : FpFlags) : (t.raise f).run = t.run := rfl
@[simp] theorem Strand.raise_s (t : Strand) (f : FpFlags) : (t.raise f).s = t.s := rfl
@[simp] theorem Strand.raise_p (t : Strand) (f : FpFlags) : (t.raise f).p = t.p := rfl
@[simp] theorem Strand.raise_k (t : Strand) (f : FpFlags) : (t.raise f).k = t.k := rfl
@[simp] theorem Strand.raise_v (t : Strand) (f : FpFlags) : (t.raise f).v = t.v := rfl
@[simp] theorem Strand.raise_vvalid (t : Strand) (f : FpFlags) : (t.raise f).vvalid = t.vvalid := rfl
@[simp] theorem Strand.raise_pc (t : Strand) (f : FpFlags) : (t.raise f).pc = t.pc := rfl
@[simp] theorem Strand.raise_vtype (t : Strand) (f : FpFlags) : (t.raise f).vtype = t.vtype := rfl
@[simp] theorem Strand.raise_vl (t : Strand) (f : FpFlags) : (t.raise f).vl = t.vl := rfl
@[simp] theorem Strand.raise_mvl (t : Strand) (f : FpFlags) : (t.raise f).mvl = t.mvl := rfl
@[simp] theorem Strand.raise_slip (t : Strand) (f : FpFlags) : (t.raise f).slip = t.slip := rfl
@[simp] theorem Strand.raise_sid (t : Strand) (f : FpFlags) : (t.raise f).sid = t.sid := rfl
@[simp] theorem Strand.raise_lcoord (t : Strand) (f : FpFlags) : (t.raise f).lcoord = t.lcoord := rfl
@[simp] theorem Strand.raise_lid (t : Strand) (f : FpFlags) : (t.raise f).lid = t.lid := rfl
@[simp] theorem Strand.raise_strip0 (t : Strand) (f : FpFlags) : (t.raise f).strip0 = t.strip0 := rfl
@[simp] theorem Strand.raise_stripn (t : Strand) (f : FpFlags) : (t.raise f).stripn = t.stripn := rfl
@[simp] theorem Strand.raise_epc (t : Strand) (f : FpFlags) : (t.raise f).epc = t.epc := rfl
@[simp] theorem Strand.raise_evcp (t : Strand) (f : FpFlags) : (t.raise f).evcp = t.evcp := rfl
@[simp] theorem Strand.raise_ecause (t : Strand) (f : FpFlags) : (t.raise f).ecause = t.ecause := rfl
@[simp] theorem Strand.raise_eval (t : Strand) (f : FpFlags) : (t.raise f).eval = t.eval := rfl
@[simp] theorem Strand.raise_estatus (t : Strand) (f : FpFlags) : (t.raise f).estatus = t.estatus := rfl
@[simp] theorem Strand.raise_tvec (t : Strand) (f : FpFlags) : (t.raise f).tvec = t.tvec := rfl
@[simp] theorem Strand.raise_hold (t : Strand) (f : FpFlags) : (t.raise f).hold = t.hold := rfl
@[simp] theorem Strand.raise_ctr (t : Strand) (f : FpFlags) : (t.raise f).ctr = t.ctr := rfl
@[simp] theorem Strand.raise_loops (t : Strand) (f : FpFlags) : (t.raise f).loops = t.loops := rfl
@[simp] theorem Strand.raise_vq (t : Strand) (f : FpFlags) : (t.raise f).vq = t.vq := rfl
@[simp] theorem Strand.raise_beats (t : Strand) (f : FpFlags) : (t.raise f).beats = t.beats := rfl
@[simp] theorem Strand.raise_vseq (t : Strand) (f : FpFlags) : (t.raise f).vseq = t.vseq := rfl
@[simp] theorem Strand.raise_barrier (t : Strand) (f : FpFlags) : (t.raise f).barrier = t.barrier := rfl
@[simp] theorem Strand.raise_sq (t : Strand) (f : FpFlags) : (t.raise f).sq = t.sq := rfl
@[simp] theorem Strand.raise_nv (t : Strand) (f : FpFlags) : (t.raise f).nv = t.nv := rfl
@[simp] theorem Strand.raise_claimed (t : Strand) (f : FpFlags) : (t.raise f).claimed = t.claimed := rfl
@[simp] theorem Strand.raise_tilesHeld (t : Strand) (f : FpFlags) : (t.raise f).tilesHeld = t.tilesHeld := rfl
@[simp] theorem Strand.raise_matrixMode (t : Strand) (f : FpFlags) : (t.raise f).matrixMode = t.matrixMode := rfl
@[simp] theorem Strand.raise_region (t : Strand) (f : FpFlags) : (t.raise f).region = t.region := rfl
@[simp] theorem Strand.raise_recessAsked (t : Strand) (f : FpFlags) : (t.raise f).recessAsked = t.recessAsked := rfl
@[simp] theorem Strand.raise_shadow (t : Strand) (f : FpFlags) : (t.raise f).shadow = t.shadow := rfl
@[simp] theorem Strand.raise_sb (t : Strand) (f : FpFlags) : (t.raise f).sb = t.sb := rfl
@[simp] theorem Strand.raise_sbAge (t : Strand) (f : FpFlags) : (t.raise f).sbAge = t.sbAge := rfl
@[simp] theorem Strand.raise_ahead (t : Strand) (f : FpFlags) : (t.raise f).ahead = t.ahead := rfl
@[simp] theorem Strand.raise_late (t : Strand) (f : FpFlags) : (t.raise f).late = t.late := rfl
@[simp] theorem Strand.raise_wait (t : Strand) (f : FpFlags) : (t.raise f).wait = t.wait := rfl
@[simp] theorem Strand.raise_pend (t : Strand) (f : FpFlags) : (t.raise f).pend = t.pend := rfl
@[simp] theorem Strand.raise_mfault (t : Strand) (f : FpFlags) : (t.raise f).mfault = t.mfault := rfl
@[simp] theorem Strand.raise_mdropped (t : Strand) (f : FpFlags) : (t.raise f).mdropped = t.mdropped := rfl
@[simp] theorem Strand.raise_pausedBy (t : Strand) (f : FpFlags) : (t.raise f).pausedBy = t.pausedBy := rfl
@[simp] theorem Strand.raise_journal (t : Strand) (f : FpFlags) : (t.raise f).journal = t.journal := rfl
@[simp] theorem Strand.raise_savedLanes (t : Strand) (f : FpFlags) : (t.raise f).savedLanes = t.savedLanes := rfl
@[simp] theorem Strand.raise_residual (t : Strand) (f : FpFlags) : (t.raise f).residual = t.residual := rfl
@[simp] theorem Strand.raise_stalled (t : Strand) (f : FpFlags) : (t.raise f).stalled = t.stalled := rfl
@[simp] theorem Strand.raise_hostBad (t : Strand) (f : FpFlags) : (t.raise f).hostBad = t.hostBad := rfl
@[simp] theorem Strand.raise_drain (t : Strand) (f : FpFlags) : (t.raise f).drain = t.drain := rfl
@[simp] theorem Strand.raiseRsh_run (t : Strand) (b : Bool) : (t.raiseRsh b).run = t.run := by
  unfold Strand.raiseRsh; split <;> rfl
@[simp] theorem Strand.raiseRsh_s (t : Strand) (b : Bool) : (t.raiseRsh b).s = t.s := by
  unfold Strand.raiseRsh; split <;> rfl
@[simp] theorem Strand.raiseRsh_p (t : Strand) (b : Bool) : (t.raiseRsh b).p = t.p := by
  unfold Strand.raiseRsh; split <;> rfl
@[simp] theorem Strand.raiseRsh_k (t : Strand) (b : Bool) : (t.raiseRsh b).k = t.k := by
  unfold Strand.raiseRsh; split <;> rfl
@[simp] theorem Strand.raiseRsh_v (t : Strand) (b : Bool) : (t.raiseRsh b).v = t.v := by
  unfold Strand.raiseRsh; split <;> rfl
@[simp] theorem Strand.raiseRsh_vvalid (t : Strand) (b : Bool) : (t.raiseRsh b).vvalid = t.vvalid := by
  unfold Strand.raiseRsh; split <;> rfl
@[simp] theorem Strand.raiseRsh_pc (t : Strand) (b : Bool) : (t.raiseRsh b).pc = t.pc := by
  unfold Strand.raiseRsh; split <;> rfl
@[simp] theorem Strand.raiseRsh_vtype (t : Strand) (b : Bool) : (t.raiseRsh b).vtype = t.vtype := by
  unfold Strand.raiseRsh; split <;> rfl
@[simp] theorem Strand.raiseRsh_vl (t : Strand) (b : Bool) : (t.raiseRsh b).vl = t.vl := by
  unfold Strand.raiseRsh; split <;> rfl
@[simp] theorem Strand.raiseRsh_mvl (t : Strand) (b : Bool) : (t.raiseRsh b).mvl = t.mvl := by
  unfold Strand.raiseRsh; split <;> rfl
@[simp] theorem Strand.raiseRsh_slip (t : Strand) (b : Bool) : (t.raiseRsh b).slip = t.slip := by
  unfold Strand.raiseRsh; split <;> rfl
@[simp] theorem Strand.raiseRsh_sid (t : Strand) (b : Bool) : (t.raiseRsh b).sid = t.sid := by
  unfold Strand.raiseRsh; split <;> rfl
@[simp] theorem Strand.raiseRsh_lcoord (t : Strand) (b : Bool) : (t.raiseRsh b).lcoord = t.lcoord := by
  unfold Strand.raiseRsh; split <;> rfl
@[simp] theorem Strand.raiseRsh_lid (t : Strand) (b : Bool) : (t.raiseRsh b).lid = t.lid := by
  unfold Strand.raiseRsh; split <;> rfl
@[simp] theorem Strand.raiseRsh_strip0 (t : Strand) (b : Bool) : (t.raiseRsh b).strip0 = t.strip0 := by
  unfold Strand.raiseRsh; split <;> rfl
@[simp] theorem Strand.raiseRsh_stripn (t : Strand) (b : Bool) : (t.raiseRsh b).stripn = t.stripn := by
  unfold Strand.raiseRsh; split <;> rfl
@[simp] theorem Strand.raiseRsh_epc (t : Strand) (b : Bool) : (t.raiseRsh b).epc = t.epc := by
  unfold Strand.raiseRsh; split <;> rfl
@[simp] theorem Strand.raiseRsh_evcp (t : Strand) (b : Bool) : (t.raiseRsh b).evcp = t.evcp := by
  unfold Strand.raiseRsh; split <;> rfl
@[simp] theorem Strand.raiseRsh_ecause (t : Strand) (b : Bool) : (t.raiseRsh b).ecause = t.ecause := by
  unfold Strand.raiseRsh; split <;> rfl
@[simp] theorem Strand.raiseRsh_eval (t : Strand) (b : Bool) : (t.raiseRsh b).eval = t.eval := by
  unfold Strand.raiseRsh; split <;> rfl
@[simp] theorem Strand.raiseRsh_estatus (t : Strand) (b : Bool) : (t.raiseRsh b).estatus = t.estatus := by
  unfold Strand.raiseRsh; split <;> rfl
@[simp] theorem Strand.raiseRsh_tvec (t : Strand) (b : Bool) : (t.raiseRsh b).tvec = t.tvec := by
  unfold Strand.raiseRsh; split <;> rfl
@[simp] theorem Strand.raiseRsh_hold (t : Strand) (b : Bool) : (t.raiseRsh b).hold = t.hold := by
  unfold Strand.raiseRsh; split <;> rfl
@[simp] theorem Strand.raiseRsh_ctr (t : Strand) (b : Bool) : (t.raiseRsh b).ctr = t.ctr := by
  unfold Strand.raiseRsh; split <;> rfl
@[simp] theorem Strand.raiseRsh_loops (t : Strand) (b : Bool) : (t.raiseRsh b).loops = t.loops := by
  unfold Strand.raiseRsh; split <;> rfl
@[simp] theorem Strand.raiseRsh_vq (t : Strand) (b : Bool) : (t.raiseRsh b).vq = t.vq := by
  unfold Strand.raiseRsh; split <;> rfl
@[simp] theorem Strand.raiseRsh_beats (t : Strand) (b : Bool) : (t.raiseRsh b).beats = t.beats := by
  unfold Strand.raiseRsh; split <;> rfl
@[simp] theorem Strand.raiseRsh_vseq (t : Strand) (b : Bool) : (t.raiseRsh b).vseq = t.vseq := by
  unfold Strand.raiseRsh; split <;> rfl
@[simp] theorem Strand.raiseRsh_barrier (t : Strand) (b : Bool) : (t.raiseRsh b).barrier = t.barrier := by
  unfold Strand.raiseRsh; split <;> rfl
@[simp] theorem Strand.raiseRsh_sq (t : Strand) (b : Bool) : (t.raiseRsh b).sq = t.sq := by
  unfold Strand.raiseRsh; split <;> rfl
@[simp] theorem Strand.raiseRsh_nv (t : Strand) (b : Bool) : (t.raiseRsh b).nv = t.nv := by
  unfold Strand.raiseRsh; split <;> rfl
@[simp] theorem Strand.raiseRsh_claimed (t : Strand) (b : Bool) : (t.raiseRsh b).claimed = t.claimed := by
  unfold Strand.raiseRsh; split <;> rfl
@[simp] theorem Strand.raiseRsh_tilesHeld (t : Strand) (b : Bool) : (t.raiseRsh b).tilesHeld = t.tilesHeld := by
  unfold Strand.raiseRsh; split <;> rfl
@[simp] theorem Strand.raiseRsh_matrixMode (t : Strand) (b : Bool) : (t.raiseRsh b).matrixMode = t.matrixMode := by
  unfold Strand.raiseRsh; split <;> rfl
@[simp] theorem Strand.raiseRsh_region (t : Strand) (b : Bool) : (t.raiseRsh b).region = t.region := by
  unfold Strand.raiseRsh; split <;> rfl
@[simp] theorem Strand.raiseRsh_recessAsked (t : Strand) (b : Bool) : (t.raiseRsh b).recessAsked = t.recessAsked := by
  unfold Strand.raiseRsh; split <;> rfl
@[simp] theorem Strand.raiseRsh_shadow (t : Strand) (b : Bool) : (t.raiseRsh b).shadow = t.shadow := by
  unfold Strand.raiseRsh; split <;> rfl
@[simp] theorem Strand.raiseRsh_sb (t : Strand) (b : Bool) : (t.raiseRsh b).sb = t.sb := by
  unfold Strand.raiseRsh; split <;> rfl
@[simp] theorem Strand.raiseRsh_sbAge (t : Strand) (b : Bool) : (t.raiseRsh b).sbAge = t.sbAge := by
  unfold Strand.raiseRsh; split <;> rfl
@[simp] theorem Strand.raiseRsh_ahead (t : Strand) (b : Bool) : (t.raiseRsh b).ahead = t.ahead := by
  unfold Strand.raiseRsh; split <;> rfl
@[simp] theorem Strand.raiseRsh_late (t : Strand) (b : Bool) : (t.raiseRsh b).late = t.late := by
  unfold Strand.raiseRsh; split <;> rfl
@[simp] theorem Strand.raiseRsh_wait (t : Strand) (b : Bool) : (t.raiseRsh b).wait = t.wait := by
  unfold Strand.raiseRsh; split <;> rfl
@[simp] theorem Strand.raiseRsh_pend (t : Strand) (b : Bool) : (t.raiseRsh b).pend = t.pend := by
  unfold Strand.raiseRsh; split <;> rfl
@[simp] theorem Strand.raiseRsh_mfault (t : Strand) (b : Bool) : (t.raiseRsh b).mfault = t.mfault := by
  unfold Strand.raiseRsh; split <;> rfl
@[simp] theorem Strand.raiseRsh_mdropped (t : Strand) (b : Bool) : (t.raiseRsh b).mdropped = t.mdropped := by
  unfold Strand.raiseRsh; split <;> rfl
@[simp] theorem Strand.raiseRsh_pausedBy (t : Strand) (b : Bool) : (t.raiseRsh b).pausedBy = t.pausedBy := by
  unfold Strand.raiseRsh; split <;> rfl
@[simp] theorem Strand.raiseRsh_journal (t : Strand) (b : Bool) : (t.raiseRsh b).journal = t.journal := by
  unfold Strand.raiseRsh; split <;> rfl
@[simp] theorem Strand.raiseRsh_savedLanes (t : Strand) (b : Bool) : (t.raiseRsh b).savedLanes = t.savedLanes := by
  unfold Strand.raiseRsh; split <;> rfl
@[simp] theorem Strand.raiseRsh_residual (t : Strand) (b : Bool) : (t.raiseRsh b).residual = t.residual := by
  unfold Strand.raiseRsh; split <;> rfl
@[simp] theorem Strand.raiseRsh_stalled (t : Strand) (b : Bool) : (t.raiseRsh b).stalled = t.stalled := by
  unfold Strand.raiseRsh; split <;> rfl
@[simp] theorem Strand.raiseRsh_hostBad (t : Strand) (b : Bool) : (t.raiseRsh b).hostBad = t.hostBad := by
  unfold Strand.raiseRsh; split <;> rfl
@[simp] theorem Strand.raiseRsh_drain (t : Strand) (b : Bool) : (t.raiseRsh b).drain = t.drain := by
  unfold Strand.raiseRsh; split <;> rfl
@[simp] theorem Strand.advance_run (t : Strand) (n : Nat) : (t.advance n).run = t.run := by
  simp only [Strand.advance]; split <;> rfl
@[simp] theorem Strand.advance_s (t : Strand) (n : Nat) : (t.advance n).s = t.s := by
  simp only [Strand.advance]; split <;> rfl
@[simp] theorem Strand.advance_p (t : Strand) (n : Nat) : (t.advance n).p = t.p := by
  simp only [Strand.advance]; split <;> rfl
@[simp] theorem Strand.advance_k (t : Strand) (n : Nat) : (t.advance n).k = t.k := by
  simp only [Strand.advance]; split <;> rfl
@[simp] theorem Strand.advance_v (t : Strand) (n : Nat) : (t.advance n).v = t.v := by
  simp only [Strand.advance]; split <;> rfl
@[simp] theorem Strand.advance_vvalid (t : Strand) (n : Nat) : (t.advance n).vvalid = t.vvalid := by
  simp only [Strand.advance]; split <;> rfl
@[simp] theorem Strand.advance_fpctl (t : Strand) (n : Nat) : (t.advance n).fpctl = t.fpctl := by
  simp only [Strand.advance]; split <;> rfl
@[simp] theorem Strand.advance_vtype (t : Strand) (n : Nat) : (t.advance n).vtype = t.vtype := by
  simp only [Strand.advance]; split <;> rfl
@[simp] theorem Strand.advance_vl (t : Strand) (n : Nat) : (t.advance n).vl = t.vl := by
  simp only [Strand.advance]; split <;> rfl
@[simp] theorem Strand.advance_mvl (t : Strand) (n : Nat) : (t.advance n).mvl = t.mvl := by
  simp only [Strand.advance]; split <;> rfl
@[simp] theorem Strand.advance_slip (t : Strand) (n : Nat) : (t.advance n).slip = t.slip := by
  simp only [Strand.advance]; split <;> rfl
@[simp] theorem Strand.advance_sid (t : Strand) (n : Nat) : (t.advance n).sid = t.sid := by
  simp only [Strand.advance]; split <;> rfl
@[simp] theorem Strand.advance_lcoord (t : Strand) (n : Nat) : (t.advance n).lcoord = t.lcoord := by
  simp only [Strand.advance]; split <;> rfl
@[simp] theorem Strand.advance_lid (t : Strand) (n : Nat) : (t.advance n).lid = t.lid := by
  simp only [Strand.advance]; split <;> rfl
@[simp] theorem Strand.advance_strip0 (t : Strand) (n : Nat) : (t.advance n).strip0 = t.strip0 := by
  simp only [Strand.advance]; split <;> rfl
@[simp] theorem Strand.advance_stripn (t : Strand) (n : Nat) : (t.advance n).stripn = t.stripn := by
  simp only [Strand.advance]; split <;> rfl
@[simp] theorem Strand.advance_epc (t : Strand) (n : Nat) : (t.advance n).epc = t.epc := by
  simp only [Strand.advance]; split <;> rfl
@[simp] theorem Strand.advance_evcp (t : Strand) (n : Nat) : (t.advance n).evcp = t.evcp := by
  simp only [Strand.advance]; split <;> rfl
@[simp] theorem Strand.advance_ecause (t : Strand) (n : Nat) : (t.advance n).ecause = t.ecause := by
  simp only [Strand.advance]; split <;> rfl
@[simp] theorem Strand.advance_eval (t : Strand) (n : Nat) : (t.advance n).eval = t.eval := by
  simp only [Strand.advance]; split <;> rfl
@[simp] theorem Strand.advance_estatus (t : Strand) (n : Nat) : (t.advance n).estatus = t.estatus := by
  simp only [Strand.advance]; split <;> rfl
@[simp] theorem Strand.advance_tvec (t : Strand) (n : Nat) : (t.advance n).tvec = t.tvec := by
  simp only [Strand.advance]; split <;> rfl
@[simp] theorem Strand.advance_hold (t : Strand) (n : Nat) : (t.advance n).hold = t.hold := by
  simp only [Strand.advance]; split <;> rfl
@[simp] theorem Strand.advance_ctr (t : Strand) (n : Nat) : (t.advance n).ctr = t.ctr := by
  simp only [Strand.advance]; split <;> rfl
@[simp] theorem Strand.advance_vq (t : Strand) (n : Nat) : (t.advance n).vq = t.vq := by
  simp only [Strand.advance]; split <;> rfl
@[simp] theorem Strand.advance_beats (t : Strand) (n : Nat) : (t.advance n).beats = t.beats := by
  simp only [Strand.advance]; split <;> rfl
@[simp] theorem Strand.advance_vseq (t : Strand) (n : Nat) : (t.advance n).vseq = t.vseq := by
  simp only [Strand.advance]; split <;> rfl
@[simp] theorem Strand.advance_barrier (t : Strand) (n : Nat) : (t.advance n).barrier = t.barrier := by
  simp only [Strand.advance]; split <;> rfl
@[simp] theorem Strand.advance_sq (t : Strand) (n : Nat) : (t.advance n).sq = t.sq := by
  simp only [Strand.advance]; split <;> rfl
@[simp] theorem Strand.advance_nv (t : Strand) (n : Nat) : (t.advance n).nv = t.nv := by
  simp only [Strand.advance]; split <;> rfl
@[simp] theorem Strand.advance_claimed (t : Strand) (n : Nat) : (t.advance n).claimed = t.claimed := by
  simp only [Strand.advance]; split <;> rfl
@[simp] theorem Strand.advance_tilesHeld (t : Strand) (n : Nat) : (t.advance n).tilesHeld = t.tilesHeld := by
  simp only [Strand.advance]; split <;> rfl
@[simp] theorem Strand.advance_matrixMode (t : Strand) (n : Nat) : (t.advance n).matrixMode = t.matrixMode := by
  simp only [Strand.advance]; split <;> rfl
@[simp] theorem Strand.advance_region (t : Strand) (n : Nat) : (t.advance n).region = t.region := by
  simp only [Strand.advance]; split <;> rfl
@[simp] theorem Strand.advance_recessAsked (t : Strand) (n : Nat) : (t.advance n).recessAsked = t.recessAsked := by
  simp only [Strand.advance]; split <;> rfl
@[simp] theorem Strand.advance_shadow (t : Strand) (n : Nat) : (t.advance n).shadow = t.shadow := by
  simp only [Strand.advance]; split <;> rfl
@[simp] theorem Strand.advance_sb (t : Strand) (n : Nat) : (t.advance n).sb = t.sb := by
  simp only [Strand.advance]; split <;> rfl
@[simp] theorem Strand.advance_sbAge (t : Strand) (n : Nat) : (t.advance n).sbAge = t.sbAge := by
  simp only [Strand.advance]; split <;> rfl
@[simp] theorem Strand.advance_late (t : Strand) (n : Nat) : (t.advance n).late = t.late := by
  simp only [Strand.advance]; split <;> rfl
@[simp] theorem Strand.advance_wait (t : Strand) (n : Nat) : (t.advance n).wait = t.wait := by
  simp only [Strand.advance]; split <;> rfl
@[simp] theorem Strand.advance_pend (t : Strand) (n : Nat) : (t.advance n).pend = t.pend := by
  simp only [Strand.advance]; split <;> rfl
@[simp] theorem Strand.advance_mfault (t : Strand) (n : Nat) : (t.advance n).mfault = t.mfault := by
  simp only [Strand.advance]; split <;> rfl
@[simp] theorem Strand.advance_mdropped (t : Strand) (n : Nat) : (t.advance n).mdropped = t.mdropped := by
  simp only [Strand.advance]; split <;> rfl
@[simp] theorem Strand.advance_pausedBy (t : Strand) (n : Nat) : (t.advance n).pausedBy = t.pausedBy := by
  simp only [Strand.advance]; split <;> rfl
@[simp] theorem Strand.advance_journal (t : Strand) (n : Nat) : (t.advance n).journal = t.journal := by
  simp only [Strand.advance]; split <;> rfl
@[simp] theorem Strand.advance_savedLanes (t : Strand) (n : Nat) : (t.advance n).savedLanes = t.savedLanes := by
  simp only [Strand.advance]; split <;> rfl
@[simp] theorem Strand.advance_residual (t : Strand) (n : Nat) : (t.advance n).residual = t.residual := by
  simp only [Strand.advance]; split <;> rfl
@[simp] theorem Strand.advance_stalled (t : Strand) (n : Nat) : (t.advance n).stalled = t.stalled := by
  simp only [Strand.advance]; split <;> rfl
@[simp] theorem Strand.advance_hostBad (t : Strand) (n : Nat) : (t.advance n).hostBad = t.hostBad := by
  simp only [Strand.advance]; split <;> rfl
@[simp] theorem Strand.advance_drain (t : Strand) (n : Nat) : (t.advance n).drain = t.drain := by
  simp only [Strand.advance]; split <;> rfl
@[simp] theorem Strand.branch_run (t : Strand) (a : Word) : (t.branch a).run = t.run := rfl
@[simp] theorem Strand.branch_s (t : Strand) (a : Word) : (t.branch a).s = t.s := rfl
@[simp] theorem Strand.branch_p (t : Strand) (a : Word) : (t.branch a).p = t.p := rfl
@[simp] theorem Strand.branch_k (t : Strand) (a : Word) : (t.branch a).k = t.k := rfl
@[simp] theorem Strand.branch_v (t : Strand) (a : Word) : (t.branch a).v = t.v := rfl
@[simp] theorem Strand.branch_vvalid (t : Strand) (a : Word) : (t.branch a).vvalid = t.vvalid := rfl
@[simp] theorem Strand.branch_fpctl (t : Strand) (a : Word) : (t.branch a).fpctl = t.fpctl := rfl
@[simp] theorem Strand.branch_vtype (t : Strand) (a : Word) : (t.branch a).vtype = t.vtype := rfl
@[simp] theorem Strand.branch_vl (t : Strand) (a : Word) : (t.branch a).vl = t.vl := rfl
@[simp] theorem Strand.branch_mvl (t : Strand) (a : Word) : (t.branch a).mvl = t.mvl := rfl
@[simp] theorem Strand.branch_slip (t : Strand) (a : Word) : (t.branch a).slip = t.slip := rfl
@[simp] theorem Strand.branch_sid (t : Strand) (a : Word) : (t.branch a).sid = t.sid := rfl
@[simp] theorem Strand.branch_lcoord (t : Strand) (a : Word) : (t.branch a).lcoord = t.lcoord := rfl
@[simp] theorem Strand.branch_lid (t : Strand) (a : Word) : (t.branch a).lid = t.lid := rfl
@[simp] theorem Strand.branch_strip0 (t : Strand) (a : Word) : (t.branch a).strip0 = t.strip0 := rfl
@[simp] theorem Strand.branch_stripn (t : Strand) (a : Word) : (t.branch a).stripn = t.stripn := rfl
@[simp] theorem Strand.branch_epc (t : Strand) (a : Word) : (t.branch a).epc = t.epc := rfl
@[simp] theorem Strand.branch_evcp (t : Strand) (a : Word) : (t.branch a).evcp = t.evcp := rfl
@[simp] theorem Strand.branch_ecause (t : Strand) (a : Word) : (t.branch a).ecause = t.ecause := rfl
@[simp] theorem Strand.branch_eval (t : Strand) (a : Word) : (t.branch a).eval = t.eval := rfl
@[simp] theorem Strand.branch_estatus (t : Strand) (a : Word) : (t.branch a).estatus = t.estatus := rfl
@[simp] theorem Strand.branch_tvec (t : Strand) (a : Word) : (t.branch a).tvec = t.tvec := rfl
@[simp] theorem Strand.branch_hold (t : Strand) (a : Word) : (t.branch a).hold = t.hold := rfl
@[simp] theorem Strand.branch_ctr (t : Strand) (a : Word) : (t.branch a).ctr = t.ctr := rfl
@[simp] theorem Strand.branch_vq (t : Strand) (a : Word) : (t.branch a).vq = t.vq := rfl
@[simp] theorem Strand.branch_beats (t : Strand) (a : Word) : (t.branch a).beats = t.beats := rfl
@[simp] theorem Strand.branch_vseq (t : Strand) (a : Word) : (t.branch a).vseq = t.vseq := rfl
@[simp] theorem Strand.branch_barrier (t : Strand) (a : Word) : (t.branch a).barrier = t.barrier := rfl
@[simp] theorem Strand.branch_sq (t : Strand) (a : Word) : (t.branch a).sq = t.sq := rfl
@[simp] theorem Strand.branch_nv (t : Strand) (a : Word) : (t.branch a).nv = t.nv := rfl
@[simp] theorem Strand.branch_claimed (t : Strand) (a : Word) : (t.branch a).claimed = t.claimed := rfl
@[simp] theorem Strand.branch_tilesHeld (t : Strand) (a : Word) : (t.branch a).tilesHeld = t.tilesHeld := rfl
@[simp] theorem Strand.branch_matrixMode (t : Strand) (a : Word) : (t.branch a).matrixMode = t.matrixMode := rfl
@[simp] theorem Strand.branch_region (t : Strand) (a : Word) : (t.branch a).region = t.region := rfl
@[simp] theorem Strand.branch_recessAsked (t : Strand) (a : Word) : (t.branch a).recessAsked = t.recessAsked := rfl
@[simp] theorem Strand.branch_shadow (t : Strand) (a : Word) : (t.branch a).shadow = t.shadow := rfl
@[simp] theorem Strand.branch_sb (t : Strand) (a : Word) : (t.branch a).sb = t.sb := rfl
@[simp] theorem Strand.branch_sbAge (t : Strand) (a : Word) : (t.branch a).sbAge = t.sbAge := rfl
@[simp] theorem Strand.branch_late (t : Strand) (a : Word) : (t.branch a).late = t.late := rfl
@[simp] theorem Strand.branch_wait (t : Strand) (a : Word) : (t.branch a).wait = t.wait := rfl
@[simp] theorem Strand.branch_pend (t : Strand) (a : Word) : (t.branch a).pend = t.pend := rfl
@[simp] theorem Strand.branch_mfault (t : Strand) (a : Word) : (t.branch a).mfault = t.mfault := rfl
@[simp] theorem Strand.branch_mdropped (t : Strand) (a : Word) : (t.branch a).mdropped = t.mdropped := rfl
@[simp] theorem Strand.branch_pausedBy (t : Strand) (a : Word) : (t.branch a).pausedBy = t.pausedBy := rfl
@[simp] theorem Strand.branch_journal (t : Strand) (a : Word) : (t.branch a).journal = t.journal := rfl
@[simp] theorem Strand.branch_savedLanes (t : Strand) (a : Word) : (t.branch a).savedLanes = t.savedLanes := rfl
@[simp] theorem Strand.branch_residual (t : Strand) (a : Word) : (t.branch a).residual = t.residual := rfl
@[simp] theorem Strand.branch_stalled (t : Strand) (a : Word) : (t.branch a).stalled = t.stalled := rfl
@[simp] theorem Strand.branch_hostBad (t : Strand) (a : Word) : (t.branch a).hostBad = t.hostBad := rfl
@[simp] theorem Strand.branch_drain (t : Strand) (a : Word) : (t.branch a).drain = t.drain := rfl

theorem Strand.rS_wS_same (t : Strand) {r : SReg} (v : Word) (h : r ≠ 0) : (t.wS r v).rS r = v := by
  unfold Strand.rS Strand.wS
  simp only [if_neg h, Vector.getElem_set_self]
theorem Strand.rS_wS_ne (t : Strand) {r q : SReg} (v : Word) (h : q ≠ r) : (t.wS r v).rS q = t.rS q := by
  have hn : r.toNat ≠ q.toNat := fun e => h (BitVec.eq_of_toNat_eq e.symm)
  unfold Strand.rS Strand.wS
  by_cases hr : r = 0
  · simp only [if_pos hr]
  · by_cases hq : q = 0
    · simp only [if_pos hq]
    · simp only [if_neg hq, if_neg hr, Vector.getElem_set_ne _ _ hn]
@[simp] theorem Strand.rS_zero (t : Strand) : t.rS 0 = 0 := by simp [Strand.rS]
@[simp] theorem Strand.wS_zero (t : Strand) (v : Word) : t.wS 0 v = t := by simp [Strand.wS]
@[simp] theorem Strand.rP_zero (t : Strand) : t.rP 0 = true := by simp [Strand.rP]
@[simp] theorem Strand.wP_zero (t : Strand) (v : Bool) : t.wP 0 v = t := by simp [Strand.wP]
theorem Strand.rC_wC_same (t : Strand) (c : CtrNo) (v : BitVec 16) : (t.wC c v).rC c = v := by
  simp [Strand.rC, Strand.wC]
theorem Strand.rC_wC_ne (t : Strand) {c d : CtrNo} (v : BitVec 16) (h : d ≠ c) : (t.wC c v).rC d = t.rC d := by
  have hn : c.toNat ≠ d.toNat := fun e => h (BitVec.eq_of_toNat_eq e.symm)
  simp only [Strand.rC, Strand.wC, Vector.getElem_set_ne _ _ hn]

end Sys2Proof.Machine
end

