-- ==== Sys2Proof/Laws/Units.lean ====
section
/-! SUPPORT. What the shared operations of a strand's units can do: check bits, the run of a unit, its end, taking a trap, and issue into VQ. -/
namespace Sys2Proof.Machine

/-! ## Check bits -/

theorem State.noErr_cons {s : State} {e : ErrSite} {es : List ErrSite} :
    s.noErr (e :: es) ↔ s.errAt e = none ∧ s.noErr es := by
  simp [State.noErr]

theorem State.noErr_of_clean {s : State} (h : s.errs = []) (es : List ErrSite) : s.noErr es := by
  intro e _
  simp [State.errAt, h]

theorem State.consume_none (d : DieId) {es : List ErrSite} {s : State} (h : s.noErr es) : State.consume d es s = (s, none) := by
  induction es with
  | nil => rfl
  | cons e es ih =>
    have h := State.noErr_cons.mp h
    simp only [State.consume, h.1]
    exact ih h.2

/-! ## The run of a unit -/

@[simp] theorem finish_done (n : Nat) (s : State) : finish n (.done s) = .next (s.modMe fun t => { t.advance n with wait := none }) := rfl
@[simp] theorem finish_jump (n : Nat) (s : State) (a : Word) :
    finish n (.jump s a) = .next (s.modMe fun t => { t.branch a with wait := none }) := rfl
@[simp] theorem finish_trap (n : Nat) (s : State) (i : TrapInfo) : finish n (.trap s i) = .next (s.scalarTrap s.cur i) := rfl
@[simp] theorem finish_tfault (n : Nat) (s : State) (i : TrapInfo) : finish n (.tfault s i) = .next (s.scalarFault s.cur i) := rfl
@[simp] theorem finish_wait (n : Nat) (s : State) : finish n (.wait s) = .next s := rfl
@[simp] theorem finish_gone (n : Nat) (s : State) : finish n (.gone s) = .next s := rfl

theorem goes_finish (n : Nat) (r : UnitRes) : Goes (finish n r) := by
  cases r <;> exact ⟨_, rfl⟩

@[simp] theorem State.begun_errs (s : State) (h : Hdr) : (s.begun h).errs = s.errs := by
  unfold State.begun; split <;> rfl
@[simp] theorem State.begun_cur (s : State) (h : Hdr) : (s.begun h).cur = s.cur := by
  unfold State.begun; split <;> rfl
@[simp] theorem State.begun_errAt (s : State) (h : Hdr) (e : ErrSite) : (s.begun h).errAt e = s.errAt e := by
  simp [State.errAt]
theorem State.begun_of_ne (s : State) {h : Hdr} (e : h.sched ≠ .barrier) : s.begun h = s := by
  simp [State.begun, e]

theorem State.begun_me (s : State) (h : Hdr) : ∃ b, (s.begun h).me = { s.me with barrier := b } := by
  unfold State.begun
  split
  · exact ⟨true, by simp⟩
  · exact ⟨s.me.barrier, rfl⟩

theorem State.begun_suppressed (s : State) (h : Hdr) :
    suppressed (s.begun h).me (instrAddr h (s.begun h)) h.sched = suppressed s.me (instrAddr h s) h.sched := by
  unfold instrAddr
  obtain ⟨b, e⟩ := s.begun_me h
  rw [e]
  rfl

theorem State.begun_rP (s : State) (h : Hdr) (p : PReg) : (s.begun h).me.rP p = s.me.rP p := by
  obtain ⟨b, e⟩ := s.begun_me h
  rw [e]
  rfl

theorem State.begun_die (s : State) (h : Hdr) (d : DieId) : (s.begun h).die d = s.die d := by
  unfold State.begun; split <;> rfl

/-- No check error stands at the registers a unit that runs can read. -/
theorem Runs.noErr {h : Hdr} {s : State} (hr : Runs h s) (rs : List SReg) (ps : List PReg) (cs : List Nat) :
    s.noErr (cs.map (ctlSite s) ++ pSites s ps ++ sSites s rs) := by
  intro e he
  rcases List.mem_append.mp he with he | he
  · rcases List.mem_append.mp he with he | he
    · obtain ⟨n, -, rfl⟩ := List.mem_map.mp he
      exact hr.ctl _
    · obtain ⟨p, -, rfl⟩ := List.mem_map.mp he
      exact hr.preg p
  · obtain ⟨r, -, rfl⟩ := List.mem_map.mp he
    exact hr.sreg r

theorem Runs.noErrS {h : Hdr} {s : State} (hr : Runs h s) (rs : List SReg) : s.noErr (sSites s rs) := hr.noErr rs [] []

/-- A unit that runs, with no check error at the registers it reads, ends as its body says. -/
theorem runUnit_runs {h : Hdr} {srcs : List ErrSite} {body : State → UnitRes} {s : State} (hr : Runs h s) (he : s.noErr srcs) :
    runUnit h srcs body s = finish (hdrWords h) (body (s.begun h)) := by
  have h1 : State.consume (dieOf (s.begun h).cur.core) [.preg (s.begun h).cur h.guard] (s.begun h) = (s.begun h, none) :=
    State.consume_none _ (by simpa [State.noErr] using hr.preg h.guard)
  have h2 : State.consume (dieOf (s.begun h).cur.core) srcs (s.begun h) = (s.begun h, none) :=
    State.consume_none _ fun e q => by simpa using he e q
  have hc : ¬ (h.sched = .csync ∧ ¬ csyncReady s = true) := fun q => q.2 (hr.csync q.1)
  have hg : ¬ (s.begun h).me.rP h.guard = h.gneg := by simpa [State.begun_rP] using hr.guard
  simp only [runUnit, runBody, hr.die, Bool.false_eq_true, if_false, if_neg hc, State.begun_suppressed, hr.loops, h1, h2, if_neg hg]

/-- A unit whose guard fails only advances (R13). -/
theorem runUnit_guarded {h : Hdr} {srcs : List ErrSite} {body : State → UnitRes} {s : State}
    (hd : (s.die (dieOf s.cur.core)).stopped = false) (hc : h.sched = .csync → csyncReady s = true)
    (hl : suppressed s.me (instrAddr h s) h.sched = false)
    (he : s.errAt (.preg s.cur h.guard) = none) (hg : s.me.rP h.guard = h.gneg) :
    runUnit h srcs body s = .next ((s.begun h).fallen h) := by
  have h1 : State.consume (dieOf (s.begun h).cur.core) [.preg (s.begun h).cur h.guard] (s.begun h) = (s.begun h, none) :=
    State.consume_none _ (by simpa [State.noErr] using he)
  have hc : ¬ (h.sched = .csync ∧ ¬ csyncReady s = true) := fun q => q.2 (hc q.1)
  have hg : (s.begun h).me.rP h.guard = h.gneg := by simpa [State.begun_rP] using hg
  simp only [runUnit, runBody, hd, Bool.false_eq_true, if_false, if_neg hc, State.begun_suppressed, hl, h1, if_pos hg, finish_done]
  rfl

/-- A unit of a die that has not stopped always goes on (R293). -/
theorem runUnit_goes {h : Hdr} {srcs : List ErrSite} {body : State → UnitRes} {s : State}
    (hd : (s.die (dieOf s.cur.core)).stopped = false) : Goes (runUnit h srcs body s) := by
  unfold runUnit
  simp only [hd, Bool.false_eq_true, if_false]
  split
  · exact ⟨_, rfl⟩
  · unfold runBody
    split
    · exact goes_finish _ _
    · split
      · exact goes_finish _ _
      · split
        · exact goes_finish _ _
        · split <;> exact goes_finish _ _

/-! ## Traps -/

/-- Outside handler state and with a handler set a trap enters it (R66). -/
theorem State.takeTrap_enters {s : State} {id : StrandId} (o : Origin) (i : TrapInfo) (epc vpc : Word) (grp : Nat)
    (hs : (s.strand id).hs = false) (hv : (s.strand id).tvec ≠ 0) :
    s.takeTrap id o i epc vpc grp = ((s.leaveWait id).modStrand id fun t => t.enterTrap o i epc vpc grp).clearErrs
      [.ctl id 0x20, .ctl id 0x21, .ctl id 0x22, .ctl id 0x23, .ctl id 0x24] := by
  simp only [State.takeTrap]
  rw [if_neg]
  rintro (q | q)
  · rw [hs] at q
    exact Bool.noConfusion q
  · exact hv q

/-- In handler state, or with no handler, a trap parks the strand (R66). -/
theorem State.takeTrap_parks {s : State} {id : StrandId} (o : Origin) (i : TrapInfo) (epc vpc : Word) (grp : Nat)
    (h : (s.strand id).hs = true ∨ (s.strand id).tvec = 0) :
    s.takeTrap id o i epc vpc grp = s.park id o i epc vpc grp := by
  simp only [State.takeTrap]
  rw [if_pos h]

/-! ## Issue -/

/-- An instruction that obeys the checks of R153 enters VQ with what it captures (R59, R60). -/
theorem issueVec_issues {h : Hdr} {i : Instr} {srcs : List SReg} {vt : Bool} {ok : Strand → Bool} {x y : Strand → Word} {sq bar : Bool}
    {s : State} (hr : Runs h s) (he : s.noErr (capSites s (isMatrix i) ++ sSites s srcs)) (hi : vt = true → (s.begun h).me.ill = false)
    (hok : ok (s.begun h).me = true) (hh : (s.begun h).me.hs = false) (hq : sq = true → (s.begun h).me.sq.length < 16)
    (hv : (s.begun h).me.vq.length < 64) :
    issueVec h i srcs vt ok x y sq bar s =
      .next (((s.begun h).modMe fun t => t.push i (x (s.begun h).me) (y (s.begun h).me) sq bar).fallen h) := by
  unfold issueVec
  rw [runUnit_runs hr he]
  have h1 : (vt && (s.begun h).me.ill) = false := by
    cases vt with
    | false => rfl
    | true => simpa using hi rfl
  have h2 : ((s.begun h).me.hs || (sq && decide ((s.begun h).me.sq.length ≥ 16))) = false := by
    cases sq with
    | false => simpa using hh
    | true => simpa [hh] using hq rfl
  simp only [h1, hok, h2, Bool.not_true, Bool.false_eq_true, if_false, if_neg (Nat.not_le.mpr hv), finish_done]
  rfl

/-! ## What scheduling code 2 leaves as it is -/

theorem State.begun_or (s : State) (h : Hdr) : s.begun h = s ∨ s.begun h = s.modMe fun t => { t with barrier := true } := by
  unfold State.begun; split <;> simp

@[simp] theorem State.begun_rS (s : State) (h : Hdr) (r : SReg) : (s.begun h).me.rS r = s.me.rS r := by
  obtain ⟨b, e⟩ := s.begun_me h
  rw [e]
  rfl
@[simp] theorem State.begun_rC (s : State) (h : Hdr) (c : CtrNo) : (s.begun h).me.rC c = s.me.rC c := by
  obtain ⟨b, e⟩ := s.begun_me h
  rw [e]
  rfl
@[simp] theorem State.begun_wait (s : State) (h : Hdr) : (s.begun h).me.wait = s.me.wait := by
  obtain ⟨b, e⟩ := s.begun_me h
  rw [e]
@[simp] theorem State.begun_hs (s : State) (h : Hdr) : (s.begun h).me.hs = s.me.hs := by
  obtain ⟨b, e⟩ := s.begun_me h
  rw [e]
  rfl
@[simp] theorem State.begun_ill (s : State) (h : Hdr) : (s.begun h).me.ill = s.me.ill := by
  obtain ⟨b, e⟩ := s.begun_me h
  rw [e]
  rfl
@[simp] theorem State.begun_copyDesc (s : State) (h : Hdr) : (s.begun h).me.copyDesc = s.me.copyDesc := by
  obtain ⟨b, e⟩ := s.begun_me h
  rw [e]
  rfl
@[simp] theorem State.begun_srcVal (s : State) (h k : Hdr) (y : Src) : srcVal k (s.begun h).me y = srcVal k s.me y := by
  cases y <;> simp [srcVal]
@[simp] theorem State.begun_roiVal (s : State) (h : Hdr) {n : Nat} (y : RegOrImm n) : roiVal (s.begun h).me y = roiVal s.me y := by
  cases y <;> simp [roiVal]
@[simp] theorem State.begun_addrVal (s : State) (h k : Hdr) (b : SReg) (y : AddrSrc) :
    addrVal k (s.begun h).me b y = addrVal k s.me b y := by
  cases y <;> simp [addrVal]

theorem State.begun_core (s : State) (h : Hdr) (c : CoreId) :
    (s.begun h).core c = { s.core c with strands := ((s.begun h).core c).strands } := by
  rcases s.begun_or h with e | e <;> rw [e]
  by_cases q : s.cur.core = c
  · subst q
    simp [State.modMe, State.modStrand, State.setStrand, State.setCore, State.core, Core.setStrand]
  · have : s.cur.core.val ≠ c.val := fun x => q (Fin.ext x)
    simp [State.modMe, State.modStrand, State.setStrand, State.setCore, State.core, Vector.getElem_set, this]

@[simp] theorem State.begun_lanes (s : State) (h : Hdr) (id : StrandId) : (s.begun h).lanes id = s.lanes id := by
  simp only [State.lanes, Core.groupsOf]
  rw [s.begun_core h]

@[simp] theorem State.begun_bell (s : State) (h : Hdr) (n : BitVec 8) : (s.begun h).myCore.bell n = s.myCore.bell n := by
  rcases s.begun_or h with e | e <;> rw [e]
  simp [State.myCore, Core.bell, State.modMe, State.modStrand, State.setStrand, State.setCore, State.core, Core.setStrand]

/-- A unit without a guard, a scheduling code or prefixes runs where its die has not stopped and no check error stands. -/
theorem Runs.plain {h : Hdr} {s : State} (he : s.errs = []) (hd : (s.die (dieOf s.cur.core)).stopped = false) (hs : h.sched = .none)
    (hg : h.guard = 0) (hn : h.gneg = false) : Runs h s where
  die := hd
  csync := by simp [hs]
  loops := by simp [suppressed, hs]
  sreg r := by simp [State.errAt, he]
  preg r := by simp [State.errAt, he]
  ctl n := by simp [State.errAt, he]
  guard := by simp [hg, hn, Strand.rP]

end Sys2Proof.Machine
end

