-- ==== Sys2Proof/Laws/Windows.lean ====
section
/-! SUPPORT. Which register of the control windows a write reaches (R350). -/
namespace Sys2Proof.Machine

theorem State.writeReg_preber {s : State} {off : Nat} (v : Word) (hb : s.preber.badImage = none) (h : off < 0x10000) :
    s.writeReg off v = s.writePreber off v := by
  simp only [State.writeReg, hb, Option.isSome_none, Bool.false_eq_true, false_and, if_false, if_pos h]

theorem State.writeReg_hall {s : State} {k off : Nat} (v : Word) (hb : s.preber.badImage = none) (n : HallId)
    (h : off = 0x10000 + 0x10000 * n.val + k) (hk : k < 0x10000) : s.writeReg off v = s.writeHallReg n k v := by
  simp only [State.writeReg, hb, Option.isSome_none, Bool.false_eq_true, false_and, if_false]
  obtain ⟨n, hn⟩ := n
  simp only at h
  rw [if_neg (by omega)]
  rcases (by omega : n = 0 ∨ n = 1) with rfl | rfl
  · rw [if_pos (by omega), show off - 0x10000 = k by omega]
    rfl
  · rw [if_neg (by omega), if_pos (by omega), show off - 0x20000 = k by omega]
    rfl

theorem State.writeReg_die {s : State} {k off : Nat} (v : Word) (hb : s.preber.badImage = none) (d : DieId)
    (h : off = 0x100000 + 0x10000 * d.val + k) (hk : k < 0x10000) : s.writeReg off v = s.writeDieReg d k v := by
  simp only [State.writeReg, hb, Option.isSome_none, Bool.false_eq_true, false_and, if_false]
  obtain ⟨d, hd⟩ := d
  simp only at h
  rw [if_neg (by omega), if_neg (by omega), if_neg (by omega), if_pos (by omega)]
  have e : (off - 0x100000) / 0x10000 % 4 = d := by omega
  have e' : off % 0x10000 = k := by omega
  simp only [e, e']

theorem State.writeReg_core {s : State} {k off : Nat} (v : Word) (hb : s.preber.badImage = none) (c : CoreId)
    (h : off = 0x1000000 + 0x1000 * c.val + k) (hk : k < 0x1000) : s.writeReg off v = s.writeCoreReg c k v := by
  simp only [State.writeReg, hb, Option.isSome_none, Bool.false_eq_true, false_and, if_false]
  obtain ⟨c, hc⟩ := c
  simp only at h
  rw [if_neg (by omega), if_neg (by omega), if_neg (by omega), if_neg (by omega), if_pos (by omega)]
  have e : (off - 0x1000000) / 0x1000 % 128 = c := by omega
  have e' : off % 0x1000 = k := by omega
  simp only [e, e']

end Sys2Proof.Machine
end

