-- ==== Sys2Proof/Tests/Slice0.lean ====
section
/-! SUPPORT. Tests: ill-formed terms, words written out from the spec's encodings, single steps on small states, and for every statement with
hypotheses a state and operands that meet them. -/
namespace Sys2Proof.Tests
set_option Elab.async false
open Sys2Proof Sys2Proof.Machine

/-- A header with no guard, no scheduling code and no prefixes. -/
def h0 : Hdr := ⟨0, false, .none, ⟨none, none, none⟩⟩
/-- A header with a guard. -/
def hG (p : PReg) : Hdr := { h0 with guard := p }
/-- A header with an ORD prefix. -/
def hO (o : Order) (sc : Scope) : Hdr := { h0 with pfx := ⟨none, some ⟨false, o, sc⟩, none⟩ }

/-! ## Ill-formed terms (R17, R20 to R22, R27, R28) -/

/-- R108: a loop body that starts at the LOOP itself. -/
theorem test_wf_loop : Instr.wf (.loop h0 13 0 1) = false := by decide
/-- R118: a 64-bit load with a sign extension. -/
theorem test_wf_ld : Instr.wf (.ld h0 .default true .w64 1 2 (.off 0)) = false := by decide
/-- R122: odd pairs. -/
theorem test_wf_cas128 : Instr.wf (.cas128 h0 .default 1 4 6 8) = false ∧ Instr.wf (.cas128 h0 .default 2 4 7 8) = false ∧
    Instr.wf (.cas128 h0 .default 2 4 6 9) = false := by decide
/-- R113: a conversion between integer formats, and one FP8 format to itself. -/
theorem test_wf_fcvt : Instr.wf (.fcvt h0 .s64 .u32 .dyn 1 2) = false ∧ Instr.wf (.fcvt h0 .e5m2 .e5m2 .dyn 1 2) = false ∧
    Instr.wf (.vfcvt h0 0 .e4m3 .e4m3 .dyn 1 2) = false := by decide
/-- R56: control register numbers that name no register. -/
theorem test_wf_ctl : Instr.wf (.ctlr h0 1 0x007) = false ∧ Instr.wf (.ctlw h0 0x050 1) = false := by decide
/-- R27: a predicate destination above p15, PLOG with an immediate, a second source of CLZ, and LI without its immediate. -/
theorem test_wf_slot : PairSlot.fieldsOk ⟨.cmpEq, 0, 16, 1, 2, false, .none⟩ = false ∧
    PairSlot.fieldsOk ⟨.plogAnd, 0, 1, 2, 3, true, .none⟩ = false ∧ PairSlot.fieldsOk ⟨.clz, 0, 1, 2, 3, false, .none⟩ = false ∧
    PairSlot.fieldsOk ⟨.li, 0, 1, 2, 3, false, .none⟩ = false := by decide
/-- R28: two writes in one bank, two writes of one predicate, and three reads of one bank. -/
theorem test_wf_banks : Instr.wf (.pair ⟨.add, 0, 4, 1, 2, false, .none⟩ ⟨.add, 0, 8, 3, 5, false, .none⟩) = false ∧
    Instr.wf (.pair ⟨.cmpEq, 0, 4, 1, 2, false, .none⟩ ⟨.cmpLt, 0, 4, 3, 5, false, .none⟩) = false ∧
    Instr.wf (.pair ⟨.add, 0, 4, 1, 5, false, .none⟩ ⟨.add, 0, 9, 13, 2, false, .none⟩) = false := by decide
/-- R142: no tile and seventeen tiles. -/
theorem test_wf_mmode : Instr.wf (.mmode h0 1 2 0) = false ∧ Instr.wf (.mmode h0 1 2 17) = false := by decide
/-- R192: a second operand where the condition reads none. -/
theorem test_wf_rstest : Instr.wf (.rstest h0 0 .empty .rs8 0 1 2 3) = false := by decide
/-- R244: shadow register 7. -/
theorem test_wf_cpset : Instr.wf (.cpset h0 7 (.reg 9)) = false := by decide
/-- R257: the bounds of WAITLT. -/
theorem test_wf_waitlt : Instr.wf (.waitlt h0 3 (.imm 0)) = false ∧ Instr.wf (.waitlt h0 3 (.imm 65537)) = false ∧
    Instr.wf (.waitlt h0 3 (.imm 65536)) = true := by decide
/-- R304: FENCER over a window at core scope. -/
theorem test_wf_fencer : Instr.wf (.fencer h0 .core (.win 5)) = false := by decide
/-- R20, R21: a prefix kind that the form does not accept. -/
theorem test_wf_prefix : Instr.wf (.add { h0 with pfx := ⟨some 1, none, none⟩ } false .w64 1 2 (.reg 3)) = false ∧
    Instr.wf (.add { h0 with pfx := ⟨some 1, none, none⟩ } false .w64 1 2 (.imm 3)) = true ∧
    Instr.wf (.add (hO .relaxed .core) false .w64 1 2 (.imm 3)) = false ∧
    Instr.wf (.add { h0 with pfx := ⟨none, none, some .weights⟩ } false .w64 1 2 (.imm 3)) = false := by decide
/-- R21: an order that the class of the instruction does not list. -/
theorem test_wf_order : Instr.wf (.ld (hO .release .core) .default false .w64 1 2 (.off 0)) = false ∧
    Instr.wf (.st (hO .acquire .core) .default .w64 1 2 (.off 0)) = false ∧
    Instr.wf (.amo (hO .acqRel .core) .default .add .w64 1 2 3) = true := by decide

/-! ## Words written out from the encodings -/

/-- R10: frame 11 is no unit. -/
theorem test_decode_illegalUnit : decodeUnit [0xC000000000000000] = some (.bad ⟨.illegal, 0, 0xC000000000000000⟩, 1) := by decide +kernel
/-- R16: scheduling codes 6 and 7 are no codes of a frame 00 word. -/
theorem test_decode_sched : decode [0x0000070000000000] = none ∧ decode [0x0000060000000000] = none := by decide +kernel
/-- R97 add.sat.w s1, s2, s3; sub s1, s2, 16; mul.w s1, s2, s3; mulh.u s1, s2, s3; div s1, s2, s3; rem.u.w s1, s2, s3; and s1, s2, 0xFF;
or.h s1, s2, s3; xor s1, s2, s3; andn s1, s2, s3. -/
theorem test_decode_integer :
    decode [0x00000050420C0000] = some (.add h0 true .w32 1 2 (.reg 3)) ∧
    decode [0x0040008042000010] = some (.sub h0 false .w64 1 2 (.imm 16)) ∧
    decode [0x00800010420C0000] = some (.mul h0 false .w32 1 2 (.reg 3)) ∧
    decode [0x00C00040420C0000] = some (.mulh h0 true .w64 1 2 (.reg 3)) ∧
    decode [0x01000000420C0000] = some (.div h0 false .w64 1 2 (.reg 3)) ∧
    decode [0x01400050420C0000] = some (.rem h0 true .w32 1 2 (.reg 3)) ∧
    decode [0x01800080420000FF] = some (.and h0 .w64 1 2 (.imm 0xFF)) ∧
    decode [0x01C00020420C0000] = some (.or h0 .w16 1 2 (.reg 3)) ∧
    decode [0x02000000420C0000] = some (.xor h0 .w64 1 2 (.reg 3)) ∧
    decode [0x02400000420C0000] = some (.andn h0 .w64 1 2 (.reg 3)) := by
  decide +kernel
/-- shl s1, s2, 3; shr.a.w s1, s2, s3; rot.l s1, s2, 8; min.u s1, s2, s3; max.b s1, s2, s3; cmp.ltu p1, s2, s3. -/
theorem test_decode_shifts :
    decode [0x0280008042000003] = some (.shl h0 .w64 1 2 (.imm 3)) ∧
    decode [0x02C00050420C0000] = some (.shr h0 true .w32 1 2 (.reg 3)) ∧
    decode [0x030000C042000008] = some (.rot h0 true .w64 1 2 (.imm 8)) ∧
    decode [0x03400040420C0000] = some (.min h0 true .w64 1 2 (.reg 3)) ∧
    decode [0x03800030420C0000] = some (.max h0 false .w8 1 2 (.reg 3)) ∧
    decode [0x03C00040420C0000] = some (.cmp h0 .ltu 1 2 (.reg 3)) := by
  decide +kernel
/-- sel s1, p4, s2, s3; clz.w s1, s2; ffs s1, s2; popc.b s1, s2; li s7, 0x12_3456; lea s1, [s2 + s3*8]; ext.u s1, s2, 8, 4. -/
theorem test_decode_counts :
    decode [0x04000000420C4000] = some (.sel h0 1 4 2 3) ∧
    decode [0x0440001042000000] = some (.clz h0 .w32 1 2) ∧
    decode [0x0480000042000000] = some (.ffs h0 .w64 1 2) ∧
    decode [0x04C0003042000000] = some (.popc h0 .w8 1 2) ∧
    decode [0x05000001C0123456] = some (.li h0 7 0x123456) ∧
    decode [0x05400030420C0000] = some (.lea h0 false 1 2 (.idx 3 3)) ∧
    decode [0x05800080420000C8] = some (.ext h0 .u 1 2 (.imm 8 3)) := by
  decide +kernel
/-- plog.or p1, p2, p3; pmov.save s1; ?p2 br three words back; jal s31, 20 words on; jalr s0, [s31 + 0]; loop s13, fbody, fbody. -/
theorem test_decode_predicates :
    decode [0x08000010420C0000] = some (.plog h0 .or 1 2 3) ∧
    decode [0x0840002040000000] = some (.pmov h0 (.save 1)) ∧
    decode [0x0884000000FFFFFD] = some (.br (hG 2) 0xFFFFFD) ∧
    decode [0x08C00007C0000014] = some (.jal h0 31 0x14) ∧
    decode [0x090000001F000000] = some (.jalr h0 0 31 0) ∧
    decode [0x094000000D001000] = some (.loop h0 13 1 0) := by
  decide +kernel
/-- ld.w s1, [s2 + s3*4]; st.h s1, [s2 + s3*2]; amo.max.u.w s1, [s2], s3; cas.w s1, [s2], s3, s4; cas128 s2, [s4], s6, s8; pref.l2 [s2 +
256]. -/
theorem test_decode_memory :
    decode [0x0A000010420C0002] = some (.ld h0 .default false .w32 1 2 (.idx 3 2)) ∧
    decode [0x0A400020420C0001] = some (.st h0 .default .w16 1 2 (.idx 3 1)) ∧
    decode [0x0A800010420C0008] = some (.amo h0 .default .maxu .w32 1 2 3) ∧
    decode [0x0AC00010420C4000] = some (.cas h0 .default .w32 1 2 3 4) ∧
    decode [0x0B00000084188000] = some (.cas128 h0 .default 2 4 6 8) ∧
    decode [0x0B40009002000100] = some (.pref h0 .default .l2 2 (.off 256)) := by
  decide +kernel
/-- fadd.f32 s1, s2, s3; fsub.f64.rdn s1, s2, s3; fmul.bf16 s1, s2, s3; ffma.nm.f64 s1, s2, s3, s4; fdiv.f64.rne s18, s16, s15; fsqrt.f16
s1, s2; fmin.f64 s1, s2, s3; fmax.f32 s1, s2, s3; fcmp.le.f64 p1, s2, s3; fcvt.f64.s64 s15, s15; fclass.f32 s1, s2. -/
theorem test_decode_floating :
    decode [0x0C000010420C0000] = some (.fadd h0 .f32 .dyn 1 2 3) ∧
    decode [0x0C400000420C0003] = some (.fsub h0 .f64 .rdn 1 2 3) ∧
    decode [0x0C800030420C0000] = some (.fmul h0 .bf16 .dyn 1 2 3) ∧
    decode [0x0CC00080420C4000] = some (.ffma h0 .nm .f64 .dyn 1 2 3 4) ∧
    decode [0x0D000004903C0001] = some (.fdiv h0 .f64 .rne 18 16 15) ∧
    decode [0x0D40002042000000] = some (.fsqrt h0 .f16 .dyn 1 2) ∧
    decode [0x0D800000420C0000] = some (.fmin h0 .f64 1 2 3) ∧
    decode [0x0DC00010420C0000] = some (.fmax h0 .f32 1 2 3) ∧
    decode [0x0E000000420C0002] = some (.fcmp h0 .le .f64 1 2 3) ∧
    decode [0x0E400003CF200000] = some (.fcvt h0 .f64 .s64 .dyn 15 15) ∧
    decode [0x0E80001042000000] = some (.fclass h0 .f32 1 2) := by
  decide +kernel
/-- trap 7; R128 eret, opcode 0x41 with mod 0; eret.v; ctlr s3, lid; ctlw slip, s4; halt; yield; nopre; preok; launch s6, s2, s3; movq s9.
-/
theorem test_decode_system :
    decode [0x1000000000000007] = some (.trap h0 7) ∧
    decode [0x1040000000000000] = some (.eret h0) ∧
    decode [0x1040001000000000] = some (.eretV h0) ∧
    decode [0x10800000C0000012] = some (.ctlr h0 3 0x12) ∧
    decode [0x10C0000004000005] = some (.ctlw h0 5 4) ∧
    decode [0x1100000000000000] = some (.halt h0) ∧
    decode [0x1140000000000000] = some (.yield h0) ∧
    decode [0x1180000000000000] = some (.nopre h0) ∧
    decode [0x11C0000000000000] = some (.preok h0) ∧
    decode [0x12000001820C0000] = some (.launch h0 6 2 3) ∧
    decode [0x1240000240000000] = some (.movq h0 9) := by
  decide +kernel
/-- mul s14, s14, s13 and sub s13, s13, 1. -/
theorem test_decode_pair :
    decode [0x66071C68040D3418] = some (.pair ⟨.mul, 0, 14, 14, 13, false, .none⟩ ⟨.sub, 0, 13, 13, 1, true, .none⟩) := by
  decide +kernel
/-- vclaim s1, s2; vsetvl.claim s1, 4096; vconfig 64; vtype s4; mmode s1, s2, 4; mmode.off. -/
theorem test_decode_shape :
    decode [0x1400000042000000] = some (.vclaim h0 1 (.reg 2)) ∧
    decode [0x1440009040001000] = some (.vsetvl h0 true 1 (.imm 4096)) ∧
    decode [0x1480008000000003] = some (.vconfig h0 3) ∧
    decode [0x14C0000004000000] = some (.vtype h0 (.reg 4)) ∧
    decode [0x1500008042000004] = some (.mmode h0 1 2 4) ∧
    decode [0x1500000000000000] = some (.mmodeOff h0) := by
  decide +kernel
/-- vadd v1, v2, v3; vsub.sat v1, v2, v3; vmul v1, v2, s3; vmulh.u v1, v2, v3; vand v1, v2, v3, k2; vor v1, v2, v3; ?p3 vxor v1, v2, v3;
vshl v1, v2, s3. -/
theorem test_decode_vector_integer :
    decode [0x16000000420C0000] = some (.vadd h0 0 false 1 2 (.vec 3)) ∧
    decode [0x16400040420C0000] = some (.vsub h0 0 true 1 2 (.vec 3)) ∧
    decode [0x16800000420C0020] = some (.vmul h0 0 false 1 2 (.scl 3)) ∧
    decode [0x16C00040420C0000] = some (.vmulh h0 0 true 1 2 (.vec 3)) ∧
    decode [0x17004000420C0000] = some (.vand h0 2 1 2 (.vec 3)) ∧
    decode [0x17400000420C0000] = some (.vor h0 0 1 2 (.vec 3)) ∧
    decode [0x17860000420C0000] = some (.vxor (hG 3) 0 1 2 (.vec 3)) ∧
    decode [0x17C00000420C0020] = some (.vshl h0 0 1 2 (.scl 3)) := by
  decide +kernel
/-- vshr.a v1, v2, v3; vmin.u v1, v2, v3; vmax v1, v2, v3; vcmp.lt k1, v2, v3; vsel v1, v2, v3, k4; vclz v1, v2; vffs v1, v2; vpopc v1,
v2, k9. -/
theorem test_decode_vector_bits :
    decode [0x18000040420C0000] = some (.vshr h0 0 true 1 2 (.vec 3)) ∧
    decode [0x18400040420C0000] = some (.vmin h0 0 true 1 2 (.vec 3)) ∧
    decode [0x18800000420C0000] = some (.vmax h0 0 false 1 2 (.vec 3)) ∧
    decode [0x18C00020420C0000] = some (.vcmp h0 0 .lt 1 2 (.vec 3)) ∧
    decode [0x19008000420C0000] = some (.vsel h0 4 1 2 (.vec 3)) ∧
    decode [0x1940000042000000] = some (.vclz h0 0 1 2) ∧
    decode [0x1980000042000000] = some (.vffs h0 0 1 2) ∧
    decode [0x19C1200042000000] = some (.vpopc h0 9 1 2) := by
  decide +kernel
/-- vfadd.f32 v1, v2, v3; vfsub.bf16 v1, v2, s3; vfmul.e4m3 v1, v2, v3; vffma.nm.f32 v1, v2, v3, v4; vfdiv.f64.rne v1, v2, v3; vfsqrt.f32
v1, v2. -/
theorem test_decode_vector_floating :
    decode [0x1A000010420C0000] = some (.vfadd h0 0 .f32 .dyn 1 2 (.vec 3)) ∧
    decode [0x1A400030420C0020] = some (.vfsub h0 0 .bf16 .dyn 1 2 (.scl 3)) ∧
    decode [0x1A800050420C0000] = some (.vfmul h0 0 .e4m3 .dyn 1 2 (.vec 3)) ∧
    decode [0x1AC00010420C4010] = some (.vffma h0 0 .nm .f32 .dyn 1 2 (.vec 3) 4) ∧
    decode [0x1B000000420C0001] = some (.vfdiv h0 0 .f64 .rne 1 2 (.vec 3)) ∧
    decode [0x1B40001042000000] = some (.vfsqrt h0 0 .f32 .dyn 1 2) := by
  decide +kernel
/-- vfmin.f16 v1, v2, v3; vfmax.e5m2 v1, v2, v3; vfcmp.lt.f32 k1, v2, v3; vfcvt.f32.bf16 v1, v2; vfexp2.f32 v1, v2; vflog2.f64 v1, v2;
vfrcp.f16 v1, v2; vfrsq.bf16 v1, v2. -/
theorem test_decode_vector_functions :
    decode [0x1B800020420C0000] = some (.vfmin h0 0 .f16 1 2 (.vec 3)) ∧
    decode [0x1BC00040420C0000] = some (.vfmax h0 0 .e5m2 1 2 (.vec 3)) ∧
    decode [0x1C000010420C0001] = some (.vfcmp h0 0 .lt .f32 1 2 (.vec 3)) ∧
    decode [0x1C400010420C0000] = some (.vfcvt h0 0 .f32 .bf16 .dyn 1 2) ∧
    decode [0x1C80001042000000] = some (.vfexp2 h0 0 .f32 1 2) ∧
    decode [0x1CC0000042000000] = some (.vflog2 h0 0 .f64 1 2) ∧
    decode [0x1D00002042000000] = some (.vfrcp h0 0 .f16 1 2) ∧
    decode [0x1D40003042000000] = some (.vfrsq h0 0 .bf16 1 2) := by
  decide +kernel
/-- vqpack.e2m1.f32 v1, v2, v3; vqunpack.f16 v1, v2, v3; vscacc.e4m3 v1, v2, v3; klog.andn k1, k2, k3. -/
theorem test_decode_vector_formats :
    decode [0x1E000010420C0008] = some (.vqpack h0 0 .e2m1 .f32 .dyn 1 2 3) ∧
    decode [0x1E400020420C0000] = some (.vqunpack h0 0 .f16 .dyn 1 2 3) ∧
    decode [0x1E800050420C0000] = some (.vscacc h0 0 .e4m3 .dyn 1 2 3) ∧
    decode [0x1EC00030420C0000] = some (.klog h0 .andn 1 2 3) := by
  decide +kernel
/-- vred.add v13, v12; vscan.ex.fadd.f32 v1, v2; vcomp.cnt v14, v12, k3; vexp v1, v2, k4; vperm.u32 v1, v2, v3; vslide.dn v1, v2, 3;
vbcast v1, v2, s3; vtos v13, 0. -/
theorem test_decode_moves :
    decode [0x200000034C000000] = some (.vred h0 0 false (.int .add) 13 12) ∧
    decode [0x204000C042000008] = some (.vscan h0 0 true (.fadd .f32 .dyn) 1 2) ∧
    decode [0x208060138C000000] = some (.vcomp h0 3 true 14 12) ∧
    decode [0x20C0800042000000] = some (.vexp h0 4 1 2) ∧
    decode [0x21000010420C0000] = some (.vperm h0 0 .w32 1 2 3) ∧
    decode [0x2140009042000003] = some (.vslide h0 0 true 1 2 (.imm 3)) ∧
    decode [0x21800000420C0000] = some (.vbcast h0 0 1 2 (.reg 3)) ∧
    decode [0x21C000800D000000] = some (.vtos h0 13 (.imm 0)) := by
  decide +kernel
/-- vld v12, [s11]; vlds v1, [s2], s3; vldx.s32 v1, [s2 + v3*4]; vst v1, [s2 + 64]; vsts v1, [s2], -8; vstx.u64 v1, [s2 + v4*8], k5;
vappend v12, [s4], k3. -/
theorem test_decode_vector_memory :
    decode [0x220000830B000000] = some (.vld h0 .default 0 12 11 (.imm 0)) ∧
    decode [0x22400000420C0000] = some (.vlds h0 .default 0 1 2 (.reg 3)) ∧
    decode [0x22800050420C0002] = some (.vldx h0 .default 0 true .w32 2 1 2 3) ∧
    decode [0x22C0008042000040] = some (.vst h0 .default 0 1 2 (.imm 64)) ∧
    decode [0x2300008042FFFFF8] = some (.vsts h0 .default 0 1 2 (.imm 0xFFFFF8)) ∧
    decode [0x2340A00042100003] = some (.vstx h0 .default 5 false .w64 3 1 2 4) ∧
    decode [0x2380600304000000] = some (.vappend h0 .default 3 12 4) := by
  decide +kernel
/-- rsload.ring1 [s30]; rsadd.rs32c.ring2 v1, v2, v3; rssub.rs16c.ring1 v7, v6, v4; rsmul.rs16c.ring1 v5, v4, v4; rsdiv.rs8 v1, v2, v3,
k2; rsrcp.rs16c.ring1 v6, v5; rssqr.rs16c.ring3 v1, v2; rssqrt.rs32c v1, v2. -/
theorem test_decode_ring_sets :
    decode [0x240000001E000001] = some (.rsload h0 .default 1 30) ∧
    decode [0x24400020420C0002] = some (.rsadd h0 0 .rs32c 2 1 2 3) ∧
    decode [0x24800011C6100001] = some (.rssub h0 0 .rs16c 1 7 6 4) ∧
    decode [0x24C0001144100001] = some (.rsmul h0 0 .rs16c 1 5 4 4) ∧
    decode [0x25004000420C0000] = some (.rsdiv h0 2 .rs8 0 1 2 3) ∧
    decode [0x2540001185000001] = some (.rsrcp h0 0 .rs16c 1 6 5) ∧
    decode [0x2580001042000003] = some (.rssqr h0 0 .rs16c 3 1 2) ∧
    decode [0x25C0002042000000] = some (.rssqrt h0 0 .rs32c 0 1 2) := by
  decide +kernel
/-- rsunion.rs16c.ring1 v8, v6, v7; rsisect.rs8 v1, v2, v3; rsfrom.rs16c.f16.ring1 v4, v2, v3; rsbnd.hi.rs16c.f16.ring1 v10, v7;
rstest.sub.rs16c.ring1 k1, v2, v3. -/
theorem test_decode_ring_bounds :
    decode [0x26000012061C0001] = some (.rsunion h0 0 .rs16c 1 8 6 7) ∧
    decode [0x26400000420C0000] = some (.rsisect h0 0 .rs8 0 1 2 3) ∧
    decode [0x26800011020C0009] = some (.rsfrom h0 0 .rs16c .f16 1 4 2 3) ∧
    decode [0x26C0005287000009] = some (.rsbnd h0 0 true .rs16c .f16 1 10 7) ∧
    decode [0x27000010420C0015] = some (.rstest h0 0 .sub .rs16c 1 1 2 3) := by
  decide +kernel
/-- mopa.q4 x2, v4, v5, v6, v7; mopag.f32 x1, v8, v16, v2; mzero.all; mrd.col v1, x3, s2; mwr.row x3, v1, s2; mdrain.f64.xa128 v1, x2, s3;
mldt x1, [s4], s5; mstt x1, [s4], s5. -/
theorem test_decode_matrix :
    decode [0x28000080841461C0] = some (.mopa h0 (.q4 6 7) 2 4 5) ∧
    decode [0x2840001048402000] = some (.mopag h0 .f32 1 8 16 2) ∧
    decode [0x2880001000000000] = some (.mzero h0 .all) ∧
    decode [0x28C0001043080000] = some (.mrd h0 true 1 3 2) ∧
    decode [0x29000000C1080000] = some (.mwr h0 false 3 1 2) ∧
    decode [0x29400000420C0008] = some (.mdrain h0 .f64 .xa128 false 1 2 3) ∧
    decode [0x2980000044140000] = some (.mldt h0 .default 1 4 5) ∧
    decode [0x29C0000044140000] = some (.mstt h0 .default 1 4 5) := by
  decide +kernel
/-- cpset cgang, s9; cpgo s34; cpgang 3, s5; cpgang.off 3. -/
theorem test_decode_copies :
    decode [0x2A00000189000000] = some (.cpset h0 6 (.reg 9)) ∧
    decode [0x2A40000880000000] = some (.cpgo h0 .default 34) ∧
    decode [0x2A80008005000003] = some (.cpgang h0 3 5) ∧
    decode [0x2A80009000000003] = some (.cpgangOff h0 3) := by
  decide +kernel
/-- bell.init b7, 1; bell.arrive s36, b7; bell.wait b7, s3; bell.sync b9; bell.remote s4, b9, 2; waitlt c3, s7. -/
theorem test_decode_bells :
    decode [0x2C00008000000107] = some (.bellInit h0 7 (.imm 1)) ∧
    decode [0x2C00001900000007] = some (.bellArrive h0 36 7) ∧
    decode [0x2C00002003000007] = some (.bellWait h0 7 (.reg 3)) ∧
    decode [0x2C00003000000009] = some (.bellSync h0 9) ∧
    decode [0x2C0000C100000209] = some (.bellRemote h0 4 9 (.imm 2)) ∧
    decode [0x2D000000C7000000] = some (.waitlt h0 3 (.reg 7)) := by
  decide +kernel
/-- fence.ar.die; fenceo; fencer.win.die s5. -/
theorem test_decode_fences :
    decode [0x2C40002000000003] = some (.fence h0 .ar .die) ∧
    decode [0x2C80000000000000] = some (.fenceo h0) ∧
    decode [0x2CC0002005000001] = some (.fencer h0 .die (.win 5)) := by
  decide +kernel
/-- settle [s10], s39, c3; renew [s10], s15; scount s38, [s10]; ipop.sum.s64 [s10], [s41], s40, c4; R287 ipop.scale.f32 [s1], s2, s3, c5;
R287 ipop.axpy.f64 [s1], [s2], s3, s4, c6; R287 ipop.fill.s32 [s1], s2, s3, c7; R372 coll.max.s32.det [s1], [s2], s3, s5, c4. -/
theorem test_decode_in_place :
    decode [0x2E0000000A9C0003] = some (.settle h0 10 39 3) ∧
    decode [0x2E4000000A3C0000] = some (.renew h0 10 15) ∧
    decode [0x2E8000098A000000] = some (.scount h0 false 38 10) ∧
    decode [0x2EC00082A9A00004] = some (.ipopSum h0 .s64 10 41 40 4) ∧
    decode [0x2EC0005040083005] = some (.ipopScale h0 .f32 1 2 3 5) ∧
    decode [0x2EC00020420C4006] = some (.ipopAxpy h0 .f64 1 2 3 4 6) ∧
    decode [0x2EC000F040083007] = some (.ipopFill h0 .s32 1 2 3 7) ∧
    decode [0x2F0000E0420C5014] = some (.coll h0 .max .s32 1 2 3 (some 5) 4) := by
  decide +kernel

/-! ## Small states -/

/-- Core 0 with launch 7 placed on it, slot 0 running at 0x1000 with a trap handler and all eight lane groups. -/
def base : State := (State.reset.modCore 0 fun c => { c with lid := some 7, laneOwn := Vector.replicate 8 (some 0) }).modStrand ⟨0, 0⟩ fun t =>
  { t with run := .running, pc := 0x1000, lid := 7, tvec := 0x2000 }
/-- That state with a change of the strand. -/
def put (f : Strand → Strand) : State := base.modStrand ⟨0, 0⟩ f
theorem base_die (f : Strand → Strand) : ((put f).die (dieOf (put f).cur.core)).stopped = false := by
  rw [show (put f).cur = ⟨0, 0⟩ from rfl, show (put f).die (dieOf (⟨0, 0⟩ : StrandId).core) = State.reset.die 0 from rfl]
  decide +kernel
/-- An entry of VQ with `vl` = 4 under the default `vtype`. -/
def entry (i : Instr) : VqEntry := ⟨0, 0x1000, i, ⟨4, 0, 0x283, 0, 0, 0, 0, 0⟩, 0, 0, none, none, none, false, false, 0, [], none, []⟩
def add3 : Instr := .vadd h0 0 false 1 2 (.vec 3)
def queued (i : Instr) : Strand → Strand := fun t => { t with vq := [entry i] }
/-- That state with a change of the core and then of the strand. -/
def put2 (g : Core → Core) (f : Strand → Strand) : State := (base.modCore 0 g).modStrand ⟨0, 0⟩ f
theorem base_die2 (g : Core → Core) (f : Strand → Strand) : ((put2 g f).die (dieOf (put2 g f).cur.core)).stopped = false := by
  rw [show (put2 g f).cur = ⟨0, 0⟩ from rfl, show (put2 g f).die (dieOf (⟨0, 0⟩ : StrandId).core) = State.reset.die 0 from rfl]
  decide +kernel
/-- A unit without a guard runs in those states: the hypothesis `Runs` of the statements is met. -/
theorem runs_put (f : Strand → Strand) {h : Hdr} (a : h.sched = .none := by rfl) (b : h.guard = 0 := by rfl) (c : h.gneg = false := by rfl) :
    Runs h (put f) := Runs.plain rfl (base_die f) a b c
theorem runs_put2 (g : Core → Core) (f : Strand → Strand) {h : Hdr} (a : h.sched = .none := by rfl) (b : h.guard = 0 := by rfl)
    (c : h.gneg = false := by rfl) : Runs h (put2 g f) := Runs.plain rfl (base_die2 g f) a b c

theorem runs_cur {h : Hdr} {s : State} {c : StrandId} (r : Runs h s) (e : s.cur = c) : Runs h { s with cur := c } := by
  subst e
  exact r

/-- What a result holds, where it is an answer. -/
def okR (r : Resolved) (p : State → Target → Bool) : Bool := match r with
  | .ok s t => p s t
  | _ => false
theorem okR_iff {r : Resolved} {p : State → Target → Bool} (h : okR r p = true) : ∃ s t, r = .ok s t ∧ p s t = true := by
  cases r <;> simp_all [okR]
def okA {α : Type} (r : Acc α) (p : State → α → Bool) : Bool := match r with
  | .ok s t => p s t
  | _ => false
theorem okA_iff {α : Type} {r : Acc α} {p : State → α → Bool} (h : okA r p = true) : ∃ s t, r = .ok s t ∧ p s t = true := by
  cases r <;> simp_all [okA]
/-- What a next state holds. -/
def goes (o : Out) (p : State → Bool) : Bool := match o with
  | .next s => p s
  | _ => false

/-! ## Encoding and fetching: hypotheses met, and single units run -/

theorem wit_DecodeEncode : ∃ i : Instr, i.wf = true ∧ i.isEvent = false ∧ ∀ e, i ≠ .illegalUnit e :=
  ⟨.cas128 h0 .default 2 4 6 8, by decide, by decide, by intro e; nofun⟩
theorem wit_EncodeDecode : decodeUnit [0x0B00000084188000] = some (.good (.cas128 h0 .default 2 4 6 8), 1) := by decide +kernel
theorem wit_IllegalUnits :
    BitVec.extractLsb' 62 2 (0xC000000000000000 : Word) = 3 ∧
    (BitVec.extractLsb' 62 2 (0x0000060000000000 : Word) = 0 ∧ 6 ≤ (BitVec.extractLsb' 40 3 (0x0000060000000000 : Word)).toNat) ∧
    (BitVec.extractLsb' 62 2 (0x4000000300000000 : Word) = 1 ∧ 6 ≤ (BitVec.extractLsb' 31 3 (0x4000000300000000 : Word)).toNat) ∧
    (BitVec.extractLsb' 62 2 (0x4000000000000006 : Word) = 1 ∧ 6 ≤ (BitVec.extractLsb' 0 3 (0x4000000000000006 : Word)).toNat) ∧
    (base.die (dieOf base.cur.core)).stopped = false := by decide +kernel

theorem base_memWf : base.memWf := by
  refine ⟨Memory.wf_nil, fun c => ?_, fun x h => absurd h (by simp [base, State.modStrand, State.setStrand, State.modCore, State.setCore, State.reset])⟩
  have : (base.core c).loc = [] := by
    simp only [base, State.core, State.modStrand, State.modCore, State.setStrand, State.setCore, State.reset, Core.setStrand,
      Vector.getElem_set, Vector.getElem_replicate]
    split <;> rfl
  rw [this]
  exact Memory.wf_nil

theorem wit_StepKeepsMemory : base.memWf ∧ goes (step { base with agenda := [.event .tick] }) (fun s => s.tick == 1) = true :=
  ⟨base_memWf, by decide +kernel⟩

/-- That state with a unit placed at its PC, its turn the only one on the agenda. -/
def placed (w : Nat) : State := base.withFetchWord 64 w
def fetched (r : Fetched) (i : Instr) : Bool := match r with
  | .unit _ (.good j) => j == i
  | _ => false
theorem wit_StepRunsUnit :
    let s := placed 0x11C0000000000000
    let s0 : State := { s with agenda := [], cur := ⟨0, 0⟩ }
    s.agenda = [.strand ⟨0, 0⟩] ∧ (s0.die (dieOf 0)).stopped = false ∧ s0.me.run = .running ∧ s0.me.wait = none ∧ s0.me.pend = [] ∧
    s0.me.mfault = none ∧ s0.me.pausedBy = [] ∧ (s0.core 0).claimQ.contains 0 = false ∧ s0.me.recessAsked = false ∧ s0.me.late = [] ∧ s0.me.ahead = [] ∧ s0.errs = [] ∧
    (s0.launch (s0.me.lid.setWidth 32)).map (·.status) ≠ some 5 ∧ fetched (s0.fetchUnit ⟨0, 0⟩ s0.me.pc) (.preok h0) = true := by
  decide +kernel
/-- R293: the turn of the strand runs LI from memory, and the PC moves past it. -/
theorem test_step_li : goes (step (placed 0x05000001C0123456)) (fun s => s.me.rS 7 == 0x123456 && s.me.pc == 0x1008) = true := by decide +kernel
theorem wit_FetchDecodes :
    decodeUnit [0x11C0000000000000] = some (.good (.preok h0), 1) ∧
    (match (placed 0x11C0000000000000).fetchWord ⟨0, 0⟩ 0x1000 with
      | (.ok _ w, tr) => w == 0x11C0000000000000 && !tr
      | _ => false) = true := by decide +kernel
theorem wit_Suppressed :
    let s := put id
    Instr.hdr? (.preok (hG 2)) = some (hG 2) ∧ (s.die (dieOf s.cur.core)).stopped = false ∧
    suppressed s.me (instrAddr (hG 2) s) (hG 2).sched = false ∧ s.errAt (.preg s.cur 2) = none ∧ s.me.rP 2 = (hG 2).gneg ∧
    (let l : LoopLevel := ⟨2, 0x1000, 0x1000, 2⟩
     let f := put fun t => { t with loops := [l] }
     let m := put fun t => { t with loops := [{ l with iter := 1 }] }
     decidingLevel (instrAddr h0 f) f.me.loops = some l ∧ l.iter ≠ 1 ∧
     decidingLevel (instrAddr h0 m) m.me.loops = some { l with iter := 1 } ∧ (1 : Word) ≠ l.n) := by decide +kernel
theorem wit_LoopBack :
    let t (iter : Word) : Strand := { Strand.reset with pc := 0x1010, loops := [⟨2, 0x1000, 0x1010, iter⟩] }
    (t 1).hs = false ∧ (1 : Word).toNat < (2 : Word).toNat ∧ ((t 1).advance 1).pc = 0x1000 ∧ ((t 2).advance 1).pc = 0x1018 ∧
    ((t 2).advance 1).loops = [] ∧ ((t 1).advance 2).pc = 0x1020 := by decide +kernel
theorem wit_BranchPops :
    let t : Strand := { Strand.reset with loops := [⟨2, 0x1000, 0x1010, 1⟩, ⟨2, 0xFF0, 0x1020, 1⟩] }
    t.hs = false ∧ (t.branch 0x1018).loops.length = 1 ∧ (t.branch 0x1010).loops.length = 2 ∧ (t.branch 0x2000).loops = [] := by decide +kernel
theorem wit_TrapEntry :
    (put id).me.hs = false ∧ (put id).me.tvec ≠ 0 ∧ (put fun t => { t with tvec := 0 }).me.tvec = 0 ∧
    (put fun t => { t with estatus := 1 }).me.hs = true := by decide +kernel
theorem wit_HardwiredRegisters : (1 : SReg) ≠ 0 ∧ (63 : SReg) ≠ 1 ∧ (15 : PReg) ≠ 0 ∧ (15 : KReg) ≠ 1 := by decide

/-! ## Scalar units -/

theorem wit_IntegerResults : Runs h0 (put id) := runs_put id
theorem wit_BitResults : Runs h0 (put id) := runs_put id
theorem wit_CompareCountResults : Runs h0 (put id) := runs_put id
theorem wit_AddressFieldResults : Runs h0 (put id) := runs_put id
theorem wit_PredicateResults : Runs h0 (put id) := runs_put id
theorem wit_RunsGuarded : Runs (hG 2) (put fun t => { t with p := 4 }) where
  die := base_die _
  csync := by simp [hG, h0]
  loops := by decide +kernel
  sreg _ := rfl
  preg _ := rfl
  ctl _ := rfl
  guard := by decide +kernel
theorem wit_Branches :
    Runs h0 (put id) ∧ (put id).me.pc.extractLsb' 0 3 = 0 ∧ ((put id).me.rS 0 + imm64 h0 8).extractLsb' 0 3 = 0 ∧
    ((put id).me.rS 0 + imm64 h0 4).extractLsb' 0 3 ≠ 0 := ⟨runs_put id, by decide +kernel⟩
theorem wit_LoopOpens :
    let l : LoopLevel := ⟨1, 0, 0, 1⟩
    (Runs h0 (put fun t => { t with estatus := 1 }) ∧ Runs h0 (put fun t => { t with loops := List.replicate 6 l })) ∧
    (put fun t => { t with estatus := 1 }).me.hs = true ∧ (put id).me.hs = false ∧ (put id).me.rS 13 = 0 ∧
    (put fun t => t.wS 13 2).me.rS 13 ≠ 0 ∧ (put fun t => { t with loops := List.replicate 5 l }).me.loops.length < 6 ∧
    6 ≤ (put fun t => { t with loops := List.replicate 6 l }).me.loops.length := ⟨⟨runs_put _, runs_put _⟩, by decide +kernel⟩
theorem wit_PairCompletes :
    ((put id).die (dieOf (put id).cur.core)).stopped = false ∧ (put id).errs = [] ∧
    (⟨.mul, 0, 14, 14, 13, false, .none⟩ : PairSlot).sched ≠ .csync ∧
    (⟨.mul, 0, 14, 14, 13, false, .csync⟩ : PairSlot).sched = .csync ∧ csyncReady (put id) = true ∧ csyncReady (put (queued add3)) = false ∧
    ((put (queued add3)).die (dieOf (put (queued add3)).cur.core)).stopped = false := ⟨base_die id, rfl, by decide, by decide, by decide +kernel, by decide +kernel, base_die _⟩
/-- R25: `mul s14, s14, s13` and `sub s13, s13, 1` both read s13 as it was. -/
theorem test_pair : goes (exec (.pair ⟨.mul, 0, 14, 14, 13, false, .none⟩ ⟨.sub, 0, 13, 13, 1, true, .none⟩)
    (put fun t => (t.wS 14 6).wS 13 3)) (fun s => s.me.rS 14 == 18 && s.me.rS 13 == 2 && s.me.pc == 0x1008) = true := by decide +kernel
theorem wit_ScalarFrame : Runs h0 (put id) ∧ Instr.hdr? (.add h0 true .w8 1 2 (.reg 3)) = some h0 ∧
    goes (exec (.add h0 true .w8 1 2 (.reg 3)) (put id)) (fun _ => true) = true ∧
    Instr.hdr? (.cmp h0 .eq 1 2 (.reg 3)) = some h0 ∧ goes (exec (.cmp h0 .eq 1 2 (.reg 3)) (put id)) (fun _ => true) = true :=
  ⟨runs_put id, by decide +kernel⟩
/-- R97: a saturating byte sum stops at 127. -/
theorem test_add_sat : goes (exec (.add h0 true .w8 1 2 (.imm 100)) (put fun t => t.wS 2 100)) (fun s => s.me.rS 1 == 127) = true := by
  decide +kernel
/-- R98: the most negative number over −1 is itself, and its remainder 0. -/
theorem test_div : goes (exec (.div h0 false .w64 1 2 (.imm 0xFFFFFF)) (put fun t => t.wS 2 0x8000000000000000))
    (fun s => s.me.rS 1 == 0x8000000000000000) = true ∧ goes (exec (.rem h0 false .w64 1 2 (.imm 0)) (put fun t => t.wS 2 5))
    (fun s => s.me.rS 1 == 5) = true := by decide +kernel
theorem wit_FpResults :
    let e : Strand → Strand := fun t => (t.wS 2 0x3FF0000000000000)
    let on : Strand → Strand := fun t => { e t with fpctl := 0x3E00 }
    (Runs h0 (put e) ∧ Runs h0 (put on)) ∧ (put e).me.fpctl.extractLsb' 9 5 = 0 ∧
    (put on).me.fpctl.extractLsb' 9 5 &&& (fDiv Fmt.f64 ⟨.rne, false, false⟩ (Fmt.f64.decode 0x3FF0000000000000) (Fmt.f64.decode 0)).2 ≠ 0 :=
  ⟨⟨runs_put _, runs_put _⟩, by decide +kernel⟩
/-- R110: 1 / 0 is +∞ with DZ. -/
theorem test_fdiv : goes (exec (.fdiv h0 .f64 .rne 1 2 3) (put fun t => t.wS 2 0x3FF0000000000000))
    (fun s => s.me.rS 1 == 0x7FF0000000000000) = true := by decide +kernel
theorem wit_RoundingModes : (0 : Int) < 1 ∧ (roundTo .rne false 3 0 1).2 = false ∧ (roundTo .rne false 2 0 1).2 = true := by decide +kernel
theorem wit_RoundExact : Fmt.f32 ∈ [Fmt.f64, Fmt.f32, Fmt.f16, Fmt.bf16, Fmt.e5m2, Fmt.fp8] ∧ 0x3F800000 < 2 ^ Fmt.f32.width ∧
    (match Fmt.f32.decode 0x3F800000 with
      | .fin n m e => decide (n = false ∧ (m : Int) * 2 ^ (e + 149).toNat = 2 ^ 149)
      | _ => false) = true ∧ (⟨.rne, false, false⟩ : RndCtx).fo = false := by decide +kernel
theorem wit_FpFrame : Runs h0 (put id) ∧ (put id).me.enables = 0 ∧ Instr.hdr? (.fadd h0 .f32 .dyn 1 2 3) = some h0 ∧
    goes (exec (.fadd h0 .f32 .dyn 1 2 3) (put id)) (fun _ => true) = true := ⟨runs_put id, by decide +kernel⟩
theorem wit_TrapTakes : (Runs h0 (put id) ∧ Runs h0 (put fun t => { t with tvec := 0 })) ∧ (put id).me.hs = false ∧ (put id).me.tvec ≠ 0 ∧
    (put fun t => { t with tvec := 0 }).me.tvec = 0 := ⟨⟨runs_put id, runs_put _⟩, by decide +kernel⟩
/-- R127: TRAP 7 enters the handler with cause 0x20. -/
theorem test_trap : goes (exec (.trap h0 7) (put id))
    (fun s => s.me.ecause == 0x20 && s.me.eval == 7 && s.me.epc == 0x1000 && s.me.pc == 0x2000 && s.me.hs) = true := by decide +kernel
theorem wit_TrapReturn :
    let r (e : Word) : State := put fun t => { t with estatus := 0x28300000401, epc := e }
    (Runs h0 (put id) ∧ Runs h0 (r 0x3000)) ∧ (put id).me.hs = false ∧ (r 0x3000).me.hs = true ∧ (r 0x3000).me.epc.extractLsb' 0 3 = 0 ∧
    (r 0x3004).me.epc.extractLsb' 0 3 ≠ 0 ∧ (r 0x3000).me.estatus.getLsbD 10 = true := ⟨⟨runs_put id, runs_put _⟩, by decide +kernel⟩
theorem wit_ControlRegs : Runs h0 (put fun t => t.wS 4 1) ∧ ctlAssigned 0x025 = true ∧ ctlAssigned 0x04F = true ∧ ctlAssigned 0x050 = false ∧
    BitVec.extractLsb' 0 3 ((put fun t => t.wS 4 1).me.rS 4) ≠ 0 ∧ BitVec.extractLsb' 0 3 ((put id).me.rS 4) = 0 :=
  ⟨runs_put _, by decide +kernel⟩
/-- One store that has not left the store buffer. -/
def held : SbEntry := ⟨⟨.loc 7 0 64, localAttr .default⟩, 8, 0x1122334455667788, 0, false, false, .system, 0⟩
theorem wit_RunControl : (Runs h0 (put id) ∧ Runs h0 (put fun t => { t with sb := [held] })) ∧ ((put id).begun h0).haltReady = true ∧
    ((put fun t => { t with sb := [held] }).begun h0).haltReady = false := ⟨⟨runs_put id, runs_put _⟩, by decide +kernel⟩
theorem wit_MovqTakes :
    let q (v : Option Word) : Strand → Strand := fun t => { t with sq := [⟨0, v⟩] }
    let w : Strand → Strand := fun t => { q (some 9) t with wait := some ⟨.sq, .movq h0 9⟩ }
    (Runs h0 (put id) ∧ Runs h0 (put (q (some 9))) ∧ Runs h0 (put (q none)) ∧ Runs h0 { put w with cur := ⟨0, 0⟩ }) ∧ (put id).me.sq = [] ∧
    (put (q none)).me.hs = false ∧ (put (q (some 9))).me.sq = [⟨0, some 9⟩] ∧ (put (q none)).me.sq = [⟨0, none⟩] ∧
    (put w).me.run = .running ∧ (put w).me.pausedBy = [] ∧ (put w).me.wait = some ⟨.sq, .movq h0 9⟩ := ⟨⟨runs_put id, runs_put _, runs_put _, runs_cur (runs_put _) rfl⟩, by decide +kernel⟩
theorem wit_LaunchAppends :
    let f : Strand → Strand := fun t => t.wS 2 0x7F0000000000
    let s := put f
    let on (m : Memory) : State := { put f with lists := (put f).lists.set 0 { LaunchList.reset with base := 0x100, en := true }, arrays := m }
    let eng {α : Type} (x : Eng α) (p : α → Bool) : Bool := x.toOption.any p
    let hdr (s : State) (p : State → Word → Word → Word → Bool) : Bool :=
      eng (s.engRead 0x10000) fun (s1, t) => eng (s1.engRead 0x10008) fun (s2, r) => eng (s2.engRead 0x10088) fun (s3, h) => p s3 t r h
    let body := (0x7F0000000000 + 2 ^ 63) * 2 ^ 896
    let out := put2 (fun c => { c with egress := [⟨1, held⟩] }) f
    let bad : State := { on [] with errs := [(.word 0x10000, .double)] }
    (Runs h0 s ∧ Runs h0 (put fun t => t.wS 2 64) ∧ Runs h0 (on [])) ∧ BitVec.extractLsb' 0 7 ((put fun t => t.wS 2 64).me.rS 2) ≠ 0 ∧
    BitVec.extractLsb' 0 7 (s.me.rS 2) = 0 ∧
    okR ((s.begun h0).resolve s.cur 0x7F0000000000 .sread none .default false) (fun s1 t => s1.cur == s.cur &&
      s1.visible s.cur .system s1.me.sbAge && eng (s1.appendSpace 0) fun (s2, k) => s2.cur == s.cur && k == none) = true ∧
    okR (((on []).begun h0).resolve s.cur 0x7F0000000000 .sread none .default false) (fun s1 t => s1.cur == s.cur &&
      s1.visible s.cur .system s1.me.sbAge && eng (s1.appendSpace 0) (fun (_, k) => k == some 0) &&
      okA (s1.readAt s.cur t 128 none) fun s2 rec => s2.cur == s.cur && eng (s2.appendRecord 0 rec 0x7F0000000000) fun (s3, _) => s3.cur == s.cur) =
      true ∧ (s.lists[(0 : Fin 64).val]).en = false ∧
    ((on []).lists[(0 : Fin 64).val]).en = true ∧ hdr (on [(0x10000, 1)]) (fun _ t r _ => t == 1 && r == 0) = true ∧
    hdr (on [(0x10000, 2), (0x10008, 2)]) (fun _ t r h => t == 2 && r == 2 && h == 0) = true ∧
    hdr (on []) (fun s3 t r h => t == 0 && r == 0 && h == 0 &&
      eng (s3.engWrite 0x10100 128 body) fun s4 => eng (s4.engWrite 0x10000 16 (1 + 2 ^ 64)) fun s5 => s5.cur == s.cur) = true ∧
    (body % 2 ^ 896 = 0 ∧ body / 2 ^ 896 % 2 ^ 64 = 0x7F0000000000 + 2 ^ 63 ∧ body / 2 ^ 960 = 0) ∧
    (base.memWf ∧ base.errs = [] ∧ (base.engWrite 0x10100 128 5).toBool = true) ∧
    (inLocal (s.me.rS 2) = true ∧ s.localPlace 0 (s.me.rS 2) = some (.loc 7 0 0) ∧ (s.coreImage 7 0).isSome = true ∧ s.me.sb = [] ∧
      s.myCore.egress = [] ∧ s.pending = [] ∧ (on []).errs = []) ∧
    (okR ((out.begun h0).resolve out.cur 0x7F0000000000 .sread none .default false) (fun s1 t => s1.cur == s.cur && s1.myCore.egressOverlaps t 128) = true ∧
      okR ((bad.begun h0).resolve bad.cur 0x7F0000000000 .sread none .default false) (fun s1 t => s1.cur == s.cur &&
        s1.visible s.cur .system s1.me.sbAge && !t.attr.ut && (match s1.appendSpace 0 with
          | .error e => (match s1.appendStop s.cur (s1.lists[0]) e with
            | .bad v c => v.cur == s.cur && c == 0x0C
            | _ => false)
          | .ok _ => false)) = true) := by
  refine ⟨⟨runs_put _, runs_put _, ⟨by decide +kernel, by decide, by decide +kernel, fun _ => rfl, fun _ => rfl, fun _ => rfl, by decide +kernel⟩⟩, ?_⟩
  and_intros <;> first
    | exact base_memWf
    | decide +kernel
/-- R334, R335, R339: an append to list 0 fills slot 0, moves TAIL and RSV on, and answers id 0; with both slots taken it answers all ones. -/
theorem test_append :
    let on (m : Memory) : State := { put id with lists := (put id).lists.set 0 { LaunchList.reset with base := 0x100, en := true }, arrays := m }
    let word (s : State) (a : Nat) : Option Word := (s.engRead a).toOption.map (·.2)
    ((on []).appendRecord 0 0x1234 0x8000).toOption.any (fun x => x.2 == 0 && word x.1 0x10100 == some 0x1234 &&
      word x.1 0x10000 == some 1 && word x.1 0x10008 == some 1 && word x.1 0x10170 == some 0x8000000000008000) = true ∧
    ((on [(0x10000, 2), (0x10008, 2)]).appendRecord 0 0 0).toOption.any (fun x => x.2 == BitVec.allOnes 64) = true := by decide +kernel
theorem wit_MisalignedTraps :
    let s := put fun t => t.wS 2 8
    Runs h0 s ∧ (addrVal h0 s.me 2 (.off 1)).toNat % widthBytes .w16 ≠ 0 ∧ (s.me.rS 2).toNat % 16 ≠ 0 ∧
    ((put fun t => t.wS 2 4).me.rS 2).toNat % widthBytes .w64 ≠ 0 := ⟨runs_put _, by decide +kernel⟩

/-! ## Scalar memory -/

/-- A page of tracked, and one of untracked, device memory at 0x8000, mapped at 0x5000 for loads and stores. -/
def page (leaf : Word) : Core → Core := fun c => { c with tlb := [⟨0, 5, 1, 0x8000, leaf⟩] }
def tracked : Core → Core := page 0x6F
def untracked : Core → Core := page 0x46F
def hRel : Hdr := hO .release .core
/-- Die 0 holds line 256, of its own arrays, in its L2. -/
def cached (s : State) : State := s.modDie 0 fun d => { d with lines := [⟨256, false, 5, 0, .home, 0, 0⟩] }

theorem wit_Loads :
    let a : Strand → Strand := fun t => (t.wS 2 0x7F0000000040)
    let early (x : Bool) : Ahead := ⟨0x1000, 0, none, 0x7F0000000040, 8, 5, [2], .loc 7 0 64, false, [], x⟩
    let b (x : Bool) : Strand → Strand := fun t => { a t with ahead := [early x] }
    let d : Core → Core := fun c => { page 0x4000000000006F c with egress := [⟨1, { held with tgt := ⟨.phys 0x8000, localAttr .default⟩ }⟩] }
    let c : Strand → Strand := fun t => { a t with sb := [held] }
    (Runs h0 (put a) ∧ (∀ x, Runs h0 (put (b x))) ∧ Runs h0 (put2 d fun t => t.wS 2 0x5000)) ∧ (addrVal h0 (put a).me 2 (.off 0)).toNat % widthBytes .w64 = 0 ∧
    okR (((put a).begun h0).resolve ⟨0, 0⟩ (addrVal h0 (put a).me 2 (.off 0)) .sread none .default true) (fun s1 t => s1.cur == ⟨0, 0⟩ &&
      s1.me.ahead.isEmpty && t.attr.mkind != 2 && okA (s1.loadValue ⟨0, 0⟩ t 8 (ordOf h0) .default) (fun s2 _ => s2.cur == ⟨0, 0⟩)) = true ∧
    (∀ x, okR (((put (b x)).begun h0).resolve ⟨0, 0⟩ (addrVal h0 (put (b x)).me 2 (.off 0)) .sread none .default true) (fun s1 t => s1.cur == ⟨0, 0⟩ &&
      s1.me.pc == 0x1000 && s1.me.ahead == [early x] && okA (s1.loadValue ⟨0, 0⟩ t 8 (ordOf h0) .default) (fun s2 _ => s2.cur == ⟨0, 0⟩)) = true) ∧
    okR (((put2 d fun t => t.wS 2 0x5000).begun h0).resolve ⟨0, 0⟩ 0x5000 .sread none .default true) (fun s1 t => s1.cur == ⟨0, 0⟩ &&
      s1.me.ahead.isEmpty && t.attr.mkind == 2 && s1.myCore.egressOverlaps t 8) = true ∧
    (acquires (ordOf h0).order = false ∧ inLocal (addrVal h0 (put a).me 2 (.off 0)) = true ∧
      (put a).localPlace 0 (addrVal h0 (put a).me 2 (.off 0)) = some (.loc 7 0 64) ∧ ((put a).coreImage 7 0).isSome = true ∧
      (put a).me.sb = [] ∧ (put a).myCore.egress = []) ∧
    ((put c).strand ⟨0, 0⟩).sb = [] ++ held :: [] ∧ overlaps held.tgt.place held.n (.loc 7 0 68) 4 = true ∧
    within held.tgt.place held.n (.loc 7 0 68) 4 = some 4 := ⟨⟨runs_put _, fun _ => runs_put _, runs_put2 _ _⟩, by decide +kernel⟩
/-- R237: a load from the local window reads the core's own bytes, little-endian, and sign-extends them. -/
theorem test_ld : goes (exec (.ld h0 .default true .w16 1 2 (.off 0)) (put2 (fun c => { c with loc := [(64, 0x34), (65, 0xF2)] })
    fun t => t.wS 2 0x7F0000000040)) (fun s => s.me.rS 1 == 0xFFFFFFFFFFFFF234) = true := by decide +kernel
theorem wit_Stores :
    let f : Strand → Strand := fun t => t.wS 2 0x5000
    let full : Strand → Strand := fun t => { f t with sb := List.replicate 32 held }
    let e : EgressEntry := ⟨0, held⟩
    let u : EgressEntry := ⟨0, { held with tgt := ⟨.phys 0x8000, leafAttr 0x46F none .default⟩ }⟩
    let q : SbEntry := { held with tgt := ⟨.phys 0x8000, leafAttr 0x6F none .default⟩ }
    let p := cached (put2 (fun c => { c with egress := [⟨0, q⟩] }) id)
    (Runs h0 (put2 tracked f) ∧ Runs h0 (put2 tracked full)) ∧
    (addrVal h0 (put2 tracked f).me 2 (.off 0)).toNat % widthBytes .w64 = 0 ∧
    okR (((put2 tracked f).begun h0).resolve ⟨0, 0⟩ 0x5000 .swrite none .default true) (fun s1 _ => s1.cur == ⟨0, 0⟩ && decide (s1.me.sb.length < 32)) = true ∧
    okR (((put2 tracked full).begun h0).resolve ⟨0, 0⟩ 0x5000 .swrite none .default true) (fun s1 _ => decide (32 ≤ s1.me.sb.length)) = true ∧
    ((put fun t => { t with sb := [held] }).strand ⟨0, 0⟩).sb[0]? = some held ∧ held.tgt.attr.mkind ≠ 2 ∧ held.rel = false ∧
    (put2 (fun c => { c with egress := [e] }) id).coreAt 7 0 = some 0 ∧ ((put2 (fun c => { c with egress := [e] }) id).core 0).egress = [e] ∧
    u.entry.tgt.attr.mkind ≠ 2 ∧ u.entry.tgt.attr.ut = true ∧ base.routed (lineOf 0x8000) = true ∧ base.ownControl 0x8000 = false ∧
    (base.region (regionOf 0x8000)).life ≠ .dead ∧
    (q.tgt.place = .phys 0x8000 ∧ q.tgt.attr.ut = false ∧ q.tgt.attr.mkind = 0 ∧ p.errs = [] ∧ p.homeDie (lineOf 0x8000) = some (dieOf 0) ∧
      p.isOut (lineOf 0x8000) = false ∧ p.busy (lineOf 0x8000) = false ∧ (p.findLine 0 (lineOf 0x8000)).isSome = true ∧ 0x8000 % 128 + 8 ≤ 128 ∧
      okA (p.writeAt ⟨0, 0⟩ q.tgt 8 q.val) (fun t _ => (t.core 0).egress == [⟨0, q⟩]) = true) :=
  ⟨⟨runs_put2 _ _, runs_put2 _ _⟩, by decide +kernel⟩
/-- R119, R295: a store waits in the store buffer, leaves it, and is performed at the local memory it names. -/
theorem test_store : goes (exec (.performStep 0 (egressKey ⟨0, held⟩)) (put2 (fun c => { c with egress := [⟨0, held⟩] }) id))
    (fun s => Memory.get (s.core 0).loc 64 == 0x88 && Memory.get (s.core 0).loc 71 == 0x11 && Memory.get (s.core 0).loc 72 == 0) = true := by
  decide +kernel
theorem wit_Atomics :
    let f : Strand → Strand := fun t => t.wS 2 0x7F0000000040
    let r (h : Hdr) : Resolved := ((put f).begun h).resolve ⟨0, 0⟩ 0x7F0000000040 .atomic none .default false
    let at_ (f1 : Nat → Option Nat) (n : Nat) : Bool := okR (r h0) fun s1 t => s1.cur == ⟨0, 0⟩ && t.attr.mkind != 2 &&
      t.place == .loc 7 0 64 && s1.atomicReady t n && s1.me.journal.isNone && s1.me.wait.isNone && okA (s1.atomicAt ⟨0, 0⟩ t n f1) fun s2 _ => s2.cur == ⟨0, 0⟩
    let v := cached (put2 tracked fun t => t.wS 2 0x5000)
    (Runs h0 (put f) ∧ Runs hRel (put f) ∧ Runs h0 v) ∧ base.coreAt 7 0 = some 0 ∧ base.errs = [] ∧ 255 < 256 ^ widthBytes .w8 ∧
    (put f).me.rS 2 = 0x7F0000000040 ∧ releases (ordOf h0).order = false ∧ at_ (fun old => some (old + 1)) 4 = true ∧
    at_ (fun old => if old = 0 then some 1 else none) 16 = true ∧ releases (ordOf hRel).order = true ∧
    okR (r hRel) (fun s1 t => s1.atomicReady t 8 && s1.me.journal.isNone && s1.me.wait.isNone && okA (s1.readAt ⟨0, 0⟩ t 8 none) (fun s2 old =>
      old == 0 && s2.visible ⟨0, 0⟩ .core s2.me.sbAge)) = true ∧
    (put fun t => { f t with sb := [{ held with tgt := ⟨.loc 7 0 512, localAttr .default⟩ }], sbAge := 1 }).visible ⟨0, 0⟩ .core 1 = false ∧
    (v.errs = [] ∧ v.homeDie 256 = some 0 ∧ v.isOut 256 = false ∧ v.busy 256 = false ∧ (v.region (regionOf 0x8000)).life ≠ .dead ∧
      (v.findLine 0 256).any (fun l => !badBytes l.data 0 8) = true ∧
      okR ((v.begun h0).resolve ⟨0, 0⟩ 0x5000 .atomic none .default false) (fun s1 t => s1.cur == ⟨0, 0⟩ && t.attr.mkind == 0 && !t.attr.ut &&
        t.place == .phys 0x8000 && !s1.atOut ⟨0, 0⟩ && s1.homeDie 256 == some 0 && !s1.isOut 256 && s1.atomicReady t 8 && s1.me.journal.isNone &&
        s1.me.wait.isNone && okA (s1.atomicAt ⟨0, 0⟩ t 8 fun old => some (old + 1)) fun s2 _ => s2.cur == ⟨0, 0⟩) = true) := by
  refine ⟨⟨runs_put _, runs_put _, Runs.plain rfl (by decide +kernel) rfl rfl rfl⟩, by decide +kernel⟩
/-- R121: AMO.MAX on bytes compares them signed, returns the old one and writes the larger one. -/
theorem test_amo : goes (exec (.amo h0 .default .max .w8 1 2 3) (put2 (fun c => { c with loc := [(64, 0x80)] })
    fun t => (t.wS 2 0x7F0000000040).wS 3 1)) (fun s => s.me.rS 1 == 0x80 && Memory.get (s.core 0).loc 64 == 1) = true := by decide +kernel
/-- The strand at a load from 0x5000, mapped as a leaf says, its own code page mapped too. -/
def atLoad (leaf : Word) (g : Core → Core) : State :=
  { (put2 (fun c => g { c with tlb := [⟨0, 5, 1, 0x8000, leaf⟩] }) fun t => t.wS 2 0x5000).withFetchWord 64 0x0A00008042000000 with agenda := [] }
theorem wit_ReadsAhead :
    let s := atLoad 0x6F id
    let ld : Instr := .ld h0 .default false .w64 1 2 (.off 0)
    Runs h0 (put id) ∧ (s.heldStrand ⟨0, 0⟩ = false ∧ (s.strand ⟨0, 0⟩).late = [] ∧ (put fun t => { t with run := .halted }).heldStrand ⟨0, 0⟩ = true ∧
      suppressed (s.strand ⟨0, 0⟩) 0x1000 h0.sched = false) ∧ (s.strand ⟨0, 0⟩).ahead = [] ∧ fetched (s.fetchUnit ⟨0, 0⟩ 0x1000) ld = true ∧
    (s.strand ⟨0, 0⟩).wait = none ∧ (s.strand ⟨0, 0⟩).rP h0.guard ≠ h0.gneg ∧
    ((s.strand ⟨0, 0⟩).acts ld = true ∧ (s.strand ⟨0, 0⟩).acts (.ld (hG 2) .default false .w64 1 2 (.off 0)) = false ∧
      okR (s.resolve ⟨0, 0⟩ 0x5000 .sread none .default true) (fun s2 t => t.attr.mkind != 2 &&
        [Hint.streaming, .default].all fun hint =>
          okA ((s2.modStrand ⟨0, 0⟩ fun u => { u with wait := none }).loadValue ⟨0, 0⟩ t 8 (ordOf h0) hint) (fun _ _ => true)) = true ∧
      barsReads (.fenceo h0) = true) ∧
    (addrVal h0 (s.strand ⟨0, 0⟩) 2 (.off 0)).toNat % widthBytes .w64 = 0 ∧ h0.sched ≠ .csync ∧ (ordOf h0).strong = false ∧
    (match s.fetchUnit ⟨0, 0⟩ 0x1000 with
      | .unit s1 _ => okR (s1.resolve ⟨0, 0⟩ 0x5000 .sread none .default false) fun s2 t => t.attr.mkind != 2 && l1May t && t.place == .phys 0x8000 &&
          ((s2.core 0).l1Find (lineOf 0x8000)).isNone && (s2.core 0).fills.isEmpty &&
          (s2.strand ⟨0, 0⟩).ahead.isEmpty &&
          okA ((s2.modStrand ⟨0, 0⟩ fun u => { u with wait := none }).loadValue ⟨0, 0⟩ t 8 (ordOf h0) .streaming) (fun _ _ => true) &&
          okA (s2.loadValue ⟨0, 0⟩ t 8 (ordOf h0) .default) (fun _ _ => true) && okA (s2.pointRead ⟨0, 0⟩ 0x8000 8 t.attr) (fun _ _ => true)
      | _ => false) = true ∧
    (let f : Fill := ⟨256, 5, [0], false⟩
     f ∈ ((put2 (fun c => { c with fills := [f] }) id).core 0).fills ∧ f.killed = false) := ⟨runs_put id, by decide +kernel⟩
/-- R294, R296: a read taken ahead brings its line, or leaves nothing behind but its value. -/
theorem test_readAhead (x : Bool) : goes (exec (.readAhead ⟨0, 0⟩ ⟨0x1000, 0, 0, 0, 0, x⟩) (atLoad 0x6F id)) (fun s =>
    (s.strand ⟨0, 0⟩).ahead.map (·.brought) == [x] && ((s.core 0).l1Find 256).isSome == x) = true := by
  cases x <;> decide +kernel

/-! ## The vector side -/

/-- No lane group is owned by slot 0. -/
def noLanes : Core → Core := fun c => { c with laneOwn := Vector.replicate 8 (some 1) }
/-- Slot 0 owns lane group 0 alone. -/
def oneLane : Core → Core := fun c => { c with laneOwn := (Vector.replicate 8 none).set 0 (some 0) }

theorem wit_ConfigCompletes :
    let s := put id
    let m : Strand → Strand := fun t => { t with matrixMode := true, tilesHeld := [0, 1], mvl := 4 }
    let idle (s : State) : Prop := (s.begun h0).me.hs = false ∧ (s.begun h0).vectorIdle s.cur = true ∧ (s.begun h0).me.wait = none ∧
      (s.begun h0).liveInto s.cur = false
    let u (s : State) : State := ((s.begun h0).modMe fun t => { t with claimed := some 2 }).relane 0 fun x => x.renegotiate 0 2
    (Runs h0 s ∧ Runs h0 (put2 noLanes id) ∧ Runs h0 (put m)) ∧ idle s ∧ idle (put2 noLanes id) ∧ idle (put m) ∧
    0 < (u s).lanes ⟨0, 0⟩ ∧ ¬ ((u s).core 0).claimQ.contains 0 ∧ (u (put2 noLanes id)).lanes ⟨0, 0⟩ = 0 ∧ (s.begun h0).me.ill = false ∧
    s.me.tilesHeld = [] ∧ (s.core 0).tileQ = [] ∧ (∀ j : Fin 16, (s.core 0).tileOwn[j.val] ≠ some 0) ∧
    (16 : BitVec 5).toNat ≤ (s.core 0).freeTiles.length ∧ (put m).me.matrixMode = true ∧ s.me.matrixMode = false :=
  ⟨⟨runs_put _, runs_put2 _ _, runs_put _⟩, by decide +kernel⟩
/-- R139, R159: 8 lane groups and 32 registers give 12288 32-bit elements in a register; a smaller request is granted as it is. -/
theorem test_vsetvl : goes (exec (.vsetvl h0 false 1 (.imm 100000)) (put id)) (fun s => s.me.rS 1 == 12288) = true ∧
    goes (exec (.vsetvl h0 false 1 (.imm 7)) (put id)) (fun s => s.me.rS 1 == 7 && s.me.vl == 7) = true := by decide +kernel
theorem wit_ConfigStops :
    let i : Strand → Strand := fun t => { t with vtype := 0x8000 }
    let hs : Strand → Strand := fun t => { t with estatus := 1 }
    (Runs h0 (put i) ∧ Runs h0 (put hs) ∧ Runs h0 (put (queued add3))) ∧ (put i).me.wait = none ∧ (put i).me.ill = true ∧ (put hs).me.hs = true ∧
    (put hs).me.ill = false ∧ (put (queued add3)).me.hs = false ∧ (put (queued add3)).vectorIdle ⟨0, 0⟩ = false :=
  ⟨⟨runs_put _, runs_put _, runs_put _⟩, by decide +kernel⟩
theorem wit_LaneGrants :
    let free : Core := { Core.reset with laneOwn := (Vector.replicate 8 none).set 0 (some 0) }
    let v : Strand → Strand := fun t => { t with wait := some ⟨.lanes 2, .vclaim h0 1 (.imm 2)⟩ }
    let m : Strand → Strand := fun t => { t with wait := some ⟨.tiles 2, .mmode h0 1 2 2⟩ }
    let tq : Core → Core := fun c => { c with tileQ := [0] }
    (Runs h0 { put v with cur := ⟨0, 0⟩ } ∧ Runs h0 { put2 tq m with cur := ⟨0, 0⟩ }) ∧ free.claimQ = [] ∧ 0 < free.held 0 + free.freeGroups.length ∧
    (noLanes Core.reset).held 0 + (noLanes Core.reset).freeGroups.length = 0 ∧ 0 < free.held 0 ∧ ¬ free.claimQ.contains 0 ∧
    (put v).me.run = .running ∧ (put v).me.pausedBy = [] ∧ (put2 tq m).me.pausedBy = [] ∧ (put v).me.wait = some ⟨.lanes 2, .vclaim h0 1 (.imm 2)⟩ ∧ ((put v).core 0).claimQ.contains 0 = false ∧
    0 < (put v).lanes ⟨0, 0⟩ ∧ (put2 tq m).me.wait = some ⟨.tiles 2, .mmode h0 1 2 2⟩ ∧ ((put2 tq m).core 0).tileQ = [0] ∧
    (2 : BitVec 5).toNat ≤ ((put2 tq m).core 0).freeTiles.length :=
  ⟨⟨runs_cur (runs_put _) rfl, runs_cur (runs_put2 _ _) rfl⟩, by decide +kernel⟩
/-- R137: with nobody waiting, a request for three groups of five free ones is granted three, and one for eight takes the five. -/
theorem test_grant :
    let c : Core := { Core.reset with laneOwn := ((Vector.replicate 8 none).set 0 (some 1)).set 1 (some 1) |>.set 2 (some 1) }
    (c.renegotiate 0 3).held 0 = 3 ∧ (c.renegotiate 0 8).held 0 = 5 := by decide +kernel
theorem wit_VqCaptures : (put id).me.vq = [] ∧ (put (queued add3)).me.vq ≠ [] := by decide +kernel
theorem wit_ElementIssues : Runs h0 (put id) ∧ (put id).me.ill = false ∧ (put id).me.hs = false ∧ (put id).me.vq.length < 64 ∧
    (decide (8 ≤ vtEW (put id).me.vtype) && vregOk (put id).me 1 && vregOk (put id).me 2 && vsrcOk (put id).me (.vec 3)) = true ∧
    vregOk (put id).me 32 = false ∧ (put fun t => { t with vq := List.replicate 64 (entry add3) }).me.vq.length = 64 :=
  ⟨runs_put id, by decide +kernel⟩
theorem wit_MoveIssues : Runs h0 (put id) ∧ (vregOk (put id).me 1 && vregOk (put id).me 2 && !groupsMeet 1 1 2 1) = true ∧
    (put fun t => { t with sq := List.replicate 16 ⟨0, none⟩ }).me.sq.length = 16 := ⟨runs_put id, by decide +kernel⟩
theorem wit_SetMatrixIssues : Runs h0 (put fun t => { t with mvl := 128, tilesHeld := [0, 1] }) ∧
    (let u := (put fun t => { t with mvl := 128, tilesHeld := [0, 1] }).me
     (u.mvl != 0 && decide ((0 : TileNo).toNat < u.tilesHeld.length)) = true) ∧ (vtEW 0x283 == rsWidth .rs8) = false ∧
    (vtEW 0x281 == rsWidth .rs8) = true := ⟨runs_put _, by decide +kernel⟩
/-- R59, R60: VADD enters VQ with the `vl` and `vtype` it found. -/
theorem test_issue : goes (exec add3 (put fun t => { t with vl := 5 })) (fun s => s.me.vcp == 0x1000 &&
    s.me.vq.map (fun e => (e.cap.vl, e.cap.vtype)) == [(5, 0x283)] && s.me.pc == 0x1008) = true := by decide +kernel
def okB (o : BeatOut) : Bool := match o with
  | .done .. => true
  | _ => false
def badB (o : BeatOut) (c : BitVec 8) : Bool := match o with
  | .fault _ i _ => i.cause == c
  | _ => false
theorem wit_BeatSteps :
    let t (s : State) : Strand := s.strand ⟨0, 0⟩
    let e := entry add3
    let far : VqEntry := { entry (.vld h0 .default 0 1 2 (.imm 0)) with cap := { e.cap with x := 0x6000 } }
    let ran : Beat := { newBeat e 0xFF with ran := true }
    let a := put (queued add3)
    let o := put2 oneLane (queued add3)
    let f := put2 oneLane fun t => { t with vq := [far] }
    let c := put2 oneLane fun t => { queued add3 t with beats := [ran] }
    let x := put2 oneLane fun t => { queued add3 t with beats := [{ ran with fault := some (trapInfo 0x09 0) }] }
    let hold : HeldStore := ⟨0, 0x7F0000000040, held.tgt, 64, 5⟩
    let st : Beat := { ran with stores := [hold] }
    let inWay : Core → Core := fun c => { oneLane c with egress := [⟨0, held⟩] }
    let v := put2 oneLane fun t => { queued add3 t with beats := [st] }
    let w := put2 inWay fun t => { queued add3 t with beats := [st] }
    let lost : HeldStore := ⟨0, 0x6000, ⟨.phys (5 * 2 ^ 44), localAttr .default⟩, 64, 5⟩
    let z (stalled : Bool) := put2 oneLane fun t => { queued add3 t with beats := [{ ran with stores := [lost] }], stalled := stalled }
    let dr (x : HeldStore) (stalled : Bool) := put2 oneLane fun t => { t with drain := [x], stalled := stalled }
    let err : State := { a with errs := [(.queue ⟨0, 0⟩ .vq 0, .double)] }
    let near : VqEntry := { far with cap := { e.cap with x := 0x7F0000000040 } }
    ((t a).run = .running ∧ (t a).hs = false ∧ (t a).vq = [e] ∧ (t a).beats = [] ∧ (a.core 0).laneOwn[0] = some 0 ∧ isMatrix add3 = false ∧
      isRsload add3 = false ∧ e.nextGrp < a.groups ⟨0, 0⟩ e ∧ a.heldByCopy ⟨0, 0⟩ e = false ∧ a.heldByMatrix ⟨0, 0⟩ e = false ∧
      (t a).stopped = false ∧ (1 : BitVec 8) &&& a.laneMask ⟨0, 0⟩ ≠ a.laneMask ⟨0, 0⟩ ∧ (a.queueCheck ⟨0, 0⟩ .vq 0).2 = none ∧
      (err.queueCheck ⟨0, 0⟩ .vq 0).2.isSome = true) ∧
    ((1 : BitVec 8) &&& o.laneMask ⟨0, 0⟩ = o.laneMask ⟨0, 0⟩ ∧ okB (runGroup (o.work ⟨0, 0⟩ e 0) o) = true ∧
      badB (runGroup (f.work ⟨0, 0⟩ far 0) f) 0x05 = true ∧ (match runGroup (w.work ⟨0, 0⟩ near 0) w with
        | .wait _ => true
        | _ => false) = true) ∧
    ((t c).beats = [ran] ∧ (t c).drain = [] ∧ ran.fault = none ∧ ran.seq = e.seq ∧ c.releaseOk ⟨0, 0⟩ e = true ∧ ran.stores = [] ∧ ran.out = none ∧
      vqOrd e.instr = none ∧ c.groups ⟨0, 0⟩ e ≤ ran.grp + 1 ∧ (t v).beats = [st] ∧ v.storeStuck 0 hold.tgt = false ∧
      (z false).storeStuck 0 lost.tgt = true ∧ (t (z false)).stalled = false ∧ (t (z true)).stalled = true) ∧
    ((t (dr hold false)).drain[0]? = some hold ∧ okA ((dr hold false).storeAt ⟨0, 0⟩ hold.tgt 8 hold.val) (fun _ _ => true) = true ∧
      (match (dr lost false).storeAt ⟨0, 0⟩ lost.tgt 8 lost.val with
        | .wait _ => true
        | _ => false) = true ∧ (match (dr lost true).storeAt ⟨0, 0⟩ lost.tgt 8 lost.val with
        | .bad _ c => c == 0x0D
        | _ => false) = true) ∧
    ((t x).midUnit = false ∧ (t x).holdEnded = false ∧ ran.fromTr = false ∧ ({ ran with fromTr := true } : Beat).fromTr = true ∧
      ({ ran with seq := 1 } : Beat).seq ≠ e.seq) := by decide +kernel
theorem wit_VectorElements :
    let s := put2 oneLane (queued add3)
    let e := entry add3
    s.errs = [] ∧ e.snap = [] ∧ 8 ≤ vtEW e.cap.vtype ∧ 0 < 8 * s.rb ⟨0, 0⟩ / vtEW e.cap.vtype ∧ 0 < 2048 * s.lanes ⟨0, 0⟩ / vtEW e.cap.vtype ∧
    e.cap.vl ≤ 64 * (8 * s.rb ⟨0, 0⟩ / vtEW e.cap.vtype) ∧ vtEW e.cap.vtype = (ffmt .f32).width ∧
    (fAdd (ffmt .f32) ⟨.rne, true, false⟩ (.fin false 1 0) (.fin false 1 (-30))).2 ≠ 0 := by decide +kernel
/-- R154: a widening VFCVT over its own source reads the second group from the image that the first took, and a bad word there traps 0x0C; a single
error in it is corrected and counted. -/
theorem test_vfcvt_image :
    let i : Instr := .vfcvt h0 0 .f32 .f16 .dyn 2 2
    let e : VqEntry := { entry i with cap := { (entry i).cap with vl := 128, vtype := 0x28B } }
    let two (k : ErrKind) : BeatOut :=
      let s : State := { put2 oneLane (fun t => { t with vq := [e], v := t.v.set 2 0x3C00, vvalid := 12 }) with errs := [(.vreg ⟨0, 0⟩ 2 20, k)] }
      (match runGroup (s.work ⟨0, 0⟩ e 0) s with
        | .done u pre _ _ _ =>
          let u := u.commitErrs ⟨0, 0⟩ pre
          runGroup (u.work ⟨0, 0⟩ { (u.strand ⟨0, 0⟩).vq.head?.getD e with nextGrp := 1 } 1) u
        | r => r)
    (match two .double, two .single with
      | .fault _ t _, .done u _ _ _ _ => t.cause == 0x0C && u.errs.isEmpty && (u.die 0).ceCount == 1 && (u.strand ⟨0, 0⟩).rV 2 == 0x3F800000
      | _, _ => false) = true := by decide +kernel
/-- R163: VADD adds modulo 2^32 in the active elements below `vl`, and leaves the others. -/
theorem test_vadd :
    let s := put2 oneLane fun t => { queued (.vadd h0 2 false 1 2 (.vec 3)) t with
      k := t.k.set 2 5, v := ((t.v.set 2 0x00000003FFFFFFFF00000001).set 3 0x000000040000000200000001).set 1 0x777777776666666655555555, vvalid := 14 }
    (match runGroup (s.work ⟨0, 0⟩ (entry (.vadd h0 2 false 1 2 (.vec 3))) 0) s with
      | .done u _ _ _ _ => (u.strand ⟨0, 0⟩).rV 1 == 0x000000076666666600000002
      | _ => false) = true := by decide +kernel
theorem wit_MatrixSteps :
    let z : Instr := .mzero h0 (.one 0)
    let s := put (queued z)
    let xe : XqEntry := ⟨0, entry z, [], []⟩
    let bad : XqEntry := ⟨0, { entry (.mldt h0 .default 0 1 2) with cap := { (entry z).cap with mvl := 1, x := 0x6000 } }, [], []⟩
    let g : Strand → Strand := fun t => { t with tilesHeld := [0], matrixMode := true }
    let q := put2 (fun c => { c with xq := [xe] }) g
    let b := put2 (fun c => { c with xq := [bad] }) g
    let r : Instr := .rsload h0 .default 0 2
    let ve : VqEntry := { entry (.vld h0 .default 0 1 2 (.imm 0)) with nextGrp := 1, cap := { (entry z).cap with vl := 20000 } }
    let me : VqEntry := { entry (.mopa h0 (.plain .f32) 0 1 2) with seq := 1, cap := { (entry z).cap with mvl := 64 } }
    let p := put fun t => { g t with vq := [ve, me] }
    let ms : XqEntry := ⟨0, { entry (.mstt h0 .default 0 1 2) with cap := { (entry z).cap with mvl := 2, x := 0x7F0000000000, y := 1024 } }, [], []⟩
    let b3 := put2 (fun c => { c with xq := [ms], egress := [⟨1, { held with tgt := ⟨.loc 7 0 0, localAttr .default⟩ }⟩] }) g
    let b2 := put2 (fun c => { c with xq := [ms] }) g
    let re : VqEntry := { entry r with cap := { (entry r).cap with x := 0x7F0000000000 } }
    let l := put2 (fun c => { c with loc := [(0, 4), (14, 0xF0), (15, 0x3F)] }) fun t => { t with vq := [re] }
    ((p.strand ⟨0, 0⟩).vq = [ve, me] ∧ (p.strand ⟨0, 0⟩).committed ve ≠ 0 ∧ me.nextGrp = 0 ∧ p.heldByCopy ⟨0, 0⟩ me = false ∧ (p.core 0).xq.length < 128 ∧
      isTileMem me.instr = false ∧ (p.queueCheck ⟨0, 0⟩ .vq 1).2 = none ∧
      (match (p.strand ⟨0, 0⟩).vq with
        | [v, m] => (p.modCore 0 fun y => { y with xq := [⟨0, m, [], []⟩] }).chainReady ⟨0, m, [], []⟩ ⟨0, 0⟩ == false && v.nextGrp == 1
        | _ => false) = true) ∧
    ((b3.core 0).xq.find? (fun x => !(b3.core 0).held? x.slot) = some ms ∧ b3.chainReady ms ⟨0, 0⟩ = true ∧ (match serveXq b3 ⟨0, 0⟩ ms with
      | .held _ rows => rows.length == 2
      | _ => false) = true) ∧
    ((b2.core 0).xq.find? (fun x => !(b2.core 0).held? x.slot) = some ms ∧ b2.chainReady ms ⟨0, 0⟩ = true ∧ (match serveXq b2 ⟨0, 0⟩ ms with
      | .more _ rows => rows.length == 2
      | _ => false) = true) ∧
    ((s.strand ⟨0, 0⟩).run = .running ∧ (s.strand ⟨0, 0⟩).hs = false ∧ isMatrix z = true ∧ s.heldByCopy ⟨0, 0⟩ (entry z) = false ∧
      (s.core 0).xq.length < 128 ∧ (s.strand ⟨0, 0⟩).beats = [] ∧ (s.strand ⟨0, 0⟩).drain = [] ∧ (s.queueCheck ⟨0, 0⟩ .vq 0).2 = none ∧
      (({ s with errs := [(.queue ⟨0, 0⟩ .vq 0, .double)] } : State).queueCheck ⟨0, 0⟩ .vq 0).2.isSome = true ∧
      (({ q with errs := [(.queue ⟨0, 0⟩ .xq 0, .double)] } : State).queueCheck ⟨0, 0⟩ .xq 0).2.isSome = true ∧
      (q.queueCheck ⟨0, 0⟩ .xq 0).2 = none ∧ q.chainReady xe ⟨0, 0⟩ = true) ∧
    ((q.core 0).xq.find? (fun x => !(q.core 0).held? x.slot) = some xe ∧ (match serveXq q ⟨0, 0⟩ xe with
      | .done _ => true
      | _ => false) = true) ∧
    ((b.core 0).xq.find? (fun x => !(b.core 0).held? x.slot) = some bad ∧ (match serveXq b ⟨0, 0⟩ bad with
      | .trap _ i _ => i.cause == 0x05
      | _ => false) = true) ∧
    s.errs = [] ∧ (entry z).cap.vl ≤ 8 * s.rb ⟨0, 0⟩ / 64 ∧ (entry z).cap.x.toNat + ((entry z).cap.vl + 127) / 128 ≤ 128 ∧
    ((l.strand ⟨0, 0⟩).beats = [] ∧ (l.strand ⟨0, 0⟩).stopped = false ∧ (l.core 0).slotBusy 0 = false ∧ (l.queueCheck ⟨0, 0⟩ .vq 0).2 = none ∧ (match beatRsload (l.work ⟨0, 0⟩ re 0) l h0 .default with
      | .inr (_, g) => g == ⟨4, [0x3FF0000000000000]⟩
      | _ => false) = true) := by decide +kernel

/-! ## Copies, bells and work at the memory -/

/-- An arming of gang 3, and the shadow set of a gang CPGO for it. -/
def arm : Arming := ⟨3, 0, 0, 1, 2, 1, 32⟩
def armed : Core → Core := fun c => { c with armings := [arm] }
def gang : Strand → Strand := fun t => { t with shadow := t.shadow.set 6 0x1301 }
def delivery : Strand → Strand := fun t => { t with shadow := t.shadow.set 5 0x10010 }

theorem wit_CopyStarts :
    let goes_ (s : State) (ms : List (Nat × Arming)) : Bool :=
      let u := s.begun h0
      let q := s.me.copyDesc
      !u.me.ill && u.copyCheck u.cur q == none && decide (u.myCore.xfers.length < 32) && u.vectorIdle u.cur &&
      (q.ge || ms.isEmpty) && (!q.ge || (u.gangArmings u.cur.core q.g (windowsOf q.cores) == some ms &&
        ms.all fun m => u.armingFits (u.myCore.lid.getD 0) m.1 m.2 q.dst (q.rows * q.rb)))
    let w : Strand → Strand := fun t => { gang t with wait := some ⟨.gang, .cpgo h0 .default 1⟩ }
    (Runs h0 (put id) ∧ Runs h0 (put delivery) ∧ Runs h0 (put2 armed gang) ∧ Runs h0 (put gang) ∧ Runs h0 (put2 armed w)) ∧
    (put id).me.copyDesc.dv = false ∧ (put id).me.copyDesc.ge = false ∧ goes_ (put id) [] = true ∧ (put delivery).me.copyDesc.dv = true ∧
    goes_ (put delivery) [] = true ∧ (put gang).me.copyDesc.ge = true ∧ goes_ (put2 armed gang) [(0, arm)] = true ∧
    ((put gang).begun h0).copyCheck ⟨0, 0⟩ (put gang).me.copyDesc = none ∧
    ((put gang).begun h0).gangArmings 0 (put gang).me.copyDesc.g (windowsOf (put gang).me.copyDesc.cores) = none ∧
    ((put id).me.rS 5 &&& ~~~(0xFF3F : Word) = 0 ∧ (put id).myCore.armings.any (·.g == 3) = false ∧ (put id).me.rC 0 ≠ 0xFFFF) ∧
    ((put fun t => t.wC 0 0xFFFF).me.rC 0 = 0xFFFF ∧ ((put id).begun h0).vectorIdle ⟨0, 0⟩ = true ∧
      ((put (queued add3)).begun h0).vectorIdle ⟨0, 0⟩ = false) ∧
    ((put id).begun h0).delivering ⟨0, 0⟩ 3 = false ∧ (put2 armed w).me.run = .running ∧ (put2 armed w).me.pausedBy = [] ∧
    (put2 armed w).me.wait = some ⟨.gang, .cpgo h0 .default 1⟩ ∧ goes_ (put2 armed w) [(0, arm)] = true :=
  ⟨⟨runs_put _, runs_put _, runs_put2 _ _, runs_put _, runs_put2 _ _⟩, by decide +kernel⟩
/-- A copy of 128 bytes from the local window to 0x100 there, with its transfer. -/
def job : CopyJob := ⟨0x7F0000000000, 0x7F0000000100, 0, 0, 1, 128, 0, .mem, [], [], none, none, .default, 0, [], none⟩
def xfer (k : XferKind) : Xfer := ⟨1, 0, 4, k⟩
def moving (k : XferKind) : Core → Core := fun c => { c with xfers := [xfer k], nextXfer := 2, loc := [(5, 0xAA)] }
def counting : Strand → Strand := fun t => t.wC 4 1
def okS (r : SegRes) (p : State → Nat → Bool) : Bool := match r with
  | .ok s v => p s v
  | _ => false
theorem wit_CopySteps :
    let s := put2 (moving (.copy job)) counting
    let r := put2 (moving (.copy { job with dest := .regs 0 1 1 32, cdst := 0 })) counting
    let d := put2 (moving (.copy { job with landed := [0] })) counting
    let v := 0xAA * 2 ^ 40
    let lost : CopyJob := { job with csrc := 0x6000, spare := [(0, v)] }
    let k := put2 (moving (.copy { job with read := [(0, v)] })) counting
    let rk := put2 (moving (.copy { job with dest := .regs 0 1 1 32, cdst := 0, read := [(0, v)] })) counting
    let ms : List GangMember := [⟨0, arm, [], false⟩]
    let gj : CopyJob := { job with dest := .gang ms, cdst := 0 }
    let gr := put2 (moving (.copy gj)) counting
    let gk := put2 (moving (.copy { gj with read := [(0, v)], landed := [0] })) counting
    let f := put fun t => { t with pend := [⟨trapInfo 0x0F 0, .copy, false⟩] }
    ((s.core 0).xfers.find? (·.id == 1) = some (xfer (.copy job)) ∧ 0 < job.chunks ∧ s.copyStopped ⟨0, 0⟩ 1 = false ∧
      s.copyOrdered ⟨0, 0⟩ job = true ∧ job.localOverlap = false ∧ job.snap = none ∧
      okS (s.readSegs ⟨0, 0⟩ job (job.range 0).1 (job.srcSegs 0)) (fun _ x => x == v) = true) ∧
    okS (k.checkSegs ⟨0, 0⟩ job .cwrite (job.dstSegs 0)) (fun s2 _ =>
      okS (s2.writeSegs ⟨0, 0⟩ (xfer (.copy { job with read := [(0, v)] })) job (job.range 0).1 v (job.dstSegs 0)) fun _ _ => true) = true ∧
    ((match (r.core 0).xfers.map (·.kind) with
      | [.copy j] => j.dest == .regs 0 1 1 32 && okS (r.readSegs ⟨0, 0⟩ j (j.range 0).1 (j.srcSegs 0)) fun _ _ => true
      | _ => false) = true ∧ (match (rk.core 0).xfers.map (·.kind) with
      | [.copy j] => j.read == [(0, v)] && (rk.readSpare ⟨0, 0⟩ j (j.unread 0)).isSome &&
          (let j1 := { j with csrc := 0x6000, rb := 256, read := [(1, v)] }
           (rk.readSpare ⟨0, 0⟩ j1 (j1.unread 1)).isNone)
      | _ => false) = true ∧ (match r.readSegs ⟨0, 0⟩ lost (lost.range 0).1 (lost.srcSegs 0) with
      | .bad .. => lost.spare.find? (·.1 == 0) == some (0, v)
      | _ => false) = true) ∧
    (okS (gr.readSegs ⟨0, 0⟩ gj (gj.range 0).1 (gj.srcSegs 0)) (fun _ _ => true) = true ∧ gj.localOverlap = false ∧
      ({ gj with read := [(0, v)], landed := [0] } : CopyJob).unread 0 = [] ∧ (gk.core 0).lid = some 7 ∧ gk.coreAt 7 0 = some 0 ∧
      gk.copyStopped ⟨0, 0⟩ 1 = false ∧ gk.copyOrdered ⟨0, 0⟩ gj = true) ∧
    ((d.core 0).xfers.find? (·.id == 1) = some (xfer (.copy { job with landed := [0] })) ∧ ({ job with landed := [0] } : CopyJob).allDone = true) ∧
    ((f.strand ⟨0, 0⟩).pend = [⟨trapInfo 0x0F 0, .copy, false⟩] ∧ (f.strand ⟨0, 0⟩).midUnit = false ∧ (trapInfo 0x0F 0).isTranslation = false ∧
      (f.strand ⟨0, 0⟩).hs = false ∧ (f.strand ⟨0, 0⟩).tvec ≠ 0) := by
  and_intros <;> decide +kernel
/-- R246, R251, R292: the chunk is read, and in a later step lands with its bytes, and the transfer's end lowers the counter. -/
theorem test_copy : goes (exec (.transferChunk 0 1 0) (put2 (moving (.copy job)) counting)) (fun s => Memory.get (s.core 0).loc 0x105 == 0 &&
    goes (exec (.transferChunk 0 1 0) s) fun s => Memory.get (s.core 0).loc 0x105 == 0xAA && Memory.get (s.core 0).loc 5 == 0xAA) = true ∧
    goes (exec (.transferComplete 0 1) (put2 (moving (.copy { job with landed := [0] })) counting))
    (fun s => s.me.rC 4 == 0 && (s.core 0).xfers.isEmpty) = true := by decide +kernel
/-- Core 0 with bell 7 in use. -/
def belled (b : Bell) : Core → Core := fun c => c.setBell 7 b
theorem wit_BellsAndCounters :
    let one : Bell := ⟨true, false, 1, 1⟩
    let w (k : WaitKind) (i : Instr) : Strand → Strand := fun t => { t with wait := some ⟨k, i⟩ }
    let bw := put2 (belled one) (w (.bell 7 true) (.bellWait h0 7 (.imm 1)))
    let rm := put2 (belled one) (w (.remote 0 7) (.bellRemote h0 1 7 (.imm 0)))
    let ct := put (w (.counter 1) (.waitlt h0 3 (.imm 1)))
    let c1 : Strand → Strand := fun t => t.wC 3 1
    (Runs h0 (put id) ∧ Runs h0 (put2 (belled one) id) ∧ Runs h0 bw ∧ Runs h0 rm ∧ Runs h0 ct ∧ Runs h0 (put c1)) ∧ (put id).errs = [] ∧
    ((put id).myCore.bell 7).v = false ∧ (put2 (belled ⟨true, false, 1, 2⟩) id).myCore.bell 7 = ⟨true, false, 1, 2⟩ ∧
    ((put2 (belled one) id).myCore.bell 7).v = true ∧ ((put2 (belled one) id).begun h0).releaseReady (ordOf h0) = true ∧
    (one.arrive.p ≠ one.p ∧ (⟨true, false, 2, 2⟩ : Bell).arrive.p = false) ∧ (put id).me.wait = none ∧
    bw.me.pausedBy = [] ∧ rm.me.pausedBy = [] ∧ ct.me.pausedBy = [] ∧ bw.me.wait = some ⟨.bell 7 true, .bellWait h0 7 (.imm 1)⟩ ∧ (bw.myCore.bell 7).p ≠ true ∧
    ((put id).begun h0).windowPlaced 0 0 = true ∧ rm.me.wait = some ⟨.remote 0 7, .bellRemote h0 1 7 (.imm 0)⟩ ∧ rm.myCore.lid = some 7 ∧
    rm.coreAt 7 0 = some 0 ∧ ((rm.core 0).bell 7).v = true ∧ ((put id).me.rC 3).toNat < min (roiVal (put id).me (.imm (n := 17) 1)).toNat 65536 ∧
    min (roiVal (put c1).me (.imm (n := 17) 1)).toNat 65536 ≤ ((put c1).me.rC 3).toNat ∧
    min (roiVal (put id).me (.reg (n := 17) 0)).toNat 65536 = 0 ∧ ct.me.wait = some ⟨.counter 1, .waitlt h0 3 (.imm 1)⟩ ∧
    (ct.me.rC 3).toNat < 1 := ⟨⟨runs_put _, runs_put2 _ _, runs_put2 _ _, runs_put2 _ _, runs_put _, runs_put _⟩, by decide +kernel⟩
/-- R148: the last arrival of a phase flips it and starts the next one. -/
theorem test_bell : goes (exec (.bellArrive h0 1 7) (put2 (belled ⟨true, false, 1, 3⟩) id))
    (fun s => s.me.rS 1 == 0 && s.myCore.bell 7 == ⟨true, true, 3, 3⟩) = true := by decide +kernel
theorem wit_Fences :
    let i : Instr := .fencer h0 .core .all
    let w (go : Bool) : Strand → Strand := fun t => { t with wait := some ⟨.fencer go [(0, 1)], i⟩ }
    let b := put fun t => { t with sb := [held] }
    let other (f : Strand → Strand) (s : State) : State := s.modStrand ⟨0, 1⟩ fun t => f { t with run := .running }
    let busy : Strand → Strand := fun t => { t with sb := [held], sbAge := 1 }
    let idle : Strand → Strand := fun t => { t with pausedBy := [⟨0, 0⟩] }
    let p := { other (fun t => { t with wait := some ⟨.fencer true [(0, 0)], i⟩ }) (put fun t => { t with pausedBy := [⟨0, 1⟩] }) with
               agenda := [.strand ⟨0, 0⟩] }
    let n (s : State) : State := s.begun h0
    (Runs h0 (put id) ∧ Runs h0 b ∧ Runs h0 (put (w true)) ∧ Runs h0 (put2 id id)) ∧ (b.begun h0).fenceReady true .core = false ∧
    ((put id).begun h0).fenceReady true .core = true ∧ (n (put id)).fencerTargets ⟨0, 0⟩ .core .all = [] ∧ (put id).me.wait = none ∧
    (put id).myCore.lid = some 7 ∧ (∀ c : CoreId, ((put id).core c).lid = some 7 → c = 0) ∧
    (n (other id (put id))).fencerTargets ⟨0, 0⟩ .core .all = [⟨0, 1⟩] ∧ (n (other id (put id))).fenceReady true .core = true ∧
    (put (w true)).me.wait = some ⟨.fencer true [(0, 1)], i⟩ ∧
    (∀ x ∈ [((0 : Nat), (1 : SlotId))], (n (other idle (put (w true)))).fencerDone ⟨0, 0⟩ 7 .core x = true) ∧
    (n (other busy (put (w true)))).fenceReady true .core = true ∧ (n (other busy (put (w true)))).fencerDone ⟨0, 0⟩ 7 .core (0, 1) = false ∧
    (n (other busy (put (w true)))).holdsPaused ⟨0, 0⟩ 7 (0, 1) = false ∧
    (n (put fun t => { w true t with sb := [held] })).fenceReady true .core = false ∧
    ((p.die (dieOf 0)).stopped = false ∧ (p.strand ⟨0, 0⟩).run = .running ∧ (p.strand ⟨0, 0⟩).midUnit = false ∧ (p.strand ⟨0, 0⟩).pend = [] ∧
      (p.strand ⟨0, 0⟩).mfault = none ∧ p.errs = [] ∧ (p.strand ⟨0, 0⟩).wait = none ∧ p.pausedNow ⟨0, 0⟩ = true) :=
  ⟨⟨runs_put _, runs_put _, runs_put _, runs_put2 _ _⟩, by decide +kernel⟩
/-- R301, R303: a FENCE and a FENCEO with nothing outstanding go on. -/
theorem test_fence : goes (exec (.fence h0 .ar .package) (put id)) (fun s => s.me.pc == 0x1008) = true ∧
    goes (exec (.fenceo h0) (put id)) (fun s => s.me.pc == 0x1008) = true := by decide +kernel
/-- R304: a FENCER with one target pauses it, and a turn later, its work done, ends. -/
theorem test_fencer :
    let s := (put id).modStrand ⟨0, 1⟩ fun t => { t with run := .running }
    goes (exec (.fencer h0 .core .all) s) (fun s => (s.strand ⟨0, 1⟩).pausedBy == [⟨0, 0⟩] && s.me.pc == 0x1000 &&
      goes (exec (.fencer h0 .core .all) s) fun t => (t.strand ⟨0, 1⟩).pausedBy.isEmpty && t.me.pc == 0x1008) = true := by decide +kernel
def okP (r : RangeRes) (p : State → PageMap → Bool) : Bool := match r with
  | .ok s m => p s m
  | _ => false
theorem wit_InPlaceStarts :
    let f : Strand → Strand := fun t => ((t.wS 10 0x5000).wS 3 4).wS 4 0x7F0000000000
    let y : Strand → Strand := fun t => (f t).wS 5 0x5100
    let two : Core → Core := fun c => { c with tlb := [⟨0, 5, 1, 0x8000, 0x6F⟩, ⟨0, 6, 1, 0x9000, 0x46F⟩] }
    let busy : Strand → Strand := fun t => { f t with
      sb := [{ held with tgt := ⟨.phys 0x8000, leafAttr 0x6F none .default⟩ }], sbAge := 1 }
    let z := (put2 two y).begun h0
    let ready (u : State) : Bool := u.cur == ⟨0, 0⟩ && u.me.rC 4 != 0xFFFF && decide (u.myCore.xfers.length < 32) && u.releaseReady (ordOf h0)
    let rn : Strand → Strand := fun t => { t with wait := some ⟨.renew [(256, 0x5000)], .renew h0 10 3⟩ }
    let lt := put fun t => { t with late := [⟨0x1000, 3, 8⟩] }
    (Runs h0 (put2 two y) ∧ Runs h0 (put2 two busy) ∧ Runs h0 (put2 two rn)) ∧ (put2 two y).me.wait = none ∧ (z.me.rS 3).toNat ≤ 2 ^ 30 ∧
    okP (z.checkRange ⟨0, 0⟩ 0x5000 4 .sread ownMem) (fun s1 m => ready s1 && m.lines 4 == [(256, 0x5000)] && m.lines 0 == [] &&
      s1.lineVisible ⟨0, 0⟩ s1.me.sbAge 256 && s1.lineReady 256 && ((s1.renewLine 256).l1Drop 0 256).cur == ⟨0, 0⟩) = true ∧
    okP (((put2 two busy).begun h0).checkRange ⟨0, 0⟩ 0x5000 4 .sread ownMem) (fun s1 _ => !s1.lineVisible ⟨0, 0⟩ s1.me.sbAge 256 && !s1.stallOver ⟨0, 0⟩ 256) = true ∧
    ((put2 two rn).me.wait = some ⟨.renew [(256, 0x5000)], .renew h0 10 3⟩ ∧ ((put2 two rn).begun h0).lineVisible ⟨0, 0⟩ ((put2 two rn).begun h0).me.sbAge 256 = true ∧
      ((put2 two rn).begun h0).lineReady 256 = true ∧ ((((put2 two rn).begun h0).renewLine 256).l1Drop 0 256).cur = ⟨0, 0⟩) ∧
    ((lt.strand ⟨0, 0⟩).run = .running ∧ (lt.strand ⟨0, 0⟩).late = [⟨0x1000, 3, 8⟩]) ∧
    okP (z.checkRange ⟨0, 0⟩ 0x5000 1 .sread ownMem) (fun _ _ => true) = true ∧
    BitVec.toNat (0x5000 : Word) % ipBytes .f32 = 0 ∧ BitVec.toNat (0x5100 : Word) % ipBytes .f32 = 0 ∧
    okP (z.checkRange ⟨0, 0⟩ 0x5000 16 .sread engMem) (fun s1 _ => okP (s1.checkRange ⟨0, 0⟩ 0x5000 16 .swrite engMem) fun s2 _ => ready s2) = true ∧
    okP (z.checkRange ⟨0, 0⟩ 0x5000 16 .sread engMem) (fun s1 _ => (s1.localPlace 0 0x7F0000000000).isSome && ready s1 &&
      okP (s1.checkRange ⟨0, 0⟩ 0x5100 4 .swrite engMem) (fun s2 _ => ready s2) &&
      okP (s1.checkRange ⟨0, 0⟩ 0x5100 16 .sread engMem) (fun s2 _ => okP (s2.checkRange ⟨0, 0⟩ 0x5100 16 .swrite engMem) fun s3 _ => ready s3) &&
      okP (s1.checkRange ⟨0, 0⟩ 0x6000 16 .swrite collDest) (fun s2 _ => ready s2)) = true ∧
    inLocal 0x7F0000000000 = true ∧ inLocal 0x5100 = false :=
  ⟨⟨runs_put2 _ _, runs_put2 _ _, runs_put2 _ _⟩, by decide +kernel⟩
theorem wit_InPlaceSteps :
    let m : PageMap := ⟨0x5000, 0, [⟨.phys 0x8000, leafAttr 0x46F none .default⟩]⟩
    let e : PageMap := ⟨0, 0, []⟩
    let i : IpopJob := ⟨.scale, .s32, m, e, none, 4, 3, 0, [0], [], [], 0⟩
    let sum : IpopJob := ⟨.sum, .s32, m, e, some ⟨.loc 7 0 64, localAttr .default⟩, 1, 0, 0, [], [], [(0, 5)], 0⟩
    let c : CollJob := ⟨.add, .s32, m, m, 4, none, none, 0, [0], [], false, false, 0⟩
    let two : CollJob := { c with xs := some [1, 2, 3, 4], todo := [0, 1], sent := true }
    let mine : List Contribution := [⟨0, [1, 2, 3, 4], some (7, 0, 0, 4)⟩]
    let onWay : SbEntry := ⟨⟨.phys 0x8000, localAttr .default⟩, 8, 0, 0, false, false, .system, 0⟩
    let far : CollJob := { c with xs := some [1, 2, 3, 4], y := ⟨0x5000, 0, [⟨.phys (5 * 2 ^ 44), leafAttr 0x46F none .default⟩]⟩ }
    let farS (stalled : Bool) := put2 (moving (.coll far)) fun t => { counting t with stalled := stalled }
    let d : CollJob := { c with xs := some [1, 2, 3, 4], det := some (0, 2, 9) }
    let k : DetKey := ⟨m, 4, .s32, .add, 2, 9⟩
    let st (k : XferKind) : State := put2 (moving k) counting
    let found (k : XferKind) : Bool := ((st k).core 0).xfers.find? (·.id == 1) == some (xfer k) && !(st k).copyStopped ⟨0, 0⟩ 1
    let arrives (s : State) (p : State → Bool) : Bool := match s.arriveDet k ⟨0, [1, 2, 3, 4], some (7, 0, 0, 4)⟩ with
      | (t, ok) => ok && p t
    let held (g : DetGroup) (s : State) : State := s.modDie 0 fun x => { x with groups := [g] }
    let one : DetGroup := ⟨m, 4, .s32, .add, 2, 9, [⟨1, [5, 6, 7, 8], none⟩], true⟩
    found (.settle [(256, 0x5000)] [8] 0) = true ∧ (st (.settle [(256, 0x5000)] [8] 0)).lineVisible ⟨0, 0⟩ 0 256 = true ∧
    (st (.settle [(256, 0x5000)] [8] 0)).lineReady 256 = true ∧ found (.ipop i) = true ∧ i.x.sectors 4 4 = 1 ∧
    (st (.ipop i)).ipopPaused ⟨0, 0⟩ 1 = false ∧
    (match (st (.ipop i)).xSector i false 0 4 with
      | .ok _ j => j.flags == 0
      | _ => false) = true ∧
    found (.ipop { i with todo := [] }) = true ∧ found (.ipop sum) = true ∧
    okA ((st (.ipop sum)).storeAt ⟨0, 0⟩ ⟨.loc 7 0 64, localAttr .default⟩ 4 sum.root.1) (fun _ _ => true) = true ∧ found (.coll c) = true ∧
    (match (st (.coll c)).collRead ⟨0, 0⟩ c 0 with
      | .ok _ xs => xs == [(0, 0), (1, 0), (2, 0), (3, 0)]
      | _ => false) = true ∧
    (c.x.lines 16).all (fun l => (st (.coll c)).lineStored ⟨0, 0⟩ 0 l.1 && (st (.coll c)).reached l.1) = true ∧
    found (.coll { c with todo := [], got := [(0, 1), (1, 2), (2, 3), (3, 4)] }) = true ∧
    found (.coll { c with xs := some [1, 2, 3, 4] }) = true ∧ found (.coll two) = true ∧
    (two.todo.all (fun q => (st (.coll two)).landReady m 4 4 q mine (some 0)) ∧ two.todo.length = 2) ∧
    ((st (.coll two)).modCore 0 fun x => { x with egress := [⟨0, onWay⟩] }).landReady m 4 4 0 mine (some 0) = false ∧
    ((far.y.lines 16).find? (fun l => !(farS false).reached l.1) = some (5 * 2 ^ 37, 0x5000) ∧
      (farS false).stallOver ⟨0, 0⟩ (5 * 2 ^ 37) .home = false ∧ (farS true).stallOver ⟨0, 0⟩ (5 * 2 ^ 37) .home = true) ∧
    (found (.coll d) = true ∧ arrives (st (.coll d)) (fun t => (t.detGroup k).any fun g => g.members.length == 1 && g.r == 2) = true ∧
      arrives (held one (st (.coll d))) (fun t => (t.detGroup k).any fun g => g.members.length == 2 && g.r == 2) = true ∧
      arrives (held { one with members := [⟨0, [1], none⟩] } (st (.coll d))) (fun _ => true) = false) ∧
    (found (.coll { d with fills := true }) = true ∧ ((held one (st (.coll { d with fills := true }))).detGroup k).any (fun g =>
      (held one (st (.coll { d with fills := true }))).landReady m 4 4 0 g.ranked none) = true) ∧
    (base.regions = [] ∧ base.errs = [] ∧ (m.attr 0).sl = false ∧ ∀ n ∈ List.range 4, m.pa (n * 4) = m.pa 0 + n * 4) := by decide +kernel

/-! ## The Roll, the host and the peers -/

/-- The package after reset with entries and requests in slice 1, which line 256 of die 0 is a line of. -/
def rolled (es : List RollEntry) (q : List SliceReq) : State :=
  { State.reset with slices := State.reset.slices.set 1 { Slice.reset with entries := es, queue := q } }
def req (k : ReqKind) (h : Holder) (id : Option StrandId) : SliceReq := ⟨256, k, h, id, localAttr .default, false⟩
/-- An entry for line 256 that die 1 holds. -/
def roll (st : RollSt) (rc : Bool) : RollEntry := ⟨256, st, rc, false, false, .die 1, false, 0, 0, false, 2, [], true, none, 0⟩
/-- Die 1 holds line 256 in its RDC. -/
def holds (s : State) (st : CopySt) (mask : Nat) : State := s.modDie 1 fun d => { d with lines := [⟨256, true, 5, mask, st, 0, 0⟩] }
theorem wit_RollSteps :
    let amo : Instr := .amo h0 .default .add .w64 1 2 3
    let at_ : Target := ⟨.phys 0x8000, leafAttr 0x6F none .default⟩
    let jr (w : Bool) : Journal := ⟨256, 0, 7, 0xFF, 0xFF, 0, w, false, false, false, (0, 0), localAttr .default⟩
    let far := 5 * 2 ^ 37
    let ask (own more pend : Bool) : HomeAsk := ⟨far, true, .proxy, some (own, more, pend, 6), false⟩
    let fs (x : List HomeAsk) (k : ReqKind) (id : Option StrandId) (h : Holder) : State :=
      (State.reset.modHall (State.reset.portOf far) fun y => { y with ports := y.ports.set 3 ⟨true, true, 5, 0, 0⟩, rte := y.rte.set 5 0x8000000000000003 }).modSlice
        (sliceOf far) fun y => { y with asks := x, queue := [{ req k h id with line := far }] }
    let fa (x : List HomeAsk) : State := (fs x .at (some ⟨0, 0⟩) (.die 0)).modStrand ⟨0, 0⟩ fun t =>
      { t with run := .running, wait := some ⟨.atomic { at_ with place := .phys (128 * far) }, amo⟩ }
    let q : SliceReq := req .at (.die 0) (some ⟨0, 0⟩)
    let a (j : Option Journal) : State := (rolled [] [q]).modStrand ⟨0, 0⟩ fun t =>
      { t with run := .running, wait := some ⟨.atomic at_, amo⟩, journal := j }
    let r (es : List RollEntry) := rolled es [req .rs (.die 1) none]
    let x (es : List RollEntry) := rolled es [req .rx (.die 1) none]
    let mine : RollEntry := { roll .m false with own := .die 2, dies := 4 }
    let store : RollEntry := { roll .o false with own := .store, dies := 4, ls := true, lsData := 9, lsDirty := 3 }
    let by2 (s : State) : State := s.modDie 2 fun d => { d with lines := [⟨256, true, 5, 3, .m, 0, 0⟩] }
    let shared : RollEntry := { roll .o false with dies := 6 }
    let m := holds (rolled [roll .m false] []) .m 3
    let o := holds (rolled [shared] []) .o 3
    let c := holds (rolled [roll .s false] []) .s 0
    let c2 := holds (rolled [{ roll .s false with own := .die 2, dies := 6 }] []) .s 0
    let host : State := (rolled [] []).modHall ((rolled [] []).portOf 256) fun h => { h with up := true, cxl := true }
    let free (s : State) (k : ReqKind) : Bool := s.lineFree 256 && s.firstReq 256 == some (req k (.die 1) none) && s.errs.isEmpty &&
      decide ((s.rollWays 256).length < 16) && decide ((s.hallEntries 256).length < storeSize) && (s.findLine 1 256).isNone && !s.hasPending (.die 1) 256 && s.homeDie 256 == some 0 &&
      pickWay (s.die 1).lines true 256 (List.range 16) == some (0, none)
    let leaves (s : State) (dirty : Bool) : Bool := s.canServe 256 && s.homeDie 256 == some 0 && !s.hasPending (.die 1) 256 && s.errs.isEmpty &&
      (s.tailList 256).isNone && (s.entry 256).isSome && (s.findLine 1 256).any fun l => (l.st == .m || l.st == .o || l.dirty != 0) == dirty &&
        l.st != .home && (s.evictRdc 1 l).isSome
    (free (r []) .rs = true ∧ free (by2 (r [mine])) .rs = true ∧ mine.has (.die 1) = false ∧ mine.own = .die 2 ∧
      ((by2 (r [mine])).findLine 2 256).isSome = true ∧ free (r [store]) .rs = true ∧ store.own = .store ∧
      store.has (.die 1) = false) ∧
    (free (x []) .rx = true ∧ free (by2 (x [mine])) .rx = true) ∧
    (host.cxlUp 256 = true ∧ host.canServe 256 = true ∧ (host.homeDie 256).isSome = true ∧ host.hasPending .host 256 = false ∧
      host.entry 256 = none ∧ (host.rollWays 256).length < 16 ∧ (host.region (regionOf (128 * 256))).life = .none ∧ (5 : BitVec 6) ∉ host.lostPeers) ∧
    (leaves m true = true ∧ leaves o true = true ∧ leaves c false = true ∧ leaves c2 false = true ∧ (shared.del (.die 1)).holders = [.die 2] ∧
      ((roll .s false).del (.die 1)).holders = [] ∧ (roll .s false).ls = false) ∧
    ((List.find? (fun r => r.kind == .at && r.strand == some ⟨0, 0⟩) ((a none).slices[0].queue ++ (a none).slices[1].queue)) = some q ∧
      (a none).firstReq 256 = some q ∧ (a none).sliceUp (sliceOf 256) = true ∧ (a none).lineFree 256 = true ∧
      (match (a none).atOp ⟨0, 0⟩ q with
        | .ok s1 y => y.pa == 0x8000 && y.n == 8 && !y.err && !(s1.core 0).egressOverlaps ⟨.phys y.pa, q.attr⟩ y.n
        | _ => false) = true ∧ (match ((a none).modStrand ⟨0, 0⟩ fun t => { t with wait := none }).atOp ⟨0, 0⟩ q with
        | .wait _ => true
        | _ => false) = true ∧
      ((a (some (jr false))).strand ⟨0, 0⟩).journal = some (jr false) ∧ ((a (some (jr true))).strand ⟨0, 0⟩).journal = some (jr true)) ∧
    ((fs [] .rs none (.die 1)).homeNeed far false = true ∧ (fs [] .rs none (.die 1)).homeAns far false .proxy = none ∧
      (fs [] .rs none (.die 1)).lineFree far .data = true ∧ (fs [ask true true true] .rx none (.die 1)).lineFree far = true ∧
      (fs [ask true true true] .rx none (.die 1)).homeAns far true .proxy = some (true, true, true, 6) ∧
      (fs [ask true true true] .rx none (.die 1)).entry far = none ∧ (fs [] .rs none (.die 1)).findLine 1 far = none ∧
      pickWay ((fs [] .rs none (.die 1)).die 1).lines true far (List.range 16) = some (0, none) ∧
      (fa []).homeNeed far true = true ∧ (fa []).homeAns far true .proxy = none ∧ (fa []).lineFree far = true ∧
      ((fa [ask true false false]).homeAns far true .proxy).isSome = true ∧ paKind (128 * far) = .device 5) ∧
    (lineOf 0x8000 = 256 ∧ (a none).homeData 256 < 2 ^ 1024 ∧ ((a none).region (regionOf 0x8000)).life = .none ∧ (localAttr .default).sl = false) ∧
    ((rolled [roll .s false] []).entry 256 = some (roll .s false) ∧ (rolled [roll .s false] []).linked 256 = true ∧
      (roll .s false).recalled = false ∧ ({ roll .s true with own := .store, dies := 0 } : RollEntry).recalled = true ∧
      (roll .s true).recalled = false ∧ (rolled [roll .s true] []).linked 256 = true ∧
      (rolled [{ roll .s true with own := .store, dies := 0 }] []).tailList 256 = none ∧
      (rolled [{ roll .s false with atom := true }] []).entry 256 = some { roll .s false with atom := true }) ∧
    ((rolled [roll .s true] []).entry 256 = some (roll .s true) ∧ (rolled [roll .s true] []).busy 256 = false ∧
      (rolled [roll .s true] []).pending = [] ∧ (rolled [roll .s true] []).sliceUp (sliceOf 256) = true) ∧
    (({ rolled [] [] with pending := [⟨256, .die 1, .die 0, []⟩] } : State).hasPending (.die 1) 256 = true ∧ (rolled [] []).homeDie 256 ≠ some 1) := by
  and_intros <;> decide +kernel
/-- R316, R317: a dirty owner that gives its copy up writes its dirty bytes home, and a clean copy leaves with nothing written. -/
theorem test_wb : goes (exec (.wb (.die 1) 256) (holds (rolled [roll .m false] []) .m 3))
    (fun s => s.homeData 256 == 5 && (s.findLine 1 256).isNone && (s.entry 256).isNone) = true ∧
    goes (exec (.dr (.die 1) 256) (holds (rolled [roll .s false] []) .s 0)) (fun s => (s.findLine 1 256).isNone && (s.entry 256).isNone) = true := by
  decide +kernel
/-- R319, R320: a recall takes the owner's dirty bytes home and tells the holder, and with its copy gone the entry retires. -/
theorem test_recall : goes (exec (.recall 256) (holds (rolled [roll .m false] []) .m 3))
    (fun s => s.hasPending (.die 1) 256 && s.homeData 256 == 5 && goes (exec (.applyStep (.die 1) 256) s) fun s =>
      (s.findLine 1 256).isNone && goes (exec (.retire 256) s) fun s => (s.entry 256).isNone && (s.hall 1).recalls == 1) = true := by decide +kernel
/-- R325: the atomic at a slice does its intent, its write and its done record in three steps. -/
theorem test_at :
    let s := ((rolled [] [req .at (.die 0) (some ⟨0, 0⟩)]).modStrand ⟨0, 0⟩ fun t => { t with run := .running, wait := some ⟨.atomic
      ⟨.phys 0x8000, leafAttr 0x6F none .default⟩, .amo h0 .default .add .w64 1 2 3⟩ }.wS 3 7)
    goes (exec (.at ⟨0, 0⟩) s) (fun s => s.busy 256 && goes (exec (.at ⟨0, 0⟩) s) fun s => s.homeData 256 == 7 && s.busy 256 &&
      goes (exec (.at ⟨0, 0⟩) s) fun s => !s.busy 256 && (s.slice 1).queue.isEmpty) = true := by decide +kernel
/-- R318: a read of a line that nobody holds gives die 1 its copy, and the request is gone. -/
theorem test_rs : goes (exec (.rs (.die 1) 256) (rolled [] [req .rs (.die 1) none]))
    (fun s => (s.findLine 1 256).isSome && (s.slice 1).queue.isEmpty && (s.entry 256).isSome) = true := by decide +kernel
theorem wit_HostAndPeerSteps :
    let line := 2 ^ 51 / 128
    let he : RollEntry := { roll .s false with line := line }
    let s := State.reset
    let es : State := { s with slices := s.slices.set (sliceOf line).val { Slice.reset with entries := [he] } (sliceOf line).isLt }
    let pl : Place := .phys (2 ^ 51)
    let w := put fun t => { t with wait := some ⟨.host (2 ^ 51) false, .ld h0 .default false .w64 1 2 (.off 0)⟩ }
    let e : EgressEntry := ⟨0, { held with tgt := ⟨pl, { localAttr .default with mkind := 2 }⟩ }⟩
    let f := put2 (fun c => { c with egress := [e] }) id
    let up := s.modHall 0 fun x => { x with ports := x.ports.set 3 ⟨true, true, 5, 0, 0⟩, rte := x.rte.set 5 0x8000000000000003 }
    let p : PeerPacket := ⟨9, 1, 0, 1, 4, 1, 256, false, none, none, none⟩
    let b2 : Arrived := ⟨{ p with seq := 3 }, none, 0⟩
    let wr : PeerPacket := { p with w := some ⟨1, 0xAB⟩ }
    let got := s.modHall 1 fun x => { x with accepted := [(9, 1, 256, 4)] }
    let queue := s.modHall 1 fun x => { x with inbox := [b2] }
    let cxl := s.modHall (s.portOf 256) fun x => { x with up := true, cxl := true }
    let heldHere : State := { cxl with slices := s.slices.set 1 { Slice.reset with entries := [roll .s false] } }
    (paKind (128 * line) = .host ∧ s.busy line = false ∧ s.errs = [] ∧ s.entry line = none ∧ es.lineFree line = true ∧ es.entry line = some he ∧
      (match es.entryData he with
        | (s1, x, m) => s1.tick + x + m ≥ 0) ∧ he.st = .s) ∧
    ((s.homeDie 256).isSome = true ∧ s.present s.pkg 256 = true ∧ s.canServe 256 = true ∧
      s.cxlUp 256 = false ∧ cxl.cxlUp 256 = true ∧ cxl.canServe 256 = true ∧ (cxl.meetRegion (128 * 256) (localAttr .default) false).entry 256 = none ∧
      (heldHere.meetRegion (128 * 256) (localAttr .default) false).entry 256 = some (roll .s false) ∧
      okA (cxl.sysWriteMask 0 256 (2 ^ 127) (255 * 2 ^ 1016) (localAttr .default)) (fun _ _ => true) = true ∧ cxl.canServe 256 .data = true ∧
      heldHere.canServe 256 .data = true ∧ dieOfAddr (128 * 256) = 0) ∧
    ((w.strand ⟨0, 0⟩).run = .running ∧ (w.strand ⟨0, 0⟩).wait = some ⟨.host (2 ^ 51) false, .ld h0 .default false .w64 1 2 (.off 0)⟩) ∧
    ((List.finRange 128).find? (fun c => (f.core c).egress.any (f.postedOn (f.portOf line))) = some 0 ∧
      (f.core 0).egress.find? (f.postedOn (f.portOf line)) = some e ∧ (∀ c, ∀ x ∈ (s.core c).egress, s.postedOn 0 x = false)) ∧
    ((up.hall 0).present = true ∧ (up.hall 0).lost = false ∧ ((up.hall 0).ports[3]).up = true ∧ ((up.hall 0).ports[3]).pres = true ∧
      (5 : BitVec 3).toNat ≤ 5) ∧
    (p.dst = got.almanac.package ∧ s.serving p.dstHall = some 1 ∧ (got.hall 1).stale p = true ∧ (got.hall 1).inbox = [] ∧
      (s.hall 1).stale p = false ∧ (s.hall 1).inbox = [] ∧ (queue.hall 1).stale p = false ∧ (queue.hall 1).inbox.any (·.p == p) = false ∧
      (queue.hall 1).inbox.any (fun b => sameWay b.p p && b.holds) = true ∧ p.ans = none ∧ s.canServe p.line .data = true ∧
      (s.modSlice 1 fun x => { x with waiting := true }).canServe p.line .data = false ∧ p.coll = none ∧ paKind (128 * p.line) = .device s.pkg ∧ p.src ∉ s.lostPeers ∧
      p.w = none ∧ (s.grant (.peer 9) 256 false (localAttr .default)).2 = true ∧
      wr.w = some ⟨1, 0xAB⟩ ∧ okA (s.sysWriteMask 0 256 1 0xAB (localAttr .default)) (fun _ _ => true) = true) ∧
    ((5 : BitVec 6) ≠ up.almanac.package ∧ up.route 0 5 256 = some (0, 3) ∧ p.hops < 6 ∧ 6 ≤ ({ p with hops := 6 } : PeerPacket).hops ∧
      ({ p with src := 0 } : PeerPacket).src = s.almanac.package) ∧ (9 ∉ s.lostPeers ∧ (9 : BitVec 6) ≠ s.almanac.package) := by
  refine ⟨?_, ?_, ?_, ?_, ?_, ?_, ?_, ?_⟩ <;> decide +kernel
theorem wit_RollCallSteps :
    let s (host : Bool) (n : BitVec 2) : State := { State.reset with rollCall := ⟨true, true, 1, n, host⟩ }
    (State.reset.hall 0).present = true ∧ (State.reset.hall 0).lost = false ∧ (s false 3).rollCall.rca = true ∧ (s false 3).rollCall.host = false ∧
    (s true 0).rollCall.host = true ∧ State.reset.rollCall.rca = false ∧ (s false 3).rollCall.step = 3 ∧ (base.strand ⟨0, 0⟩).run ≠ .idle := by
  decide +kernel

/-! ## The dies, launches and management -/

/-- A launch with the id 7 in list 0, whose header lies at 0x10000 with TAIL 1. -/
def launched (l : Launch) (duty : BitVec 6) : State :=
  { State.reset with lists := State.reset.lists.set 0 { LaunchList.reset with base := 0x100, en := true, tail := some 1 }, launches := [l], arrays := [(0x10000, 1)]
                     preber := { Preber.reset with duty := duty } }
/-- It waits for a cluster. -/
def waiting : Launch := { oneStrandLaunch 0 7 with hdr := 0x10000, recAt := 0x10100, status := 1, blocks := [.waiting], since := some 0 }
theorem wit_DieSteps :
    let e (x : ErrSite) (k : ErrKind) : State := { State.reset with errs := [(x, k)] }
    let vb (s : State) : State := s.modDie 0 fun d => { d with vbPend := d.vbPend.set 0 true }
    let vbH (s : State) : State := (vb s).modDie 0 fun d => { d with vbHost := d.vbHost.set 0 true }
    let busy := State.reset.modDie 0 fun d => { d with tlbcBusy := true, tlbcRun := 3 }
    let park : ParkInfo := ⟨trapInfo 0x05 0, .scalar, 0, 0, 0, 4, true, 0, none⟩
    let pt := (put fun t => { t with run := .parked park }).modDie 0 fun d => { d with pageTags := [⟨4, 7, 0, 0⟩] }
    let live : State := { State.reset with regions := [⟨8, 0, false, .live 1⟩], tick := 0 }
    ((live.region 8).life = .live 1 ∧ (live.region 9).life = .none) ∧ State.reset.errAt (.word 0x8000) = none ∧
    (e (.word 0x8000) .single).errAt (.word 0x8000) = some .single ∧ (e (.word 0x8000) .double).errAt (.word 0x8000) = some .double ∧
    (e (.tag 0) .triple).errAt (.tag 0) = some .triple ∧ (e (.bus 0 31) .single).errAt (.bus 0 31) = some .single ∧
    (((vb (launched waiting 0)).die 0).vbPend[0] = true ∧ ((vb (launched waiting 0)).die 0).vbHost[0] = false ∧
      (vb (launched waiting 0)).placingOn 0 = true) ∧
    ((vbH State.reset).preber.badImage = none ∧ ((vbH State.reset).die 0).vbPend[0] = true ∧ ((vbH State.reset).die 0).vbHost[0] = true) ∧
    (State.reset.die 0).tlbcBusy = false ∧ ((busy.die 0).tlbcBusy = true ∧ busy.asidBusy 0 (busy.die 0).tlbcRun = false) ∧
    ((pt.die 0).pageTags.find? (·.tag == 4) = some ⟨4, 7, 0, 0⟩ ∧ pt.unrecorded 0 4 (some 0) = false ∧ pt.preber.badImage = none ∧
      (pt.modDie 0 fun d => { d with pageTags := [] }).coreAt 7 0 = some 0 ∧ (pt.strand ⟨0, 0⟩).run = .parked park ∧ park.page = true ∧
      pt.parkedWith 7 0 0 4 (some 0) = true ∧ pt.parkedWith 7 0 0 5 (some 0) = false) := by decide +kernel
/-- R269: a region's deadline is reached at the tick that makes the count equal to it. -/
theorem test_tick : goes (exec .tick { State.reset with regions := [⟨8, 0, false, .live 1⟩, ⟨9, 0, false, .live 2⟩] })
    (fun s => s.tick == 1 && (s.region 8).life == .dead && (s.region 9).life == .live 2) = true := by decide +kernel
theorem wit_LaunchSteps :
    let one (st : Nat) (bs : List BlockSt) : Launch := { waiting with status := st, blocks := bs, since := some 0, pre := true }
    let small : Launch := { one 2 [.placed 0] with uid := 1, lid := 8, recNo := 1 }
    let big : Launch := { waiting with lanes := 9, prio := 1 }
    let away : Launch := { one 2 [.saved] with moving := [(0, 0)] }
    let hot : State := (launched away 0).modDie 0 fun d => { d with mon := d.mon.set 0 { d.mon[0] with temp := 800 } }
    let two : State := { launched waiting 0 with launches := [small, big] }
    let e := launched (one 5 [.placed 0]) 0
    (State.reset.preber.badImage = none ∧ (1 : Fin 64) ≠ 0) ∧
    ((launched waiting 0).listServed 0 = true ∧ ((launched waiting 0).consumeRecord 0).toBool = true ∧ ((launched waiting 0).consumeRecord 1).toBool = false ∧
      (∀ m : Fin 64, m ≠ 0 → ((launched waiting 0).lists[m.val]).en = false) ∧
      (let q := (launched waiting 0).loseHall 1
       (q.lists[(0 : Fin 64).val]).tail = none ∧ (q.lists[(0 : Fin 64).val]).en = true ∧ q.listServed 0 = true)) ∧
    ((launched waiting 0).launch 7 = some waiting ∧ (launched waiting 0).preber.duty.getLsbD 0 = false ∧ waiting.status = 1 ∧
      waiting.waits = true ∧ (launched waiting 0).mayPlace waiting = true ∧
      ((launched waiting 0).chooseClusters waiting waiting.missing []).any (fun p => ((launched waiting 0).startLaunch waiting p).toBool) = true) ∧
    (two.launch 7 = some big ∧ two.mayPlace big = true ∧ two.chooseClusters big big.missing [] = none ∧ two.firstWaiting big = true ∧ big.waits = true ∧
      two.victim big = some small) ∧
    ((launched waiting 1).preber.duty.getLsbD 0 = true ∧ waiting.asked = false) ∧
    ((launched (one 2 [.placed 0]) 0).allHalted (one 2 [.placed 0]) = true ∧
      ((((launched (one 2 [.placed 0]) 0).coresOf 7).foldl State.releaseCore (launched (one 2 [.placed 0]) 0)).finishLaunch (one 2 [.placed 0]) 3).toBool = true) ∧
    (e.launch 7 = some (one 5 [.placed 0]) ∧ e.endDrained 7 = true ∧ (e.finishLaunch (one 5 [.placed 0]) 4).toBool = true) ∧
    ((one 2 [.saved]).blocks.getD 0 .waiting = .saved ∧ (launched (one 2 [.saved]) 0).mayPlace (one 2 [.saved]) = true ∧
      (launched (one 2 [.saved]) 0).chooseClusters (one 2 [.saved]) (one 2 [.saved]).missing [] = some [(0, 0)] ∧
      (hot.launch 7 = some away ∧ hot.coolerCluster away 0 0 = some 1)) ∧
    ((one 2 [.placed 0]).pre = true ∧ (launched (one 2 [.placed 0]) 0).launch 7 = some (one 2 [.placed 0]) ∧ (one 2 [.placed 0]).blocks.getD 0 .waiting = .placed 0) ∧
    ((State.reset.hall 0).present = true ∧ (State.reset.hall 0).lost = false) ∧
    ((put fun t => { t with region := some 5 }).strand ⟨0, 0⟩).region.isSome = true := by decide +kernel
/-- The clauses about a list that is not enabled, a resumed block and PLRES. -/
theorem wit_LaunchSteps_blocks :
    let one (st : Nat) (bs : List BlockSt) : Launch := { waiting with status := st, blocks := bs, since := some 0, pre := true }
    let l : Launch := { one 1 [.waiting, .waiting] with asked := true }
    let p := launched l 1
    (((launched waiting 0).lists[1]).en = false ∧ (launched waiting 0).listServed 1 = true) ∧
    (∀ x ∈ (launched (one 2 [.saved]) 0).launches, x.uid = (one 2 [.saved]).uid → x = one 2 [.saved]) ∧
    (p.launch 7 = some l ∧ p.preber.duty.getLsbD 0 = true ∧ l.waits = true ∧ p.listHall l.list = 0 ∧ p.clusterTakes l 0 0 = true) ∧
    ((launched { l with lanes := 9 } 1).launch 7 = some { l with lanes := 9 } ∧ p.clusterTakes { l with lanes := 9 } 0 0 = false ∧ l.blocks.length ≤ 9 ∧ BlockSt.named 0 ∉ l.blocks ∧ ∀ c, l.blocks.getD 1 .waiting ≠ .named c) := by decide +kernel
/-- R341, R344: a ready launch starts on the lowest-numbered cluster, its strand at its entry with the argument in s1. -/
theorem test_start : goes (exec (.launchPlacement 7) (launched { waiting with entry := 0x4000, arg := 9 } 0)) (fun s =>
    (s.core 0).lid == some 7 && (s.strand ⟨0, 0⟩).pc == 0x4000 && (s.strand ⟨0, 0⟩).rS 1 == 9 && (s.launch 7).map (·.status) == some 2) = true := by
  decide +kernel
theorem wit_ManagementSteps :
    let park : ParkInfo := ⟨trapInfo 0x01 0, .scalar, 0, 0, 0, 4, false, 0, none⟩
    let q (p : Preber → Preber) : State := { put (fun t => { t with run := .parked park }) with preber := p Preber.reset }
    let rec1 : HqRecord := ⟨2, 7, 1, 0, 0, none⟩
    let h := q fun p => { p with waitRecs := [rec1] }
    let a := q fun p => { p with attBusy := true }
    let et := q fun p => { p with errTags := [⟨4, 7, 0, 0⟩] }
    let n := 2 ^ (h.preber.hqsz.toNat + 4)
    ((((State.reset.setTemp 0 0 760).die 0).mon[0]).hot = true ∧ (((State.reset.setTemp 0 0 759).die 0).mon[0]).hot = false ∧
      State.reset.preber.duty.getLsbD 3 = false ∧ (q fun p => { p with duty := 8 }).preber.duty.getLsbD 3 = true) ∧
    ((880 : Int) ≤ (880 : BitVec 16).toInt ∧ (700 : BitVec 16).toInt < 880 ∧ (700 : BitVec 16).toInt < (((State.reset.die 0).mon[4]).thr).toInt) ∧
    (h.preber.waitRecs = [rec1] ∧ rec1.ends = none ∧ (h.preber.prod - h.preber.cons).toNat < n ∧
      (h.engWrite (h.preber.hqbase.toNat * 4096 + 32 * (h.preber.prod.toNat % n)) 32 rec1.bytes).toBool = true) ∧
    (State.reset.preber.badImage = none ∧ State.reset.preber.attBusy = false) ∧
    (a.preber.attBusy = true ∧ (a.sysWriteMany (a.preber.attBuf.toNat * 4096) a.report 103).toBool = true) ∧
    (et.preber.errTags.find? (·.tag == 4) = some ⟨4, 7, 0, 0⟩ ∧ et.unrecorded 1 4 none = false ∧ et.coreAt 7 0 = some 0 ∧ (et.strand ⟨0, 0⟩).run = .parked park ∧ park.page = false ∧
      et.parkedWith 7 0 0 4 none = true ∧ et.parkedWith 7 0 0 5 none = false) ∧
    (0x20 ≤ (0x25 : BitVec 12).toNat ∧ (0x25 : BitVec 12).toNat ≤ 0x25 ∧ BitVec.extractLsb' 0 3 (8 : Word) = 0) ∧
    (((0x10 : Nat) % 8 = 0 ∧ (0x14 : Nat) % 8 ≠ 0 ∧ (0xFFFF8 : Nat) < 0x100000) ∧ ((State.reset.loseHall 1).hall 1).lost = true ∧
      (0x2FFF8 : Nat) < 0x20000 + 0x10000 * (1 : HallId).val) ∧
    (State.reset.unitIdle (.core 0) = true ∧ base.unitIdle (.core 0) = false) ∧ State.reset.ownDevice (2 ^ 51) = false := by decide +kernel

/-! ## A worked example of the spec -/

/-- R138: slot 0 asks for 8 groups, slots 3 and 5 for 4 and 2, and slot 0 then renegotiates: they hold 2, 4 and 2. -/
theorem test_lanes_example :
    let ask (k : SlotId) (n : Nat) (c : Core) : Core := (c.setStrand k { c.strands[k.val] with claimed := some n }).renegotiate k n
    let c := ((Core.reset |> ask 0 8 |> ask 3 4 |> ask 5 2).renegotiate 0 8)
    (c.held 0, c.held 3, c.held 5) = (2, 4, 2) ∧ c.claimQ = [] := by decide +kernel

end Sys2Proof.Tests
end

section
/-! Loop levels: what a unit's completion (R64) and a taken branch (R65) do to them. -/
namespace Sys2Proof.Machine

/-! ## Loop-back (R64) -/

theorem loopBack_iterate {last : Word} (next : Word) {l : LoopLevel} (ls : List LoopLevel) (hstop : l.stop = last)
    (hiter : l.iter.toNat < l.n.toNat) :
    loopBack last next (l :: ls) = ({ l with iter := l.iter + 1 } :: ls, l.start) := by
  rw [loopBack, if_pos hstop.symm, if_pos hiter]

theorem loopBack_pop {last : Word} (next : Word) {l : LoopLevel} (ls : List LoopLevel) (hstop : l.stop = last)
    (hiter : l.n.toNat ≤ l.iter.toNat) :
    loopBack last next (l :: ls) = loopBack last next ls := by
  rw [loopBack, if_pos hstop.symm, if_neg (Nat.not_lt.mpr hiter)]

theorem loopBack_fallThrough {last : Word} (next : Word) {levels : List LoopLevel}
    (hstop : ∀ l ls, levels = l :: ls → l.stop ≠ last) :
    loopBack last next levels = (levels, next) := by
  cases levels with
  | nil => rfl
  | cons l ls => rw [loopBack, if_neg (hstop l ls rfl).symm]

theorem Strand.advance_pc {t : Strand} (hhs : t.hs = false) (words : Nat) :
    (t.advance words).pc =
      (loopBack (t.pc + 8 * BitVec.ofNat 64 (words - 1)) (t.pc + 8 * BitVec.ofNat 64 words) t.loops).2 := by
  simp only [Strand.advance, hhs, Bool.false_eq_true, if_false, Strand.goTo]

theorem Strand.advance_loops {t : Strand} (hhs : t.hs = false) (words : Nat) :
    (t.advance words).loops =
      (loopBack (t.pc + 8 * BitVec.ofNat 64 (words - 1)) (t.pc + 8 * BitVec.ofNat 64 words) t.loops).1 := by
  simp only [Strand.advance, hhs, Bool.false_eq_true, if_false]

/-- Handler state is a bit of `estatus`, so a strand with other loop levels is in it or not as before. -/
theorem Strand.hs_withLoops (t : Strand) (ls : List LoopLevel) : ({ t with loops := ls } : Strand).hs = t.hs := rfl

/-! ## Taken branches (R65) -/

theorem LoopLevel.holds_iff (l : LoopLevel) (a : Word) :
    l.holds a = true ↔ l.start.toNat ≤ a.toNat ∧ a.toNat ≤ l.stop.toNat := by
  rw [LoopLevel.holds, Bool.and_eq_true, decide_eq_true_iff, decide_eq_true_iff]

/-- The levels a branch pops are the longest run, from the innermost one outward, that does not hold its target. -/
theorem popLoops_eq_dropWhile (target : Word) (levels : List LoopLevel) :
    popLoops target levels = levels.dropWhile (fun l => !l.holds target) := by
  induction levels with
  | nil => rfl
  | cons l ls ih => cases h : l.holds target <;> simp [popLoops, h, ih]

theorem popLoops_head_holds {target : Word} {levels ls : List LoopLevel} {l : LoopLevel}
    (h : popLoops target levels = l :: ls) : l.holds target = true := by
  have hd := List.head?_dropWhile_not (fun l : LoopLevel => !l.holds target) levels
  rw [← popLoops_eq_dropWhile, h] at hd
  simpa using hd

theorem Strand.branch_pc (t : Strand) (target : Word) : (t.branch target).pc = target := rfl

theorem Strand.branch_loops {t : Strand} (hhs : t.hs = false) (target : Word) :
    (t.branch target).loops = popLoops target t.loops := by
  simp only [Strand.branch, hhs, Bool.false_eq_true, if_false]

end Sys2Proof.Machine

namespace Sys2Proof.Settled
open Sys2Proof.Machine

/-- Settles O11: the three cases of R64 are the three cases of `loopBack` at the unit's last word. -/
theorem loopBack : Obligations.LoopBack := by
  intro t words hhs last
  rw [Strand.advance_pc hhs, Strand.advance_loops hhs]
  refine ⟨fun l ls hloops hstop hiter => ?_, fun l ls hloops hstop hiter => ?_, fun hstop => ?_⟩
  case refine_1 =>
    rw [hloops, loopBack_iterate _ ls hstop hiter]
    exact ⟨rfl, rfl⟩
  case refine_2 =>
    have hhs' : ({ t with loops := ls } : Strand).hs = false := (t.hs_withLoops ls).trans hhs
    rw [hloops, loopBack_pop _ ls hstop hiter, Strand.advance_pc hhs', Strand.advance_loops hhs']
    exact ⟨rfl, rfl⟩
  case refine_3 =>
    rw [loopBack_fallThrough _ hstop]
    exact ⟨rfl, rfl⟩

/-- Settles O12: the popped levels are the longest run of inner levels that do not hold the target, and the first level
kept ends that run. -/
theorem branchPops : Obligations.BranchPops := by
  intro t target hhs
  rw [Strand.branch_loops hhs]
  refine ⟨t.branch_pc target, t.loops.takeWhile (fun l => !l.holds target), ?_, fun l hl => ?_, fun l ls h => ?_⟩
  case refine_1 =>
    rw [popLoops_eq_dropWhile, List.takeWhile_append_dropWhile]
  case refine_2 =>
    simpa using List.mem_takeWhile_imp hl
  case refine_3 =>
    exact (l.holds_iff target).mp (popLoops_head_holds h)

end Sys2Proof.Settled
end

section
/-! What a trap leaves in the strand that takes it (R66), and TRAP (R127). -/
namespace Sys2Proof.Machine

/-! ## A strand's registers after it takes a trap (R66) -/

theorem State.strand_of_cores {s t : State} (h : s.cores = t.cores) (id : StrandId) : s.strand id = t.strand id := by
  simp only [State.strand, State.core, h]

/-- A change of a core that keeps its strands. -/
theorem State.strand_modCore {s : State} {c : CoreId} {f : Core → Core} (hf : (f (s.core c)).strands = (s.core c).strands)
    (id : StrandId) : (s.modCore c f).strand id = s.strand id := by
  by_cases e : id.core = c
  · subst e
    simp only [State.strand, State.core_modCore_same, hf]
  · simp only [State.strand, State.core_modCore_ne s f e]

theorem State.leaveWait_cur (s : State) (id : StrandId) : (s.leaveWait id).cur = s.cur := by
  simp only [State.leaveWait]
  split <;> rfl

theorem State.leaveWait_strand (s : State) (id j : StrandId) : (s.leaveWait id).strand j = s.strand j := by
  simp only [State.leaveWait]
  split
  case h_1 => exact State.strand_modCore rfl j
  case h_2 => exact State.strand_modCore rfl j
  case h_3 => rfl

theorem State.park_cur (s : State) (id : StrandId) (o : Origin) (i : TrapInfo) (stopPc vpc : Word) (grp : Nat) :
    (s.park id o i stopPc vpc grp).cur = s.cur := by
  rw [← s.leaveWait_cur id]
  simp only [State.park]
  split <;> rfl

/-- Of the cores, parking a strand changes the strand alone, once that strand has left its wait. -/
theorem State.park_cores (s : State) (id : StrandId) (o : Origin) (i : TrapInfo) (stopPc vpc : Word) (grp : Nat) :
    ∃ p, (s.park id o i stopPc vpc grp).cores = ((s.leaveWait id).modStrand id fun t =>
        { t with run := .parked p, ahead := [], wait := none, stalled := false }).cores ∧
      p.info = i ∧ p.stopPc = stopPc := by
  simp only [State.park]
  split
  case isTrue => exact ⟨_, rfl, rfl, rfl⟩
  case isFalse => exact ⟨_, rfl, rfl, rfl⟩

theorem State.park_strand (s : State) (id : StrandId) (o : Origin) (i : TrapInfo) (stopPc vpc : Word) (grp : Nat) :
    ∃ p, (s.park id o i stopPc vpc grp).strand id =
        { s.strand id with run := .parked p, ahead := [], wait := none, stalled := false } ∧
      p.info = i ∧ p.stopPc = stopPc := by
  obtain ⟨p, hcores, hinfo, hpc⟩ := s.park_cores id o i stopPc vpc grp
  refine ⟨p, ?_, hinfo, hpc⟩
  rw [State.strand_of_cores hcores, State.strand_modStrand_same, s.leaveWait_strand]

/-- A trap of the current strand that enters the handler leaves its registers as `Strand.enterTrap` says. -/
theorem State.takeTrap_me_enters {s : State} (o : Origin) (i : TrapInfo) (epc vpc : Word) (grp : Nat)
    (hhs : s.me.hs = false) (htvec : s.me.tvec ≠ 0) :
    (s.takeTrap s.cur o i epc vpc grp).me = s.me.enterTrap o i epc vpc grp := by
  rw [State.takeTrap_enters o i epc vpc grp hhs htvec]
  calc ((s.leaveWait s.cur).modStrand s.cur fun t => t.enterTrap o i epc vpc grp).strand (s.leaveWait s.cur).cur
    _ = ((s.leaveWait s.cur).strand s.cur).enterTrap o i epc vpc grp := by
        rw [s.leaveWait_cur, State.strand_modStrand_same]
    _ = s.me.enterTrap o i epc vpc grp := by rw [s.leaveWait_strand]; rfl

/-- A trap of the current strand that enters no handler parks it with the trap's cause and value. -/
theorem State.takeTrap_me_parks {s : State} (o : Origin) (i : TrapInfo) (epc vpc : Word) (grp : Nat)
    (h : s.me.hs = true ∨ s.me.tvec = 0) :
    ∃ p, (s.takeTrap s.cur o i epc vpc grp).me =
        { s.me with run := .parked p, ahead := [], wait := none, stalled := false } ∧
      p.info = i ∧ p.stopPc = epc := by
  rw [State.takeTrap_parks o i epc vpc grp h, State.me, s.park_cur]
  exact s.park_strand s.cur o i epc vpc grp

/-! ## TRAP (R127) -/

@[simp] theorem State.begun_tvec (s : State) (h : Hdr) : (s.begun h).me.tvec = s.me.tvec := by
  obtain ⟨b, e⟩ := s.begun_me h
  rw [e]

/-- The trap point of a scalar unit (R67) is the same before and after its scheduling code acts. -/
theorem State.begun_scalarTrap (s : State) (h : Hdr) (i : TrapInfo) :
    (s.begun h).scalarTrap s.cur i = (s.begun h).takeTrap s.cur .scalar i s.me.pc s.me.vcp s.me.resumeGroup := by
  obtain ⟨b, e⟩ := s.begun_me h
  rw [State.me, State.begun_cur] at e
  simp only [State.scalarTrap, e]
  rfl

theorem exec_trap {h : Hdr} {s : State} (hr : Runs h s) (code : BitVec 16) :
    exec (.trap h code) s = .next ((s.begun h).takeTrap s.cur .scalar (trapInfo 0x20 (code.setWidth 64)) s.me.pc s.me.vcp
      s.me.resumeGroup) := by
  calc exec (.trap h code) s
    _ = finish (hdrWords h) (.trap (s.begun h) (trapInfo 0x20 (code.setWidth 64))) := runUnit_runs hr (hr.noErrS [])
    _ = .next ((s.begun h).scalarTrap s.cur (trapInfo 0x20 (code.setWidth 64))) := by rw [finish_trap, State.begun_cur]
    _ = _ := by rw [State.begun_scalarTrap]

end Sys2Proof.Machine

namespace Sys2Proof.Settled
open Sys2Proof.Machine

/-- Settles O28: TRAP is the trap of a scalar unit, which enters the handler or parks as R66 has it. -/
theorem trapTakes : Obligations.TrapTakes := by
  intro h code s hr
  have hexec := exec_trap hr code
  rw [← State.begun_hs s h, ← State.begun_tvec s h]
  refine ⟨hexec, fun hhs htvec => ⟨_, hexec, ?_⟩, fun hpark => ?_⟩
  case refine_1 =>
    rw [← State.begun_cur s h, State.takeTrap_me_enters _ _ _ _ _ hhs htvec]
    exact ⟨rfl, rfl, rfl, rfl⟩
  case refine_2 =>
    obtain ⟨p, hme, hinfo, hpc⟩ := State.takeTrap_me_parks .scalar (trapInfo 0x20 (code.setWidth 64)) s.me.pc s.me.vcp
      s.me.resumeGroup hpark
    rw [State.begun_cur] at hme
    exact ⟨_, p, hexec, by rw [hme], by rw [hinfo]; rfl, by rw [hinfo]; rfl, hpc⟩

end Sys2Proof.Settled
end
